-- ==== Sys2Proof/Word.lean ====
section
/-! DEFINITION. The word types of the K4 and their plainest arithmetic (00 R4, R8). -/
namespace Sys2Proof

/-- One byte of an addressable place. -/
abbrev Byte := BitVec 8
/-- A 16-bit value: a BF16 or FP16 encoding, a stage generation. -/
abbrev W16 := BitVec 16
/-- A 32-bit value: an instruction word, an FP32 encoding. -/
abbrev W32 := BitVec 32
/-- A 64-bit value: a scalar register, a CSR, a counter. -/
abbrev W64 := BitVec 64
/-- One 128-byte tile row (R54). -/
abbrev Row := BitVec 1024
/-- One 256-byte accumulator row, 64 FP32 values (R58). -/
abbrev AccRow := BitVec 2048
/-- A six-bit register field (R174). -/
abbrev Reg := BitVec 6

/-- The bits `[lo + len - 1 : lo]` of a word (R4). -/
def bits {n : Nat} (x : BitVec n) (lo len : Nat) : BitVec len := x.extractLsb' lo len

/-- A bit field as a number. -/
def bitsN {n : Nat} (x : BitVec n) (lo len : Nat) : Nat := (x.toNat >>> lo) % 2 ^ len

/-- Replace bits `[lo + len - 1 : lo]` of `x` by the low `len` bits of `v`. -/
def setBits {n : Nat} (x : BitVec n) (lo len : Nat) (v : Nat) : BitVec n :=
  let old := (x.toNat >>> lo) % 2 ^ len
  BitVec.ofNat n (x.toNat - old * 2 ^ lo + (v % 2 ^ len) * 2 ^ lo)

/-- Sign extension of an `n`-bit field to 64 bits. -/
def sext64 {n : Nat} (x : BitVec n) : W64 := x.signExtend 64

/-- Zero extension of an `n`-bit field to 64 bits. -/
def zext64 {n : Nat} (x : BitVec n) : W64 := x.setWidth 64

/-- One bit as a word. -/
def boolW (b : Bool) : W64 := if b then 1 else 0

/-- Ceiling division, with 0 for a zero divisor. -/
def ceilDiv (a b : Nat) : Nat := if b = 0 then 0 else (a + b - 1) / b

end Sys2Proof
end

