-- ==== Sys2Proof/Syntax.lean ====
section
/-! DEFINITION. The instructions of the K4 and the steps of its other agents, one constructor per row of the opcode table.
Instruction constructors carry the fields of their encoding (07 R171-R193); the rows that are steps of an engine, a
scheduler, the hub, the host or firmware carry what names the step: the core, the galley, the queue, the data written. -/
namespace Sys2Proof

/-- SCOPE codes (R173). -/
inductive Scope where | cor | clu | die | pkg | sys
deriving DecidableEq, Repr
/-- SIZE codes (R173). -/
inductive Size where | byte | half | word | double
deriving DecidableEq, Repr
/-- MODE codes as a rounding mode (R92, R173). -/
inductive Rnd where | rne | rz | rp | rm
deriving DecidableEq, Repr
/-- TYPE codes of vector and mover commands (R173). -/
inductive VTy where | fp32 | bf16 | fp16 | i8 | i32 | bp
deriving DecidableEq, Repr
/-- CVT type codes of `FCVT` (R173). -/
inductive CvtTy where | fp32 | bf16 | fp16 | i8 | i32 | i64
deriving DecidableEq, Repr
/-- Conditions of `BC` (R182). -/
inductive Cond where | eqz | nez | ltz | gez | gtz | lez
deriving DecidableEq, Repr
/-- Levels of the work hierarchy that `CANCEL` names (R2, R182). -/
inductive Level where | launch | graph | phase | job
deriving DecidableEq, Repr
/-- ORD codes of the atomics (R184). -/
inductive AtmOrd where | none | acq | rel | ar
deriving DecidableEq, Repr
/-- The galleys, in the order M, V, X, K (R12). -/
inductive Galley where | m | v | x | k
deriving DecidableEq, Repr

/-- A core's package-wide number (R9). -/
abbrev CoreId := Fin 256
/-- A context of a core: 0 the team context, 1-3 LC0-LC2 (R222). -/
abbrev CtxId := Fin 4
/-- A cluster's package-wide number (R9). -/
abbrev ClusterId := Fin 32
/-- A compute die (R1). -/
abbrev DieId := Fin 4
/-- A host-visible queue (R1). -/
abbrev QueueId := Fin 2048
/-- A PCIe function: 0 the PF, 1-16 the VFs (R367). -/
abbrev FuncId := Fin 17
/-- A galley slot (R19). -/
abbrev SlotId := Fin 64

/-- The stages of a group's sum that the matrix engine checks (R105); a product or an alignment is that of one term. -/
inductive ArithStage where | product (term : Nat) | align (term : Nat) | tree | adder | increment
deriving DecidableEq, Repr
/-- A fault of the matrix engine's arithmetic: the group, by its output row and column, the stage, and what the stage's value is wrong by. -/
structure GroupFault where
  row : Nat
  col : Nat
  stage : ArithStage
  delta : Int
deriving DecidableEq, Repr

/-- A long-wait field (R183). -/
structure LongWait where
  unit : Bool
  count : BitVec 24
deriving DecidableEq, Repr

/-- The fields of an atomic (R184, R238); `f` is the compare register of `CAS` and zero elsewhere. -/
structure AtmForm where
  d : Reg
  a : Reg
  b : Reg
  f : Reg
  dbl : Bool
  ord : AtmOrd
  scope : Scope
  off : BitVec 12
deriving DecidableEq, Repr

/-- The fields of `TOK` (R184, R245). -/
structure TokForm where
  wv : Bool
  wctr : BitVec 18
  a : Reg
  sv : Bool
  sctr : BitVec 18
  inc : BitVec 12
deriving DecidableEq, Repr

/-- The fields of a vector command (R185). -/
structure VForm where
  d : Reg
  a : Reg
  b : Reg
  hb : Bool
  ha : Bool
  mode : BitVec 2
  ty : VTy
  nrow : BitVec 6
  brow : BitVec 6
  arow : BitVec 6
  drow : BitVec 6
deriving DecidableEq, Repr

/-- The fields of `MMA` and `MMAZ`, format M (R187). -/
structure MmaForm where
  a : Reg
  b : Reg
  srcb : Bool
  srca : Bool
  tb : Bool
  ta : Bool
  cb : Bool
  ca : Bool
  pint : BitVec 4
  acc : BitVec 3
  alg : BitVec 3
  shape : BitVec 5
deriving DecidableEq, Repr

/-- The fields of a mover (R286); a 3-bit accumulator number stands in `d` or `a` with the upper bits zero. -/
structure MvForm where
  d : Reg
  a : Reg
  b : Reg
  pair : Bool
  mode : BitVec 2
  ty : VTy
  nrow : BitVec 6
  srow : BitVec 6
  drow : BitVec 6
deriving DecidableEq, Repr

/-- A DOE MAP request (R425): operation 0 map, 1 unmap, 2 change flags. -/
structure MapReq where
  job : BitVec 24
  op : BitVec 2
  va : BitVec 64
  len : BitVec 64
  pa : BitVec 52
  r : Bool
  w : Bool
  x : Bool
  u : Bool
  st : Bool
  pn : Bool
deriving DecidableEq, Repr

/-- A DOE CONFIG request (R425). -/
inductive ConfigReq where
  | band (die : DieId) (band : Fin 64) (entry : BitVec 64)
  | mkrt (cluster : ClusterId) (value : BitVec 64)
deriving DecidableEq, Repr

/-- The life-cycle states (R424, R426). -/
inductive LifeState where | blank | provisioned | deployed | returned | retired
deriving DecidableEq, Repr
/-- Whose signature on a LIFECYCLE token verified, if any (R424). -/
inductive Signer where | nobody | sahnex | owner
deriving DecidableEq, Repr
/-- What started a package reset (R53, R423). -/
inductive ResetCause where | cold | thermalTrip | operator | lifecycle
deriving DecidableEq, Repr
/-- The outcome of the images' verification at boot (R421, R422). -/
inductive ImageCheck where | accepted | rejected (step : Fin 8) (image : Fin 8)
deriving DecidableEq, Repr
/-- What a sector's decoder finds (R431). -/
inductive SectorResult where | clean | corrected | uncorrectable
deriving DecidableEq, Repr
/-- Coolant kinds of the board's report (R446). -/
inductive Coolant where | immersion | coldPlate | other
deriving DecidableEq, Repr

/-- One constructor per row of the opcode table. -/
inductive Instr where
  -- 08: integer
  | add (d a b : Reg)
  | sub (d a b : Reg)
  | mul (d a b : Reg)
  | mulh (d a b : Reg)
  | mulhu (d a b : Reg)
  | div (d a b : Reg)
  | divu (d a b : Reg)
  | rem (d a b : Reg)
  | remu (d a b : Reg)
  | and (d a b : Reg)
  | or (d a b : Reg)
  | xor (d a b : Reg)
  | shl (d a b : Reg)
  | shr (d a b : Reg)
  | sra (d a b : Reg)
  | rotl (d a b : Reg)
  | min (d a b : Reg)
  | minu (d a b : Reg)
  | max (d a b : Reg)
  | maxu (d a b : Reg)
  | slt (d a b : Reg)
  | sltu (d a b : Reg)
  | seq (d a b : Reg)
  | clz (d a : Reg)
  | ctz (d a : Reg)
  | popc (d a : Reg)
  | mov (d a : Reg)
  | sel (d a b c : Reg)
  -- 08: scalar floating point
  | fadd (m : Rnd) (d a b : Reg)
  | fsub (m : Rnd) (d a b : Reg)
  | fmul (m : Rnd) (d a b : Reg)
  | fdiv (m : Rnd) (d a b : Reg)
  | fsqrt (m : Rnd) (d a : Reg)
  | fmin (d a b : Reg)
  | fmax (d a b : Reg)
  | fcmp (d a b : Reg)
  | fcvt (m : Rnd) (src dst : CvtTy) (d a : Reg)
  | fclass (d a : Reg)
  | fma (m : Rnd) (d a b c : Reg)
  -- 08: immediates
  | addi (d a : Reg) (imm : BitVec 12)
  | andi (d a : Reg) (imm : BitVec 12)
  | ori (d a : Reg) (imm : BitVec 12)
  | xori (d a : Reg) (imm : BitVec 12)
  | shli (d a : Reg) (n : BitVec 6)
  | shri (d a : Reg) (n : BitVec 6)
  | srai (d a : Reg) (n : BitVec 6)
  | bfx (d a : Reg) (pos wm1 : BitVec 6)
  | bfi (d a : Reg) (pos wm1 : BitVec 6)
  | ldi (d : Reg) (imm : BitVec 32)
  | ldhi (d : Reg) (imm : BitVec 32)
  -- 08: branches, loops, control
  | b (off : BitVec 24)
  | bl (off : BitVec 24)
  | bc (c : Cond) (a : Reg) (off : BitVec 12)
  | ret (a : Reg)
  | nop
  | yield
  | halt
  | eret
  | wfe (d a : Reg)
  | lend (off : BitVec 12)
  | loop (a : Reg) (wbase : BitVec 5) (ring : BitVec 4)
  | trap (code : BitVec 12)
  | csrr (d : Reg) (n : BitVec 12)
  | csrw (a : Reg) (n : BitVec 12)
  | csrx (d a : Reg) (n : BitVec 12)
  | tlbInvPage (a : Reg)
  | tlbInvSpace
  | tlbInvCluster
  -- 09: memory
  | ldB (d a : Reg) (off : BitVec 12)
  | ldH (d a : Reg) (off : BitVec 12)
  | ldW (d a : Reg) (off : BitVec 12)
  | ldD (d a : Reg) (off : BitVec 12)
  | ldBU (d a : Reg) (off : BitVec 12)
  | ldHU (d a : Reg) (off : BitVec 12)
  | ldWU (d a : Reg) (off : BitVec 12)
  | pref (l2 : Bool) (a : Reg) (off : BitVec 12)
  | stB (s : Scope) (d a : Reg) (off : BitVec 9)
  | stH (s : Scope) (d a : Reg) (off : BitVec 9)
  | stW (s : Scope) (d a : Reg) (off : BitVec 9)
  | stD (s : Scope) (d a : Reg) (off : BitVec 9)
  | ldAcq (s : Scope) (z : Size) (d a : Reg) (off : BitVec 7)
  | stRel (s : Scope) (z : Size) (d a : Reg) (off : BitVec 7)
  | ldc (z : Size) (d : Reg) (off : BitVec 14)
  | stc (z : Size) (d : Reg) (off : BitVec 14)
  -- 09: synchronisation, single words
  | chSet (ctr : BitVec 18) (a : Reg)
  | chAdd (ctr : BitVec 18) (a : Reg)
  | stampClr
  | stampAbs (a : Reg) (quoin : BitVec 12)
  | stampOff (a : Reg) (quoin : BitVec 12)
  | cancel (l : Level) (a : Reg)
  | pwrRel
  | align (s : Scope)
  | fmt (a : Reg)
  -- 09: long forms
  | ldq (z : Size) (q : BitVec 3) (a b f : Reg)
  | popq (d : Reg) (q : BitVec 3) (lw : LongWait)
  | fence (mask : BitVec 4) (lw : LongWait)
  | fenceDone (mask : BitVec 4) (lw : LongWait)
  | atmAdd (m : AtmForm)
  | atmMin (m : AtmForm)
  | atmMax (m : AtmForm)
  | atmAnd (m : AtmForm)
  | atmOr (m : AtmForm)
  | atmXor (m : AtmForm)
  | atmXchg (m : AtmForm)
  | atmCas (m : AtmForm)
  | chWait (ctr : BitVec 18) (a : Reg) (lw : LongWait)
  | bar (ctr : BitVec 18) (a : Reg) (lw : LongWait)
  | dlv (d a b f : Reg) (lw : LongWait)
  | tok (t : TokForm)
  | pwrAcq (lvl : BitVec 4) (lw : LongWait)
  -- 10: vector
  | vadd (v : VForm)
  | vsub (v : VForm)
  | vmul (v : VForm)
  | vfma (v : VForm)
  | vmin (v : VForm)
  | vmax (v : VForm)
  | vabs (v : VForm)
  | vneg (v : VForm)
  | vand (v : VForm)
  | vor (v : VForm)
  | vxor (v : VForm)
  | vshl (v : VForm)
  | vshr (v : VForm)
  | viadd (v : VForm)
  | vimul (v : VForm)
  | vcmp (v : VForm)
  | vsel (v : VForm)
  | vshuf (v : VForm)
  | vbcast (v : VForm)
  | vmovs (v : VForm)
  | vred (v : VForm)
  | vexp2 (v : VForm)
  | vlog2 (v : VForm)
  | vrcp (v : VForm)
  | vrsq (v : VForm)
  | vcvt (v : VForm)
  | vqnt (v : VForm)
  | vdqnt (v : VForm)
  | vamul (v : VForm) (slot : BitVec 3)
  | vconj (v : VForm) (slot : BitVec 3)
  | vnorm (v : VForm) (slot : BitVec 3)
  | vld (v : VForm)
  | vst (v : VForm)
  -- 11: matrix
  | mma (m : MmaForm)
  | mmaz (m : MmaForm)
  | amov (d a : BitVec 3)
  | amovT (m : MvForm)
  | azero (d : BitVec 3)
  | ald (m : MvForm)
  | ast (m : MvForm)
  | tld (m : MvForm)
  | tst (m : MvForm)
  | lig (k : BitVec 3) (a : Reg) (c : BitVec 2)
  -- 11: copy
  | cpy (d a b : Reg)
  | cpy2d (d a b f : Reg)
  | cpy3d (d a b f : Reg) (dps sps : BitVec 16)
  | gath (ix64 : Bool) (d a b f : Reg)
  | scat (ix64 : Bool) (d a b f : Reg)
  | fill (d b f : Reg)
  | zero (d b : Reg)
  | stgRel (a b : Reg)
  -- 11: collective
  | agrp (a b : Reg)
  | mclr (a : Reg)
  | mcst (a b : Reg)
  -- 07: an encoding that is not an instruction
  | illegalEncoding (w : BitVec 32)
  -- steps of the engines
  | proofCheck (c : CoreId) (g : Galley) (flip : BitVec 32)
  | recordIssue (c : CoreId) (g : Galley)
  | errorPropagation (c : CoreId) (g : Galley)
  | markerRetire (c : CoreId) (g : Galley)
  | kStep (c : CoreId) (fault : Option GroupFault)
  | proofStep (c : CoreId)
  | rowStep (c : CoreId) (slot : SlotId)
  | copyUnitCommit (c : CoreId)
  | contribution (c : CoreId)
  | verdict (c : CoreId)
  | commandCompletion (c : CoreId) (g : Galley) (slot : SlotId)
  -- translation
  | streamTlbPrefetch (c : CoreId) (g : Galley)
  | walkStart (die : DieId)
  | walkComplete (die : DieId) (i : Nat)
  | walkDieTimeout (die : DieId) (i : Nat)
  -- access unit and write lane
  | loadReturn (c : CoreId) (x : CtxId) (i : Nat)
  | elementLoad (c : CoreId) (x : CtxId) (q : BitVec 3)
  | storeLeave (c : CoreId) (x : CtxId)
  | storeAck (c : CoreId) (x : CtxId) (i : Nat)
  | atomicPerform (c : CoreId) (x : CtxId)
  | writeBudgetWindow (c : CoreId)
  -- waits
  | chWaitSatisfied (c : CoreId) (x : CtxId)
  | barRelease (c : CoreId) (x : CtxId)
  | haltComplete (c : CoreId) (x : CtxId)
  | wfeWake (c : CoreId) (x : CtxId)
  | wfeTimeout (c : CoreId) (x : CtxId)
  | stall (c : CoreId) (x : CtxId)
  | trapEntry (c : CoreId) (x : CtxId)
  | folioArrival (c : CoreId)
  | folioStart (c : CoreId)
  -- resets of a core
  | controlCoreReset (c : CoreId)
  | replayStart (c : CoreId)
  | engineWatchdog (c : CoreId) (g : Galley)
  | cmpinjRequest (c : CoreId)
  | rollingScrub (die : DieId)
  | engineReset (c : CoreId) (g : Galley)
  | engineResetEnd (c : CoreId) (g : Galley)
  -- pre-emption and placement
  | preemptionRequest (c : CoreId)
  | lightDrainLimit (c : CoreId)
  | engineStop (c : CoreId) (g : Galley)
  | contextSave (c : CoreId)
  | saveComplete (c : CoreId)
  | teamPlacement (launch team : BitVec 24) (c : CoreId)
  | restoreComplete (c : CoreId)
  | sliceExpiry (c : CoreId)
  | budgetOverrun (c : CoreId)
  -- levels
  | levelCancel (die : DieId)
  | teamCancelled (launch team : BitVec 24)
  | launchSever (die : DieId) (launch : BitVec 24)
  | launchRelease (launch : BitVec 24)
  | scratchWindowReturn (cl : ClusterId) (launch : BitVec 24)
  -- current managers
  | issueGrant (cl : ClusterId)
  | spacerEnd (c : CoreId)
  | grantLateness (c : CoreId)
  | regionGrant (cl : ClusterId)
  | drawMeasure (cl : ClusterId)
  | overdraw (c : CoreId)
  -- collectives
  | agrpRegistration (c : CoreId)
  | roundJoin (c : CoreId)
  | roundTimeout (group : BitVec 10)
  | verdictTimeout (group : BitVec 10)
  -- queues
  | deviceDoorbell (q : QueueId)
  | periodicRecheck (q : QueueId)
  | dataEntryStart (die : DieId) (i : Nat)
  | barrierEntryStart (q : QueueId)
  | entryEnd (q : QueueId) (pos : BitVec 32)
  -- firmware services
  | shootdownInvalidate (cl : ClusterId)
  | bandTableWrite (die : DieId)
  | mkrtWrite (cl : ClusterId)
  | permitReturn (die : DieId) (link : Fin 12)
  | heartbeat (die : DieId)
  -- dies and the package
  | adoption (die : DieId)
  | adoptionMemoryTimeout (die : DieId)
  | queueRingTimeout (q : QueueId)
  | dieReturnTimeout (die : DieId)
  -- power
  | railSettled (cl : ClusterId)
  -- steps that the host, the board, the hardware below or a fault brings, and those of the package as a whole
  | objectLoad (job : BitVec 24) (image : List Byte) (text data const : BitVec 64)
  | objectUnload (job : BitVec 24) (i : Nat)
  | doorbell (q : QueueId) (v : BitVec 32)
  | resume (q : QueueId)
  | resumeSkip (q : QueueId)
  | cmdCancelLaunch (q : QueueId) (arg : BitVec 32)
  | cmdCancelLevel (q : QueueId) (l : Level) (arg : BitVec 32)
  | qaddrWrite (f : FuncId) (q : QueueId) (v : BitVec 64)
  | queueEnable (f : FuncId) (q : QueueId) (v : BitVec 64)
  | queueDisable (f : FuncId) (q : QueueId) (v : BitVec 64)
  | qcfgConfigure (f : FuncId) (q : QueueId) (v : BitVec 64)
  | evcfgWrite (f : FuncId) (v : BitVec 64)
  | evconsWrite (f : FuncId) (v : BitVec 64)
  | ackovf (f : FuncId)
  | registerWrite (f : FuncId) (off : BitVec 18) (size : Nat) (v : BitVec 64)
  | windowRead (f : FuncId) (off : BitVec 39) (size : Nat)
  | windowWrite (f : FuncId) (off : BitVec 39) (data : List Byte)
  | priResponse (i : Nat) (success : Bool)
  | colophon (nonce : BitVec 256)
  | map (r : MapReq)
  | lifecycle (target : LifeState) (signer : Signer) (nonce : BitVec 256)
  | config (r : ConfigReq)
  | dieReset (die : DieId)
  | dieReturn (die : DieId)
  | packageReset (cause : ResetCause) (images : ImageCheck)
  | patrol (sector : BitVec 47) (r : SectorResult)
  | linkDead (port : Fin 18)
  | linkRestore (port : Fin 18)
  | coolantReport (kind : Coolant) (inlet flow : BitVec 16)
  | sensorRound (temps : List (BitVec 16)) (powerMw : BitVec 32)
  | powerStateEntry (unit : Fin 33)
  | powerStateExit (unit : Fin 33)
  | l1Writeback (c : CoreId) (line : BitVec 52)
  | l2Writeback (line : BitVec 52)
  | engineAlarm (c : CoreId) (g : Galley) (protocol : Bool)
  | controlCoreAlarm (c : CoreId)
  | operatorRequest (c : CoreId)
  | descriptor
  | shootdownComplete
  | controlPoll
  | coolantReportLoss
  | airOverpower
  | emergencySaveDone
  | emergencyEnd
  | powerFail
deriving DecidableEq, Repr

end Sys2Proof
end

