-- ==== Sys2Proof/WellFormed.lean ====
section
/-! DEFINITION. Which instruction terms the encoding admits: every check that the words alone decide (07 R174-R192,
10 R257-R259, 11 R286-R292). Checks that need the machine's state stand with the meanings. -/
namespace Sys2Proof

/-- A tile code of R174: t0-t23 or a slot tw0-tw7. -/
def isTileCode (r : Reg) : Bool := r.toNat < 24 || (32 ≤ r.toNat && r.toNat < 40)
/-- An accumulator code of R174. -/
def isAccCode (r : Reg) : Bool := 48 ≤ r.toNat && r.toNat < 56
/-- A pair is named by its even register (R176). -/
def isEven (r : Reg) : Bool := r.toNat % 2 = 0
/-- A field that carries a 3-bit number has its upper three bits zero (R174). -/
def isThreeBit (r : Reg) : Bool := r.toNat < 8

/-- A long wait of COUNT 0 is refused (R183). -/
def LongWait.ok (w : LongWait) : Bool := w.count != 0

def VTy.isFloat : VTy → Bool
  | .fp32 | .bf16 | .fp16 => true
  | .i8 | .i32 | .bp => false
def VTy.isInt : VTy → Bool
  | .i8 | .i32 => true
  | .fp32 | .bf16 | .fp16 | .bp => false
def CvtTy.isInt : CvtTy → Bool
  | .i8 | .i32 | .i64 => true
  | .fp32 | .bf16 | .fp16 => false

/-- Lanes of a 128-byte row (R254). -/
def VTy.lanes : VTy → Nat
  | .fp32 | .i32 => 32
  | .bf16 | .fp16 => 64
  | .i8 | .bp => 128
/-- Lane width in bytes (R254); a BP element counts as one byte. -/
def VTy.width : VTy → Nat
  | .fp32 | .i32 => 4
  | .bf16 | .fp16 => 2
  | .i8 | .bp => 1

/-- The type a 3-bit TYPE code names (R173). -/
def VTy.ofCode? (c : BitVec 3) : Option VTy :=
  match c.toNat with
  | 0 => some .fp32 | 1 => some .bf16 | 2 => some .fp16 | 3 => some .i8 | 4 => some .i32 | 5 => some .bp
  | _ => none

/-- The row count NROW + 1 of a command. -/
def VForm.n (v : VForm) : Nat := v.nrow.toNat + 1
def MvForm.n (m : MvForm) : Nat := m.nrow.toNat + 1

/-- A tile operand of `count` rows from `row` stays inside the 64 rows (R185). -/
def rowsFit (row : BitVec 6) (count : Nat) : Bool := row.toNat + count ≤ 64

/-- How a vector function uses its b field (R186). -/
inductive BUse where
  | tile       -- a source tile, possibly an accumulator
  | scalar     -- a scalar register
  | none
  | scales     -- a tile of scale codes
deriving DecidableEq, Repr
/-- How a vector function uses MODE (R186). -/
inductive MUse where | rounding | any | zero | red
deriving DecidableEq, Repr

/-- What one VOP function admits (R186, R256, R261-R268). -/
structure VUse where
  float : Bool
  int : Bool
  b : BUse
  mode : MUse
  acc : Bool

/-- The a operand is a tile row, or an accumulator row where one is admitted; the accumulator takes no hold bit (R256, R275). -/
def VForm.aOk (v : VForm) (acc : Bool) : Bool :=
  isTileCode v.a || (acc && isAccCode v.a && !v.ha && v.ty.isFloat)

def VForm.bOk (v : VForm) (u : VUse) : Bool :=
  match u.b with
  | .tile => (isTileCode v.b || (u.acc && isAccCode v.b && !v.hb && v.ty.isFloat)) && rowsFit v.brow v.n
  | .scalar => v.brow == 0 && !v.hb
  | .none => v.b == 0 && v.brow == 0 && !v.hb
  | .scales => isTileCode v.b

def VForm.modeOk (v : VForm) : MUse → Bool
  | .rounding | .any => true
  | .zero => v.mode == 0
  | .red => v.mode != 3

/-- The checks of a function whose rows go one to one (R258, ratio 1). -/
def VForm.ok (v : VForm) (u : VUse) : Bool :=
  isTileCode v.d && v.aOk u.acc && v.bOk u && v.modeOk u.mode &&
  ((u.float && v.ty.isFloat) || (u.int && v.ty.isInt)) &&
  rowsFit v.drow v.n && rowsFit v.arow v.n

def useArith : VUse := ⟨true, false, .tile, .rounding, true⟩
def useMinMax : VUse := ⟨true, true, .tile, .zero, true⟩
def useUnary : VUse := ⟨true, true, .none, .zero, true⟩
def useLogic : VUse := ⟨true, true, .tile, .zero, false⟩
def useShift : VUse := ⟨false, true, .scalar, .zero, false⟩
def useInt2 : VUse := ⟨false, true, .tile, .zero, false⟩
def useCmp : VUse := ⟨true, true, .tile, .any, false⟩
def useBcast : VUse := ⟨true, true, .scalar, .zero, false⟩
def useRed : VUse := ⟨true, true, .none, .red, true⟩
def useApprox : VUse := ⟨true, false, .none, .rounding, true⟩
def useAmul : VUse := ⟨true, false, .tile, .rounding, true⟩
def useConj : VUse := ⟨true, false, .none, .zero, true⟩
def useNorm : VUse := ⟨true, false, .none, .rounding, true⟩

/-- Source rows that `n` steps read from AROW at the ratio `esrc`/`edst` (R258), or none where the widening count is no multiple. -/
def srcRows (esrc edst n : Nat) : Option Nat :=
  if edst ≤ esrc then
    (if n % (esrc / edst) = 0 then some (n / (esrc / edst)) else none)
  else some (n * (edst / esrc))

def VForm.vmovsOk (v : VForm) : Bool :=
  isTileCode v.d && v.b == 0 && v.brow == 0 && v.arow == 0 && !v.ha && !v.hb && v.mode == 0 &&
  (v.ty.isFloat || v.ty.isInt) && rowsFit v.drow v.n

/-- `VCVT` (R266): the source type stands in BROW[14:12]. -/
def VForm.vcvtOk (v : VForm) : Bool :=
  isTileCode v.d && v.b == 0 && !v.hb && v.brow.toNat < 8 && rowsFit v.drow v.n &&
  (match VTy.ofCode? (v.brow.setWidth 3) with
   | none => false
   | some src =>
     src != v.ty && src != .bp && v.ty != .bp &&
     (isTileCode v.a || (isAccCode v.a && !v.ha && src == .fp32)) &&
     (match srcRows (if isAccCode v.a then 64 else src.lanes) v.ty.lanes v.n with
      | some r => rowsFit v.arow r
      | none => false))

/-- `VQNT` (R267). -/
def VForm.vqntOk (v : VForm) : Bool :=
  isTileCode v.d && isTileCode v.b && !v.hb && v.mode == 0 && rowsFit v.drow v.n && rowsFit v.brow v.n &&
  (v.ty == .fp32 || v.ty == .bf16) &&
  (isTileCode v.a || (isAccCode v.a && !v.ha && v.ty == .fp32)) &&
  (match srcRows (if isAccCode v.a then 64 else v.ty.lanes) 128 v.n with
   | some r => rowsFit v.arow r
   | none => false)

/-- `VDQNT` (R268). -/
def VForm.vdqntOk (v : VForm) : Bool :=
  isTileCode v.d && isTileCode v.a && isTileCode v.b && v.ty.isFloat && rowsFit v.drow v.n &&
  (match srcRows 128 v.ty.lanes v.n with
   | some r => rowsFit v.arow r && rowsFit v.brow r
   | none => false)

/-- `VLD` and `VST` (R270). -/
def VForm.memOk (v : VForm) (store : Bool) : Bool :=
  isTileCode v.d && !v.ha && !v.hb && v.mode == 0 && v.ty == .fp32 && v.arow == 0 && rowsFit v.drow v.n &&
  (if store then v.brow.toNat < 5 else v.brow == 0)

/-- `MMA` and `MMAZ`: tile codes or even pairs (R187). -/
def MmaForm.ok (m : MmaForm) : Bool :=
  (if m.srca then isEven m.a else isTileCode m.a) && (if m.srcb then isEven m.b else isTileCode m.b)

def MvForm.isFloatTy (m : MvForm) : Bool := m.ty.isFloat
/-- `AMOV.t` (R287). -/
def MvForm.amovTOk (m : MvForm) : Bool :=
  isThreeBit m.d && isTileCode m.a && m.b == 0 && !m.pair && m.mode == 0 && m.ty.isFloat &&
  rowsFit m.drow m.n && rowsFit m.srow (if m.ty == .fp32 then 2 * m.n else m.n)
def MvForm.aldOk (m : MvForm) : Bool :=
  isThreeBit m.d && !m.pair && m.mode == 0 && m.ty == .fp32 && m.srow == 0 && rowsFit m.drow m.n
def MvForm.astOk (m : MvForm) : Bool :=
  isThreeBit m.d && !m.pair && m.ty.isFloat && m.drow == 0 && rowsFit m.srow m.n
/-- `TLD` (R287, R288): with a pair the container is plain or `.bp8`. -/
def MvForm.tldOk (m : MvForm) : Bool :=
  isTileCode m.d && m.ty == .fp32 && m.srow == 0 && rowsFit m.drow m.n &&
  (if m.pair then isEven m.a && m.b == 0 && m.mode.toNat < 2 else true)
def MvForm.tstOk (m : MvForm) : Bool :=
  isTileCode m.d && m.ty == .fp32 && m.mode == 0 && m.drow == 0 && rowsFit m.srow m.n &&
  (if m.pair then isEven m.a && m.b == 0 else true)

/-- `TOK` (R184, R245): fields of a token that is not given are reserved, and an increment is 1 to 4,095. -/
def TokForm.ok (t : TokForm) : Bool :=
  (t.wv || (t.wctr == 0 && t.a == 0)) && (if t.sv then t.inc != 0 else t.sctr == 0 && t.inc == 0)

/-- `FCVT` refuses equal types and two integer types (R181). -/
def cvtOk (src dst : CvtTy) : Bool := src != dst && !(src.isInt && dst.isInt)

/-- The byte count of a SIZE code (R173). -/
def Size.bytes : Size → Nat
  | .byte => 1 | .half => 2 | .word => 4 | .double => 8

/-- What the words of a fetched instruction must satisfy; a step of another agent has no words and is no fetched instruction. -/
def wellFormed : Instr → Bool
  | .fcvt _ src dst _ _ => cvtOk src dst
  | .loop _ wbase ring => ring.toNat != 0 && ring.toNat ≤ 8 && wbase.toNat + ring.toNat ≤ 24
  | .ldc z _ off | .stc z _ off => off.toNat % z.bytes == 0
  | .popq _ _ lw | .fence _ lw | .fenceDone _ lw | .chWait _ _ lw | .bar _ _ lw => lw.ok
  | .dlv d _ _ _ lw => isEven d && lw.ok
  | .pwrAcq lvl lw => lvl.toNat ≤ 8 && lw.ok
  | .tok t => t.ok
  | .atmAdd m | .atmMin m | .atmMax m | .atmAnd m | .atmOr m | .atmXor m | .atmXchg m => m.f == 0
  | .vadd v | .vsub v | .vmul v | .vfma v => v.ok useArith
  | .vmin v | .vmax v => v.ok useMinMax
  | .vabs v | .vneg v => v.ok useUnary
  | .vand v | .vor v | .vxor v => v.ok useLogic
  | .vshl v | .vshr v => v.ok useShift
  | .viadd v | .vimul v => v.ok useInt2
  | .vcmp v => v.ok useCmp
  | .vsel v | .vshuf v => v.ok useLogic
  | .vbcast v => v.ok useBcast
  | .vmovs v => v.vmovsOk
  | .vred v => v.ok useRed
  | .vexp2 v | .vlog2 v | .vrcp v | .vrsq v => v.ok useApprox
  | .vcvt v => v.vcvtOk
  | .vqnt v => v.vqntOk
  | .vdqnt v => v.vdqntOk
  | .vamul v _ => v.ok useAmul
  | .vconj v _ => v.ok useConj
  | .vnorm v _ => v.ok useNorm
  | .vld v => v.memOk false
  | .vst v => v.memOk true
  | .mma m | .mmaz m => m.ok
  | .amovT m => m.amovTOk
  | .ald m => m.aldOk
  | .ast m => m.astOk
  | .tld m => m.tldOk
  | .tst m => m.tstOk
  | .lig k _ _ => k != 0
  | .add _ _ _ | .sub _ _ _ | .mul _ _ _ | .mulh _ _ _ | .mulhu _ _ _ | .div _ _ _ | .divu _ _ _ | .rem _ _ _
  | .remu _ _ _ | .and _ _ _ | .or _ _ _ | .xor _ _ _ | .shl _ _ _ | .shr _ _ _ | .sra _ _ _ | .rotl _ _ _
  | .min _ _ _ | .minu _ _ _ | .max _ _ _ | .maxu _ _ _ | .slt _ _ _ | .sltu _ _ _ | .seq _ _ _ | .clz _ _ | .ctz _ _
  | .popc _ _ | .mov _ _ | .sel _ _ _ _ | .fadd _ _ _ _ | .fsub _ _ _ _ | .fmul _ _ _ _ | .fdiv _ _ _ _
  | .fsqrt _ _ _ | .fmin _ _ _ | .fmax _ _ _ | .fcmp _ _ _ | .fclass _ _ | .fma _ _ _ _ _ | .addi _ _ _ | .andi _ _ _
  | .ori _ _ _ | .xori _ _ _ | .shli _ _ _ | .shri _ _ _ | .srai _ _ _ | .bfx _ _ _ _ | .bfi _ _ _ _ | .ldi _ _
  | .ldhi _ _ | .b _ | .bl _ | .bc _ _ _ | .ret _ | .nop | .yield | .halt | .eret | .wfe _ _ | .lend _ | .trap _
  | .csrr _ _ | .csrw _ _ | .csrx _ _ _ | .tlbInvPage _ | .tlbInvSpace | .tlbInvCluster | .ldB _ _ _ | .ldH _ _ _
  | .ldW _ _ _ | .ldD _ _ _ | .ldBU _ _ _ | .ldHU _ _ _ | .ldWU _ _ _ | .pref _ _ _ | .stB _ _ _ _ | .stH _ _ _ _
  | .stW _ _ _ _ | .stD _ _ _ _ | .ldAcq _ _ _ _ _ | .stRel _ _ _ _ _ | .chSet _ _ | .chAdd _ _ | .stampClr
  | .stampAbs _ _ | .stampOff _ _ | .cancel _ _ | .pwrRel | .align _ | .fmt _ | .ldq _ _ _ _ _ | .atmCas _
  | .amov _ _ | .azero _ | .cpy _ _ _ | .cpy2d _ _ _ _ | .cpy3d _ _ _ _ _ _ | .gath _ _ _ _ _ | .scat _ _ _ _ _
  | .fill _ _ _ | .zero _ _ | .stgRel _ _ | .agrp _ _ | .mclr _ | .mcst _ _ => true
  | .illegalEncoding _ | .proofCheck _ _ _ | .recordIssue _ _ | .errorPropagation _ _ | .markerRetire _ _
  | .kStep _ _ | .proofStep _ | .rowStep _ _ | .copyUnitCommit _ | .contribution _ | .verdict _
  | .commandCompletion _ _ _ | .streamTlbPrefetch _ _ | .walkStart _ | .walkComplete _ _ | .walkDieTimeout _ _
  | .loadReturn _ _ _ | .elementLoad _ _ _ | .storeLeave _ _ | .storeAck _ _ _ | .atomicPerform _ _
  | .writeBudgetWindow _ | .l1Writeback _ _ | .chWaitSatisfied _ _ | .barRelease _ _ | .haltComplete _ _
  | .wfeWake _ _ | .wfeTimeout _ _ | .stall _ _ | .trapEntry _ _ | .folioArrival _ | .folioStart _
  | .controlCoreReset _ | .replayStart _ | .engineWatchdog _ _ | .engineAlarm _ _ _ | .controlCoreAlarm _
  | .operatorRequest _ | .cmpinjRequest _ | .rollingScrub _ | .engineReset _ _ | .engineResetEnd _ _
  | .preemptionRequest _ | .lightDrainLimit _ | .engineStop _ _ | .contextSave _ | .saveComplete _
  | .teamPlacement _ _ _ | .restoreComplete _ | .sliceExpiry _ | .budgetOverrun _ | .levelCancel _
  | .teamCancelled _ _ | .launchSever _ _ | .launchRelease _ | .scratchWindowReturn _ _ | .issueGrant _
  | .spacerEnd _ | .grantLateness _ | .regionGrant _ | .drawMeasure _ | .overdraw _ | .agrpRegistration _
  | .roundJoin _ | .roundTimeout _ | .verdictTimeout _ | .objectLoad _ _ _ _ _ | .objectUnload _ _ | .doorbell _ _
  | .deviceDoorbell _ | .periodicRecheck _ | .dataEntryStart _ _ | .barrierEntryStart _ | .entryEnd _ _ | .resume _
  | .resumeSkip _ | .cmdCancelLaunch _ _ | .cmdCancelLevel _ _ _ | .qaddrWrite _ _ _ | .queueEnable _ _ _
  | .queueDisable _ _ _ | .qcfgConfigure _ _ _ | .evcfgWrite _ _ | .evconsWrite _ _ | .ackovf _
  | .registerWrite _ _ _ _ | .windowRead _ _ _ | .windowWrite _ _ _ | .priResponse _ _ | .descriptor | .colophon _
  | .map _ | .shootdownInvalidate _ | .shootdownComplete | .lifecycle _ _ _ | .config _ | .bandTableWrite _
  | .mkrtWrite _ | .permitReturn _ _ | .heartbeat _ | .adoption _ | .adoptionMemoryTimeout _ | .queueRingTimeout _
  | .dieReset _ | .dieReturn _ | .dieReturnTimeout _ | .packageReset _ _ | .patrol _ _ | .controlPoll | .linkDead _
  | .linkRestore _ | .coolantReport _ _ _ | .coolantReportLoss | .sensorRound _ _ | .railSettled _
  | .powerStateEntry _ | .powerStateExit _ | .airOverpower | .emergencySaveDone | .emergencyEnd | .powerFail
  | .l2Writeback _ => false

end Sys2Proof
end

