-- ==== Sys2Proof/Decode.lean ====
section
/-! DEFINITION. Instruction words to instructions and back (07 R171-R193). `decode` is total on any two words and rejects by
name; `encode` writes the words of an instruction from the same tables. A reserved bit that is not zero shows as a
difference between the words read and the words of the instruction they would name. -/
namespace Sys2Proof

/-- Why words are no instruction (R192). -/
inductive DecodeError where
  /-- primary 0x00 or 0xFF, never assigned -/
  | neverAssigned
  /-- a primary marked as unassigned in R178 -/
  | unassignedPrimary
  /-- a function code marked as unassigned in its group -/
  | unassignedFunction
  /-- a reserved value in a defined field -/
  | reservedValue
  /-- a reserved field or bit that is not zero -/
  | reservedField
  /-- a field value or a combination of fields that the format chapter refuses -/
  | illFormed
  /-- fewer bytes than the instruction has -/
  | truncated
deriving DecidableEq, Repr

/-! Codes of the fields (R173). -/
def Scope.code : Scope → BitVec 3
  | .cor => 0 | .clu => 1 | .die => 2 | .pkg => 3 | .sys => 4
def Scope.ofCode (c : BitVec 3) : Option Scope :=
  match c.toNat with
  | 0 => some .cor | 1 => some .clu | 2 => some .die | 3 => some .pkg | 4 => some .sys
  | _ => none
def Size.code : Size → BitVec 2
  | .byte => 0 | .half => 1 | .word => 2 | .double => 3
def Size.ofCode (c : BitVec 2) : Size :=
  match c.toNat with
  | 0 => .byte | 1 => .half | 2 => .word
  | _ => .double
def Rnd.code : Rnd → BitVec 2
  | .rne => 0 | .rz => 1 | .rp => 2 | .rm => 3
def Rnd.ofCode (c : BitVec 2) : Rnd :=
  match c.toNat with
  | 0 => .rne | 1 => .rz | 2 => .rp
  | _ => .rm
def VTy.code : VTy → BitVec 3
  | .fp32 => 0 | .bf16 => 1 | .fp16 => 2 | .i8 => 3 | .i32 => 4 | .bp => 5
def CvtTy.code : CvtTy → BitVec 3
  | .fp32 => 0 | .bf16 => 1 | .fp16 => 2 | .i8 => 3 | .i32 => 4 | .i64 => 5
def CvtTy.ofCode (c : BitVec 3) : Option CvtTy :=
  match c.toNat with
  | 0 => some .fp32 | 1 => some .bf16 | 2 => some .fp16 | 3 => some .i8 | 4 => some .i32 | 5 => some .i64
  | _ => none
def Cond.code : Cond → BitVec 3
  | .eqz => 0 | .nez => 1 | .ltz => 2 | .gez => 3 | .gtz => 4 | .lez => 5
def Cond.ofCode (c : BitVec 3) : Option Cond :=
  match c.toNat with
  | 0 => some .eqz | 1 => some .nez | 2 => some .ltz | 3 => some .gez | 4 => some .gtz | 5 => some .lez
  | _ => none
def Level.code : Level → BitVec 2
  | .launch => 0 | .graph => 1 | .phase => 2 | .job => 3
def Level.ofCode (c : BitVec 2) : Level :=
  match c.toNat with
  | 0 => .launch | 1 => .graph | 2 => .phase
  | _ => .job
def AtmOrd.code : AtmOrd → BitVec 2
  | .none => 0 | .acq => 1 | .rel => 2 | .ar => 3
def AtmOrd.ofCode (c : BitVec 2) : AtmOrd :=
  match c.toNat with
  | 0 => .none | 1 => .acq | 2 => .rel
  | _ => .ar

/-! Layouts of a first word (R172). -/
def packD (f b a d : Reg) (op : BitVec 8) : W32 := f ++ b ++ a ++ d ++ op
def packI (imm : BitVec 12) (a d : Reg) (op : BitVec 8) : W32 := imm ++ a ++ d ++ op
def packIS (s : BitVec 3) (off : BitVec 9) (a d : Reg) (op : BitVec 8) : W32 := s ++ off ++ a ++ d ++ op
def packIA (s : BitVec 3) (z : BitVec 2) (off : BitVec 7) (a d : Reg) (op : BitVec 8) : W32 :=
  s ++ z ++ off ++ a ++ d ++ op
def packIC (off : BitVec 14) (z : BitVec 2) (d : Reg) (op : BitVec 8) : W32 := (0 : BitVec 2) ++ off ++ z ++ d ++ op
def packH (ctr : BitVec 18) (a : Reg) (op : BitVec 8) : W32 :=
  ctr.extractLsb' 12 6 ++ ctr.extractLsb' 6 6 ++ a ++ ctr.extractLsb' 0 6 ++ op
def packJ (off : BitVec 24) (op : BitVec 8) : W32 := off ++ op

/-! Fields of a first word (R172). -/
def fOf (w : W32) : Reg := w.extractLsb' 26 6
def bOf (w : W32) : Reg := w.extractLsb' 20 6
def aOf (w : W32) : Reg := w.extractLsb' 14 6
def dOf (w : W32) : Reg := w.extractLsb' 8 6
def opOf (w : W32) : BitVec 8 := w.extractLsb' 0 8
def immOf (w : W32) : BitVec 12 := w.extractLsb' 20 12
def ctrOf (w : W32) : BitVec 18 := w.extractLsb' 26 6 ++ w.extractLsb' 20 6 ++ w.extractLsb' 8 6
def three (r : Reg) : BitVec 3 := r.extractLsb' 0 3
def six (r : BitVec 3) : Reg := (0 : BitVec 3) ++ r

/-! Second words (R183-R187, R286, R292, R299). -/
def packLW (w : LongWait) : W32 := (0 : BitVec 7) ++ BitVec.ofBool w.unit ++ w.count
def lwOf (w : W32) : LongWait := ⟨w.getLsbD 24, w.extractLsb' 0 24⟩
def packAtm (op : BitVec 3) (m : AtmForm) : W32 :=
  m.off ++ (0 : BitVec 11) ++ BitVec.ofBool m.dbl ++ m.scope.code ++ m.ord.code ++ op
def packTok (t : TokForm) : W32 := BitVec.ofBool t.sv ++ BitVec.ofBool t.wv ++ t.inc ++ t.sctr
def packV (v : VForm) : W32 :=
  (0 : BitVec 1) ++ BitVec.ofBool v.hb ++ BitVec.ofBool v.ha ++ v.mode ++ v.ty.code ++ v.nrow ++ v.brow ++ v.arow ++ v.drow
def packM (m : MmaForm) : W32 :=
  (0 : BitVec 11) ++ BitVec.ofBool m.srcb ++ BitVec.ofBool m.srca ++ BitVec.ofBool m.tb ++ BitVec.ofBool m.ta ++
    BitVec.ofBool m.cb ++ BitVec.ofBool m.ca ++ m.pint ++ m.acc ++ m.alg ++ m.shape
def packMv (m : MvForm) : W32 :=
  (0 : BitVec 2) ++ BitVec.ofBool m.pair ++ m.mode ++ m.ty.code ++ m.nrow ++ m.srow ++ (0 : BitVec 6) ++ m.drow

def vFormOf (w0 w1 : W32) : Option VForm :=
  match VTy.ofCode? (w1.extractLsb' 24 3) with
  | some ty => some ⟨dOf w0, aOf w0, bOf w0, w1.getLsbD 30, w1.getLsbD 29, w1.extractLsb' 27 2, ty, w1.extractLsb' 18 6,
      w1.extractLsb' 12 6, w1.extractLsb' 6 6, w1.extractLsb' 0 6⟩
  | none => none
def mmaFormOf (w0 w1 : W32) : MmaForm :=
  ⟨aOf w0, bOf w0, w1.getLsbD 20, w1.getLsbD 19, w1.getLsbD 18, w1.getLsbD 17, w1.getLsbD 16, w1.getLsbD 15,
   w1.extractLsb' 11 4, w1.extractLsb' 8 3, w1.extractLsb' 5 3, w1.extractLsb' 0 5⟩
def mvFormOf (w0 w1 : W32) : Option MvForm :=
  match VTy.ofCode? (w1.extractLsb' 24 3) with
  | some ty => some ⟨dOf w0, aOf w0, bOf w0, w1.getLsbD 29, w1.extractLsb' 27 2, ty, w1.extractLsb' 18 6,
      w1.extractLsb' 12 6, w1.extractLsb' 0 6⟩
  | none => none
def atmFormOf (w0 w1 : W32) : Option AtmForm :=
  match Scope.ofCode (w1.extractLsb' 5 3) with
  | some s => some ⟨dOf w0, aOf w0, bOf w0, fOf w0, w1.getLsbD 8, AtmOrd.ofCode (w1.extractLsb' 3 2), s, w1.extractLsb' 20 12⟩
  | none => none
def tokFormOf (w0 w1 : W32) : TokForm :=
  ⟨w1.getLsbD 30, ctrOf w0, aOf w0, w1.getLsbD 31, w1.extractLsb' 0 18, w1.extractLsb' 18 12⟩

/-- The INT group (R180). -/
def decodeInt (f d a b : Reg) : Except DecodeError Instr :=
  match f.toNat with
  | 0x00 => .ok (.add d a b) | 0x01 => .ok (.sub d a b) | 0x02 => .ok (.mul d a b) | 0x03 => .ok (.mulh d a b)
  | 0x04 => .ok (.mulhu d a b) | 0x05 => .ok (.div d a b) | 0x06 => .ok (.divu d a b) | 0x07 => .ok (.rem d a b)
  | 0x08 => .ok (.remu d a b) | 0x09 => .ok (.and d a b) | 0x0A => .ok (.or d a b) | 0x0B => .ok (.xor d a b)
  | 0x0C => .ok (.shl d a b) | 0x0D => .ok (.shr d a b) | 0x0E => .ok (.sra d a b) | 0x0F => .ok (.rotl d a b)
  | 0x10 => .ok (.min d a b) | 0x11 => .ok (.minu d a b) | 0x12 => .ok (.max d a b) | 0x13 => .ok (.maxu d a b)
  | 0x14 => .ok (.slt d a b) | 0x15 => .ok (.sltu d a b) | 0x16 => .ok (.seq d a b) | 0x17 => .ok (.clz d a)
  | 0x18 => .ok (.ctz d a) | 0x19 => .ok (.popc d a) | 0x1A => .ok (.mov d a)
  | _ => .error .unassignedFunction

/-- The FLT group (R181): f[3:0] the function, f[5:4] MODE. -/
def decodeFlt (f d a b : Reg) : Except DecodeError Instr :=
  let m := Rnd.ofCode (f.extractLsb' 4 2)
  match (f.extractLsb' 0 4).toNat with
  | 0x0 => .ok (.fadd m d a b) | 0x1 => .ok (.fsub m d a b) | 0x2 => .ok (.fmul m d a b) | 0x3 => .ok (.fdiv m d a b)
  | 0x4 => .ok (.fsqrt m d a) | 0x5 => .ok (.fmin d a b) | 0x6 => .ok (.fmax d a b) | 0x7 => .ok (.fcmp d a b)
  | 0x8 =>
    match CvtTy.ofCode (b.extractLsb' 3 3), CvtTy.ofCode (b.extractLsb' 0 3) with
    | some s, some t => .ok (.fcvt m s t d a)
    | _, _ => .error .reservedValue
  | 0x9 => .ok (.fclass d a)
  | _ => .error .unassignedFunction

/-- The CTL group (R180). -/
def decodeCtl (f d a : Reg) : Except DecodeError Instr :=
  match f.toNat with
  | 0x00 => .ok .nop | 0x01 => .ok (.ret a) | 0x02 => .ok .yield | 0x03 => .ok .halt | 0x04 => .ok .eret
  | 0x05 => .ok (.wfe d a)
  | _ => .error .unassignedFunction

/-- The ATM group (R184). -/
def decodeAtm (w0 w1 : W32) : Except DecodeError Instr :=
  match atmFormOf w0 w1 with
  | none => .error .reservedValue
  | some m =>
    match (w1.extractLsb' 0 3).toNat with
    | 0 => .ok (.atmAdd m) | 1 => .ok (.atmMin m) | 2 => .ok (.atmMax m) | 3 => .ok (.atmAnd m)
    | 4 => .ok (.atmOr m) | 5 => .ok (.atmXor m) | 6 => .ok (.atmXchg m)
    | _ => .ok (.atmCas m)

/-- The VOP group (R186). -/
def decodeVop (w0 w1 : W32) : Except DecodeError Instr :=
  match vFormOf w0 w1 with
  | none => .error .reservedValue
  | some v =>
    match (fOf w0).toNat with
    | 0x00 => .ok (.vadd v) | 0x01 => .ok (.vsub v) | 0x02 => .ok (.vmul v) | 0x03 => .ok (.vfma v)
    | 0x04 => .ok (.vmin v) | 0x05 => .ok (.vmax v) | 0x06 => .ok (.vabs v) | 0x07 => .ok (.vneg v)
    | 0x08 => .ok (.vand v) | 0x09 => .ok (.vor v) | 0x0A => .ok (.vxor v) | 0x0B => .ok (.vshl v)
    | 0x0C => .ok (.vshr v) | 0x0D => .ok (.viadd v) | 0x0E => .ok (.vimul v) | 0x0F => .ok (.vcmp v)
    | 0x10 => .ok (.vsel v) | 0x11 => .ok (.vshuf v) | 0x12 => .ok (.vbcast v) | 0x13 => .ok (.vmovs v)
    | 0x14 => .ok (.vred v) | 0x15 => .ok (.vexp2 v) | 0x16 => .ok (.vlog2 v) | 0x17 => .ok (.vrcp v)
    | 0x18 => .ok (.vrsq v) | 0x19 => .ok (.vcvt v) | 0x1A => .ok (.vqnt v) | 0x1B => .ok (.vdqnt v)
    | _ => .error .unassignedFunction

/-- The VALG group (R186): f[2:0] the function, f[5:3] the slot. -/
def decodeValg (w0 w1 : W32) : Except DecodeError Instr :=
  match vFormOf w0 w1 with
  | none => .error .reservedValue
  | some v =>
    match ((fOf w0).extractLsb' 0 3).toNat with
    | 0 => .ok (.vamul v ((fOf w0).extractLsb' 3 3))
    | 1 => .ok (.vconj v ((fOf w0).extractLsb' 3 3))
    | 2 => .ok (.vnorm v ((fOf w0).extractLsb' 3 3))
    | _ => .error .unassignedFunction

/-- A V-galley row load or store, and the movers, when their TYPE is defined. -/
def withV (w0 w1 : W32) (k : VForm → Instr) : Except DecodeError Instr :=
  match vFormOf w0 w1 with
  | some v => .ok (k v)
  | none => .error .reservedValue
def withMv (w0 w1 : W32) (k : MvForm → Instr) : Except DecodeError Instr :=
  match mvFormOf w0 w1 with
  | some m => .ok (k m)
  | none => .error .reservedValue

/-- A plain store of layout IS. -/
def withScope (c : BitVec 3) (k : Scope → Instr) : Except DecodeError Instr :=
  match Scope.ofCode c with
  | some s => .ok (k s)
  | none => .error .reservedValue

/-- The primary opcode map (R178): which instruction the fields name, reserved bits not yet looked at. -/
def decodeFields (w0 w1 : W32) : Except DecodeError Instr :=
  let f := fOf w0
  let b := bOf w0
  let a := aOf w0
  let d := dOf w0
  let imm := immOf w0
  match (opOf w0).toNat with
  | 0x00 | 0xFF => .error .neverAssigned
  | 0x01 => decodeInt f d a b
  | 0x02 => .ok (.sel d a b f)
  | 0x03 => decodeFlt f d a b
  | 0x04 => .ok (.addi d a imm) | 0x05 => .ok (.andi d a imm) | 0x06 => .ok (.ori d a imm) | 0x07 => .ok (.xori d a imm)
  | 0x08 => .ok (.shli d a b) | 0x09 => .ok (.shri d a b) | 0x0A => .ok (.srai d a b)
  | 0x0B => .ok (.bfx d a b f) | 0x0C => .ok (.bfi d a b f)
  | 0x10 => .ok (.b (w0.extractLsb' 8 24)) | 0x11 => .ok (.bl (w0.extractLsb' 8 24))
  | 0x12 =>
    match Cond.ofCode (three d) with
    | some c => .ok (.bc c a imm)
    | none => .error .reservedValue
  | 0x13 => decodeCtl f d a
  | 0x14 => .ok (.lend imm) | 0x15 => .ok (.trap imm)
  | 0x20 => .ok (.csrr d imm) | 0x21 => .ok (.csrw a imm) | 0x22 => .ok (.csrx d a imm)
  | 0x23 =>
    match f.toNat with
    | 0 => .ok (.tlbInvPage a) | 1 => .ok .tlbInvSpace | 2 => .ok .tlbInvCluster
    | _ => .error .reservedValue
  | 0x30 => .ok (.ldB d a imm) | 0x31 => .ok (.ldH d a imm) | 0x32 => .ok (.ldW d a imm) | 0x33 => .ok (.ldD d a imm)
  | 0x34 => .ok (.ldBU d a imm) | 0x35 => .ok (.ldHU d a imm) | 0x36 => .ok (.ldWU d a imm)
  | 0x37 => .ok (.pref (d.getLsbD 0) a imm)
  | 0x38 => withScope (w0.extractLsb' 29 3) fun s => .stB s d a (w0.extractLsb' 20 9)
  | 0x39 => withScope (w0.extractLsb' 29 3) fun s => .stH s d a (w0.extractLsb' 20 9)
  | 0x3A => withScope (w0.extractLsb' 29 3) fun s => .stW s d a (w0.extractLsb' 20 9)
  | 0x3B => withScope (w0.extractLsb' 29 3) fun s => .stD s d a (w0.extractLsb' 20 9)
  | 0x3C => withScope (w0.extractLsb' 29 3) fun s => .ldAcq s (Size.ofCode (w0.extractLsb' 27 2)) d a (w0.extractLsb' 20 7)
  | 0x3D => withScope (w0.extractLsb' 29 3) fun s => .stRel s (Size.ofCode (w0.extractLsb' 27 2)) d a (w0.extractLsb' 20 7)
  | 0x3E => .ok (.ldc (Size.ofCode (w0.extractLsb' 14 2)) d (w0.extractLsb' 16 14))
  | 0x3F => .ok (.stc (Size.ofCode (w0.extractLsb' 14 2)) d (w0.extractLsb' 16 14))
  | 0x40 => .ok (.chSet (ctrOf w0) a) | 0x41 => .ok (.chAdd (ctrOf w0) a)
  | 0x42 =>
    match (d.extractLsb' 0 2).toNat with
    | 0 => .ok .stampClr | 1 => .ok (.stampAbs a imm) | 2 => .ok (.stampOff a imm)
    | _ => .error .reservedValue
  | 0x43 => .ok (.cancel (Level.ofCode (d.extractLsb' 0 2)) a)
  | 0x44 => .ok .pwrRel
  | 0x45 => withScope (three d) fun s => .align s
  | 0x46 => .ok (.fmt a)
  | 0xC0 => .ok (.ldi d w1) | 0xC1 => .ok (.ldhi d w1)
  | 0xC2 => .ok (.fma (Rnd.ofCode (w1.extractLsb' 0 2)) d a b f)
  | 0xC3 => .ok (.loop a (w1.extractLsb' 0 5) (w1.extractLsb' 5 4))
  | 0xC8 => .ok (.ldq (Size.ofCode (w1.extractLsb' 0 2)) (three d) a b f)
  | 0xC9 => .ok (.popq d (three a) (lwOf w1))
  | 0xCA => .ok (.fence (d.extractLsb' 0 4) (lwOf w1)) | 0xCB => .ok (.fenceDone (d.extractLsb' 0 4) (lwOf w1))
  | 0xD0 => decodeAtm w0 w1
  | 0xD8 => .ok (.chWait (ctrOf w0) a (lwOf w1)) | 0xD9 => .ok (.bar (ctrOf w0) a (lwOf w1))
  | 0xDA => .ok (.dlv d a b f (lwOf w1))
  | 0xDB => .ok (.tok (tokFormOf w0 w1))
  | 0xDC => .ok (.pwrAcq (d.extractLsb' 0 4) (lwOf w1))
  | 0xE0 => decodeVop w0 w1
  | 0xE1 => decodeValg w0 w1
  | 0xE2 => withV w0 w1 .vld | 0xE3 => withV w0 w1 .vst
  | 0xE8 => .ok (.cpy d a b) | 0xE9 => .ok (.cpy2d d a b f)
  | 0xEA => .ok (.cpy3d d a b f (w1.extractLsb' 16 16) (w1.extractLsb' 0 16))
  | 0xEB => .ok (.gath (w1.getLsbD 0) d a b f) | 0xEC => .ok (.scat (w1.getLsbD 0) d a b f)
  | 0xED => .ok (.fill d b f) | 0xEE => .ok (.zero d b) | 0xEF => .ok (.stgRel a b)
  | 0xF0 => .ok (.mma (mmaFormOf w0 w1)) | 0xF1 => .ok (.mmaz (mmaFormOf w0 w1))
  | 0xF2 =>
    match f.toNat with
    | 0 => .ok (.amov (three d) (three a))
    | 1 => withMv w0 w1 .amovT
    | _ => .error .unassignedFunction
  | 0xF3 => .ok (.azero (three d))
  | 0xF4 => withMv w0 w1 .ald | 0xF5 => withMv w0 w1 .ast | 0xF6 => withMv w0 w1 .tld | 0xF7 => withMv w0 w1 .tst
  | 0xF8 => .ok (.lig (three d) a (w1.extractLsb' 0 2))
  | 0xFA => .ok (.agrp a b) | 0xFB => .ok (.mclr a) | 0xFC => .ok (.mcst a b)
  | _ => .error .unassignedPrimary

/-! The encoder, from the same tables. -/
def encInt (f : Reg) (d a b : Reg) : List W32 := [packD f b a d 0x01]
def encFlt (fn : BitVec 4) (m : Rnd) (d a b : Reg) : List W32 := [packD (m.code ++ fn) b a d 0x03]
def encLoad (op : BitVec 8) (d a : Reg) (off : BitVec 12) : List W32 := [packI off a d op]
def encStore (op : BitVec 8) (s : Scope) (d a : Reg) (off : BitVec 9) : List W32 := [packIS s.code off a d op]
def encAtm (op : BitVec 3) (m : AtmForm) : List W32 := [packD m.f m.b m.a m.d 0xD0, packAtm op m]
def encV (f : Reg) (op : BitVec 8) (v : VForm) : List W32 := [packD f v.b v.a v.d op, packV v]
def encMma (op : BitVec 8) (m : MmaForm) : List W32 := [packD 0 m.b m.a 0 op, packM m]
def encMv (f : Reg) (op : BitVec 8) (m : MvForm) : List W32 := [packD f m.b m.a m.d op, packMv m]
def encLong (f b a d : Reg) (op : BitVec 8) (w1 : W32) : List W32 := [packD f b a d op, w1]

/-- The words of an instruction; a step of another agent has none. -/
def encode : Instr → List W32
  | .add d a b => encInt 0x00 d a b | .sub d a b => encInt 0x01 d a b | .mul d a b => encInt 0x02 d a b
  | .mulh d a b => encInt 0x03 d a b | .mulhu d a b => encInt 0x04 d a b | .div d a b => encInt 0x05 d a b
  | .divu d a b => encInt 0x06 d a b | .rem d a b => encInt 0x07 d a b | .remu d a b => encInt 0x08 d a b
  | .and d a b => encInt 0x09 d a b | .or d a b => encInt 0x0A d a b | .xor d a b => encInt 0x0B d a b
  | .shl d a b => encInt 0x0C d a b | .shr d a b => encInt 0x0D d a b | .sra d a b => encInt 0x0E d a b
  | .rotl d a b => encInt 0x0F d a b | .min d a b => encInt 0x10 d a b | .minu d a b => encInt 0x11 d a b
  | .max d a b => encInt 0x12 d a b | .maxu d a b => encInt 0x13 d a b | .slt d a b => encInt 0x14 d a b
  | .sltu d a b => encInt 0x15 d a b | .seq d a b => encInt 0x16 d a b
  | .clz d a => encInt 0x17 d a 0 | .ctz d a => encInt 0x18 d a 0 | .popc d a => encInt 0x19 d a 0
  | .mov d a => encInt 0x1A d a 0
  | .sel d a b c => [packD c b a d 0x02]
  | .fadd m d a b => encFlt 0x0 m d a b | .fsub m d a b => encFlt 0x1 m d a b | .fmul m d a b => encFlt 0x2 m d a b
  | .fdiv m d a b => encFlt 0x3 m d a b | .fsqrt m d a => encFlt 0x4 m d a 0
  | .fmin d a b => encFlt 0x5 .rne d a b | .fmax d a b => encFlt 0x6 .rne d a b | .fcmp d a b => encFlt 0x7 .rne d a b
  | .fcvt m src dst d a => encFlt 0x8 m d a (src.code ++ dst.code)
  | .fclass d a => encFlt 0x9 .rne d a 0
  | .fma m d a b c => encLong c b a d 0xC2 ((0 : BitVec 30) ++ m.code)
  | .addi d a imm => [packI imm a d 0x04] | .andi d a imm => [packI imm a d 0x05] | .ori d a imm => [packI imm a d 0x06]
  | .xori d a imm => [packI imm a d 0x07]
  | .shli d a n => [packD 0 n a d 0x08] | .shri d a n => [packD 0 n a d 0x09] | .srai d a n => [packD 0 n a d 0x0A]
  | .bfx d a pos wm1 => [packD wm1 pos a d 0x0B] | .bfi d a pos wm1 => [packD wm1 pos a d 0x0C]
  | .ldi d imm => encLong 0 0 0 d 0xC0 imm | .ldhi d imm => encLong 0 0 0 d 0xC1 imm
  | .b off => [packJ off 0x10] | .bl off => [packJ off 0x11]
  | .bc c a off => [packI off a (six c.code) 0x12]
  | .ret a => [packD 1 0 a 0 0x13] | .nop => [packD 0 0 0 0 0x13] | .yield => [packD 2 0 0 0 0x13]
  | .halt => [packD 3 0 0 0 0x13] | .eret => [packD 4 0 0 0 0x13] | .wfe d a => [packD 5 0 a d 0x13]
  | .lend off => [packI off 0 0 0x14] | .trap code => [packI code 0 0 0x15]
  | .loop a wbase ring => encLong 0 0 a 0 0xC3 ((0 : BitVec 23) ++ ring ++ wbase)
  | .csrr d n => [packI n 0 d 0x20] | .csrw a n => [packI n a 0 0x21] | .csrx d a n => [packI n a d 0x22]
  | .tlbInvPage a => [packD 0 0 a 0 0x23] | .tlbInvSpace => [packD 1 0 0 0 0x23] | .tlbInvCluster => [packD 2 0 0 0 0x23]
  | .ldB d a off => encLoad 0x30 d a off | .ldH d a off => encLoad 0x31 d a off | .ldW d a off => encLoad 0x32 d a off
  | .ldD d a off => encLoad 0x33 d a off | .ldBU d a off => encLoad 0x34 d a off | .ldHU d a off => encLoad 0x35 d a off
  | .ldWU d a off => encLoad 0x36 d a off
  | .pref l2 a off => [packI off a ((0 : BitVec 5) ++ BitVec.ofBool l2) 0x37]
  | .stB s d a off => encStore 0x38 s d a off | .stH s d a off => encStore 0x39 s d a off
  | .stW s d a off => encStore 0x3A s d a off | .stD s d a off => encStore 0x3B s d a off
  | .ldAcq s z d a off => [packIA s.code z.code off a d 0x3C] | .stRel s z d a off => [packIA s.code z.code off a d 0x3D]
  | .ldc z d off => [packIC off z.code d 0x3E] | .stc z d off => [packIC off z.code d 0x3F]
  | .chSet ctr a => [packH ctr a 0x40] | .chAdd ctr a => [packH ctr a 0x41]
  | .stampClr => [packI 0 0 0 0x42] | .stampAbs a q => [packI q a 1 0x42] | .stampOff a q => [packI q a 2 0x42]
  | .cancel l a => [packD 0 0 a ((0 : BitVec 4) ++ l.code) 0x43]
  | .pwrRel => [packD 0 0 0 0 0x44]
  | .align s => [packD 0 0 0 (six s.code) 0x45]
  | .fmt a => [packD 0 0 a 0 0x46]
  | .ldq z q a b f => encLong f b a (six q) 0xC8 ((0 : BitVec 30) ++ z.code)
  | .popq d q lw => encLong 0 0 (six q) d 0xC9 (packLW lw)
  | .fence mask lw => encLong 0 0 0 ((0 : BitVec 2) ++ mask) 0xCA (packLW lw)
  | .fenceDone mask lw => encLong 0 0 0 ((0 : BitVec 2) ++ mask) 0xCB (packLW lw)
  | .atmAdd m => encAtm 0 m | .atmMin m => encAtm 1 m | .atmMax m => encAtm 2 m | .atmAnd m => encAtm 3 m
  | .atmOr m => encAtm 4 m | .atmXor m => encAtm 5 m | .atmXchg m => encAtm 6 m | .atmCas m => encAtm 7 m
  | .chWait ctr a lw => [packH ctr a 0xD8, packLW lw] | .bar ctr a lw => [packH ctr a 0xD9, packLW lw]
  | .dlv d a b f lw => encLong f b a d 0xDA (packLW lw)
  | .tok t => [packH t.wctr t.a 0xDB, packTok t]
  | .pwrAcq lvl lw => encLong 0 0 0 ((0 : BitVec 2) ++ lvl) 0xDC (packLW lw)
  | .vadd v => encV 0x00 0xE0 v | .vsub v => encV 0x01 0xE0 v | .vmul v => encV 0x02 0xE0 v | .vfma v => encV 0x03 0xE0 v
  | .vmin v => encV 0x04 0xE0 v | .vmax v => encV 0x05 0xE0 v | .vabs v => encV 0x06 0xE0 v | .vneg v => encV 0x07 0xE0 v
  | .vand v => encV 0x08 0xE0 v | .vor v => encV 0x09 0xE0 v | .vxor v => encV 0x0A 0xE0 v | .vshl v => encV 0x0B 0xE0 v
  | .vshr v => encV 0x0C 0xE0 v | .viadd v => encV 0x0D 0xE0 v | .vimul v => encV 0x0E 0xE0 v | .vcmp v => encV 0x0F 0xE0 v
  | .vsel v => encV 0x10 0xE0 v | .vshuf v => encV 0x11 0xE0 v | .vbcast v => encV 0x12 0xE0 v | .vmovs v => encV 0x13 0xE0 v
  | .vred v => encV 0x14 0xE0 v | .vexp2 v => encV 0x15 0xE0 v | .vlog2 v => encV 0x16 0xE0 v | .vrcp v => encV 0x17 0xE0 v
  | .vrsq v => encV 0x18 0xE0 v | .vcvt v => encV 0x19 0xE0 v | .vqnt v => encV 0x1A 0xE0 v | .vdqnt v => encV 0x1B 0xE0 v
  | .vamul v k => encV (k ++ (0 : BitVec 3)) 0xE1 v | .vconj v k => encV (k ++ (1 : BitVec 3)) 0xE1 v
  | .vnorm v k => encV (k ++ (2 : BitVec 3)) 0xE1 v
  | .vld v => encV 0 0xE2 v | .vst v => encV 0 0xE3 v
  | .mma m => encMma 0xF0 m | .mmaz m => encMma 0xF1 m
  | .amov d a => encLong 0 0 (six a) (six d) 0xF2 0
  | .amovT m => encMv 1 0xF2 m
  | .azero d => encLong 0 0 0 (six d) 0xF3 0
  | .ald m => encMv 0 0xF4 m | .ast m => encMv 0 0xF5 m | .tld m => encMv 0 0xF6 m | .tst m => encMv 0 0xF7 m
  | .lig k a c => encLong 0 0 a (six k) 0xF8 ((0 : BitVec 30) ++ c)
  | .cpy d a b => encLong 0 b a d 0xE8 0 | .cpy2d d a b f => encLong f b a d 0xE9 0
  | .cpy3d d a b f dps sps => encLong f b a d 0xEA (dps ++ sps)
  | .gath ix d a b f => encLong f b a d 0xEB ((0 : BitVec 31) ++ BitVec.ofBool ix)
  | .scat ix d a b f => encLong f b a d 0xEC ((0 : BitVec 31) ++ BitVec.ofBool ix)
  | .fill d b f => encLong f b 0 d 0xED 0 | .zero d b => encLong 0 b 0 d 0xEE 0
  | .stgRel a b => encLong 0 b a 0 0xEF 0
  | .agrp a b => encLong 0 b a 0 0xFA 0 | .mclr a => encLong 0 0 a 0 0xFB 0 | .mcst a b => encLong 0 b a 0 0xFC 0
  | .illegalEncoding _ | .proofCheck _ _ _ | .recordIssue _ _ | .errorPropagation _ _ | .markerRetire _ _
  | .kStep _ _ | .proofStep _ | .rowStep _ _ | .copyUnitCommit _ | .contribution _ | .verdict _
  | .commandCompletion _ _ _ | .streamTlbPrefetch _ _ | .walkStart _ | .walkComplete _ _ | .walkDieTimeout _ _
  | .loadReturn _ _ _ | .elementLoad _ _ _ | .storeLeave _ _ | .storeAck _ _ _ | .atomicPerform _ _
  | .writeBudgetWindow _ | .l1Writeback _ _ | .chWaitSatisfied _ _ | .barRelease _ _ | .haltComplete _ _
  | .wfeWake _ _ | .wfeTimeout _ _ | .stall _ _ | .trapEntry _ _ | .folioArrival _ | .folioStart _
  | .controlCoreReset _ | .replayStart _ | .engineWatchdog _ _ | .engineAlarm _ _ _ | .controlCoreAlarm _
  | .operatorRequest _ | .cmpinjRequest _ | .rollingScrub _ | .engineReset _ _ | .engineResetEnd _ _
  | .preemptionRequest _ | .lightDrainLimit _ | .engineStop _ _ | .contextSave _ | .saveComplete _
  | .teamPlacement _ _ _ | .restoreComplete _ | .sliceExpiry _ | .budgetOverrun _ | .levelCancel _
  | .teamCancelled _ _ | .launchSever _ _ | .launchRelease _ | .scratchWindowReturn _ _ | .issueGrant _
  | .spacerEnd _ | .grantLateness _ | .regionGrant _ | .drawMeasure _ | .overdraw _ | .agrpRegistration _
  | .roundJoin _ | .roundTimeout _ | .verdictTimeout _ | .objectLoad _ _ _ _ _ | .objectUnload _ _ | .doorbell _ _
  | .deviceDoorbell _ | .periodicRecheck _ | .dataEntryStart _ _ | .barrierEntryStart _ | .entryEnd _ _ | .resume _
  | .resumeSkip _ | .cmdCancelLaunch _ _ | .cmdCancelLevel _ _ _ | .qaddrWrite _ _ _ | .queueEnable _ _ _
  | .queueDisable _ _ _ | .qcfgConfigure _ _ _ | .evcfgWrite _ _ | .evconsWrite _ _ | .ackovf _
  | .registerWrite _ _ _ _ | .windowRead _ _ _ | .windowWrite _ _ _ | .priResponse _ _ | .descriptor | .colophon _
  | .map _ | .shootdownInvalidate _ | .shootdownComplete | .lifecycle _ _ _ | .config _ | .bandTableWrite _
  | .mkrtWrite _ | .permitReturn _ _ | .heartbeat _ | .adoption _ | .adoptionMemoryTimeout _ | .queueRingTimeout _
  | .dieReset _ | .dieReturn _ | .dieReturnTimeout _ | .packageReset _ _ | .patrol _ _ | .controlPoll | .linkDead _
  | .linkRestore _ | .coolantReport _ _ _ | .coolantReportLoss | .sensorRound _ _ | .railSettled _
  | .powerStateEntry _ | .powerStateExit _ | .airOverpower | .emergencySaveDone | .emergencyEnd | .powerFail
  | .l2Writeback _ => []

/-- A primary of a long form that the map assigns: its second word is fetched (R171, R192). -/
def isLongPrimary (w0 : W32) : Bool :=
  let op := (opOf w0).toNat
  (0xC0 ≤ op && op ≤ 0xC3) || (0xC8 ≤ op && op ≤ 0xCB) || op = 0xD0 || (0xD8 ≤ op && op ≤ 0xDC) ||
  (0xE0 ≤ op && op ≤ 0xE3) || (0xE8 ≤ op && op ≤ 0xF8) || (0xFA ≤ op && op ≤ 0xFC)

/-- Words to an instruction: the fields name one, its reserved bits are zero, and the format chapter admits it. -/
def decode (w0 w1 : W32) : Except DecodeError Instr :=
  match decodeFields w0 w1 with
  | .error e => .error e
  | .ok i =>
    if encode i = (if isLongPrimary w0 then [w0, w1] else [w0]) then
      (if wellFormed i then .ok i else .error .illFormed)
    else .error .reservedField

/-- Four bytes as a word, the first the least significant (R4). -/
def wordOfBytes (b0 b1 b2 b3 : Byte) : W32 := b3 ++ b2 ++ b1 ++ b0

/-- The bytes of a word, least significant first (R4). -/
def bytesOfWord (w : W32) : List Byte :=
  [w.extractLsb' 0 8, w.extractLsb' 8 8, w.extractLsb' 16 8, w.extractLsb' 24 8]

/-- The instruction at the head of a byte sequence, and the bytes after it. -/
def decodeBytes : List Byte → Except DecodeError (Instr × List Byte)
  | b0 :: b1 :: b2 :: b3 :: rest =>
    let w0 := wordOfBytes b0 b1 b2 b3
    if isLongPrimary w0 then
      match rest with
      | c0 :: c1 :: c2 :: c3 :: rest2 =>
        match decode w0 (wordOfBytes c0 c1 c2 c3) with
        | .ok i => .ok (i, rest2)
        | .error e => .error e
      | _ => .error .truncated
    else
      match decode w0 0 with
      | .ok i => .ok (i, rest)
      | .error e => .error e
  | _ => .error .truncated

/-- The length of an instruction in bytes (R171); a step of another agent has none. -/
def Instr.bytes (i : Instr) : Nat := 4 * (encode i).length

/-- A row of the opcode table as bits, the first word in the low 32, laid out as bytes and decoded. -/
def decodeTableWord (nbits w : Nat) : Option Instr :=
  let v := w % 2 ^ nbits
  match decodeBytes (bytesOfWord (BitVec.ofNat 32 v) ++ bytesOfWord (BitVec.ofNat 32 (v >>> 32))) with
  | .ok (i, _) => some i
  | .error _ => none

end Sys2Proof
end

