-- ==== Sys2Proof/Config.lean ====
section
/-! DEFINITION. What one part fixes and the manual does not give: constants of the part, and values the manual bounds or
leaves open. The opaque ones have no body, so no proof can rest on a value of theirs. -/
namespace Sys2Proof

/-- Populated bytes of an HBM stack window before any page is retired (R1, R5: 48 GB). -/
def Config.stackBytes : Nat := 48000000000

/-- Clk of a microsecond (R6). -/
def Config.clkPerUs : Nat := 3600

/-- The FP32 value that the part's `VEXP2` gives for an input; it stands where it lies within the bound of R265 (log entry 3). -/
opaque Config.exp2 : W32 → W32
/-- The same for `VLOG2` (R265, log entry 3). -/
opaque Config.log2 : W32 → W32
/-- The same for `VRCP` (R265, log entry 3). -/
opaque Config.rcp : W32 → W32
/-- The same for `VRSQ` (R265, log entry 3). -/
opaque Config.rsq : W32 → W32

/-- A fresh value where the manual gives none; applied to the counter `State.draws` (log entry 3). -/
opaque Config.freeValue : Nat → W64

/-- The row, bank, pseudo-channel and channel of a 32-byte sector (R438: bits [127:72] of a repair entry); log entry 3. -/
opaque Config.rowOf : Nat → BitVec 56
/-- The pin of the symbol position at which an error stood, by its sector and clk (R438); log entry 3. -/
opaque Config.pinOf : Nat → Nat → W32
/-- Whether a queued repair finds a spare (R439); log entry 3. -/
opaque Config.hasSpare : BitVec 128 → Bool
/-- The 64 KiB pages that hold part of a row or pin (R439); log entry 3. -/
opaque Config.pagesOf : BitVec 128 → List Nat

/-- The four check symbols of a sector's Reed-Solomon code (R428), over its mode bit and its data as one number: the code's polynomials the
manual does not give (log entry 11). -/
opaque Config.checkSymbols : Bool → Nat → W32

/-- The number of firmware images in the colophon, 1 to 8 (R426). -/
opaque Config.imageCount : Fin 8
/-- The SHA-384 digests in the colophon's image slots (R426), as bytes by offset. -/
opaque Config.imageSlot : Nat → Byte
/-- The version in the header of firmware image `i` (R422, R426). -/
opaque Config.imageVersion : Nat → BitVec 32
/-- The fused minimum version of image `i` that the LIFECYCLE token over a nonce asks for (R422, R424); log entry 3. -/
opaque Config.tokenMinimum : BitVec 256 → Nat → BitVec 32
/-- The band entry, by die and band, and the MKRT, by cluster, that the configuration image gives, if it gives one (R421 step 5); log
entry 3. -/
opaque Config.bandImage : Nat → Nat → Option (BitVec 64)
opaque Config.mkrtImage : Nat → Option (BitVec 64)

/-- The part's device identifier (R426). -/
opaque Config.deviceId : BitVec 128
/-- The identity public keys of the colophon (R426), as bytes by offset. -/
opaque Config.identityKey : Nat → Byte
/-- The colophon's signatures (R426): the byte at an offset, for the record's first 2,576 bytes read as one number (log entry 11). -/
opaque Config.signature : Nat → Nat → Byte

end Sys2Proof
end

