-- ==== Sys2Proof/Machine/Store.lean ====
section
/-! DEFINITION. Sparse keyed stores in one canonical form: keys strictly rising, and no entry equal to the default.
Memory, registers, tiles, counters and every other numbered thing of the machine is held so. -/
namespace Sys2Proof.Machine

/-- A sparse store: pairs of a key and a value, keys strictly rising, none holding the default. -/
abbrev FMap (α : Type) := List (Nat × α)

/-- The value at a key; the default where the key is not listed. -/
def FMap.get {α : Type} (m : FMap α) (d : α) (k : Nat) : α :=
  match m with
  | [] => d
  | (j, v) :: rest => if j = k then v else FMap.get rest d k

/-- The value at a key, where it is listed. -/
def FMap.at? {α : Type} (m : FMap α) (k : Nat) : Option α :=
  match m with
  | [] => none
  | (j, v) :: rest => if j = k then some v else FMap.at? rest k

/-- Put a listed pair in its place, replacing an entry of the same key. -/
def FMap.insert {α : Type} (m : FMap α) (k : Nat) (v : α) : FMap α :=
  match m with
  | [] => [(k, v)]
  | (j, w) :: rest =>
    if j = k then (k, v) :: rest
    else if k < j then (k, v) :: (j, w) :: rest
    else (j, w) :: FMap.insert rest k v

/-- Take the entry of a key away. -/
def FMap.erase {α : Type} (m : FMap α) (k : Nat) : FMap α :=
  match m with
  | [] => []
  | (j, w) :: rest => if j = k then FMap.erase rest k else (j, w) :: FMap.erase rest k

/-- Write a value; writing the default takes the entry away, so that equal stores are equal lists. -/
def FMap.set {α : Type} [DecidableEq α] (m : FMap α) (d : α) (k : Nat) (v : α) : FMap α :=
  if v = d then FMap.erase m k else FMap.insert m k v

/-- Every key of the store is above `n`. -/
def FMap.above {α : Type} (m : FMap α) (n : Nat) : Bool :=
  match m with
  | [] => true
  | (j, _) :: _ => n < j

/-- The canonical form. -/
def FMap.wf {α : Type} [DecidableEq α] (m : FMap α) (d : α) : Bool :=
  match m with
  | [] => true
  | (j, v) :: rest => decide (v ≠ d) && FMap.above rest j && FMap.wf rest d

/-- Change the value at a key. -/
def FMap.modify {α : Type} [DecidableEq α] (m : FMap α) (d : α) (k : Nat) (f : α → α) : FMap α :=
  FMap.set m d k (f (FMap.get m d k))

/-- The keys that are listed. -/
def FMap.keys {α : Type} (m : FMap α) : List Nat := m.map Prod.fst

/-- Write `n` consecutive keys from `k` from a list of values. -/
def FMap.setMany {α : Type} [DecidableEq α] (m : FMap α) (d : α) (k : Nat) (vs : List α) : FMap α :=
  match vs with
  | [] => m
  | v :: rest => FMap.setMany (FMap.set m d k v) d (k + 1) rest

/-- Read `n` consecutive keys from `k`. -/
def FMap.getMany {α : Type} (m : FMap α) (d : α) (k n : Nat) : List α :=
  (List.range n).map fun i => FMap.get m d (k + i)

end Sys2Proof.Machine
end

