-- ==== Sys2Proof/Machine/State.lean ====
section
/-! DEFINITION. Everything the manual gives the package to hold, as plain data, and the machine right after reset.
Numbered things are sparse stores keyed by their number; what is not listed holds the reset value. -/
namespace Sys2Proof.Machine

/-- The manual describes no event that stops the package: every trap is taken as a next state, and a step that is not
enabled leaves the state as it is. -/
inductive Fault where
  /-- Raised by no meaning and by no step; safe. -/
  | none
deriving DecidableEq, Repr

/-- Why an instruction has no meaning here. -/
inductive Refusal where
  /-- Raised by `exec` alone, for an instruction not modelled yet; safe. -/
  | notModelled (mnemonic : String)
deriving DecidableEq, Repr

/-! ### Contexts (R15, R16) -/

/-- One context of one core. -/
structure CtxRef where
  core : CoreId
  ctx : CtxId
deriving DecidableEq, Repr

/-- A raised trap: what TADDR, TINFO and, for class R, PIDX receive (R315-R317, R23). -/
structure Trap where
  code : BitVec 8
  unit : BitVec 4
  addr : W64
  info : W64
  pidx : Option W64
deriving DecidableEq, Repr

/-- A pending stream of a data queue (R232). -/
structure Stream where
  base : W64
  count : Nat
  stride : W64
  size : Size
  next : Nat
  pos : Nat
  halted : Option Trap
deriving DecidableEq, Repr

/-- A data queue (R232): at most 32 elements and 4 streams, with the two counts of R46. -/
structure DQueue where
  elems : List W64
  streams : List Stream
  appended : W32
  popped : W32
deriving DecidableEq, Repr

def DQueue.empty : DQueue := ⟨[], [], 0, 0⟩

/-- What an entry of the store queue does when it is performed (R70, R230, R238, R242). -/
inductive StoreKind where
  | plain
  | release
  | atomic (op : BitVec 3) (cmp : W64) (dest : Reg) (ord : AtmOrd)
  | chSet (ctr : BitVec 18)
  | chAdd (ctr : BitVec 18)
deriving DecidableEq, Repr

/-- A store-queue entry (R70); `pos` is its program position. -/
structure StoreEntry where
  kind : StoreKind
  va : W64
  pa : Nat
  n : Nat
  data : W64
  scope : Scope
  pos : Nat
deriving DecidableEq, Repr

/-- A load-queue entry (R15, R147); `got` is a value taken ahead of its return (R125), `live`
says that no later instruction has written its register. -/
structure LoadEntry where
  dest : Reg
  va : W64
  pa : Nat
  n : Nat
  signed : Bool
  acquire : Bool
  stereotype : Bool
  pos : Nat
  pc : W64
  got : Option W64
  live : Bool
deriving DecidableEq, Repr

/-- A folio on its way to a handler (R36). -/
structure Folio where
  addr : W64
  len : Nat
  handler : W64
  sender : CoreId
  job : BitVec 24
deriving DecidableEq, Repr

/-- What a light context serves (R16, R36, R319). -/
inductive Role where
  | none
  | trap (of : CtxId)
  | folio (f : Folio)
deriving DecidableEq, Repr

/-- Whether a context issues (R16, R36, R43, R319). -/
inductive RunState where
  | dormant
  | running
  /-- stopped by a trap whose handler runs or waits for a light context -/
  | trapped
  /-- stopped by a pre-emption -/
  | stopped
deriving DecidableEq, Repr

/-- What a waiting instruction waits for (R326, R147). -/
inductive WaitKind where
  | walk (va : W64)
  | reg (va : W64)
  | popq (q : BitVec 3)
  | chWait (ctr : BitVec 18) (thr : W64) (dest : Reg)
  | bar (ctr : BitVec 18) (target : Nat)
  /-- a join: the marker's sequence number in each named galley, M V X K -/
  | fence (done : Bool) (m v x k : Option (BitVec 24))
  | halt
  | wfe (d a : Reg)
  | align (s : Scope)
  | storeFull (va : W64)
  /-- an atomic or an acquire load in flight: its address and its program position -/
  | atomic (va : W64) (pos : Nat)
  | acquire (va : W64) (pos : Nat)
  /-- a `DLV`: its target core, its folio, the payload, the physical runs it goes to, and the clk it was sent -/
  | dlv (target : CoreId) (f : Folio) (payload : List Byte) (runs : List (Nat × Nat)) (sent : Nat)
  | pwr (lvl : BitVec 4)
  | fmt
  | ldq
  | stgRel
  | galley (g : Galley)
deriving DecidableEq, Repr

/-- A wait: its longest wait in weighted clk, and the stall count in sixteenths of a clk (R325). -/
structure Wait where
  kind : WaitKind
  limit : Nat
  count : Nat
deriving DecidableEq, Repr

/-- A context (R15, R16). -/
structure Ctx where
  regs : FMap W64
  pc : W64
  priv : Bool
  run : RunState
  caseMem : FMap Byte
  dq : FMap DQueue
  fpx : W64
  evl : W64
  cause : W64
  taddr : W64
  tepc : W64
  tinfo : W64
  storeQ : List StoreEntry
  unacked : List StoreEntry
  loadQ : List LoadEntry
  pos : Nat
  role : Role
  wait : Option Wait
  passOver : Bool
deriving DecidableEq, Repr

/-- A context at allocation (R68). -/
def Ctx.fresh : Ctx :=
  { regs := [], pc := 0, priv := false, run := .dormant, caseMem := [], dq := [], fpx := 0, evl := 0, cause := 0,
    taddr := 0, tepc := 0, tinfo := 0, storeQ := [], unacked := [], loadQ := [], pos := 0, role := .none,
    wait := none, passOver := false }

/-! ### The galley store (R18-R25) -/

inductive RecState where | free | appended | checked | issued | parked | done
deriving DecidableEq, Repr

/-- The 64-byte command record (R19). -/
structure Record where
  w0 : W32
  w1 : W32
  o0 : W64
  o1 : W64
  o2 : W64
  o3 : W64
  wait : W64
  sig : W32
  sched : W32
  stamp : W64
deriving DecidableEq, Repr

def Record.zero : Record := ⟨0, 0, 0, 0, 0, 0, 0, 0, 0, 0⟩

/-- A ligature table (R107): component code 0-3 for 1, 2, 4, 8 components, entries by byte index, mask and selector. -/
structure LigTable where
  code : BitVec 2
  entries : List Byte
  mask : Byte
  norm : Byte
deriving DecidableEq, Repr

/-- A translation held by a TLB, tagged with the job (R411). -/
structure TlbEntry where
  job : BitVec 24
  va : Nat
  size : Nat
  pa : Nat
  r : Bool
  w : Bool
  x : Bool
  u : Bool
  st : Bool
  pn : Bool
deriving DecidableEq, Repr

/-- A galley slot: the record, its status word (R21), its mark word (R23), and what the engine keeps with the command:
the claimed format word (R101), gathered flags since and up to the mark (R94), the stamp's waiver (R320), the trap that
parked it (R22), the K-steps that have failed a residue check once (R106), the clk of the last proof step (R25), the round of a
collective (R308), the work units done since the mark with it (`step`), the program position of its append (R133), the
ligature table read at issue (R269, R283), a resume whose stage check is still to come (R297), the Proofreader's hash (R15) and the
clk of the append, a product's pulses since its issue and the pulses that its work so far takes, in sixteenths of a clk (R284), the units
of a copy that have been read ahead of their commit (R359), the translations that its unit has been given (R81; log entry 73). -/
structure Slot where
  body : Record
  hash : W32
  proofHash : W32
  appendedAt : Nat
  seq : BitVec 24
  st : RecState
  prog : W32
  markSeq : BitVec 24
  markValid : Bool
  fmt : Option W32
  flags : BitVec 6
  sealedFlags : BitVec 6
  waived : Bool
  missed : Bool
  cause : Option Trap
  residue : List Nat
  lastProof : Nat
  round : Nat
  pinned : Bool
  error : Bool
  step : Nat
  pos : Nat
  lig : Option LigTable
  resumed : Bool
  ran : Nat
  owed : Nat
  early : FMap (List Byte)
  held : List TlbEntry
deriving DecidableEq, Repr

def Slot.fresh : Slot :=
  { body := .zero, hash := 0, proofHash := 0, appendedAt := 0, seq := 0, st := .free, prog := 0, markSeq := 0, markValid := false, fmt := none, flags := 0,
    sealedFlags := 0, waived := false, missed := false, cause := none, residue := [], lastProof := 0, round := 0,
    pinned := false, error := false, step := 0, pos := 0, lig := none,
    resumed := false, ran := 0, owed := 0, early := [], held := [] }

/-- An engine reset asked for: by any cause but the scrub; by the rolling scrub alone; by the scrub while the engine was PARKED
or under reset, which takes step 1 only (R49, R51, R437). -/
inductive ResetAsk where | full | scrub | step1
deriving DecidableEq, Repr

/-- What an engine waits for outside itself (R49): budget (R73), the pin of a stage that some of its bytes lie in (R295), an answer of
the home or of memory. -/
inductive EngineHold where
  | budget
  | pin (pa n : Nat)
  /-- an answer from outside the core -/
  | answer
deriving DecidableEq, Repr

/-- A galley: 64 slots and the two sequence pointers (R18, R19), and its engine's run state: clk without progress, an
engine reset asked for, what a write waits for, an engine reset under way and its beginning (R49, R50). -/
structure GalleyState where
  slots : FMap Slot
  head : BitVec 24
  tail : BitVec 24
  noProgress : Nat
  asked : Option ResetAsk
  waits : Option EngineHold
  resetting : Bool
  resetFrom : Nat
deriving DecidableEq, Repr

def GalleyState.empty : GalleyState := ⟨[], 0, 0, 0, none, none, false, 0⟩

/-- A word of the format queue (R101); `push` is its push count (R291). -/
structure FmtWord where
  word : W32
  push : W32
  claimed : Bool
deriving DecidableEq, Repr

/-- A pending stamp (R246). -/
structure PendStamp where
  offset : Bool
  value : W64
  quoin : BitVec 12
deriving DecidableEq, Repr

/-- The pending tokens and stamp of the team context (R32). -/
structure Pending where
  wait : Option (BitVec 18 × BitVec 40)
  signal : Option (BitVec 18 × BitVec 12)
  stamp : Option PendStamp
deriving DecidableEq, Repr

def Pending.none : Pending := ⟨Option.none, Option.none, Option.none⟩

/-- A core checkpoint copy (R46) with its CRC-32C (R212); `pos` is the program position of its `YIELD`. -/
structure Checkpoint where
  regs : FMap W64
  pc : W64
  lcnt : W64
  lbase : W64
  lring : W64
  pending : Pending
  tailM : BitVec 24
  tailV : BitVec 24
  tailX : BitVec 24
  tailK : BitVec 24
  appended : FMap W32
  popped : FMap W32
  fmtPush : W32
  crc : W32
  pos : Nat
deriving DecidableEq, Repr

def Checkpoint.empty : Checkpoint :=
  { regs := [], pc := 0, lcnt := 0, lbase := 0, lring := 0, pending := .none, tailM := 0, tailV := 0, tailX := 0,
    tailK := 0, appended := [], popped := [], fmtPush := 0, crc := 0, pos := 0 }

/-- Where the Proofreader's own copy of the team context's scalar state differs from the control core's (R15): the bits of the registers,
the pc, the loop state and the Case that differ, and its pending tokens where they are others. -/
structure ProofDiff where
  regs : FMap W64
  pc : W64
  lcnt : W64
  lbase : W64
  lring : W64
  caseMem : FMap Byte
  pending : Option Pending
deriving DecidableEq, Repr

/-- The two copies are equal. -/
def ProofDiff.none : ProofDiff := ⟨[], 0, 0, 0, 0, [], Option.none⟩

/-- A replay under way (R48): the values still to be delivered, and the counts the replay has reached. -/
structure Replay where
  log : List W64
  seqM : BitVec 24
  seqV : BitVec 24
  seqX : BitVec 24
  seqK : BitVec 24
  appended : FMap W32
  fmtPush : W32
deriving DecidableEq, Repr

/-! ### Translation and caches (R65, R66, R80, R407-R411) -/

/-- The unit of a core that a walk serves. -/
inductive WalkUnit where
  | fetch (x : CtxId)
  | data (x : CtxId)
  | stream (x : CtxId) (q : BitVec 3)
  | engine (g : Galley) (i : SlotId)
  | packet
  | prefetch (g : Galley)
deriving DecidableEq, Repr

/-- A walk of a die's walk unit, waiting or running (R410); `since` is a table read that a die under reset holds: its
address and the clk of its issue (R412). -/
structure Walk where
  core : CoreId
  unit : WalkUnit
  job : BitVec 24
  va : W64
  priv : Bool
  running : Bool
  since : Option (Nat × Nat)
deriving DecidableEq, Repr

/-- How a sector is stored: compressed, with a payload of 1, 17 or 25 bytes, or raw (R429). -/
inductive SectorClass where | e | h | w | x
deriving DecidableEq, Repr
/-- A sector stored compressed: its class tag, its payload and its four check symbols (R429). -/
structure Packed where
  cls : SectorClass
  payload : List Byte
  check : W32
deriving DecidableEq, Repr
/-- A sector of zeros. -/
def Packed.zero : Packed := ⟨.e, [0], 0⟩

/-- A cache line's tag (R65, R66, R76). -/
structure LineTag where
  dirty : Bool
  zero : Bool
  stereotype : Bool
deriving DecidableEq, Repr

/-! ### Teams and cores -/

/-- Team states (R38); `lost` marks a team that R42 leaves in none of them. -/
inductive TeamState where | waiting | loading | running | saved | retired | failed | cancelled | lost
deriving DecidableEq, Repr

/-- The resident team of a core; `sliceAt` is the clk from which its slice counts (R400, R402). -/
structure Resident where
  launch : BitVec 24
  index : BitVec 24
  job : BitVec 24
  state : TeamState
  band : BitVec 6
  placedAt : Nat
  sliceAt : Nat
  charge : Nat
  overrun : Bool
  cancel : Bool
deriving DecidableEq, Repr

/-- A pre-emption request (R43, R330): its clk, whether the team context has stopped, whether it ends in a save, whether a trap was
pending already (R324). -/
structure Preempt where
  since : Nat
  stopped : Bool
  saving : Bool
  trapped : Bool
deriving DecidableEq, Repr

/-- A slot's position in its queue (R372), with the number of the ring that it was taken from: one that is enabled anew counts from 0
(R373). -/
structure SlotPos where
  era : Nat
  at_ : W32
deriving DecidableEq, Repr
def SlotPos.toNat (p : SlotPos) : Nat := p.at_.toNat

/-- A DATA packet's command on a core's engine, with its own write budget and its charge (R375, R376, R396). -/
structure Packet where
  queue : QueueId
  pos : SlotPos
  job : BitVec 24
  collective : Bool
  slot : Slot
  wbud : W32
  used : Nat
  window : Nat
  charge : Nat
deriving DecidableEq, Repr

/-- An injected reset that is armed (R52). -/
structure Armed where
  due : Nat
  core : Bool
  eng : BitVec 2
deriving DecidableEq, Repr

/-- A core (R15); a latch holds a row's number, with its hold where it may have one (R275); `proof` says where
the Proofreader's copy of the scalar state differs from the control core's (R15, R212); `lastCtx` and `issuedAt` are the context that
issued last and its clk (R17); `fwArea` is the firmware area of the galley store (R18); `wbq` holds the charges of write-backs that wait for
budget (R71); `trapClk` and `trapsNow` are the clk of the newest pending traps and their number (R321); `served` is the context whose stream the access unit
loaded from last (R358); `saveClk` and `measured` are the last save's time and the last save-plus-restore time (R402). -/
structure Core where
  ctxs : FMap Ctx
  team : Option Resident
  tiles : FMap Row
  accV : FMap AccRow
  accP : FMap AccRow
  accW : FMap AccRow
  ligTab : FMap LigTable
  ligCnt : FMap (BitVec 2)
  fmtQ : List FmtWord
  fmtPush : W32
  galM : GalleyState
  galV : GalleyState
  galX : GalleyState
  galK : GalleyState
  latchA : Option (Nat × Bool)
  latchB : Option (Nat × Bool)
  latchC : Option Nat
  sgen : W16
  pins : FMap Bool
  release : FMap W16
  pending : Pending
  lcnt : W64
  lbase : W64
  lring : W64
  stoff : W64
  slip : W64
  vw : W64
  pidx : W64
  wbud : W64
  wuse : W64
  budg : W64
  dln : W64
  slice : W64
  pwrl : W64
  scrw : W64
  dfcause : W64
  dfaddr : W64
  cmpinj : W64
  armed : Option Armed
  ckA : Checkpoint
  ckB : Checkpoint
  ckIsB : Bool
  irrevocable : Bool
  rlog : List (Nat × Option W64)
  replay : Option Replay
  resetAsked : Bool
  resetting : Bool
  traps : List Trap
  folioQ : List Folio
  trapEntry : W64
  l1 : FMap LineTag
  l1tlb : List TlbEntry
  tlbM : List TlbEntry
  tlbV : List TlbEntry
  tlbX : List TlbEntry
  tlbK : List TlbEntry
  disabled : Bool
  offNext : Bool
  proof : ProofDiff
  lastCtx : CtxId
  issuedAt : Option Nat
  fwArea : FMap Byte
  wbq : List Nat
  trapClk : Nat
  trapsNow : Nat
  proofTimes : List Nat
  residueTimes : List Nat
  preempt : Option Preempt
  grant : Bool
  wantGrant : Option Nat
  spacerFrom : Option Nat
  draw : Nat
  drawClk : Nat
  overFor : Nat
  calmFor : Nat
  withheld : Bool
  packet : Option Packet
  rounds : FMap Nat
  lastJob : Option (BitVec 24)
  lastLaunch : Option (BitVec 24)
  window : Nat
  served : CtxId
  saveClk : Nat
  measured : Nat
deriving DecidableEq, Repr

/-- The real table (R115). -/
def ligReal : LigTable := ⟨0, [0x00], 0x00, 0⟩
def ligComplex : LigTable := ⟨1, [0x00, 0x01, 0x01, 0x08], 0x02, 0⟩
def ligSplit : LigTable := ⟨1, [0x00, 0x01, 0x01, 0x00], 0x02, 0⟩
def ligQuaternion : LigTable :=
  ⟨2, [0x00, 0x01, 0x02, 0x03, 0x01, 0x08, 0x03, 0x0A, 0x02, 0x0B, 0x08, 0x01, 0x03, 0x02, 0x09, 0x08], 0x0E, 0⟩
/-- Cl(3,0) (R116). -/
def ligClifford : LigTable :=
  ⟨3, [0x00, 0x01, 0x02, 0x03, 0x04, 0x05, 0x06, 0x07] ++ [0x01, 0x00, 0x04, 0x05, 0x02, 0x03, 0x07, 0x06] ++
      [0x02, 0x0C, 0x00, 0x06, 0x09, 0x0F, 0x03, 0x0D] ++ [0x03, 0x0D, 0x0E, 0x00, 0x07, 0x09, 0x0A, 0x04] ++
      [0x04, 0x0A, 0x01, 0x07, 0x08, 0x0E, 0x05, 0x0B] ++ [0x05, 0x0B, 0x0F, 0x01, 0x06, 0x08, 0x0C, 0x02] ++
      [0x06, 0x07, 0x0B, 0x02, 0x0D, 0x04, 0x08, 0x09] ++ [0x07, 0x06, 0x0D, 0x04, 0x0B, 0x02, 0x09, 0x08], 0x7E, 0⟩
/-- The slots at allocation (R113, R115, R116); a slot not listed holds the real table. -/
def ligPreload : FMap LigTable := [(1, ligComplex), (2, ligSplit), (3, ligQuaternion), (4, ligClifford)]
def ligPreloadCnt : FMap (BitVec 2) := [(1, 1), (2, 1), (3, 2), (4, 3)]

/-- SLICE at reset: SAVREST 128 (R401). -/
def sliceReset : W64 := 0x0080_0000

/-- A core after package reset. -/
def Core.fresh : Core :=
  { ctxs := [], team := none, tiles := [], accV := [], accP := [], accW := [], ligTab := ligPreload,
    ligCnt := ligPreloadCnt, fmtQ := [], fmtPush := 0, galM := .empty, galV := .empty, galX := .empty, galK := .empty,
    latchA := none, latchB := none, latchC := none, sgen := 0, pins := [], release := [], pending := .none, lcnt := 0, lbase := 0,
    lring := 0, stoff := 0, slip := 0, vw := 0, pidx := 0, wbud := 0, wuse := 0, budg := 0, dln := 0,
    slice := sliceReset, pwrl := 0, scrw := 0, dfcause := 0, dfaddr := 0, cmpinj := 0, armed := none, ckA := .empty,
    ckB := .empty, ckIsB := false, irrevocable := false, rlog := [], replay := none, resetAsked := false, resetting := false, traps := [],
    folioQ := [], trapEntry := 0, l1 := [], l1tlb := [], tlbM := [], tlbV := [], tlbX := [], tlbK := [],
    disabled := false, offNext := false, proof := .none, lastCtx := 3, issuedAt := none, fwArea := [], wbq := [], trapClk := 0, trapsNow := 0, proofTimes := [], residueTimes := [], preempt := none, grant := false,
    wantGrant := none, spacerFrom := none, draw := 0, drawClk := 0, overFor := 0, calmFor := 64, withheld := false, packet := none,
    rounds := [], lastJob := none, lastLaunch := none, window := 0, served := 0, saveClk := 0, measured := 128 }

/-! ### Clusters and dies -/

/-- Power states of a unit (R452, R453). -/
inductive PowerState where | active | gated | dark | dormant | banked
deriving DecidableEq, Repr

/-- What a scheduler that cannot act leaves to be done (R418): a team of a launch has reached a final state; a member of a level has
completed; a launch is to be cancelled, or severed. -/
inductive SchedAct where
  | final (launch team : BitVec 24) (t : TeamState)
  | add (lv : Level) (num job : BitVec 24) (err : Bool)
  | cancel (launch : BitVec 24) (sever : Bool)
deriving DecidableEq, Repr

/-- A cluster: pulse ratio and rail, and the clk at which its slew began (R449, R450), cluster TLB (R80), the
upper-level entries that lead to translations that its TLBs hold, `pa` being the next table (R411), current manager, with the clk and the core of the newest power request (R335-R337, R445), scratchpad
windows (R60), power state (R453), with the clk on which it began to leave it and the state
it goes to, a makeready table on its way (R415). -/
structure Cluster where
  k : Nat
  railMv : Nat
  target : Option Nat
  slewAt : Nat
  tlb : List TlbEntry
  upper : List TlbEntry
  mkrt : W64
  ramp : Option Nat
  regionQ : List (CoreId × BitVec 4)
  regionAsk : Option (Nat × CoreId)
  granules : FMap (BitVec 24)
  power : PowerState
  wake : Option (Nat × PowerState)
  throttle : Nat
  mkrtReq : List W64
deriving DecidableEq, Repr

def Cluster.fresh : Cluster :=
  { k := 16, railMv := 950, target := none, slewAt := 0, tlb := [], upper := [], mkrt := 0x8888_8888_8886_4321, ramp := none, regionQ := [],
    regionAsk := none, granules := [], power := .active, wake := none, throttle := 0, mkrtReq := [] }

/-- A compute die: band table and late counts (R393, R395), launch count (R405), interval table (R404), walk unit (R410),
link permits (R415: links 0-11 as the scheduler sends, 12-23 as the other end of the same link does), heartbeat and adoption (R416-R419),
rolling scrub (R437); band table writes on their way; the clk from which permits are owed (R415). -/
structure Die where
  bands : FMap W64
  lateEnds : FMap Nat
  launchCount : BitVec 22
  interval : List (QueueId × SlotPos)
  walks : List Walk
  owed : FMap Nat
  permits : FMap Nat
  alive : Bool
  resetAt : Option Nat
  heard : Nat
  adopter : Option DieId
  held : Bool
  scrubNext : Nat
  scrubAt : Nat
  cancels : List (Level × BitVec 24 × BitVec 24)
  bandReq : List (Fin 64 × W64)
  owedSince : Nat
deriving DecidableEq, Repr

/-- The reset value of a band entry (R393). -/
def bandReset : W64 := 0x8001_0008_0100_4000

def Die.fresh : Die :=
  { bands := [], lateEnds := [], launchCount := 0, interval := [], walks := [], owed := [], permits := [],
    alive := true, resetAt := none, heard := 0, adopter := none, held := false, scrubNext := 0, scrubAt := 0,
    cancels := [], bandReq := [], owedSince := 0 }

/-! ### Work (R374-R377, R405, R420) -/

inductive EntryKind where | launch | data | nop | declare
deriving DecidableEq, Repr

/-- A slot taken from a queue (R374, R375, R377, R382); `since` is a table read that a die under reset holds (R412). -/
structure Entry where
  queue : QueueId
  pos : SlotPos
  kind : EntryKind
  job : BitVec 24
  die : DieId
  barrier : Bool
  csigValid : Bool
  priv : Bool
  ovr : BitVec 2
  band : BitVec 6
  irq : Bool
  slice : W16
  deadline : W64
  budget : W32
  teams : W32
  tbudget : W32
  wbud : W32
  kernel : W64
  args : W64
  arglen : W32
  level : BitVec 24
  cdone : W64
  csig : W32
  waitmax : BitVec 24
  place : BitVec 4
  rdBase : W64
  rdLen : W64
  wrBase : W64
  wrLen : W64
  scratch : BitVec 7
  lctr : BitVec 18
  parent : BitVec 24
  declLevel : BitVec 2
  admitted : Bool
  running : Bool
  ended : Bool
  density : Nat
  consumed : Nat
  status : Byte
  retired : W32
  since : Option (Nat × Nat)
deriving DecidableEq, Repr

/-- A launch's record (R405, R420): its entry, its counter, its teams' states, the address of its bitmaps in device
memory, the saved teams, and how it ends. -/
structure Launch where
  entry : Entry
  owner : DieId
  ctr : BitVec 18
  teams : FMap TeamState
  placed : FMap Bool
  recordAt : Nat
  severing : Bool
  severed : Bool
  cancelled : Bool
  complete : Bool
  stopping : Bool
  failed : Option (BitVec 24 × Trap × W64)
  saved : FMap Core
  savedOn : FMap Nat
deriving DecidableEq, Repr

/-- A declared graph, phase or job (R405): the members that have joined and those that have completed, and its counter's
error flag at its end. -/
structure LevelInst where
  level : Level
  num : BitVec 24
  job : BitVec 24
  ctr : BitVec 18
  members : Nat
  joined : Nat
  parent : BitVec 24
  queue : QueueId
  pos : SlotPos
  opened : Bool
  cancelled : Bool
  stopping : Bool
  ended : Bool
  done : Nat
  err : Bool
deriving DecidableEq, Repr

/-- A host-visible queue (R371, R372); `skipping` is a skip whose read of the slot waits (R387), `era` counts the
rings that it has had (R373). -/
structure Queue where
  qaddr : W64
  qcfg : W64
  qdb : W64
  head : W32
  tail : W32
  status : W64
  dbcnt : W64
  lastfail : W64
  fresh : Bool
  recheckAt : Nat
  heldDb : List W32
  waitRing : Option Nat
  skipping : Bool
  era : Nat
deriving DecidableEq, Repr

def Queue.zero : Queue := ⟨0, 0, 0, 0, 0, 0, 0, 0, false, 0, [], none, false, 0⟩

/-- A PCIe function's event registers and ring (R371, R388), the job bound to a VF (R369), and whether it has ATS enabled (R368). -/
structure Func where
  evbase : W64
  evcfg : W64
  evcons : W64
  prod : W32
  ovf : Bool
  dropped : W64
  job : BitVec 24
  ats : Bool
deriving DecidableEq, Repr

def Func.zero : Func := ⟨0, 0, 0, 0, false, 0, 0, false⟩

/-- A loaded kernel: its entry, and the bound and wait charge the loader recorded (R351). -/
structure Kernel where
  entry : W64
  bound : Nat
  wchg : Nat
deriving DecidableEq, Repr

/-- A loaded object (R347). -/
structure Object where
  job : BitVec 24
  text : W64
  textLen : Nat
  data : W64
  dataLen : Nat
  const : W64
  constLen : Nat
  kernels : List Kernel
deriving DecidableEq, Repr

/-- A job: its page-table root (R407) and whether a root has been made. -/
structure Job where
  root : Nat
  present : Bool
deriving DecidableEq, Repr

/-- A range that firmware has mapped into a job (R69, R347, R425). -/
structure Mapping where
  job : BitVec 24
  va : Nat
  len : Nat
  pa : Nat
deriving DecidableEq, Repr

/-! ### The hub (R305-R311) -/

/-- A member's registration (R307): its core, its source's virtual address, and the physical page runs of its buffers (address and
length). -/
structure Member where
  core : CoreId
  va : W64
  src : List (Nat × Nat)
  dst : List (Nat × Nat)
deriving DecidableEq, Repr

inductive RoundVerdict where | ok | absent (lowest : Nat)
deriving DecidableEq, Repr

/-- An open round at the home (R308-R311): the clk of its first join, the root of an `MCST`, each joined member's index with
its contribution. -/
structure Round where
  openedAt : Nat
  root : Option Nat
  joined : FMap (Option (List Byte))
deriving DecidableEq, Repr

/-- A round's end as the home keeps it: its verdict, the flags of its result, the result, and the members whose destinations the
switch has still to write (R141, R295). -/
structure RoundEnd where
  verdict : RoundVerdict
  flags : BitVec 6
  data : List Byte
  owing : List Member
deriving DecidableEq, Repr

/-- An address group (R305-R307): `places` are the package and core of each member of the descriptor, `base` counts the rounds of
earlier descriptors, and a kept verdict is keyed by its round's number from the first descriptor on. -/
structure Group where
  crc : W32
  members : Nat
  itype : Byte
  otype : Byte
  op : Byte
  quiet : Bool
  count : Nat
  timeout : Nat
  places : List (W16 × Nat)
  regs : FMap (Option Member)
  rounds : Nat
  base : Nat
  opened : Option Round
  ends : FMap (Option RoundEnd)
deriving DecidableEq, Repr

def Group.empty : Group :=
  { crc := 0, members := 0, itype := 0, otype := 0, op := 0, quiet := false, count := 0, timeout := 0, places := [],
    regs := [], rounds := 0, base := 0, opened := none, ends := [] }

/-! ### Firmware, NV storage, power -/

/-- A log record of the health page (R436). -/
structure LogRec where
  kind : Byte
  unit : Byte
  core : Byte
  stack : Byte
  occ : W32
  time : W64
  addr : W64
  detail : W64
deriving DecidableEq, Repr

def LogRec.zero : LogRec := ⟨0, 0, 0, 0, 0, 0, 0, 0⟩

/-- A repair entry (R438), as its 128 bits. -/
abbrev Repair := BitVec 128

/-- A corrected or uncorrectable error kept for the 24-hour counts (R438). -/
structure ErrEvent where
  sector : Nat
  at_ : Nat
  ue : Bool
deriving DecidableEq, Repr

/-- The health and power pages (R434, R452): fields in force, and control fields as the host last wrote them. -/
structure Pages where
  scrubp : W64
  patrol : W16
  cethr : W16
  ltol : W32
  savebase : W64
  rawScrubp : W64
  rawPatrol : W16
  rawCethr : W16
  rawLtol : W32
  rawSavebase : W64
  updated : W64
  powerUpdated : W64
  logprod : W64
  logs : FMap LogRec
  stack : FMap W64
  dieCnt : FMap W64
  ports : FMap W64
  savestat : Byte
  pkgMw : W32
  inlet : W16
  flow : W16
  package : PowerState
  wake : Option (Nat × PowerState)
deriving DecidableEq, Repr

def Pages.reset : Pages :=
  { scrubp := 0x0010_0010_0010_0010, patrol := 24, cethr := 8, ltol := 0, savebase := 0,
    rawScrubp := 0x0010_0010_0010_0010, rawPatrol := 24, rawCethr := 8, rawLtol := 0, rawSavebase := 0, updated := 0,
    powerUpdated := 0, logprod := 0, logs := [], stack := [], dieCnt := [], ports := [], savestat := 0, pkgMw := 0,
    inlet := 0, flow := 0, package := .active, wake := none }

/-- The limit tables (R447). -/
inductive LimitTable where | air | coldPlate | immersion
deriving DecidableEq, Repr

/-- NV storage and fuses (R421, R422, R424, R438, R439, R454): crash journal, repair list, retired pages, disabled cores, the device's
nonce, the fused minimum versions, and by stack the bytes of retired rows that the full list does not hold. -/
structure Nv where
  saveBegin : Bool
  saveDone : Bool
  saveBaseSet : Bool
  repairs : List Repair
  retired : List Nat
  disabled : FMap Bool
  nonce : BitVec 256
  ownerFused : Bool
  fusedMin : FMap W32
  excess : FMap Nat
deriving DecidableEq, Repr

def Nv.empty : Nv := ⟨false, false, false, [], [], [], 0, false, [], []⟩

/-- Boot progress (R421, R425). -/
inductive BootState where | booting | ready | bootFail (step : Fin 8) (image : Fin 8) | wiping
deriving DecidableEq, Repr

/-- The thermal emergency (R454); `headed` says that the save header has been written. -/
inductive Emergency where | none | saving (since : Nat) (saveAt : W64) (headed : Bool) | dark (since : Nat)
deriving DecidableEq, Repr

/-- A shootdown under way (R414): the clusters that still owe an acknowledgement, and the physical ranges that it unmaps. -/
structure Shootdown where
  job : BitVec 24
  va : Nat
  len : Nat
  whole : Bool
  owing : List Nat
  answer : Bool
  freed : List (Nat × Nat)
deriving DecidableEq, Repr

/-- What an outstanding PRI page request holds (R368). -/
inductive PriUse where
  | load (r : CtxRef) (pos : Nat)
  | engine (c : CoreId) (g : Galley) (i : SlotId)
  | packet (c : CoreId)
  | queue (q : QueueId)
  | word (q : QueueId) (pos : SlotPos)
  /-- the oldest host access that waits -/
  | window
  /-- the oldest write of the device to host memory that waits -/
  | out
deriving DecidableEq, Repr

/-- An outstanding PRI page request: the physical and, for an access, the virtual address. -/
structure Pri where
  addr : Nat
  va : W64
  use : PriUse
deriving DecidableEq, Repr

/-- A host access of a window, in the order of arrival (R144, R369, R370). -/
inductive HostAct where
  | windowRead (f : FuncId) (off : BitVec 39) (size : Nat)
  | windowWrite (f : FuncId) (off : BitVec 39) (data : List Byte)
  | registerRead (f : FuncId) (off : BitVec 18) (size : Nat)
  | registerWrite (f : FuncId) (off : BitVec 18) (size : Nat) (v : W64)
  | doorbell (q : QueueId) (v : W32)
deriving DecidableEq, Repr

/-- A host access that waits, and the table read of its walk that a die under reset holds (R412). -/
structure HostHeld where
  act : HostAct
  since : Option (Nat × Nat)
deriving DecidableEq, Repr

/-- A DOE request (R425). -/
inductive DoeReq where
  | map (q : MapReq)
  | descriptor
  | colophon (nonce : BitVec 256)
  | config (r : ConfigReq)
  | lifecycle (target : LifeState) (signer : Signer) (nonce : BitVec 256)
deriving DecidableEq, Repr

/-- A write of the device to host memory that waits for its page (R368). -/
structure HostOut where
  func : FuncId
  pa : Nat
  data : List Byte
deriving DecidableEq, Repr

/-- What the package has sent outward. -/
inductive OutMsg where
  | msix (f : FuncId) (vec : BitVec 6)
  | windowData (data : List Byte)
  | windowUr
  | registerData (v : W64)
  | doe (type : Nat) (status : Nat) (body : List Byte)
  | report (code kernel start stop : W32) (bound limit : W64)
  | heartbeat (die : DieId)
  | pageRequest (addr : Nat)
  | storeData (c : CoreId) (off : BitVec 13) (v : W64)
deriving DecidableEq, Repr

/-- A turn that the agenda orders (log entry 1). -/
inductive Turn where
  /-- a core issues: its round-robin names the context (R17) -/
  | issue (c : CoreId)
  | event (i : Instr)
  | tick (dt : Nat)
  /-- an issue turn, or an event, on the clk of the turn before it -/
  | issueNow (c : CoreId)
  | eventNow (i : Instr)
  /-- the host writes its own memory (R122) -/
  | hostWrite (addr : Nat) (data : List Byte)
  /-- the root complex answers reads of a host byte with an error, or no longer (R240, R381) -/
  | hostError (addr : Nat) (bad : Bool)
  /-- a die-to-die link fails or is restored (R42): 0-3 the ring link from die n to the next, 4-7 the hub link of die n - 4 -/
  | dieLink (n : Fin 8) (dead : Bool)
  /-- the Proofreader's copy of a core's scalar state comes to differ from the control core's (R15, R212) -/
  | proofUpset (c : CoreId) (d : ProofDiff)
  /-- the leaf controller reads 8 bytes of a core's galley store for firmware, which sends them outward, or writes a byte of the firmware
  area (R18) -/
  | storeRead (c : CoreId) (off : BitVec 13)
  | storeWrite (c : CoreId) (off : BitVec 16) (b : Byte)
  /-- the copy engine reads a unit ahead of its commit (R359) -/
  | copyRead (c : CoreId) (n : Nat)
  /-- a host read of a control register (R370) -/
  | registerRead (f : FuncId) (off : BitVec 18) (size : Nat)
  /-- a PCIe function's configuration: ATS enabled or not, and the job that a VF is bound to (R368, R369) -/
  | function (f : FuncId) (ats : Bool) (job : BitVec 24)
  /-- the host's translation of a page of 4,096 bytes goes or comes (R368) -/
  | hostPage (page : Nat) (absent : Bool)
  /-- the scheduler grants a free group to a job with work, or, for job 0, ends the grant of a job without (R305) -/
  | groupGrant (n : BitVec 10) (job : BitVec 24)
  /-- what the next read of a sector finds there (R431): symbols that it corrects, or an error that it cannot -/
  | sectorError (sector : BitVec 47) (r : SectorResult)
  /-- a package reset is under way, before its wipe or in it (R421, R423); `PACKAGE_RESET` ends it -/
  | bootPhase (wiping : Bool)
deriving DecidableEq, Repr

/-- The package; `mapHeld` are MAP requests that wait for the die that holds the tables (R414), `doeHeld` DOE requests that wait for the package to
wake (R453), `keptRecords` the records of severed
launches by address and length (R405), `linkErrAt` the clk of a fabric link's last error (R441), `deferred` what schedulers that cannot act have still to do (R418), `sensedAt`, `polledAt` and `patrolAt` the clk of the last sensor round (R448), of the last reading
of the control fields (R435) and of the patrol's beginning (R432), `shrunk` by stack the bytes that the descriptor leaves out (R439). Of
HBM sectors, by number: `rawSectors` is the mode bitmap and `overflow` the overflow table (R430), `packed` what a sector stored compressed
holds (R429), `soft` an error that the decoder corrects, and `latent` one that it cannot, under a line that a cache holds (R431);
`roundPos` is the place of the round on this clk (log entry 1). -/
structure State where
  platen : W64
  cur : CtxRef
  agenda : List Turn
  draws : Nat
  mem : FMap Byte
  badBytes : FMap Bool
  rawSectors : FMap Bool
  overflow : FMap W32
  packed : FMap Packed
  soft : FMap Bool
  latent : FMap Bool
  l2 : FMap LineTag
  chase : FMap W64
  chaseLast : FMap (Option CoreId)
  chaseGrant : FMap (BitVec 24)
  groupGrant : FMap (BitVec 24)
  groups : FMap Group
  fabricId : W16
  cores : FMap Core
  clusters : FMap Cluster
  dies : FMap Die
  jobs : FMap Job
  tables : Nat
  maps : List Mapping
  launches : FMap Launch
  levels : List LevelInst
  entries : List Entry
  objects : List Object
  queues : FMap Queue
  funcs : FMap Func
  outbox : List OutMsg
  ymax : W64
  hotid : W64
  eweindEntry : W64
  boot : BootState
  lifecycle : LifeState
  nv : Nv
  pages : Pages
  table : LimitTable
  tableNext : LimitTable
  reportAt : Nat
  emgRounds : Nat
  coolSince : Nat
  overSince : Option Nat
  powers : List W32
  emergency : Emergency
  emgSaved : FMap (BitVec 24 × BitVec 24)
  deadLinks : FMap Bool
  linkErrAt : FMap Nat
  dieLinks : FMap Bool
  hostAbsent : FMap Bool
  errors : List ErrEvent
  pri : List Pri
  shootdowns : List Shootdown
  mapHeld : List MapReq
  hostHeld : List HostHeld
  doeHeld : List DoeReq
  hostOut : List HostOut
  keptRecords : List (Nat × Nat)
  deferred : List SchedAct
  sensedAt : Nat
  polledAt : Nat
  patrolAt : Nat
  shrunk : FMap Nat
  roundPos : Nat
  power : Bool
deriving DecidableEq, Repr

/-- The package right after reset, its boot done: nothing is placed, every memory reads zero (R423), the scheduler cores
are released (R421 step 7). -/
def State.reset : State :=
  { platen := 0, cur := ⟨0, 0⟩, agenda := [], draws := 0, mem := [], badBytes := [], rawSectors := [], overflow := [], packed := [], soft := [],
    latent := [], l2 := [],
    chase := [], chaseLast := [], chaseGrant := [], groupGrant := [], groups := [], fabricId := 0, cores := [],
    clusters := [], dies := [], jobs := [], tables := 0, maps := [], launches := [], levels := [], entries := [], objects := [],
    queues := [], funcs := [], outbox := [], ymax := 0x0000_1000_0004_0000, hotid := 0, eweindEntry := 0, boot := .ready,
    lifecycle := .provisioned, nv := .empty, pages := .reset, table := .air, tableNext := .air, reportAt := 0, emgRounds := 0,
    coolSince := 0, overSince := none, powers := [], emergency := .none, emgSaved := [], deadLinks := [], linkErrAt := [], dieLinks := [], hostAbsent := [], errors := [], pri := [],
    shootdowns := [], mapHeld := [], hostHeld := [], doeHeld := [], hostOut := [], keptRecords := [], deferred := [], sensedAt := 0, polledAt := 0, patrolAt := 0,
    shrunk := [], roundPos := 0, power := true }

end Sys2Proof.Machine
end

