-- ==== Sys2Proof/Machine/Access.lean ====
section
/-! DEFINITION. Reading and replacing the parts of the package, each through one accessor. -/
namespace Sys2Proof.Machine

/-! ### Parts of the package -/

def State.core (s : State) (c : CoreId) : Core := FMap.get s.cores Core.fresh c.val
def State.setCore (s : State) (c : CoreId) (k : Core) : State := { s with cores := FMap.insert s.cores c.val k }
def State.modCore (s : State) (c : CoreId) (f : Core → Core) : State := s.setCore c (f (s.core c))

def Core.ctx (k : Core) (x : CtxId) : Ctx := FMap.get k.ctxs Ctx.fresh x.val
def Core.setCtx (k : Core) (x : CtxId) (v : Ctx) : Core := { k with ctxs := FMap.insert k.ctxs x.val v }
def Core.modCtx (k : Core) (x : CtxId) (f : Ctx → Ctx) : Core := k.setCtx x (f (k.ctx x))

def State.ctx (s : State) (r : CtxRef) : Ctx := (s.core r.core).ctx r.ctx
def State.setCtx (s : State) (r : CtxRef) (v : Ctx) : State := s.setCore r.core ((s.core r.core).setCtx r.ctx v)
def State.modCtx (s : State) (r : CtxRef) (f : Ctx → Ctx) : State := s.setCtx r (f (s.ctx r))

def State.cluster (s : State) (c : ClusterId) : Cluster := FMap.get s.clusters Cluster.fresh c.val
def State.setCluster (s : State) (c : ClusterId) (v : Cluster) : State :=
  { s with clusters := FMap.insert s.clusters c.val v }
def State.modCluster (s : State) (c : ClusterId) (f : Cluster → Cluster) : State := s.setCluster c (f (s.cluster c))

def State.die (s : State) (d : DieId) : Die := FMap.get s.dies Die.fresh d.val
def State.setDie (s : State) (d : DieId) (v : Die) : State := { s with dies := FMap.insert s.dies d.val v }
def State.modDie (s : State) (d : DieId) (f : Die → Die) : State := s.setDie d (f (s.die d))

def State.queue (s : State) (q : QueueId) : Queue := FMap.get s.queues Queue.zero q.val
def State.setQueue (s : State) (q : QueueId) (v : Queue) : State := { s with queues := FMap.insert s.queues q.val v }
def State.modQueue (s : State) (q : QueueId) (f : Queue → Queue) : State := s.setQueue q (f (s.queue q))

def State.func (s : State) (f : FuncId) : Func := FMap.get s.funcs Func.zero f.val
def State.setFunc (s : State) (f : FuncId) (v : Func) : State := { s with funcs := FMap.insert s.funcs f.val v }

def State.group (s : State) (g : BitVec 10) : Group := FMap.get s.groups Group.empty g.toNat
def State.setGroup (s : State) (g : BitVec 10) (v : Group) : State := { s with groups := FMap.insert s.groups g.toNat v }

/-- The context whose turn it is. -/
def State.cc (s : State) : Core := s.core s.cur.core
def State.cx (s : State) : Ctx := s.ctx s.cur
def State.modCc (s : State) (f : Core → Core) : State := s.modCore s.cur.core f
def State.modCx (s : State) (f : Ctx → Ctx) : State := s.modCtx s.cur f

/-! ### Numbers (R9, R11) -/

def coreDie (c : CoreId) : DieId := ⟨c.val / 64 % 4, Nat.mod_lt _ (by decide)⟩
def coreCluster (c : CoreId) : ClusterId := ⟨c.val / 8 % 32, Nat.mod_lt _ (by decide)⟩
def clusterDie (c : ClusterId) : DieId := ⟨c.val / 8 % 4, Nat.mod_lt _ (by decide)⟩
def coreOfNat (n : Nat) : CoreId := ⟨n % 256, Nat.mod_lt _ (by decide)⟩
def clusterOfNat (n : Nat) : ClusterId := ⟨n % 32, Nat.mod_lt _ (by decide)⟩
def dieOfNat (n : Nat) : DieId := ⟨n % 4, Nat.mod_lt _ (by decide)⟩
def queueOfNat (n : Nat) : QueueId := ⟨n % 2048, Nat.mod_lt _ (by decide)⟩
def funcOfNat (n : Nat) : FuncId := ⟨n % 17, Nat.mod_lt _ (by decide)⟩
def slotOf (seq : BitVec 24) : SlotId := ⟨seq.toNat % 64, Nat.mod_lt _ (by decide)⟩
/-- The cores of a cluster, lowest first. -/
def coresOf (c : ClusterId) : List CoreId := (List.range 8).map fun i => coreOfNat (c.val * 8 + i)
def coresOfDie (d : DieId) : List CoreId := (List.range 64).map fun i => coreOfNat (d.val * 64 + i)
/-- The home die of a Chase counter (R11). -/
def ctrDie (c : BitVec 18) : DieId := dieOfNat (c.toNat / 65536)
/-- The die whose scheduler owns a queue (R1): 512 each. -/
def queueHome (q : QueueId) : DieId := dieOfNat (q.val / 512)
def allCores : List CoreId := (List.range 256).map coreOfNat
def allClusters : List ClusterId := (List.range 32).map clusterOfNat
def allDies : List DieId := (List.range 4).map dieOfNat

def teamCtx : CtxId := 0
/-- LC0, LC1 and LC2 (R16). -/
def lightCtxs : List CtxId := [1, 2, 3]
def galleys : List Galley := [.m, .v, .x, .k]

/-! ### Scalar registers (R10, R54) -/

/-- s0 reads as zero; every other register holds what was last written. -/
def Ctx.reg (x : Ctx) (r : Reg) : W64 := if r = 0 then 0 else FMap.get x.regs 0 r.toNat
/-- A write to s0 is discarded. -/
def Ctx.setReg (x : Ctx) (r : Reg) (v : W64) : Ctx :=
  if r = 0 then x else { x with regs := FMap.set x.regs 0 r.toNat v }
def State.reg (s : State) (r : Reg) : W64 := s.cx.reg r
/-- Advance the current context's pc. -/
def State.advance (s : State) (n : Nat) : State := s.modCx fun x => { x with pc := x.pc + BitVec.ofNat 64 n, wait := none }
/-- A register that an instruction writes no longer takes the value of an older load or atomic that is still in flight. -/
def Ctx.claim (x : Ctx) (d : Reg) : Ctx :=
  { x with
    loadQ := x.loadQ.map fun l => if l.dest = d then { l with live := false } else l
    storeQ := x.storeQ.map fun e =>
      match e.kind with
      | .atomic op cmp r o => if r = d then { e with kind := .atomic op cmp 0 o } else e
      | .plain | .release | .chSet _ | .chAdd _ => e }
/-- Write a register of the current context and go on to the next instruction, `n` bytes further. -/
def State.writeNext (s : State) (d : Reg) (v : W64) (n : Nat) : State :=
  s.modCx fun x => { (x.claim d).setReg d v with pc := x.pc + BitVec.ofNat 64 n, wait := none }
/-- Continue at an address. -/
def State.jump (s : State) (pc : W64) : State := s.modCx fun x => { x with pc := pc, wait := none }

/-! ### Galleys -/

def Core.galley (k : Core) : Galley → GalleyState
  | .m => k.galM
  | .v => k.galV
  | .x => k.galX
  | .k => k.galK
def Core.setGalley (k : Core) (g : Galley) (v : GalleyState) : Core :=
  match g with
  | .m => { k with galM := v }
  | .v => { k with galV := v }
  | .x => { k with galX := v }
  | .k => { k with galK := v }
def Core.modGalley (k : Core) (g : Galley) (f : GalleyState → GalleyState) : Core := k.setGalley g (f (k.galley g))
def GalleyState.slot (g : GalleyState) (i : Nat) : Slot := FMap.get g.slots Slot.fresh i
def GalleyState.setSlot (g : GalleyState) (i : Nat) (v : Slot) : GalleyState :=
  { g with slots := FMap.insert g.slots i v }
def GalleyState.modSlot (g : GalleyState) (i : Nat) (f : Slot → Slot) : GalleyState := g.setSlot i (f (g.slot i))
def Core.slot (k : Core) (g : Galley) (i : Nat) : Slot := (k.galley g).slot i
def Core.setSlot (k : Core) (g : Galley) (i : Nat) (v : Slot) : Core := k.modGalley g fun y => y.setSlot i v
def Core.modSlot (k : Core) (g : Galley) (i : Nat) (f : Slot → Slot) : Core := k.setSlot g i (f (k.slot g i))

def galleyCode : Galley → BitVec 2
  | .m => 0
  | .v => 1
  | .x => 2
  | .k => 3
/-- The galley's source code in CAUSE.UNIT (R316). -/
def galleyUnit (g : Galley) : BitVec 4 := (galleyCode g).setWidth 4 + 2

/-- Slots in use. -/
def GalleyState.live (g : GalleyState) : Nat := (g.tail - g.head).toNat
/-- The sequence numbers in the galley, oldest first. -/
def GalleyState.seqs (g : GalleyState) : List (BitVec 24) :=
  (List.range g.live).map fun i => g.head + BitVec.ofNat 24 i
/-- The slots in the galley, oldest first, each with its slot number. -/
def GalleyState.entries (g : GalleyState) : List (Nat × Slot) :=
  g.seqs.map fun q => ((slotOf q).val, g.slot (slotOf q).val)

def Core.tlb (k : Core) : Galley → List TlbEntry
  | .m => k.tlbM
  | .v => k.tlbV
  | .x => k.tlbX
  | .k => k.tlbK
def Core.setTlb (k : Core) (g : Galley) (t : List TlbEntry) : Core :=
  match g with
  | .m => { k with tlbM := t }
  | .v => { k with tlbV := t }
  | .x => { k with tlbX := t }
  | .k => { k with tlbK := t }

/-! ### Tiles and accumulators (R54, R58) -/

def Core.tile (k : Core) (t row : Nat) : Row := FMap.get k.tiles 0 (t * 64 + row)
/-- Write a tile row; a latch that holds the row loses its hold (R275). -/
def Core.setTile (k : Core) (t row : Nat) (v : Row) : Core :=
  { k with tiles := FMap.set k.tiles 0 (t * 64 + row) v
           latchA := k.latchA.map fun l => if l.1 = t * 64 + row then (l.1, false) else l
           latchB := k.latchB.map fun l => if l.1 = t * 64 + row then (l.1, false) else l }
/-- The visible bank (R26). -/
def Core.accRow (k : Core) (a row : Nat) : AccRow := FMap.get k.accV 0 (a * 64 + row)
def Core.workRow (k : Core) (a row : Nat) : AccRow := FMap.get k.accW 0 (a * 64 + row)
def Core.setWorkRow (k : Core) (a row : Nat) (v : AccRow) : Core :=
  { k with accW := FMap.set k.accW 0 (a * 64 + row) v }

/-- Copy an accumulator's 64 rows from one bank to another, keeping the other accumulators. -/
def bankCopy (dst src : FMap AccRow) (a : Nat) : FMap AccRow :=
  FMap.setMany dst 0 (a * 64) (FMap.getMany src 0 (a * 64) 64)
/-- Set an accumulator's 64 rows of a bank to zero. -/
def bankZero (dst : FMap AccRow) (a : Nat) : FMap AccRow := FMap.setMany dst 0 (a * 64) (List.replicate 64 0)

/-! ### Local time (R33), the budget's window (R71), pulse ratios (R325) -/

def satAdd (a b width : Nat) : Nat := min (a + b) (2 ^ width - 1)
/-- Charge bytes to the team context (R71). -/
def Core.charge (k : Core) (n : Nat) : Core := { k with wuse := setBits k.wuse 0 32 (satAdd (bitsN k.wuse 0 32) n 32) }

def State.now (s : State) : Nat := s.platen.toNat
def State.localTime (s : State) (c : CoreId) : W64 := s.platen - (s.core c).stoff
def State.pulse (s : State) (c : CoreId) : Nat := (s.cluster (coreCluster c)).k

/-- The job of a core's resident team. -/
def Core.job? (k : Core) : Option (BitVec 24) := k.team.map Resident.job
def Core.job (k : Core) : BitVec 24 :=
  match k.team with
  | some t => t.job
  | none => 0

/-- CTXID (R222); its reset value while no team is placed. -/
def State.ctxid (s : State) (r : CtxRef) : W64 :=
  let x := s.ctx r
  match (s.core r.core).team with
  | some t =>
    (t.index ++ t.launch ++ BitVec.ofNat 8 r.core.val ++ (0 : BitVec 4) ++ BitVec.ofBool x.priv ++
      BitVec.ofNat 3 r.ctx.val : BitVec 64)
  | none => 0

end Sys2Proof.Machine
end

