-- ==== Sys2Proof/Machine/Mem.lean ====
section
/-! DEFINITION. The physical space (02 R55), one byte at a time, with the health and power pages that firmware serves
(20 R433-R436, 21 R452), and the multi-byte reads and writes built on it (00 R4). -/
namespace Sys2Proof.Machine

/-- What a physical address names (R55). -/
inductive Place where
  | hbm (stack : Fin 8)
  | vault (die : DieId) (n : Fin 64)
  | scratch (c : ClusterId)
  | host
deriving DecidableEq, Repr

/-- The physical layout; none for a reserved range or an unpopulated part of a stack window. -/
def placeOf (pa : Nat) : Option Place :=
  if pa < 0x0080_0000_0000 then
    if pa % 0x10_0000_0000 < Config.stackBytes then
      some (.hbm ⟨pa / 0x10_0000_0000 % 8, Nat.mod_lt _ (by decide)⟩)
    else none
  else if 0x1_0000_0000_0000 ≤ pa ∧ pa < 0x1_0000_8000_0000 then
    some (.vault (dieOfNat ((pa - 0x1_0000_0000_0000) / 0x2000_0000))
      ⟨(pa - 0x1_0000_0000_0000) / 0x80_0000 % 64, Nat.mod_lt _ (by decide)⟩)
  else if 0x1_0000_8000_0000 ≤ pa ∧ pa < 0x1_0000_8800_0000 then
    some (.scratch (clusterOfNat ((pa - 0x1_0000_8000_0000) / 0x40_0000)))
  else if 0x8_0000_0000_0000 ≤ pa ∧ pa < 0x10_0000_0000_0000 then some .host
  else none

/-- Populated bytes of a stack window, as the descriptor reports them (R55, R439). -/
def State.populated (s : State) (st : Nat) : Nat := Config.stackBytes - FMap.get s.shrunk 0 st
/-- What an address that an access may reach names: above the populated part of a stack window, nothing (R55, R439). -/
def State.place (s : State) (pa : Nat) : Option Place :=
  match placeOf pa with
  | some (.hbm st) => if pa % 0x10_0000_0000 < s.populated st.val then some (.hbm st) else none
  | p => p
/-- Every byte of a run of at most one page may be reached (R55). -/
def State.reaches (s : State) (pa n : Nat) : Bool := (s.place pa).isSome && (n ≤ 1 || (s.place (pa + (n - 1))).isSome)
/-- The first byte of such a run that may not. -/
def State.outAt (s : State) (pa n : Nat) : Option Nat :=
  if s.reaches pa n then none else (List.range n).find? fun i => (s.place (pa + i)).isNone

/-- The first byte of a cluster's scratchpad (R55). -/
def scratchBase (c : ClusterId) : Nat := 0x1_0000_8000_0000 + c.val * 0x40_0000
/-- The first byte of a core's own vault (R55, R9). -/
def vaultBase (c : CoreId) : Nat := 0x1_0000_0000_0000 + c.val / 64 * 0x2000_0000 + c.val % 64 * 0x80_0000
def hostBase : Nat := 0x8_0000_0000_0000
def isHost (pa : Nat) : Bool := placeOf pa == some .host
def isHbm (pa : Nat) : Bool :=
  match placeOf pa with
  | some (.hbm _) => true
  | _ => false

/-! ### The pages firmware keeps in stack 0 -/

def PowerState.num : PowerState → Nat
  | .active => 0
  | .gated => 1
  | .dark => 2
  | .dormant => 3
  | .banked => 4
def LimitTable.num : LimitTable → Nat
  | .air => 0
  | .coldPlate => 1
  | .immersion => 2

def LogRec.field (l : LogRec) : Nat → W64
  | 0 => (l.occ ++ l.stack ++ l.core ++ l.unit ++ l.kind : BitVec 64)
  | 1 => l.time
  | 2 => l.addr
  | _ => l.detail

/-- The 8 bytes at offset 8 × `i` of the health page (R434). -/
def healthField (s : State) (i : Nat) : W64 :=
  let p := s.pages
  if i = 0 then 0x0000_0001_5452_4C48
  else if i = 1 then p.updated
  else if i = 2 then p.logprod
  else if i = 4 then p.rawScrubp
  else if i = 5 then ((0 : BitVec 32) ++ p.rawCethr ++ p.rawPatrol : BitVec 64)
  else if 8 ≤ i ∧ i < 40 then FMap.get p.stack 0 (i - 8)
  else if 40 ≤ i ∧ i < 104 then FMap.get p.dieCnt 0 (i - 40)
  else if 104 ≤ i ∧ i < 140 then FMap.get p.ports 0 (i - 104)
  else if 192 ≤ i ∧ i < 448 then
    BitVec.ofNat 64 (FMap.get (s.die (dieOfNat ((i - 192) / 64))).lateEnds 0 ((i - 192) % 64))
  else if 512 ≤ i ∧ i < 512 + 16384 then (FMap.get p.logs .zero ((i - 512) / 4)).field ((i - 512) % 4)
  else 0

/-- V(k) in mV. -/
def railOf (k : Nat) : Nat := 550 + 25 * k
/-- The rail `now`, slewed at 25 mV a µs towards its target since its slew began (R450). -/
def Cluster.railNow (y : Cluster) (now : Nat) : Nat :=
  let moved := (now - y.slewAt) * 25 / Config.clkPerUs
  match y.target with
  | some t => if y.railMv ≤ railOf t then min (railOf t) (y.railMv + moved) else max (railOf t) (y.railMv - moved)
  | none => y.railMv
/-- The rail slews towards a new ratio's voltage from where it stands. -/
def Cluster.slew (y : Cluster) (k now : Nat) : Cluster := { y with railMv := y.railNow now, slewAt := now, target := some k }
/-- The clk of the rail's last change by a millivolt. -/
def Cluster.railChanged (y : Cluster) (now : Nat) : Nat :=
  let d := if y.railMv ≤ y.railNow now then y.railNow now - y.railMv else y.railMv - y.railNow now
  y.slewAt + (d * Config.clkPerUs + 24) / 25
/-- The 8 bytes at offset 8 × `i` of the power page (R452). -/
def powerField (s : State) (i : Nat) : W64 :=
  let p := s.pages
  if i = 0 then 0x0000_0001_5257_5050
  else if i = 1 then
    BitVec.ofNat 64 (allClusters.foldl (fun u cl =>
      if (s.cluster cl).target.isSome then max u ((s.cluster cl).railChanged s.now) else u) p.powerUpdated.toNat)
  else if i = 2 then
    BitVec.ofNat 64 (p.rawLtol.toNat + p.package.num * 2 ^ 32 + s.table.num * 2 ^ 40 + p.savestat.toNat * 2 ^ 48)
  else if i = 3 then p.rawSavebase
  else if i = 4 then (p.flow ++ p.inlet ++ p.pkgMw : BitVec 64)
  else if i = 5 then s.hotid
  else if 6 ≤ i ∧ i < 38 then
    let c := s.cluster (clusterOfNat (i - 6))
    BitVec.ofNat 64 (c.throttle * 2 ^ 32 + c.railNow s.now * 2 ^ 16 + c.k * 2 ^ 11 + c.power.num * 2 ^ 8)
  else 0

/-- Where firmware's two pages end in stack 0 (R433, R452). -/
def pagesEnd : Nat := 0x20_1000

/-- A byte of firmware's pages. -/
def pageByte (s : State) (pa : Nat) : Byte :=
  let f := if pa < 0x20_0000 then healthField s (pa / 8) else powerField s ((pa - 0x20_0000) / 8)
  f.extractLsb' (8 * (pa % 8)) 8

/-- Replace a byte of a little-endian word. -/
def putByte {n : Nat} (w : BitVec n) (i : Nat) (b : Byte) : BitVec n := setBits w (8 * i) 8 b.toNat

/-- A write to firmware's pages reaches the control fields only; any other field is written again by firmware (R433). -/
def pageWrite (s : State) (pa : Nat) (b : Byte) : State :=
  let p := s.pages
  if 0x20 ≤ pa ∧ pa < 0x28 then { s with pages := { p with rawScrubp := putByte p.rawScrubp (pa - 0x20) b } }
  else if 0x28 ≤ pa ∧ pa < 0x2A then { s with pages := { p with rawPatrol := putByte p.rawPatrol (pa - 0x28) b } }
  else if 0x2A ≤ pa ∧ pa < 0x2C then { s with pages := { p with rawCethr := putByte p.rawCethr (pa - 0x2A) b } }
  else if 0x20_0010 ≤ pa ∧ pa < 0x20_0014 then
    { s with pages := { p with rawLtol := putByte p.rawLtol (pa - 0x20_0010) b } }
  else if 0x20_0018 ≤ pa ∧ pa < 0x20_0020 then
    { s with pages := { p with rawSavebase := putByte p.rawSavebase (pa - 0x20_0018) b } }
  else s

/-! ### Bytes -/

/-- One byte of the physical space. An unlisted byte reads zero (R69, R423; host memory: log entry 4). -/
def State.byte (s : State) (pa : Nat) : Byte := if pa < pagesEnd then pageByte s pa else FMap.get s.mem 0 pa

/-- Write one byte; an uncorrectable error there ends with the rewriting (R84). -/
def State.setByte (s : State) (pa : Nat) (b : Byte) : State :=
  if pa < pagesEnd then pageWrite s pa b
  else { s with mem := FMap.set s.mem 0 pa b, badBytes := FMap.set s.badBytes false pa false }

/-- `n` bytes from a physical address, least significant first, as a number. -/
def State.readNat (s : State) (pa : Nat) : Nat → Nat
  | 0 => 0
  | n + 1 => (s.byte pa).toNat + 256 * State.readNat s (pa + 1) n

/-- Write the low `n` bytes of a number. -/
def State.writeNat (s : State) (pa : Nat) (v : Nat) : Nat → State
  | 0 => s
  | n + 1 => State.writeNat (s.setByte pa (BitVec.ofNat 8 v)) (pa + 1) (v / 256) n

def State.read64 (s : State) (pa : Nat) : W64 := BitVec.ofNat 64 (s.readNat pa 8)
def State.read32 (s : State) (pa : Nat) : W32 := BitVec.ofNat 32 (s.readNat pa 4)
def State.readBytes (s : State) (pa n : Nat) : List Byte := (List.range n).map fun i => s.byte (pa + i)
def State.writeBytes (s : State) (pa : Nat) : List Byte → State
  | [] => s
  | b :: rest => State.writeBytes (s.setByte pa b) (pa + 1) rest

/-- A byte list as a number, least significant first. -/
def natOfBytes : List Byte → Nat
  | [] => 0
  | b :: rest => b.toNat + 256 * natOfBytes rest
/-- The low `n` bytes of a number, least significant first. -/
def bytesOfNat (v : Nat) : Nat → List Byte
  | 0 => []
  | n + 1 => BitVec.ofNat 8 v :: bytesOfNat (v / 256) n

/-- The line of an address is held by an L2, or dirty by an L1: a read of it reaches no memory (R65, R66). -/
def State.cached (s : State) (pa : Nat) : Bool :=
  s.l2.any (fun e => e.1 == pa / 128) || s.cores.any fun e => e.2.l1.any fun t => t.1 == pa / 128 && t.2.dirty
/-- A sector in HBM holds an error that its decoder cannot correct, until all of it is rewritten (R84, R428). -/
def State.sectorBad (s : State) (pa : Nat) : Bool := (List.range 32).any fun i => FMap.get s.badBytes false (pa / 32 * 32 + i)
/-- A read of an HBM byte is of its whole 32-byte sector (R428), which is uncorrectable until all of it is rewritten (R84); an error that
struck under a cached line is `latent` and none yet (log entry 11). -/
def State.badByte (s : State) (pa : Nat) : Bool :=
  if isHbm pa then s.sectorBad pa else FMap.get s.badBytes false pa
/-- Whether an uncorrectable error meets a read of `n` bytes, and at which byte first (R84). -/
def State.badAt (s : State) (pa n : Nat) : Option Nat :=
  match (List.range n).filter fun i => s.badByte (pa + i) with
  | [] => none
  | i :: _ => some (pa + i)

/-! ### Host translations (R368) -/

/-- The function through which a job's accesses reach host memory: the VF bound to the job, else the PF (log entry 14). -/
def State.jobFunc (s : State) (job : BitVec 24) : FuncId :=
  match s.funcs.find? fun e => e.1 != 0 && e.2.job == job with
  | some (i, _) => funcOfNat i
  | none => 0
/-- Whether a function has ATS enabled and the host's translation of an address is absent, in units of 4,096 bytes (log entry 14). -/
def State.hostMissing (s : State) (f : FuncId) (pa : Nat) : Bool := isHost pa && (s.func f).ats && FMap.get s.hostAbsent false (pa / 4096)

/-! ### Classes of a sector (R429) -/

/-- All bytes of a list are equal. -/
def allSame (l : List Byte) : Bool := l.all fun x => x == l.headD 0
/-- The first class whose condition holds. -/
def sectorClass (b : List Byte) : SectorClass :=
  let every := fun (step at_ : Nat) => (List.range (32 / step)).map fun i => b.getD (i * step + at_) 0
  if allSame b then .e else if allSame (every 2 1) then .h else if allSame (every 4 3) then .w else .x

/-- What a class keeps of 32 bytes: of E one byte, of H and W the equal byte and then the others in their order, of X all (R429; the order is
log entry 11). -/
def SectorClass.payload (c : SectorClass) (b : List Byte) : List Byte :=
  let rest := fun (step at_ : Nat) => b.getD at_ 0 :: (List.range 32).filterMap fun i => if i % step = at_ then none else some (b.getD i 0)
  match c with
  | .e => [b.getD 0 0]
  | .h => rest 2 1
  | .w => rest 4 3
  | .x => b
/-- The 32 bytes that a payload stands for. -/
def SectorClass.expand (c : SectorClass) (p : List Byte) : List Byte :=
  let rest := fun (step at_ : Nat) => (List.range 32).map fun i =>
    if i % step = at_ then p.getD 0 0 else p.getD (i / step * (step - 1) + i % step + 1) 0
  match c with
  | .e => List.replicate 32 (p.getD 0 0)
  | .h => rest 2 1
  | .w => rest 4 3
  | .x => p

/-! ### CRC-32C (R20, R46, R307); its polynomial is PRESUMED, log entry 7 -/

def crcBit (c : W32) : W32 := if c.getLsbD 0 then (c >>> 1) ^^^ 0x82F6_3B78 else c >>> 1
def crcByte (c : W32) (b : Byte) : W32 :=
  crcBit (crcBit (crcBit (crcBit (crcBit (crcBit (crcBit (crcBit (c ^^^ b.setWidth 32))))))))
/-- Byte by byte; the match makes a numeral of what has been reached before the next byte is taken. -/
def crcFold : List Byte → W32 → W32
  | [], c => c
  | b :: rest, c =>
    match c.toNat with
    | 0 => crcFold rest (crcByte 0 b)
    | n + 1 => crcFold rest (crcByte (BitVec.ofNat 32 (n + 1)) b)
def crc32c (bytes : List Byte) : W32 := ~~~ (crcFold bytes 0xFFFF_FFFF)

/-- The 64 bytes of a record (R19). -/
def Record.bytes (r : Record) : List Byte :=
  bytesOfNat r.w0.toNat 4 ++ bytesOfNat r.w1.toNat 4 ++ bytesOfNat r.o0.toNat 8 ++ bytesOfNat r.o1.toNat 8 ++
    bytesOfNat r.o2.toNat 8 ++ bytesOfNat r.o3.toNat 8 ++ bytesOfNat r.wait.toNat 8 ++ bytesOfNat r.sig.toNat 4 ++
    bytesOfNat r.sched.toNat 4 ++ bytesOfNat r.stamp.toNat 8
/-- The hash of a record (R20). -/
def Record.hash (r : Record) : W32 := crc32c r.bytes

/-- WAIT of a pending wait token (R19). -/
def waitField : Option (BitVec 18 × BitVec 40) → W64
  | some (c, t) => (t ++ (0 : BitVec 5) ++ (1 : BitVec 1) ++ c : BitVec 64)
  | none => 0
/-- SIG of a pending signal token. -/
def sigField : Option (BitVec 18 × BitVec 12) → W32
  | some (c, i) => (i ++ (0 : BitVec 1) ++ (1 : BitVec 1) ++ c : BitVec 32)
  | none => 0
/-- SCHED: stage generation, stamp kind, quoin. -/
def schedField (sgen : W16) : Option PendStamp → W32
  | some p => (sgen ++ (0 : BitVec 2) ++ (if p.offset then (2 : BitVec 2) else 1) ++ p.quoin : BitVec 32)
  | none => (sgen ++ (0 : BitVec 16) : BitVec 32)

/-- The bytes of a checkpoint copy before its CRC, in the order of R46 (log entry 79): s1-s63, the pc, the loop state, the pending tokens and
stamp, the galleys' tails, the counts of the data queues, the push count. -/
def Checkpoint.bytes (p : Checkpoint) : List Byte :=
  let word := fun (w : W64) => bytesOfNat w.toNat 8
  ((List.range 63).flatMap fun i => word (FMap.get p.regs 0 (i + 1))) ++ word p.pc ++ word p.lcnt ++ word p.lbase ++ word p.lring ++
    word (waitField p.pending.wait) ++ bytesOfNat (sigField p.pending.signal).toNat 4 ++ bytesOfNat (schedField 0 p.pending.stamp).toNat 4 ++
    word ((p.pending.stamp.map PendStamp.value).getD 0) ++
    [p.tailM, p.tailV, p.tailX, p.tailK].flatMap (fun t => bytesOfNat t.toNat 4) ++
    (List.range 8).flatMap (fun i => bytesOfNat (FMap.get p.appended 0 i).toNat 4 ++ bytesOfNat (FMap.get p.popped 0 i).toNat 4) ++
    bytesOfNat p.fmtPush.toNat 4
/-- A copy with the CRC-32C over it (R212). -/
def Checkpoint.sealed (p : Checkpoint) : Checkpoint := { p with crc := crc32c p.bytes }
/-- The 64 bytes of an entry of the folio queue (R18, R36; log entry 79). -/
def Folio.bytes (f : Folio) : List Byte :=
  bytesOfNat f.addr.toNat 8 ++ bytesOfNat f.len 8 ++ bytesOfNat f.handler.toNat 8 ++ bytesOfNat f.sender.val 8 ++ bytesOfNat f.job.toNat 8 ++
    List.replicate 24 0

end Sys2Proof.Machine
end

