-- ==== Sys2Proof/Machine/Work.lean ====
section
/-! DEFINITION. Reports, Chase counters and the levels of work: events (17 R388-R390), log records (20 R436), counter
updates (01 R29-R31), completion of a team, a launch and the levels above it (01 R38-R42, 18 R405). -/
namespace Sys2Proof.Machine

/-! ### Events and log records -/

/-- An event entry (R389). -/
structure Event where
  kind : Nat
  code : Nat
  core : Nat
  code2 : Nat
  queue : Nat
  pos : Nat
  team : Nat
  arg0 : W64
  arg1 : W64
deriving DecidableEq, Repr

def Event.none : Event := ⟨0, 0, 0xFF, 0, 0, 0, 0, 0, 0⟩

def Event.bytes (e : Event) : List Byte :=
  bytesOfNat e.kind 1 ++ bytesOfNat e.code 1 ++ bytesOfNat e.core 1 ++ bytesOfNat e.code2 1 ++ bytesOfNat e.queue 2 ++
    bytesOfNat 0 2 ++ bytesOfNat e.pos 4 ++ bytesOfNat e.team 4 ++ bytesOfNat e.arg0.toNat 8 ++ bytesOfNat e.arg1.toNat 8

/-- The oldest held write of the device to host memory asks for its page (R368). -/
def State.askOut (s : State) : State :=
  match s.hostOut with
  | o :: _ =>
    if s.pri.any fun p => p.use == .out then s
    else { s with pri := s.pri ++ [⟨o.pa, 0, .out⟩], outbox := s.outbox ++ [.pageRequest o.pa] }
  | [] => s
/-- A write of the device to a function's host memory; behind an absent page, or behind one that waits, it is held in order (R368). -/
def State.hostPut (s : State) (f : FuncId) (pa : Nat) (data : List Byte) : State :=
  if s.hostOut.isEmpty && !s.hostMissing f pa then s.writeBytes pa data
  else ({ s with hostOut := s.hostOut ++ [⟨f, pa, data⟩] } : State).askOut
/-- Held writes go on in their order, up to the first whose page is absent. -/
def State.drainOut (s : State) : List HostOut → State
  | [] => { s with hostOut := [] }
  | o :: rest =>
    if s.hostMissing o.func o.pa then ({ s with hostOut := o :: rest } : State).askOut
    else State.drainOut (s.writeBytes o.pa o.data) rest

/-- The address of a function's event ring header (R388). -/
def Func.ring (g : Func) : Nat := hostBase + g.evbase.toNat
/-- FLAGS and DROPPED of the header (R388). -/
def State.putOvf (s : State) (f : FuncId) : State :=
  let g := s.func f
  (s.hostPut f (g.ring + 4) (bytesOfNat g.ovf.toNat 4)).hostPut f (g.ring + 8) (bytesOfNat g.dropped.toNat 8)
/-- Post an event to a function's ring, or drop it with OVF (R388); a ring that is not enabled has no header to write, which takes what it
missed when it is (log entry 23). -/
def State.post (s : State) (f : FuncId) (e : Event) : State :=
  let g := s.func f
  let n := 2 ^ (bitsN g.evcfg 0 4)
  if g.evcfg.getLsbD 63 ∧ (g.prod - g.evcons.setWidth 32).toNat < n then
    let s1 := s.hostPut f (g.ring + 32 + 32 * (g.prod.toNat % n)) e.bytes
    (s1.hostPut f g.ring (bytesOfNat (g.prod + 1).toNat 4)).setFunc f { g with prod := g.prod + 1 }
  else
    let s1 := s.setFunc f { g with ovf := true, dropped := g.dropped + 1 }
    if g.evcfg.getLsbD 63 then s1.putOvf f else s1

/-- The function that owns a queue (R371). -/
def Queue.func (q : Queue) : FuncId := funcOfNat (bitsN q.qcfg 52 5)
/-- An event that concerns a queue (R389). -/
def State.postQ (s : State) (q : QueueId) (e : Event) : State := s.post (s.queue q).func { e with queue := q.val }

/-- Firmware writes a log record, then LOGPROD (R436). -/
def State.log (s : State) (r : LogRec) : State :=
  let p := s.pages
  { s with pages := { p with logs := FMap.set p.logs .zero (p.logprod.toNat % 4096) { r with time := s.platen }
                             logprod := p.logprod + 1, updated := s.platen } }

/-- Count in a die's block of the health page (R434). -/
def State.bumpDie (s : State) (d : DieId) (i : Nat) : State :=
  let p := s.pages
  { s with pages := { p with dieCnt := FMap.set p.dieCnt 0 (d.val * 16 + i) (FMap.get p.dieCnt 0 (d.val * 16 + i) + 1)
                             updated := s.platen } }
/-- Count in a stack's block: 0 CE, 1 UE, 2 RAWW, 3 REPQ (R434). -/
def State.bumpStack (s : State) (st i : Nat) : State :=
  let p := s.pages
  { s with pages := { p with stack := FMap.set p.stack 0 (st * 4 + i) (FMap.get p.stack 0 (st * 4 + i) + 1)
                             updated := s.platen } }
def State.bumpPort (s : State) (port i : Nat) : State :=
  let p := s.pages
  { s with pages := { p with ports := FMap.set p.ports 0 (port * 2 + i) (FMap.get p.ports 0 (port * 2 + i) + 1)
                             updated := s.platen } }

/-- The lines of the mode bitmap and of the overflow table that hold a sector's entries, in the reserved area beyond its stack's data area
(R430; where in that area is log entry 11). -/
def tableLines (n : Nat) : List Nat :=
  let st := n / 0x8000_0000
  let k := n % 0x8000_0000
  let base := st * 0x2000_0000 + Config.stackBytes / 128
  [base + k / 1024, base + (Config.stackBytes / 32 / 1024 + 1) + k / 32]
/-- The L2 holds a line beside its data lines; one that is written is dirty (R430). -/
def State.holdTables (s : State) (n : Nat) (raw dirty : Bool) : State :=
  let put := fun (m : FMap LineTag) (l : Nat) =>
    FMap.insert m l { (FMap.get m ⟨false, false, false⟩ l) with dirty := dirty || (FMap.get m ⟨false, false, false⟩ l).dirty }
  { s with l2 := (if raw then tableLines n else (tableLines n).take 1).foldl put s.l2 }
/-- A sector of HBM is classified and stored as it is written, its mode bit and, while it is raw, its overflow entry with it as one event; a
raw-class write is counted (R429, R430, R434). Where bytes of it are still uncorrectable the sector stays as it is (R84, R431). -/
def State.codeSector (s : State) (n : Nat) : State :=
  if !isHbm (n * 32) || s.sectorBad (n * 32) then s
  else
    let b := s.readBytes (n * 32) 32
    let c := sectorClass b
    let raw := c == .x
    let check := Config.checkSymbols raw (natOfBytes b)
    let s1 := ({ s with
      rawSectors := FMap.set s.rawSectors false n raw
      overflow := if raw then FMap.set s.overflow 0 n check else s.overflow
      packed := if raw then FMap.erase s.packed n else FMap.set s.packed .zero n ⟨c, c.payload b, check⟩
      soft := FMap.set s.soft false n false, latent := FMap.set s.latent false n false } : State).holdTables n raw true
    if raw then s1.bumpStack (n * 32 / 2 ^ 36 % 8) 2 else s1

/-! ### Power states (R452, R453) -/

/-- Firmware writes the power page where a step has changed the clusters. -/
def State.notePower (s old : State) : State :=
  if s.clusters = old.clusters then s else { s with pages := { s.pages with powerUpdated := s.platen } }
/-- The package sleeps: what needs it waits for its exit. -/
def State.asleep (s : State) : Bool := s.pages.package != .active
/-- The exit latency of a state, in clk. -/
def PowerState.exitClk : PowerState → Nat
  | .active => 0
  | .gated => 2 * Config.clkPerUs
  | .dark => 40 * Config.clkPerUs
  | .dormant => 600 * Config.clkPerUs
  | .banked => 8000 * Config.clkPerUs
/-- A unit goes to a state that is less deep, and is not already on its way there or further. -/
def leaves (cur dest : PowerState) (wake : Option (Nat × PowerState)) : Bool := decide (dest.num < cur.num) && wake.all fun w => decide (dest.num < w.2.num)
/-- A cluster begins to leave its state, and its rail to rise: for ACTIVE to a ratio that the manual does not give, 4 to 16 (log entry 3). In a
thermal emergency it stays. -/
def State.wakeCluster (s : State) (cl : ClusterId) (dest : PowerState) : State :=
  let y := s.cluster cl
  if !leaves y.power dest y.wake || s.emergency != .none then s
  else if dest = .active then
    let k := 4 + (Config.freeValue s.draws).toNat % 13
    ({ s.setCluster cl { y.slew k s.now with wake := some (s.now, dest) } with draws := s.draws + 1 } : State).notePower s
  else (s.setCluster cl { y.slew 0 s.now with wake := some (s.now, dest) }).notePower s
/-- The package begins to leave its state. -/
def State.wakePackage (s : State) (dest : PowerState) : State :=
  if leaves s.pages.package dest s.pages.wake then { s with pages := { s.pages with wake := some (s.now, dest) } } else s
/-- A core's cluster and the package are ACTIVE. -/
def State.powered (s : State) (c : CoreId) : Bool := (s.cluster (coreCluster c)).power == .active && !s.asleep
/-- What is placed on a core, or sent to it, makes them leave their states (R453). -/
def State.wakeFor (s : State) (c : CoreId) : State := (s.wakePackage .active).wakeCluster (coreCluster c) .active
/-- The deepest cluster state that LTOL allows. -/
def clusterState (ltol : Nat) : PowerState := if 40 ≤ ltol then .dark else if 2 ≤ ltol then .gated else .active
def packageState (ltol : Nat) : PowerState := if 8000 ≤ ltol then .banked else if 600 ≤ ltol then .dormant else .active
/-- LTOL falls: each unit in a deeper state goes to the deepest that it allows (R457). -/
def State.wakeDeeper (s : State) : State :=
  let ltol := s.pages.ltol.toNat
  (allClusters.foldl (fun (s' : State) cl => s'.wakeCluster cl (clusterState ltol)) s).wakePackage (packageState ltol)

/-! ### Memory errors and repairs (R431, R438) -/

/-- 24 hours in clk (R6). -/
def dayClk : Nat := 86400 * 1000000 * Config.clkPerUs

/-- A repair entry that is queued: a row, or a pin of a pseudo-channel, whatever the bank (log entry 85). -/
def rowRepair (sector stack : Nat) : Repair := (Config.rowOf sector ++ BitVec.ofNat 8 stack ++ (0 : BitVec 64) : BitVec 128)
def pinRepair (sector stack : Nat) (pin : W32) : Repair :=
  (pin ++ (0 : BitVec 8) ++ (Config.rowOf sector).setWidth 16 ++ BitVec.ofNat 8 stack ++ (0x10 : BitVec 64) : BitVec 128)
/-- Its STATE replaced. -/
def Repair.withState (r : Repair) (st : Nat) : Repair := setBits r 0 4 st

/-- The list holds the entry. -/
def State.repairHeld (s : State) (r : Repair) : Bool := s.nv.repairs.any fun x => x.withState 0 == r
/-- Queue a repair: not twice; with 1,024 entries in the list it is dropped, and the record says so. -/
def State.queueRepair (s : State) (r : Repair) (pa : Nat) : State :=
  if s.repairHeld r then s
  else
    let full := decide (1024 ≤ s.nv.repairs.length)
    let s1 := if full then s
      else ({ s with nv := { s.nv with repairs := s.nv.repairs ++ [r] } } : State).bumpStack (pa / 2 ^ 36 % 8) 3
    s1.log { LogRec.zero with
      kind := 7, core := 0xFF, stack := BitVec.ofNat 8 (pa / 2 ^ 36 % 8), addr := BitVec.ofNat 64 pa
      detail := (r.withState (if full then 3 else 0)).setWidth 64 }

/-- The errors of the last 24 hours. -/
def State.recentErrors (s : State) : List ErrEvent := s.errors.filter fun e => s.platen.toNat < e.at_ + dayClk
/-- Keep an error, and queue a pin's repair when its symbol position comes to have failed in four rows of the pseudo-channel. -/
def State.keepError (s : State) (pa : Nat) (ue : Bool) : State :=
  let n := pa / 32
  let st := pa / 2 ^ 36 % 8
  let e : ErrEvent := ⟨n, s.platen.toNat, ue⟩
  let pin := Config.pinOf n e.at_
  let rows := fun (es : List ErrEvent) => ((es.filter fun f =>
    decide (f.sector * 32 / 2 ^ 36 % 8 = st) && (Config.rowOf f.sector).setWidth 16 == (Config.rowOf n).setWidth 16 &&
      Config.pinOf f.sector f.at_ == pin).map fun f => Config.rowOf f.sector).eraseDups.length
  let s1 := { s with errors := s.recentErrors ++ [e] }
  if 4 ≤ rows s1.errors ∧ rows s.recentErrors < 4 then s1.queueRepair (pinRepair n st pin) pa else s1

/-- An uncorrectable error is read: UE is counted, a record is written, the row's repair is queued (R431). -/
def State.uncorrectable (s : State) (pa : Nat) : State :=
  let st := pa / 2 ^ 36 % 8
  if 2 ^ 39 ≤ pa then s
  else
    let s1 := (s.bumpStack st 1).log { LogRec.zero with kind := 1, core := 0xFF, stack := BitVec.ofNat 8 st, addr := BitVec.ofNat 64 pa }
    (s1.keepError pa true).queueRepair (rowRepair (pa / 32) st) pa
/-- Corrected errors of the last 24 hours in the row of an address. -/
def State.rowErrors (s : State) (pa : Nat) : Nat :=
  (s.recentErrors.filter fun f =>
    !f.ue && decide (f.sector * 32 / 2 ^ 36 % 8 = pa / 2 ^ 36 % 8) && Config.rowOf f.sector == Config.rowOf (pa / 32)).length
/-- A row reaches CETHR: it is recorded, whatever the repair list holds, and its repair is queued (R436, R438). -/
def State.crossRow (s : State) (pa : Nat) : State :=
  let st := pa / 2 ^ 36 % 8
  (s.log { LogRec.zero with kind := 2, core := 0xFF, stack := BitVec.ofNat 8 st, addr := BitVec.ofNat 64 pa }).queueRepair (rowRepair (pa / 32) st) pa
/-- A corrected error: CE is counted; only the crossing of CETHR is recorded (R431, R436, R438). -/
def State.correctedError (s : State) (pa : Nat) : State :=
  let s1 := (s.bumpStack (pa / 2 ^ 36 % 8) 0).keepError pa false
  if s.rowErrors pa < s.pages.cethr.toNat ∧ s.pages.cethr.toNat ≤ s1.rowErrors pa then s1.crossRow pa else s1
/-- A read reaches a sector in its stack: where its decoder corrects it, that is counted and the sector is rewritten (R431). -/
def State.heal (s : State) (n : Nat) : State :=
  if FMap.get s.soft false n && !s.sectorBad (n * 32) then
    (({ s with soft := FMap.set s.soft false n false } : State).correctedError (n * 32)).codeSector n
  else s

/-- Clear a range of physical bytes to zero: its whole sectors are of class E, and one that it covers in part is coded anew (R429). -/
def State.zeroRange (s : State) (pa n : Nat) : State :=
  let outside := fun (i : Nat) => i * 32 < pa || pa + n < i * 32 + 32
  let s1 := { s with
    mem := s.mem.filter fun e => e.1 < pa || pa + n ≤ e.1
    badBytes := s.badBytes.filter fun e => e.1 < pa || pa + n ≤ e.1
    rawSectors := s.rawSectors.filter fun e => outside e.1
    packed := s.packed.filter fun e => outside e.1
    soft := s.soft.filter fun e => outside e.1
    latent := s.latent.filter fun e => outside e.1 }
  ([pa / 32, (pa + n) / 32].eraseDups.filter fun i => outside i && decide (i * 32 < pa + n)).foldl (fun s' i => s'.codeSector i) s1

/-! ### Chase counters (R29-R31) -/

def State.ctr (s : State) (c : BitVec 18) : W64 := FMap.get s.chase 0 c.toNat
/-- The count, bits [62:0]. -/
def ctrCount (v : W64) : Nat := v.toNat % 2 ^ 63
def ctrError (v : W64) : Bool := v.getLsbD 63
def ctrWord (count : Nat) (err : Bool) : W64 := BitVec.ofNat 64 (count % 2 ^ 63 + (if err then 2 ^ 63 else 0))

/-- A wait token, or `CH.WAIT`, on a counter value (R30). -/
def ctrSatisfied (v : W64) (threshold : Nat) : Bool := ctrError v || threshold ≤ ctrCount v

/-- The queues whose device doorbell is counter `c` receive its new value (R380). -/
def deliverDoorbells (qs : FMap Queue) (c : BitVec 18) (v : W64) : FMap Queue :=
  qs.map fun (i, q) =>
    if q.qdb.getLsbD 18 ∧ q.qdb.setWidth 18 = c ∧ q.qcfg.getLsbD 63 then (i, { q with heldDb := q.heldDb ++ [v.setWidth 32] })
    else (i, q)

/-- One update of a counter, as one event in its order; the Chase keeps the core of the last update (R29, R326). -/
def State.setCtr (s : State) (c : BitVec 18) (v : W64) (who : Option CoreId) : State :=
  { s with chase := FMap.set s.chase 0 c.toNat v
           chaseLast := FMap.set s.chaseLast none c.toNat who
           queues := deliverDoorbells s.queues c v }
/-- The three copies of a counter are all under reset, so operations on it hold (R417, R418). -/
def State.ctrHeld (s : State) (c : BitVec 18) : Bool :=
  (s.die (ctrDie c)).resetAt.isSome && (s.die (dieOfNat ((ctrDie c).val + 1))).resetAt.isSome

/-- Add to the count modulo 2^63; the error flag is sticky (R29, R31, R242). -/
def State.addCtr (s : State) (c : BitVec 18) (inc : Nat) (err : Bool) (who : Option CoreId) : State :=
  s.setCtr c (ctrWord (ctrCount (s.ctr c) + inc) (ctrError (s.ctr c) || err)) who

/-- Whether a counter is the completion counter of a level of a job (R241, R405). -/
def State.isCompletionCtr (s : State) (job : BitVec 24) (c : BitVec 18) : Bool :=
  s.launches.any (fun (_, l) => l.ctr == c && l.entry.job == job) ||
  s.levels.any (fun l => l.ctr == c && l.job == job && !l.ended)
/-- Whether a counter is granted to a job; job numbers start at 1, and 0 in the grant store is no grant. -/
def State.granted (s : State) (job : BitVec 24) (c : BitVec 18) : Bool :=
  (FMap.get s.chaseGrant 0 c.toNat) == job && job != 0
/-- May the context wait on the counter (R241)? -/
def State.mayWait (s : State) (priv : Bool) (job : BitVec 24) (c : BitVec 18) : Bool :=
  priv || s.granted job c || s.isCompletionCtr job c
/-- May the context update the counter (R241)? -/
def State.mayUpdate (s : State) (priv : Bool) (job : BitVec 24) (c : BitVec 18) : Bool :=
  priv || (s.granted job c && !s.isCompletionCtr job c)

/-! ### Schedulers and their links (R415, R418, R419, R42) -/

/-- The scheduler that owns what a die owned: itself, or its adopter (R419). -/
def State.schedulerOf (s : State) (d : DieId) : DieId :=
  match (s.die d).adopter with
  | some a => a
  | none => d

/-- The dies that a live path joins to the hub: over their own hub link, or over ring links from such a die (R42, R341). -/
def State.reached (s : State) : List DieId :=
  let dead := fun (n : Nat) => FMap.get s.dieLinks false n
  let dies : List DieId := [0, 1, 2, 3]
  let near := fun (r : List DieId) => dies.filter fun d => r.contains d ||
    (r.contains (d + 1) && !dead d.val) || (r.contains (d + 3) && !dead (d + 3).val)
  near (near (near (dies.filter fun d => !dead (4 + d.val))))
def State.cutOff (s : State) (d : DieId) : Bool := !s.reached.contains d
/-- A scheduler acts on what die `d` owned, with counter `c`: it runs, has the state, and the counter answers (R417, R418). -/
def State.acts (s : State) (d : DieId) (c : BitVec 18) : Bool :=
  !(s.die d).held && (s.die (s.schedulerOf d)).resetAt.isNone && !s.ctrHeld c
def State.defer (s : State) (a : SchedAct) : State := { s with deferred := s.deferred ++ [a] }

/-- Permits of one direction of a link: 16 on a command link, 32 on a peer link. Links 0-7 lead to the die's leaf controllers, 8-10 to the
dies that follow it clockwise; 12-23 are the same links the other way. -/
def permitsFull (link : Nat) : Nat := if link % 12 < 8 then 16 else 32
def Die.permitsLeft (d : Die) (link : Nat) : Nat := FMap.get d.permits (permitsFull link) link
/-- A message goes and is consumed: a permit is spent, and owed. -/
def Die.message (d : Die) (link now : Nat) : Die :=
  { d with permits := FMap.insert d.permits link (d.permitsLeft link - 1), owed := FMap.set d.owed 0 link (FMap.get d.owed 0 link + 1)
           owedSince := if d.owed.isEmpty then now else d.owedSince }
/-- What is owed on a link comes back. -/
def Die.repay (d : Die) (link : Nat) : Die :=
  { d with permits := FMap.insert d.permits link (min (permitsFull link) (d.permitsLeft link + FMap.get d.owed 0 link))
           owed := FMap.set d.owed 0 link 0 }
/-- The command link of a cluster. -/
def linkOf (cl : ClusterId) : Nat := cl.val % 8
/-- The peer link from a die to another. -/
def peerLink (d e : DieId) : Nat := 8 + (e.val + 3 - d.val) % 4
/-- A message can go from a die's scheduler on a link. -/
def State.mayMessage (s : State) (d : DieId) (link : Nat) : Bool := decide (0 < (s.die d).permitsLeft link)
/-- A message goes. -/
def State.message (s : State) (d : DieId) (link : Nat) : State := s.modDie d fun y => y.message link s.now
/-- A message between two schedulers can go; a scheduler needs none to itself. -/
def State.mayPeer (s : State) (d e : DieId) : Bool := d == e || s.mayMessage d (peerLink d e)
def State.peerMessage (s : State) (d e : DieId) : State := if d = e then s else s.message d (peerLink d e)

/-! ### Launches and the levels above -/

def State.launch? (s : State) (id : BitVec 24) : Option Launch :=
  (s.launches.find? fun (i, _) => i == id.toNat).map Prod.snd
def State.setLaunch (s : State) (id : BitVec 24) (l : Launch) : State :=
  { s with launches := FMap.insert s.launches id.toNat l }

/-- A team's state; a team that never started is dropped by a cancel (R41 step 1). -/
def Launch.team (l : Launch) (i : BitVec 24) : TeamState :=
  match FMap.get l.teams .waiting i.toNat with
  | .waiting => if l.cancelled then .cancelled else .waiting
  | t => t
def Launch.setTeam (l : Launch) (i : BitVec 24) (t : TeamState) : Launch :=
  { l with teams := FMap.set l.teams .waiting i.toNat t }
def TeamState.isFinal : TeamState → Bool
  | .retired | .failed | .cancelled | .lost => true
  | .waiting | .loading | .running | .saved => false
/-- Every team that has started is in a final state. -/
def Launch.quiet (l : Launch) : Bool := l.teams.all fun (_, t) => t.isFinal

/-- Find a declared instance that has not ended. -/
def State.level? (s : State) (lv : Level) (num job : BitVec 24) : Option LevelInst :=
  s.levels.find? fun l => l.level == lv && l.num == num && l.job == job && !l.ended
def State.modLevel (s : State) (lv : Level) (num job : BitVec 24) (f : LevelInst → LevelInst) : State :=
  { s with levels := s.levels.map fun l => if l.level == lv && l.num == num && l.job == job && !l.ended then f l else l }

/-- Open the first unopened phase of a job (R405, phase order). -/
def openFirst (job : BitVec 24) : List LevelInst → List LevelInst
  | [] => []
  | l :: rest =>
    if l.level == .phase && l.job == job && !l.ended && !l.opened then { l with opened := true } :: rest
    else l :: openFirst job rest
/-- The next phase opens when the one before it has completed. -/
def State.openPhase (s : State) (job : BitVec 24) : State :=
  if s.levels.any fun l => l.level == .phase && l.job == job && !l.ended && l.opened then s
  else { s with levels := openFirst job s.levels }

/-- The level that encloses an instance, by kind (R405). -/
def LevelInst.outer (l : LevelInst) : Option (Level × BitVec 24) :=
  match l.level with
  | .graph => if l.parent = 0 then none else some (.phase, l.parent)
  | .phase => some (.job, l.job)
  | .launch | .job => none

/-- Add 1 to an instance's counter, and complete it and those above it when its membership is reached (R40); a scheduler that cannot act
leaves it to be done (R418). -/
def State.levelAdd (s : State) (lv : Level) (num job : BitVec 24) (err : Bool) : Nat → State
  | 0 => s
  | fuel + 1 =>
    match s.level? lv num job with
    | none => s
    | some l =>
      if !s.acts (queueHome l.queue) l.ctr then s.defer (.add lv num job err)
      else
      let s1 := (s.addCtr l.ctr 1 err none).modLevel lv num job fun y => { y with done := y.done + 1 }
      if l.stopping then s1
      else if ctrCount (s1.ctr l.ctr) = l.members then
        let s2 := s1.modLevel lv num job fun y => { y with ended := true, err := ctrError (s1.ctr l.ctr) }
        let s3 := if lv = .phase then s2.openPhase job else s2
        match l.outer with
        | some (o, n) => State.levelAdd s3 o n job (ctrError (s1.ctr l.ctr)) fuel
        | none => s3
      else s1

/-- The launch belongs to the graph: one whose GRAPH is 0 belongs to none (R405). -/
def Launch.inGraph (l : Launch) (num job : BitVec 24) : Bool := l.entry.level != 0 && l.entry.level == num && l.entry.job == job
/-- The graph belongs to the phase: one whose PARENT is 0 belongs to none (R405). -/
def LevelInst.inPhase (g : LevelInst) (num job : BitVec 24) : Bool := g.level == .graph && g.parent != 0 && g.parent == num && g.job == job

/-- A launch that has completed adds to its graph (R40). -/
def State.launchDone (s : State) (id : BitVec 24) (l : Launch) : State :=
  let s1 := s.setLaunch id { l with complete := true }
  if l.entry.level = 0 then s1 else s1.levelAdd .graph l.entry.level l.entry.job (ctrError (s1.ctr l.ctr)) 4

/-- Set a level's counter in one update to its membership with bit 63 (R40, R41 step 3, R42 step 3). -/
def State.forceCtr (s : State) (c : BitVec 18) (members : Nat) : State := s.setCtr c (ctrWord members true) none

/-- The bytes of one team bitmap (R420). -/
def bitmapBytes (teams : Nat) : Nat := (teams + 63) / 64 * 8
/-- Where launch records lie in a die's HBM, and where its HBM holds the copy of the scheduler whose first adopter it is (log entry 21). -/
def recordBase (d : DieId) : Nat := 2 * d.val * 0x10_0000_0000 + 0xA_0000_0000
def recordSpace : Nat := 0x1_0000_0000
/-- The second copy of a byte of a record, in the HBM of the next die (R417, R420). -/
def recordCopy (pa : Nat) : Nat :=
  recordBase (dieOfNat (pa / 0x20_0000_0000 + 1)) + recordSpace + (pa % 0x20_0000_0000 - recordBase 0)
/-- Set a bit of a byte, and code its sector anew (R429). -/
def State.setBit (s : State) (pa i : Nat) : State := (s.setByte pa (s.byte pa ||| BitVec.ofNat 8 (2 ^ i))).codeSector (pa / 32)
/-- Set a team's bit in a bitmap of device memory, in both copies (R417, R420). -/
def State.setBitmap (s : State) (base : Nat) (i : BitVec 24) : State :=
  let pa := base + i.toNat / 64 * 8 + i.toNat % 64 / 8
  (s.setBit pa (i.toNat % 8)).setBit (recordCopy pa) (i.toNat % 8)
def State.bitmapBit (s : State) (base : Nat) (i : Nat) : Bool :=
  (s.byte (base + i / 64 * 8 + i % 64 / 8)).getLsbD (i % 8)

/-- The unknown-team bitmap of a severed launch: teams lost with the die whose retired bit is clear (R42 step 2). -/
def State.writeUnknown (s : State) (l : Launch) : State :=
  let base := l.recordAt + bitmapBytes l.entry.teams.toNat
  l.teams.foldl (fun s' (i, t) => if t = .lost then s'.setBitmap base (BitVec.ofNat 24 i) else s') s

/-- A launch whose stopped teams are all final completes with bit 63; a severed one first writes its unknown teams (R41 step 3, R42
steps 2 and 3). -/
def State.settleLaunch (s : State) (id : BitVec 24) : State :=
  match s.launch? id with
  | none => s
  | some l =>
    if s.acts l.owner l.ctr && l.stopping && !l.complete && l.quiet && (l.severing || l.teams.all fun e => e.2 != .lost) then
      let s1 := if l.severing then s.writeUnknown l else s
      (s1.forceCtr l.ctr l.entry.teams.toNat).launchDone id { l with severed := l.severing }
    else s

/-- The launches of a graph are complete. -/
def State.graphQuiet (s : State) (num job : BitVec 24) : Bool :=
  s.launches.all fun (_, l) => !l.inGraph num job || l.complete
/-- Every member below a stopping instance has completed (R41 step 3). -/
def State.belowQuiet (s : State) (l : LevelInst) : Bool :=
  match l.level with
  | .graph => s.graphQuiet l.num l.job
  | .phase => s.levels.all fun g => !g.inPhase l.num l.job || g.ended
  | .job => s.levels.all fun p => p.level != .phase || p.job != l.job || p.ended
  | .launch => true

/-- Complete the stopping instances of one kind (R41 step 3). -/
def State.settleLevel (s : State) (lv : Level) : State :=
  s.levels.foldl (fun s' l =>
    if s'.acts (queueHome l.queue) l.ctr && l.level == lv && l.stopping && !l.ended && s'.belowQuiet l then
      let s1 := s'.forceCtr l.ctr l.members
      let s2 := s1.modLevel lv l.num l.job fun y => { y with ended := true, err := true }
      let s3 := if lv = .phase then s2.openPhase l.job else s2
      match l.outer with
      | some (o, n) => s3.levelAdd o n l.job true 4
      | none => s3
    else s') s

/-- Carry out every completion that a cancel or a severing still waits for. -/
def State.settle (s : State) : State :=
  let s1 := s.launches.foldl (fun s' (i, _) => s'.settleLaunch (BitVec.ofNat 24 i)) s
  ((s1.settleLevel .graph).settleLevel .phase).settleLevel .job

/-- The launch's scheduler learns that a team has reached a final state: a retired team's bit is set first, then the launch counter gets its
addition, with bit 63 for a team that failed or was cancelled (R39). A stopping launch completes by `settle` instead. -/
def State.countTeam (s : State) (launch team : BitVec 24) (t : TeamState) : State :=
  match s.launch? launch with
  | none => s
  | some l =>
    let s2 := if t = .retired then s.setBitmap l.recordAt team else s
    let s3 := if l.complete then s2 else s2.addCtr l.ctr 1 (t != .retired) none
    let s4 :=
      if l.stopping || l.complete then s3
      else if ctrCount (s3.ctr l.ctr) = l.entry.teams.toNat then s3.launchDone launch l
      else s3
    s4.settle
/-- A team reaches a final state (R38); a scheduler that cannot act counts it once it can (R418). -/
def State.teamFinal (s : State) (launch team : BitVec 24) (t : TeamState) : State :=
  match s.launch? launch with
  | none => s
  | some l =>
    let s1 := s.setLaunch launch (l.setTeam team t)
    if s.acts l.owner l.ctr then s1.countTeam launch team t else s1.defer (.final launch team t)

end Sys2Proof.Machine
end

