-- ==== Sys2Proof/Machine/Lane.lean ====
section
/-! DEFINITION. Cache lines (02 R65, R66, R76) and what an entry of the store queue does when it is performed (02 R70, 05 R131,
09 R238, R242). -/
namespace Sys2Proof.Machine

/-- `n` bytes zero- or sign-extended to 64 bits. -/
def extendN (signed : Bool) (n v : Nat) : W64 :=
  let u := v % 2 ^ (8 * n)
  if signed && 2 ^ (8 * n - 1) ≤ u then BitVec.ofInt 64 ((u : Int) - (2 ^ (8 * n) : Nat)) else BitVec.ofNat 64 u

/-! ### Cache lines (R65, R66, R76) -/

def lineOf (pa : Nat) : Nat := pa / 128
/-- A dirty L2 line is written to its stack, sector by sector (R66, R429). -/
def State.writeStack (s : State) (line : Nat) : State := (List.range 4).foldl (fun s' i => s'.codeSector (line * 4 + i)) s

/-- USED < BUDGET; a budget of 524,288 or more never restrains the lane (R71, R72). -/
def Core.laneOpen (k : Core) : Bool := 524288 ≤ bitsN k.wbud 0 32 || bitsN k.wuse 0 32 < bitsN k.wbud 0 32
/-- The budget's windows that have begun since the last one counted: USED falls by BUDGET for each (R71). -/
def Core.rollWindow (k : Core) (now : Nat) : Core :=
  let n := now / 4096 - k.window
  let used := bitsN k.wuse 0 32 - n * bitsN k.wbud 0 32
  { k with wuse := setBits k.wuse 0 32 used, window := max k.window (now / 4096) }
/-- A line is written back: charged where the budget lets it leave, else when it does; those that wait leave in their order (R71). -/
def Core.writeBack (k : Core) (zero : Bool) : Core :=
  let n := if zero then 8 else 128
  if k.wbq.isEmpty && (k.laneOpen || k.team.isNone) then k.charge n else { k with wbq := k.wbq ++ [n] }
/-- Write-backs that wait leave while the budget lets them. -/
def Core.leaveBacks (k : Core) : List Nat → Core
  | [] => { k with wbq := [] }
  | n :: rest => if k.laneOpen then Core.leaveBacks (k.charge n) rest else { k with wbq := n :: rest }

/-- Lines of an L1, 384 KiB, and of a die's L2, 96 MiB (R1). -/
def l1Lines : Nat := 3072
def l2Lines : Nat := 786432
/-- The die in whose stacks a line lies (R55, R65). -/
def lineDie (line : Nat) : Nat := line * 128 / 0x20_0000_0000 % 4
/-- Some context's load without its value, or its atomic, is on its way to some of `n` bytes: its read of them was checked with it (R225), so
that no error comes to stand there before it ends, unless a control-core reset is under way (R47, R313; log entry 29). -/
def State.reading (s : State) (pa n : Nat) : Bool :=
  s.cores.any fun (_, k) => !k.resetting && k.ctxs.any fun (_, x) =>
    x.loadQ.any (fun l => l.got.isNone && decide (l.pa < pa + n) && decide (pa < l.pa + l.n)) ||
    x.storeQ.any fun e => (match e.kind with
      | .atomic _ _ _ _ => true
      | .plain | .release | .chSet _ | .chAdd _ => false) && decide (e.pa < pa + n) && decide (pa < e.pa + e.n)
/-- Errors that struck under a line come to light when no cache holds it any more (R431, log entry 11). -/
def State.surface (s : State) (line : Nat) : State :=
  if s.cached (line * 128) then s
  else (List.range 4).foldl (fun s' i =>
    if FMap.get s'.latent false (line * 4 + i) && !s'.reading ((line * 4 + i) * 32) 32 then
      { s' with latent := FMap.set s'.latent false (line * 4 + i) false
                badBytes := FMap.setMany s'.badBytes false ((line * 4 + i) * 32) (List.replicate 32 true) }
    else s') s
/-- A full L2 makes room for a line: which line leaves the manual does not say, so it is a free one (log entry 71); a dirty one is
written to its stack, and with it its lines of the two tables may take a place (R430), so that the first argument bounds how often. -/
def State.roomL2 (s : State) (line : Nat) : Nat → State
  | 0 => s
  | fuel + 1 =>
    let own := s.l2.filter fun e => lineDie e.1 == lineDie line
    if own.any (fun e => e.1 == line) || decide (own.length < l2Lines) then s
    else
      match own.drop ((Config.freeValue s.draws).toNat % own.length) with
      | (l, t) :: _ =>
        let s1 := { s with l2 := FMap.erase s.l2 l, draws := s.draws + 1 }
        State.roomL2 (if t.dirty then s1.writeStack l else s1.surface l) line fuel
      | [] => s
/-- The L2 of the owning die holds a line. -/
def State.fillL2 (s : State) (line : Nat) (t : LineTag) : State :=
  let s1 := s.roomL2 line 16
  { s1 with l2 := FMap.insert s1.l2 line t }
/-- A read reaches a line that no cache holds: its four sectors are read, and the L2 holds it then (R65, R431; log entry 71). -/
def State.readLine (s : State) (line : Nat) : State :=
  if s.cached (line * 128) then s
  else
    let s1 := (List.range 4).foldl (fun s' i => (s'.heal (line * 4 + i)).holdTables (line * 4 + i) (FMap.get s'.rawSectors false (line * 4 + i)) false) s
    s1.fillL2 line ⟨false, false, false⟩
/-- The lines that `n` bytes touch. -/
def linesOf (pa n : Nat) : List Nat := if n = 0 then [] else (List.range (lineOf (pa + n - 1) - lineOf pa + 1)).map fun i => lineOf pa + i
/-- `n` bytes of HBM are read, through the L2 of their die. -/
def State.readThrough (s : State) (pa n : Nat) : State := if isHbm pa then (linesOf pa n).foldl State.readLine s else s
/-- Physical runs are read. -/
def State.readAll (s : State) (runs : List (Nat × Nat)) : State := runs.foldl (fun s' r => s'.readThrough r.1 r.2) s

/-- A core's L1 loses a line; a dirty one is a write-back and passes to the memory-side L2 with its zero flag (R65, R66, R71). -/
def State.evictLine (s : State) (c : CoreId) (line : Nat) : State :=
  let k := s.core c
  match k.l1.find? fun e => e.1 == line with
  | none => s
  | some (_, t) =>
    let k1 := { k with l1 := FMap.erase k.l1 line }
    if t.dirty then (s.setCore c ((k1.rollWindow s.now).writeBack t.zero)).fillL2 line ⟨true, t.zero, false⟩ else s.setCore c k1
/-- A core's L1 takes a line; a full one loses a free one first (log entry 71). -/
def State.fillL1 (s : State) (c : CoreId) (line : Nat) (t : LineTag) : State :=
  let k := s.core c
  let s1 :=
    if k.l1.any (fun e => e.1 == line) || decide (k.l1.length < l1Lines) then s
    else
      match k.l1.drop ((Config.freeValue s.draws).toNat % k.l1.length) with
      | (l, _) :: _ => ({ s with draws := s.draws + 1 } : State).evictLine c l
      | [] => s
  s1.modCore c fun k' => { k' with l1 := FMap.insert k'.l1 line t }
/-- Every L1 but one loses a line that is written (R65). -/
def State.invalidateOthers (s : State) (c : CoreId) (line : Nat) : State :=
  s.cores.foldl (fun s' e => if e.1 = c.val then s' else s'.evictLine (coreOfNat e.1) line) s
/-- A core writes in a line of an HBM range: its L1 holds the line dirty, with the zero flag given (R65, R66). -/
def State.dirtyLine (s : State) (c : CoreId) (pa : Nat) (zero : Bool) : State :=
  if isHbm pa then
    (s.invalidateOthers c (lineOf pa)).fillL1 c (lineOf pa) ⟨true, zero, false⟩
  else s
/-- A write, or an atomic, is made at the owning die's L2: every L1 loses the line (R65, R131). -/
def State.atL2 (s : State) (line : Nat) (zero : Bool) : State :=
  (s.cores.foldl (fun s' e => s'.evictLine (coreOfNat e.1) line) s).fillL2 line ⟨true, zero, false⟩
/-- A core reads a line: its L1 holds it, marked where the page is stereotype (R65, R76). -/
def State.touchLine (s : State) (c : CoreId) (pa : Nat) (stereotype : Bool) : State :=
  if isHbm pa || (stereotype && isHost pa) then
    if (FMap.keys (s.core c).l1).contains (lineOf pa) then s
    else (if isHbm pa then s.readLine (lineOf pa) else s).fillL1 c (lineOf pa) ⟨false, false, stereotype⟩
  else s

/-! ### Performing an entry -/

/-- A number of `n` bytes as two's complement. -/
def signedN (n v : Nat) : Int := if 2 ^ (8 * n - 1) ≤ v then (v : Int) - (2 ^ (8 * n) : Nat) else v

/-- The new value of an atomic's location; none where a compare fails (R238). -/
def atomicNew (op : BitVec 3) (n old b f : Nat) : Option Nat :=
  match op.toNat with
  | 0 => some ((old + b) % 2 ^ (8 * n))
  | 1 => some (if signedN n b < signedN n old then b else old)
  | 2 => some (if signedN n old < signedN n b then b else old)
  | 3 => some (old &&& b)
  | 4 => some (old ||| b)
  | 5 => some (old ^^^ b)
  | 6 => some b
  | _ => if old = f then some b else none

/-- Perform an entry of core `c`: a store's bytes, an atomic's one event, a Chase update; with an atomic's old value. -/
def State.perform (s : State) (c : CoreId) (e : StoreEntry) : State × Option Nat :=
  match e.kind with
  | .plain | .release => (((s.readThrough e.pa e.n).writeNat e.pa e.data.toNat e.n).dirtyLine c e.pa false, none)
  | .chSet n => (s.setCtr n e.data (some c), none)
  | .chAdd n => (s.addCtr n (ctrCount e.data) (ctrError e.data) (some c), none)
  | .atomic op cmp _ _ =>
    let s0 := s.readThrough e.pa e.n
    let old := s.readNat e.pa e.n
    let m := 2 ^ (8 * e.n)
    match atomicNew op e.n old (e.data.toNat % m) (cmp.toNat % m) with
    | some v => (let s1 := s0.writeNat e.pa v e.n; if isHbm e.pa then s1.atL2 (lineOf e.pa) false else s1, some old)
    | none => (s0, some old)

/-- The context's stores and atomics that are not performed yet, oldest first (R70, R74, R124). -/
def Ctx.pendingStores (x : Ctx) : List StoreEntry := x.unacked ++ x.storeQ
/-- Every such entry is performed, in order, the budget disregarded (R75). -/
def State.drainCtx (s : State) (c : CoreId) (x : CtxId) : State :=
  let s1 := (s.ctx ⟨c, x⟩).pendingStores.foldl (fun s' e => (s'.perform c e).1) s
  s1.modCtx ⟨c, x⟩ fun y => { y with storeQ := [], unacked := [] }
/-- Every entry of a core's store queues is performed. -/
def State.drainCore (s : State) (c : CoreId) : State := ([0, 1, 2, 3] : List CtxId).foldl (fun s' x => s'.drainCtx c x) s

end Sys2Proof.Machine
end

