-- ==== Sys2Proof/Machine/Ops.lean ====
section
/-! DEFINITION. The shared operations of the meanings: raising a trap and starting its handler (12 R313-R319), the return
from one (R320), the double fault (R323), a team leaving its core (01 R38-R39, R37), and the steps of a scalar instruction. -/
namespace Sys2Proof.Machine

/-! ### Causes (R315) -/

def causeIllegal : BitVec 8 := 0x01
def causePriv : BitVec 8 := 0x02
def causeAlign : BitVec 8 := 0x03
def causeFault : BitVec 8 := 0x04
def causeProt : BitVec 8 := 0x05
def causeStereo : BitVec 8 := 0x06
def causeMemerr : BitVec 8 := 0x07
def causeNan : BitVec 8 := 0x08
def causeResidue : BitVec 8 := 0x09
def causeProof : BitVec 8 := 0x0A
def causeSchedMiss : BitVec 8 := 0x0B
def causeStall : BitVec 8 := 0x0C
def causeOverrun : BitVec 8 := 0x0D
def causeOverdraw : BitVec 8 := 0x0E
def causeWlane : BitVec 8 := 0x0F
def causeFmtq : BitVec 8 := 0x10
def causeReplayLost : BitVec 8 := 0x11
def causeGroupAbsent : BitVec 8 := 0x12
def causeDouble : BitVec 8 := 0x13
def causeIrrevocable : BitVec 8 := 0x14
def causeFolio : BitVec 8 := 0x15
def causeTrap : BitVec 8 := 0x16

/-- A trap of the control core with no TINFO. -/
def Trap.plain (code : BitVec 8) (addr : W64) : Trap := ⟨code, 0, addr, 0, none⟩

/-- The CAUSE register of a trap (R316). -/
def causeWord (t : Trap) (more : Bool) : W64 :=
  ((0 : BitVec 48) ++ t.unit ++ (0 : BitVec 3) ++ BitVec.ofBool more ++ t.code : BitVec 64)

/-- TINFO of a physical address, KIND 4 (R317). -/
def infoPhys (pa : Nat) : W64 := BitVec.ofNat 64 (pa % 2 ^ 52 * 16 + 4)
/-- TINFO of a record, KIND 1 (R317). -/
def infoRecord (g : Galley) (seq : BitVec 24) : W64 :=
  (galleyCode g ++ seq.setWidth 6 ++ seq ++ (0 : BitVec 28) ++ (1 : BitVec 4) : BitVec 64)
/-- TINFO of a record and an element, KIND 2 (R317): K-step, column, row, accumulator. -/
def infoElement (g : Galley) (seq : BitVec 24) (kstep col row acc : Nat) : W64 :=
  (galleyCode g ++ seq.setWidth 6 ++ seq ++ BitVec.ofNat 8 kstep ++ BitVec.ofNat 7 col ++ BitVec.ofNat 6 row ++
    BitVec.ofNat 3 acc ++ (0 : BitVec 4) ++ (2 : BitVec 4) : BitVec 64)
/-- PIDX of a record: its mark and its galley (R23). -/
def pidxOf (g : Galley) (y : Slot) : W64 := (y.prog ++ y.seq ++ galleyCode g ++ (0 : BitVec 6) : BitVec 64)

/-! ### Entry (R319) -/

/-- The light contexts of a core that are dormant, LC0 first. -/
def Core.dormantLights (k : Core) : List CtxId := lightCtxs.filter fun x => (k.ctx x).run == .dormant

/-- Whether a light context serves a trap of context `x`. -/
def Core.handlerOf (k : Core) (x : CtxId) : Option CtxId := lightCtxs.find? fun h => (k.ctx h).role == .trap x

/-- Step 3 and 4 of R319: a dormant light context starts at the trap entry address, FPX and EVL zero with it (R68); with none
dormant the trap waits. -/
def Core.startHandler (k : Core) (x : CtxId) (ctxid : W64) : Core :=
  match k.dormantLights with
  | [] => k
  | h :: _ =>
    let y := k.ctx x
    let l := k.ctx h
    let l' := { l with regs := [], dq := [], pc := k.trapEntry, priv := true, run := .running, role := .trap x,
                       wait := none, passOver := false, fpx := 0, evl := 0 }
    k.setCtx h (((l'.setReg 1 y.cause).setReg 2 y.taddr).setReg 3 (ctxid &&& 7))

/-- Step 1 and 2 of R319: the trapped context stops and its trap registers are written. -/
def Core.writeTrap (k : Core) (x : CtxId) (t : Trap) (tepc : W64) : Core :=
  let more := x == teamCtx && !k.traps.isEmpty
  let k1 := k.modCtx x fun y =>
    { y with run := .trapped, cause := causeWord t more, taddr := t.addr, tepc := tepc &&& ~~~3, tinfo := t.info,
             wait := none }
  match t.pidx with
  | some p => { k1 with pidx := p }
  | none => k1

/-- An access in flight whose context no longer waits for its value: it is performed and its value discarded. -/
def StoreEntry.orphan (e : StoreEntry) : StoreEntry :=
  match e.kind with
  | .atomic op cmp _ o => { e with kind := .atomic op cmp 0 o }
  | .plain | .release | .chSet _ | .chAdd _ => e

/-- A context is dormant again. What R319 carries over to its next run stays: its Case, FPX, EVL and trap registers; its
stores still leave (R229, R314), and values that return to it are discarded. -/
def Ctx.sleep (x : Ctx) : Ctx :=
  { x with run := .dormant, role := .none, wait := none, priv := false, storeQ := x.storeQ.map StoreEntry.orphan,
           loadQ := x.loadQ.map (fun l => { l with dest := 0, acquire := false, live := false }), dq := [], passOver := false }

/-! ### A team leaves its core (R22, R37, R38, R293, R251) -/

/-- Post FOLIOLOST for a folio whose handler never starts or never finishes (R37, R390). -/
def State.folioLost (s : State) (c : CoreId) (f : Folio) : State :=
  s.post 0 { Event.none with kind := 6, code := 0x15, core := c.val, arg0 := f.handler, arg1 := BitVec.ofNat 64 f.sender.val }

/-- The folios of a core whose handlers run. -/
def Core.runningFolios (k : Core) : List Folio :=
  lightCtxs.filterMap fun x =>
    match (k.ctx x).role with
    | .folio f => some f
    | .none | .trap _ => none

/-- Every record becomes FREE without a signal (R22, last row). -/
def GalleyState.freeAll (g : GalleyState) : GalleyState :=
  { g with slots := g.slots.map (fun (i, y) => (i, { y with st := .free })), head := g.tail, noProgress := 0,
           asked := none, waits := none, resetting := false }

/-- What a core holds for a team ends with it: records, format words, pins, the region, pending traps, light contexts
(R22, R101, R293, R251, R324); the trap registers stay until the next allocation (R68, R323). A grant that its product still holds
ends with a spacer from `now` (R339). -/
def Core.release_ (k : Core) (now : Nat) : Core :=
  { k with
    team := none
    ctxs := k.ctxs.map fun (i, x) =>
      (i, if i = 0 then { Ctx.fresh with cause := x.cause, taddr := x.taddr, tepc := x.tepc, tinfo := x.tinfo } else { x.sleep with loadQ := [] })
    galM := k.galM.freeAll, galV := k.galV.freeAll, galX := k.galX.freeAll, galK := k.galK.freeAll
    fmtQ := [], pins := [], pwrl := 0, traps := [], folioQ := [], pending := .none, preempt := none
    wantGrant := none, spacerFrom := if k.grant && k.spacerFrom.isNone then some now else k.spacerFrom, replay := none, resetAsked := false, resetting := false, overFor := 0, withheld := false }

/-- A power request of a core that nothing waits for any more leaves the manager's queue (R250). -/
def State.withdrawRegion (s : State) (c : CoreId) : State :=
  s.modCluster (coreCluster c) fun cl => { cl with regionQ := cl.regionQ.filter fun e => e.1 != c }
/-- The walks and page requests of a team that has left its core serve nobody (R33, R410). -/
def State.dropWaits (s : State) (c : CoreId) : State :=
  let s1 := s.modDie (coreDie c) fun d => { d with walks := d.walks.filter fun w => w.core != c || w.unit == .packet }
  ({ s1 with pri := s1.pri.filter fun p =>
      match p.use with
      | .load r _ => r.core != c
      | .engine e _ _ => e != c
      | .packet _ | .queue _ | .word _ _ | .window | .out => true } : State).withdrawRegion c

/-- The unit of charge: what a stint consumed is added to the entry's account (R396). -/
def State.chargeEntry (s : State) (launch : BitVec 24) (clk : Nat) : State :=
  match s.launch? launch with
  | none => s
  | some l =>
    { s with entries := s.entries.map fun e =>
        if e.queue == l.entry.queue && e.pos == l.entry.pos then { e with consumed := e.consumed + clk } else e }

/-- The resident team of a core becomes RETIRED, FAILED or CANCELLED (R38, R39): its stores are performed (R75, R229),
folios are dropped and reported, the core is free, and the launch gets its addition. -/
def State.endTeam (s : State) (c : CoreId) (t : TeamState) : State :=
  let k := s.core c
  match k.team with
  | none => s
  | some r =>
    let lost := k.runningFolios ++ k.folioQ
    let s1 := lost.foldl (fun s' f => s'.folioLost c f) (s.drainCore c)
    let s2 := (s1.modCore c fun y => y.release_ s.now).dropWaits c
    (s2.chargeEntry r.launch r.charge).teamFinal r.launch r.index t

/-- Record why a team failed: LASTFAIL and TEAMFAIL take it (R372, R390). -/
def State.noteFail (s : State) (c : CoreId) (t : Trap) (tepc : W64) (event : Bool) : State :=
  match (s.core c).team with
  | none => s
  | some r =>
    match s.launch? r.launch with
    | none => s
    | some l =>
      let s1 := s.setLaunch r.launch { l with failed := some (r.index, t, tepc) }
      if event then
        s1.postQ l.entry.queue { Event.none with
          kind := 2, code := t.code.toNat, core := c.val, pos := l.entry.pos.toNat, team := r.index.toNat,
          arg0 := t.addr, arg1 := tepc }
      else s1

/-- The resident team becomes FAILED with a cause (R38). -/
def State.failTeam (s : State) (c : CoreId) (t : Trap) (tepc : W64) : State :=
  (s.noteFail c t tepc true).endTeam c .failed

/-- The cause in a context's trap registers. -/
def Ctx.trapOf (x : Ctx) : Trap := ⟨x.cause.setWidth 8, (x.cause >>> 12).setWidth 4, x.taddr, x.tinfo, none⟩

/-! ### Double fault (R323) -/

/-- A trap of a context that serves a trap: both causes are kept, the handler ends, the team becomes FAILED, DOUBLE is
reported. -/
def State.doubleFault (s : State) (r : CtxRef) (of : CtxId) (t : Trap) : State :=
  let k := s.core r.core
  let y := k.ctx of
  let k1 := { k.modCtx r.ctx Ctx.sleep with dfcause := causeWord t false, dfaddr := t.addr }
  let s1 := s.setCore r.core k1
  let s2 := s1.noteFail r.core ⟨causeDouble, 0, y.taddr, y.tinfo, none⟩ y.tepc false
  let s3 :=
    match k.team with
    | some m =>
      match s.launch? m.launch with
      | some l => s2.postQ l.entry.queue { Event.none with
          kind := 3, code := y.cause.toNat % 256, code2 := t.code.toNat, core := r.core.val, pos := l.entry.pos.toNat,
          team := m.index.toNat, arg0 := y.taddr, arg1 := t.addr }
      | none => s2
    | none => s2
  s3.endTeam r.core .failed

/-- A MEMERR of an uncorrectable sector is the read of it (R431); that of a silent die or of the root complex is none. -/
def State.noteRead (s : State) (t : Trap) : State :=
  if t.code = causeMemerr ∧ s.badByte (bitsN t.info 4 52) then s.uncorrectable (bitsN t.info 4 52) else s

/-- TAKING A TRAP (R319): a context that serves a trap double-faults; any other stops, its trap registers are written and
a handler starts if a light context is dormant. -/
def State.raiseNoted (s : State) (r : CtxRef) (t : Trap) (tepc : W64) : State :=
  match (s.ctx r).role with
  | .trap of => s.doubleFault r of t
  | .none | .folio _ =>
    let s1 := s.setCore r.core (((s.core r.core).writeTrap r.ctx t tepc).startHandler r.ctx (s.ctxid r))
    if r.ctx = teamCtx then s1.withdrawRegion r.core else s1
/-- A trap that is raised and taken at once; a MEMERR is noted as the read that it is. -/
def State.raise (s : State) (r : CtxRef) (t : Trap) (tepc : W64) : State := (s.noteRead t).raiseNoted r t tepc

/-- A class I trap of the current context, precise at its pc (R313). -/
def State.trapHere (s : State) (code : BitVec 8) (addr : W64) : State := s.raise s.cur (.plain code addr) s.cx.pc
/-- ILLEGAL and PRIV name the first word's address (R192). -/
def State.illegal (s : State) : State := s.trapHere causeIllegal s.cx.pc
def State.privTrap (s : State) : State := s.trapHere causePriv s.cx.pc

/-- The order of traps raised on one clk: OVERRUN, OVERDRAW, then record traps in galley order (R321). -/
def Trap.rank (t : Trap) : Nat :=
  if t.code = causeOverrun then 0 else if t.code = causeOverdraw then 1 else 2 + (t.unit.toNat - 2)
/-- Put a trap behind those of its clk that do not come after it. -/
def insertTrap (t : Trap) : List Trap → List Trap
  | [] => [t]
  | u :: rest => if t.rank < u.rank then t :: u :: rest else u :: insertTrap t rest
/-- A pending trap takes its place: in the order in which they were raised, and on one clk in that of R321. -/
def Core.pendTrap (k : Core) (t : Trap) (now : Nat) : Core :=
  let n := if k.trapClk = now then min k.trapsNow k.traps.length else 0
  let old := k.traps.length - n
  { k with traps := k.traps.take old ++ insertTrap t (k.traps.drop old), trapClk := now, trapsNow := n + 1 }
/-- A class R or A trap is raised; it is taken at the team context's next boundary (R313, R321). -/
def State.raiseLater (s : State) (c : CoreId) (t : Trap) : State := (s.noteRead t).modCore c fun k => k.pendTrap t s.now

/-- A waiting stop point (R43, R313). -/
def WaitKind.isStop : WaitKind → Bool
  | .popq _ | .chWait _ _ _ | .fence _ _ _ _ _ | .halt | .wfe _ _ | .pwr _ => true
  | .walk _ | .reg _ | .bar _ _ | .align _ | .storeFull _ | .atomic _ _ | .acquire _ _ | .dlv _ _ _ _ _ | .fmt | .ldq | .stgRel
  | .galley _ => false

/-- The team context stands at a boundary, or waits at a stop point (R313). -/
def Ctx.atBoundary (x : Ctx) : Bool :=
  x.run == .running &&
  (match x.wait with
   | none => true
   | some w => w.kind.isStop)

/-- Values still come from the replay log (R48 step 5). -/
def Core.replaying (k : Core) : Bool :=
  match k.replay with
  | some p => !p.log.isEmpty
  | none => false

/-- A pending trap may be taken: a pre-emption stop goes before a trap that was pending at the request (R324), and a replay runs to
its end. -/
def Core.trapsDue (k : Core) : Bool := !(k.preempt.any fun p => p.trapped || p.stopped) && !k.replaying
/-- Take the oldest pending class R or A trap at the team context's boundary (R321). -/
def State.takePending (s : State) (c : CoreId) : State :=
  let k := s.core c
  match k.traps with
  | [] => s
  | t :: rest =>
    if (k.ctx teamCtx).atBoundary && k.trapsDue then
      (s.setCore c { k with traps := rest }).raiseNoted ⟨c, teamCtx⟩ t (k.ctx teamCtx).pc
    else s

/-! ### Return (R215, R320) -/

/-- A record that the handler's return resumes: a parked one goes on from its mark, unless its own trap is still pending
(R321) or it is parked by REPLAY-LOST (R297); one held by SCHEDMISS loses its stamp once. -/
def Slot.resume (y : Slot) (pending : List Trap) : Slot :=
  match y.st with
  | .parked =>
    match y.cause with
    | some t => if t.code == causeReplayLost || pending.contains t then y
        else { y with st := .issued, cause := none, flags := 0, resumed := true, residue := [] }
    | none => { y with st := .issued, flags := 0, resumed := true, residue := [] }
  | .free | .appended | .checked | .issued | .done =>
    if y.missed && !(y.cause.any fun t => pending.contains t) then { y with missed := false, waived := true, cause := none }
    else y

/-- The traps of records that REPLAY-LOST keeps parked are raised again (R297). -/
def GalleyState.lostAgain (g : GalleyState) (pending : List Trap) : List Trap :=
  g.entries.filterMap fun (_, y) =>
    match y.st, y.cause with
    | .parked, some t => if t.code == causeReplayLost && !pending.contains t then some t else none
    | _, _ => none

def GalleyState.resume (g : GalleyState) (pending : List Trap) : GalleyState :=
  { g with slots := g.slots.map fun (i, y) => (i, y.resume pending) }

/-- The accumulator an M command writes, from its second word (R187, R286). -/
def accOf (w0 w1 : W32) : Option Nat :=
  let op := bitsN w0 0 8
  if op = 0xF0 ∨ op = 0xF1 then some (bitsN w1 8 3)
  else if op = 0xF2 ∨ op = 0xF3 ∨ op = 0xF4 then some (bitsN w0 8 3)
  else none

/-- Working ← proof for the accumulators of the parked M records that resume (R95, R25). -/
def Core.reworkParked (k : Core) (pending : List Trap) : Core :=
  k.galM.entries.foldl (fun k' (_, y) =>
    if y.st == .parked && (y.resume pending).st == .issued then
      match accOf y.body.w0 y.body.w1 with
      | some a => { k' with accW := bankCopy k'.accW k'.accP a }
      | none => k'
    else k') k

/-- Every parked record of the team context resumes (R320). -/
def Core.resumeRecords (k : Core) : Core :=
  let k1 := k.reworkParked k.traps
  { k1 with galM := k1.galM.resume k.traps, galV := k1.galV.resume k.traps, galX := k1.galX.resume k.traps
            galK := k1.galK.resume k.traps, traps := k.traps ++ k.galM.lostAgain k.traps }

/-- The access unit tries the halted elements again when the trapped context resumes (R82, R235). -/
def DQueue.retry (d : DQueue) : DQueue :=
  match d.streams with
  | t :: rest => { d with streams := { t with halted := none } :: rest }
  | [] => d

/-- THE RETURN from a handler (R320): the handler's context is dormant, the trapped context resumes at TEPC; a pre-emption
that waits stops the team there (R324). -/
def State.returnTrap (s : State) (r : CtxRef) (of : CtxId) : State :=
  let k := s.core r.core
  let k1 := k.modCtx r.ctx Ctx.sleep
  let k2 := k1.modCtx of fun y =>
    { y with run := .running, pc := y.tepc, wait := none, dq := y.dq.map fun (i, q) => (i, q.retry) }
  let k3 := if of = teamCtx then k2.resumeRecords else k2
  let k4 :=
    match of == teamCtx, k3.preempt with
    | true, some p => { k3.modCtx of fun y => { y with run := .stopped } with preempt := some { p with stopped := true } }
    | _, _ => k3
  s.setCore r.core k4

/-! ### EVL, flags -/

/-- An event sets its EVL bit in every context of the core (R216). -/
def Core.setEvl (k : Core) (bit : W64) : Core :=
  ((0 : CtxId) :: lightCtxs).foldl (fun k' x => k'.modCtx x fun y => { y with evl := y.evl ||| bit }) k

/-- OR flags into FPX (R93, R94). -/
def Ctx.orFlags (x : Ctx) (f : BitVec 6) : Ctx := { x with fpx := x.fpx ||| f.setWidth 64 }

/-! ### The spans of a replay (R47) -/

/-- The span becomes irrevocable (R47); only the team context's acts count (R17). -/
def State.irrevocable (s : State) : State :=
  if s.cur.ctx = teamCtx then s.modCc fun k => { k with irrevocable := true } else s

/-- A value takes its place in the replay log when its instruction issues, so the log is in program order (R47); the
257th makes the span irrevocable. -/
def Core.reserveLog (k : Core) (pos : Nat) (v : Option W64) : Core :=
  if k.irrevocable then k
  else if k.rlog.length < 256 then { k with rlog := k.rlog ++ [(pos, v)] }
  else { k with irrevocable := true }
/-- A load's value arrives: at its place in the log, or, for a load issued before the checkpoint was written, in the
checkpoint's register, which the load was to write (R46, R47; log entry 70); a load of an irrevocable span has neither. -/
def Core.fillLog (k : Core) (pos : Nat) (d : Reg) (v : W64) : Core :=
  if k.rlog.any fun e => e.1 == pos then
    { k with rlog := k.rlog.map fun e => if e.1 = pos ∧ e.2 = none then (pos, some v) else e }
  else if d = 0 ∨ (if k.ckIsB then k.ckB.pos else k.ckA.pos) ≤ pos then k
  else if k.ckIsB then { k with ckB := { k.ckB with regs := FMap.set k.ckB.regs 0 d.toNat v }.sealed }
  else { k with ckA := { k.ckA with regs := FMap.set k.ckA.regs 0 d.toNat v }.sealed }
/-- A register that an access or an event delivers a value to holds it in the Proofreader's copy too (R15). -/
def Core.proofGets (k : Core) (d : Reg) : Core := { k with proof := { k.proof with regs := FMap.set k.proof.regs 0 d.toNat 0 } }
def State.proofGets (s : State) (r : CtxRef) (d : Reg) : State := if r.ctx = teamCtx then s.modCore r.core fun k => k.proofGets d else s
/-- A place whose load ends in a trap is taken away. -/
def Core.dropLog (k : Core) (pos : Nat) : Core := { k with rlog := k.rlog.filter fun e => e.1 != pos || e.2 != none }

/-- The next value of the replay log. -/
def Core.replayValue (k : Core) : Option (W64 × Core) :=
  match k.replay with
  | some p =>
    match p.log with
    | v :: rest => some (v, { k with replay := some { p with log := rest } })
    | [] => none
  | none => none

/-- A value that an instruction delivers as it executes: it is logged for the team context (R47). -/
def State.logNow (s : State) (v : W64) : State :=
  if s.cur.ctx = teamCtx then
    s.modCc fun k => (k.reserveLog (k.ctx teamCtx).pos (some v)).modCtx teamCtx fun x => { x with pos := x.pos + 1 }
  else s

/-! ### Control-core resets (R48, R434, R436, R440) -/

/-- A control-core reset is asked for, counted and logged with its trap cause, if any (R434, R436). -/
def State.askCoreReset (s : State) (c : CoreId) (cause : BitVec 8) : State :=
  if (s.core c).resetAsked then s
  else
    ((s.modCore c fun k => { k with resetAsked := true }).bumpDie (coreDie c) 6).log
      { LogRec.zero with kind := 6, core := BitVec.ofNat 8 c.val, stack := 0xFF, occ := cause.setWidth 32 }

/-- The times of a list that lie within the last 24 hours. -/
def recent (now : Nat) (ts : List Nat) : List Nat := ts.filter fun t => now < t + dayClk
/-- R440: the core takes no further team, and is disabled from the next package reset. -/
def State.coreOff (s : State) (c : CoreId) : State :=
  if (s.core c).offNext then s
  else
    (({ s.modCore c (fun k => { k with offNext := true }) with
        nv := { s.nv with disabled := FMap.set s.nv.disabled false c.val true } } : State).bumpDie (coreDie c) 10).log
      { LogRec.zero with kind := 11, core := BitVec.ofNat 8 c.val, stack := 0xFF }

/-- The Proofreader disagrees: counted and logged with the unit, and the control core's reset is asked for (R22, R440). -/
def State.proofMismatch (s : State) (c : CoreId) (unit : Byte) : State :=
  let ts := recent s.now (s.core c).proofTimes ++ [s.now]
  let s1 := s.modCore c fun k => { k with proofTimes := ts }
  let s2 := ((s1.bumpDie (coreDie c) 7).log
    { LogRec.zero with kind := 4, unit := unit, core := BitVec.ofNat 8 c.val, stack := 0xFF }).askCoreReset c causeProof
  if 3 ≤ ts.length then s2.coreOff c else s2

end Sys2Proof.Machine
end

