-- ==== Sys2Proof/Machine/Clock.lean ====
section
/-! DEFINITION. What the passing of Platen clk is counted by: holds (01 R33), the weights of a wait (12 R325), the write budget's
windows (02 R71). -/
namespace Sys2Proof.Machine

/-- A walk that halts the access unit or an engine of the core (R33); a fetch and a prefetch hold neither. -/
def WalkUnit.holds : WalkUnit → Bool
  | .data _ | .stream _ _ | .engine _ _ => true
  | .fetch _ | .packet | .prefetch _ => false

/-- The walks of a core, in whatever walk unit they stand. -/
def State.walksOf (s : State) (c : CoreId) : List Walk := (s.die (coreDie c)).walks.filter fun w => w.core == c

/-- An access of the core waits for a PRI answer, which holds as a translation miss does (R368). -/
def State.priHolds (s : State) (c : CoreId) : Bool :=
  s.pri.any fun p =>
    match p.use with
    | .load r _ => r.core == c
    | .engine d _ _ => d == c
    | .packet _ | .queue _ | .word _ _ | .window | .out => false

/-- STOFF advances on a clk on which the access unit or an engine of the core is held (R33). -/
def State.held (s : State) (c : CoreId) : Bool :=
  (s.walksOf c).any (fun w => w.unit.holds) || s.priHolds c

/-- The cluster whose ratio, with the core's own, weights a wait (R325, R326). -/
def State.producer (s : State) (c : CoreId) (w : WaitKind) : CoreId :=
  match w with
  | .chWait n _ _ | .bar n _ =>
    match FMap.get s.chaseLast none n.toNat with
    | some p => p
    | none => c
  | .dlv t _ _ _ _ => t
  | .walk _ | .reg _ | .popq _ | .fence _ _ _ _ _ | .halt | .wfe _ _ | .align _ | .storeFull _ | .atomic _ _ | .acquire _ _
  | .pwr _ | .fmt | .ldq | .stgRel | .galley _ => c
/-- kmin of R325. -/
def State.kmin (s : State) (c : CoreId) (w : WaitKind) : Nat := min (s.pulse c) (s.pulse (s.producer c w))

/-- A waiting context's stall count advances by kmin sixteenths a clk (R325); a walk counts against nothing (R81). -/
def State.agedCtx (s : State) (c : CoreId) (dt : Nat) (x : Ctx) : Ctx :=
  match x.run, x.wait with
  | .running, some w =>
    (match w.kind with
     | .walk _ => x
     | _ => { x with wait := some { w with count := w.count + dt * s.kmin c w.kind } })
  | _, _ => x


end Sys2Proof.Machine
end

