-- ==== Sys2Proof/Machine/Translate.lean ====
section
/-! DEFINITION. Translation: table entries and walks (19 R407-R412), the TLBs (02 R80, 19 R411), and the checks of one
access (09 R225). -/
namespace Sys2Proof.Machine

/-- Reading, writing or fetching. -/
inductive Access where | read | write | fetch
deriving DecidableEq, Repr

/-- A virtual address outside the 56-bit space: bits [63:56] differ from bit 55 (R224). -/
def canonical (va : W64) : Bool := bitsN va 55 9 == 0 || bitsN va 55 9 == 511

/-- The bits a walk indexes. -/
def va56 (va : W64) : Nat := va.toNat % 2 ^ 56

/-! ### Walks (R407-R409) -/

/-- How a walk ends. `die` names a table that lies in the HBM of a die under reset (R412). -/
inductive WalkEnd where
  | hit (e : TlbEntry)
  | fault
  | prot
  | memerr (pa : Nat)
  | onDie (d : DieId) (pa : Nat)
deriving DecidableEq, Repr

/-- One level: the lowest VA bit it indexes, how many bits, the table's size, whether a leaf may stand here (R407). -/
structure WalkLevel where
  low : Nat
  width : Nat
  table : Nat
  leaf : Bool
  next : Bool
deriving DecidableEq, Repr

def walkLevels : List WalkLevel :=
  [⟨43, 13, 0x1_0000, false, true⟩, ⟨30, 13, 0x1_0000, true, true⟩, ⟨21, 9, 0x1000, true, true⟩, ⟨16, 5, 0x100, true, false⟩]

/-- The die whose HBM holds a physical address (R55). -/
def hbmDie (pa : Nat) : Option DieId :=
  match placeOf pa with
  | some (.hbm st) => some (dieOfNat (st.val / 2))
  | _ => none

/-- Bits [51:8] of an entry as an address (R408). -/
def entryAddr (e : W64) : Nat := bitsN e 8 44 * 256

/-- The walk from one level down; `size` of the tables below gives their alignment (R407-R409). -/
def State.walkFrom (s : State) (job : BitVec 24) (va table : Nat) : List WalkLevel → WalkEnd
  | [] => .prot
  | l :: rest =>
    let pa := table + va / 2 ^ l.low % 2 ^ l.width * 8
    match hbmDie pa with
    | none => .prot
    | some d =>
      if (s.die d).resetAt.isSome then .onDie d pa
      else
        match s.badAt pa 8 with
        | some _ => .memerr pa
        | none =>
          let e := s.read64 pa
          let leaf := e.getLsbD 1
          if !e.getLsbD 0 then .fault
          else if bitsN e 52 12 != 0 || (leaf && !l.leaf) || (!leaf && !l.next) || (!leaf && bitsN e 2 6 != 0)
              || (leaf && e.getLsbD 3 && !e.getLsbD 2) then .prot
          else if leaf then
            (if entryAddr e % 2 ^ l.low = 0 then
              .hit { job := job, va := va / 2 ^ l.low * 2 ^ l.low, size := 2 ^ l.low, pa := entryAddr e, r := e.getLsbD 2
                     w := e.getLsbD 3, x := e.getLsbD 4, u := e.getLsbD 5, st := e.getLsbD 6, pn := e.getLsbD 7 }
            else .prot)
          else
            match rest with
            | n :: _ => if entryAddr e % n.table = 0 then State.walkFrom s job va (entryAddr e) rest else .prot
            | [] => .prot

/-- The whole walk of a virtual address of a job. -/
def State.walk (s : State) (job : BitVec 24) (va : W64) : WalkEnd :=
  let j := FMap.get s.jobs ⟨0, false⟩ job.toNat
  if j.present then s.walkFrom job (va56 va) j.root walkLevels else .fault

/-- The entries that a walk reads, from one level down. -/
def State.readsFrom (s : State) (va table : Nat) : List WalkLevel → List (Nat × Nat)
  | [] => []
  | l :: rest =>
    let pa := table + va / 2 ^ l.low % 2 ^ l.width * 8
    if (hbmDie pa).isNone || (s.badAt pa 8).isSome then []
    else
      let e := s.read64 pa
      (pa, 8) :: (if e.getLsbD 0 && !e.getLsbD 1 then State.readsFrom s va (entryAddr e) rest else [])
/-- A walk has read its entries, each through the L2 (R410, R431). -/
def State.walked (s : State) (job : BitVec 24) (va : W64) : State :=
  let j := FMap.get s.jobs ⟨0, false⟩ job.toNat
  if j.present then s.readAll (s.readsFrom (va56 va) j.root walkLevels) else s

/-- The upper-level entries on a walk's way, from one level down: what each covers, and the next table (R411). -/
def State.uppersFrom (s : State) (job : BitVec 24) (va table : Nat) : List WalkLevel → List TlbEntry
  | [] => []
  | l :: rest =>
    let e := s.read64 (table + va / 2 ^ l.low % 2 ^ l.width * 8)
    if e.getLsbD 0 && !e.getLsbD 1 then
      { job := job, va := va / 2 ^ l.low * 2 ^ l.low, size := 2 ^ l.low, pa := entryAddr e, r := false, w := false, x := false, u := false
        st := false, pn := false } :: State.uppersFrom s job va (entryAddr e) rest
    else []

/-! ### TLBs (R80, R411) -/

def TlbEntry.covers (e : TlbEntry) (job : BitVec 24) (va : Nat) : Bool :=
  e.job == job && e.va ≤ va && va < e.va + e.size
def tlbFind (t : List TlbEntry) (job : BitVec 24) (va : W64) : Option TlbEntry := t.find? fun e => e.covers job (va56 va)

/-- Remove the oldest entry that is not pinned (R411); that the oldest leaves is a DESIGN CHOICE, log entry 73. -/
def tlbEvict : List TlbEntry → List TlbEntry
  | [] => []
  | e :: rest => if e.pn then e :: tlbEvict rest else rest
/-- Hold a translation; at capacity an unpinned one leaves, and beside pinned ones alone the new one stands only until the next
fill (R411). -/
def tlbFill (t : List TlbEntry) (cap : Nat) (e : TlbEntry) : List TlbEntry :=
  let t1 := t.filter fun y => !(y.job == e.job && y.va == e.va && y.size == e.size)
  if t1.length < cap then t1 ++ [e] else if t1.any (fun y => !y.pn) then tlbEvict t1 ++ [e] else t1.take cap ++ [e]

/-- A cluster's TLBs hold a translation that an upper-level entry leads to (R411). -/
def State.leads (s : State) (cl : ClusterId) (u : TlbEntry) : Bool :=
  let under := fun (t : List TlbEntry) => t.any fun e => e.job == u.job && decide (e.size < u.size) && decide (u.va ≤ e.va) && decide (e.va < u.va + u.size)
  under (s.cluster cl).tlb || (coresOf cl).any fun c =>
    let k := s.core c
    under k.l1tlb || under k.tlbM || under k.tlbV || under k.tlbX || under k.tlbK
/-- Where a walk of a cluster begins: at the lowest table that a held entry leads to, else at the root (R411). -/
def State.walkBegin (s : State) (cl : ClusterId) (job : BitVec 24) (va : W64) : Option (Nat × List WalkLevel) :=
  let j := FMap.get s.jobs ⟨0, false⟩ job.toNat
  if !j.present then none
  else
    let own := (s.cluster cl).upper.filter fun u => u.covers job (va56 va) && s.leads cl u
    some (own.foldl (fun (acc : Nat × List WalkLevel) u =>
      let below := walkLevels.filter fun l => decide (2 ^ l.low < u.size)
      if below.length < acc.2.length then (u.pa, below) else acc) (j.root, walkLevels))
/-- The outcome of a walk of a cluster. -/
def State.clusterWalk (s : State) (cl : ClusterId) (job : BitVec 24) (va : W64) : WalkEnd :=
  match s.walkBegin cl job va with
  | some (table, levels) => s.walkFrom job (va56 va) table levels
  | none => .fault
/-- It has read its entries, and the cluster holds those that led to a translation. -/
def State.clusterWalked (s : State) (cl : ClusterId) (job : BitVec 24) (va : W64) : State :=
  match s.walkBegin cl job va with
  | some (table, levels) =>
    let s1 := s.readAll (s.readsFrom (va56 va) table levels)
    (match s.walkFrom job (va56 va) table levels with
     | .hit _ =>
       let new := s.uppersFrom job (va56 va) table levels
       s1.modCluster cl fun y =>
         { y with upper := y.upper.filter (fun u => !new.any fun n => n.job == u.job && n.va == u.va && n.size == u.size) ++ new }
     | .fault | .prot | .memerr _ | .onDie _ _ => s1)
  | none => s

/-- Is the access permitted (R409)? -/
def TlbEntry.permits (e : TlbEntry) (priv : Bool) (a : Access) : Bool :=
  (priv || e.u) &&
  (match a with
   | .read => e.r
   | .write => e.w
   | .fetch => e.x)

/-- What a translated access does next. -/
inductive Translated where
  | ok (pa : Nat) (e : TlbEntry)
  | miss
  | trap (code : BitVec 8)
deriving DecidableEq, Repr

/-- Steps 4 to 6 of R225 on a TLB's answer: permission, physical range, stereotype page for a write. -/
def State.checkEntry (s : State) (e : TlbEntry) (priv : Bool) (a : Access) (va : W64) : Translated :=
  let pa := e.pa + (va56 va - e.va)
  if !e.permits priv a then .trap causeProt
  else if (s.place pa).isNone then .trap causeProt
  else if a == .write && e.st then .trap causeStereo
  else .ok pa e

/-- The control core's translation: the L1 TLB, then the cluster TLB behind it (R80). -/
def State.lookup (s : State) (c : CoreId) (va : W64) : Option TlbEntry :=
  let k := s.core c
  match tlbFind k.l1tlb k.job va with
  | some e => some e
  | none => tlbFind (s.cluster (coreCluster c)).tlb k.job va

/-- An access of the control core, from its canonical address on (R224, R225 steps 2, 4, 5, 6). -/
def State.translate (s : State) (c : CoreId) (priv : Bool) (a : Access) (va : W64) : Translated :=
  if !canonical va then .trap causeProt
  else
    match s.lookup c va with
    | none => .miss
    | some e => s.checkEntry e priv a va

/-- An access of a unit of an engine, through its stream TLB (R80, R409 last paragraph); a translation that the unit has been given serves
it until the unit is done, so that a unit of more pages than the TLB holds goes on (R81; log entry 73). -/
def State.translateEngine (s : State) (t held : List TlbEntry) (job : BitVec 24) (priv : Bool) (a : Access) (va : W64) : Translated :=
  if !canonical va then .trap causeProt
  else
    match (tlbFind t job va).orElse fun _ => tlbFind held job va with
    | none => .miss
    | some e => s.checkEntry e priv a va

/-- Ask the die's walk unit for a walk, once for a unit and page; a walk for a page that the unit no longer needs is given up
(R410). -/
def State.askWalk (s : State) (c : CoreId) (u : WalkUnit) (job : BitVec 24) (priv : Bool) (va : W64) : State :=
  s.modDie (coreDie c) fun d =>
    if d.walks.any fun w => w.core == c && w.unit == u && w.job == job && va56 w.va / 0x1_0000 == va56 va / 0x1_0000 then d
    else { d with walks := d.walks.filter (fun w => !(w.core == c && w.unit == u)) ++ [⟨c, u, job, va, priv, false, none⟩] }

/-- Hold the current context on a walk; its instruction executes again from its start (R81). -/
def State.holdWalk (s : State) (va : W64) : State :=
  (s.askWalk s.cur.core (.data s.cur.ctx) s.cc.job s.cx.priv va).modCx fun x =>
    { x with wait := some ⟨.walk va, 0, match x.wait with
        | some w => w.count
        | none => 0⟩ }

/-- Remove from a TLB the translations an invalidation names (R219, R414). -/
def tlbDrop (t : List TlbEntry) (hit : TlbEntry → Bool) : List TlbEntry := t.filter fun e => !hit e
def Slot.dropHeld (y : Slot) (hit : TlbEntry → Bool) : Slot := { y with held := tlbDrop y.held hit }
def GalleyState.dropHeld (g : GalleyState) (hit : TlbEntry → Bool) : GalleyState := { g with slots := g.slots.map fun (i, y) => (i, y.dropHeld hit) }
def Core.dropTlb (k : Core) (hit : TlbEntry → Bool) : Core :=
  { k with l1tlb := tlbDrop k.l1tlb hit, tlbM := tlbDrop k.tlbM hit, tlbV := tlbDrop k.tlbV hit
           tlbX := tlbDrop k.tlbX hit, tlbK := tlbDrop k.tlbK hit
           galM := k.galM.dropHeld hit, galV := k.galV.dropHeld hit, galX := k.galX.dropHeld hit, galK := k.galK.dropHeld hit
           packet := k.packet.map fun p => { p with slot := p.slot.dropHeld hit } }
/-- Remove matching translations from a whole cluster, and start its matching walks again (R219, R414). -/
def State.dropCluster (s : State) (cl : ClusterId) (hit : TlbEntry → Bool) (walk : Walk → Bool) : State :=
  let s1 := (coresOf cl).foldl (fun s' c => s'.modCore c fun k => k.dropTlb hit) s
  let s2 := s1.modCluster cl fun y => { y with tlb := tlbDrop y.tlb hit, upper := tlbDrop y.upper hit }
  s2.modDie (clusterDie cl) fun d =>
    { d with walks := d.walks.map fun w =>
        if coreCluster w.core == cl && walk w then { w with running := false, since := none } else w }

end Sys2Proof.Machine
end

