-- ==== Sys2Proof/Machine/Issue.lean ====
section
/-! DEFINITION. From a context's pc to the instruction it issues: the fetch and its faults (07 R192, R193), the waits on
pending loads (05 R147), the boundary at which pending traps and pre-emptions are taken (12 R313, 01 R43). -/
namespace Sys2Proof.Machine

/-- Every scalar register that an instruction reads. -/
def scalarReads : Instr → List Reg
  | .add _ a b | .sub _ a b | .mul _ a b | .mulh _ a b | .mulhu _ a b | .div _ a b | .divu _ a b | .rem _ a b
  | .remu _ a b | .and _ a b | .or _ a b | .xor _ a b | .shl _ a b | .shr _ a b | .sra _ a b | .rotl _ a b
  | .min _ a b | .minu _ a b | .max _ a b | .maxu _ a b | .slt _ a b | .sltu _ a b | .seq _ a b
  | .fadd _ _ a b | .fsub _ _ a b | .fmul _ _ a b | .fdiv _ _ a b | .fmin _ a b | .fmax _ a b | .fcmp _ a b => [a, b]
  | .clz _ a | .ctz _ a | .popc _ a | .mov _ a | .fsqrt _ _ a | .fcvt _ _ _ _ a | .fclass _ a | .addi _ a _
  | .andi _ a _ | .ori _ a _ | .xori _ a _ | .shli _ a _ | .shri _ a _ | .srai _ a _ | .bfx _ a _ _
  | .wfe _ a | .csrx _ a _ | .ldB _ a _ | .ldH _ a _ | .ldW _ a _ | .ldD _ a _ | .ldBU _ a _ | .ldHU _ a _
  | .ldWU _ a _ | .ldAcq _ _ _ a _ => [a]
  | .bfi d a _ _ | .stB _ d a _ | .stH _ d a _ | .stW _ d a _ | .stD _ d a _ | .stRel _ _ d a _ => [d, a]
  | .sel _ a b c | .fma _ _ a b c => [a, b, c]
  | .cpy d a b => [d, a, b]
  | .cpy2d d a b c | .cpy3d d a b c _ _ | .gath _ d a b c | .scat _ d a b c => [d, a, b, c]
  | .ldhi d _ | .stc _ d _ => [d]
  | .bc _ a _ | .ret a | .loop a _ _ | .csrw a _ | .tlbInvPage a | .pref _ a _ | .chSet _ a | .chAdd _ a
  | .stampAbs a _ | .stampOff a _ | .cancel _ a | .fmt a | .chWait _ a _ | .bar _ a _ | .lig _ a _ | .mclr a => [a]
  | .ldq _ _ a b f => [a, b, f]
  | .atmAdd m | .atmMin m | .atmMax m | .atmAnd m | .atmOr m | .atmXor m | .atmXchg m => [m.a, m.b]
  | .atmCas m => [m.a, m.b, m.f]
  | .dlv d a b f _ => [d, d + 1, a, b, f]
  | .tok t => if t.wv then [t.a] else []
  | .vshl v | .vshr v | .vbcast v => [v.b]
  | .vmovs v => [v.a]
  | .vld v | .vst v => [v.a, v.b]
  | .mma m | .mmaz m =>
    (if m.srca then [m.a, m.a + 1] else []) ++ (if m.srcb then [m.b, m.b + 1] else [])
  | .ald m | .ast m => [m.a, m.b]
  | .tld m | .tst m => if m.pair then [m.a, m.a + 1] else [m.a, m.b]
  | .fill d b f => [d, b, f]
  | .zero d b => [d, b]
  | .stgRel a b | .agrp a b | .mcst a b => [a, b]
  | _ => []

/-- The destination of an access in flight and its address: a pending load, or an atomic whose old value is still to come
(R147, R327). -/
def Ctx.inFlight (x : Ctx) : List (Reg × W64) :=
  (x.loadQ.filter LoadEntry.live).map (fun l => (l.dest, l.va)) ++
  x.storeQ.filterMap fun e =>
    match e.kind with
    | .atomic _ _ d _ => some (d, e.va)
    | .plain | .release | .chSet _ | .chAdd _ => none
/-- The access in flight whose destination an instruction reads (R147). -/
def Ctx.pendingUse (x : Ctx) (i : Instr) : Option W64 :=
  (x.inFlight.find? fun e => e.1 != 0 && (scalarReads i).contains e.1).map Prod.snd

/-! ### The CSR numbers (R220) -/

/-- The catalogue (R220). -/
inductive CsrName where
  | platen | ltime | stoff | slip | fpx | vw | lcnt | lbase | lring | wbud | wuse | scrw | ctxid | evl | pidx | budg | dln
  | slice | pwrl | hotid | cause | taddr | tepc | tinfo | dfcause | dfaddr | tfpx | ymax | cmpinj
deriving DecidableEq, Repr

def csrOf (n : BitVec 12) : Option CsrName :=
  match n.toNat with
  | 0x000 => some .platen | 0x001 => some .ltime | 0x002 => some .stoff | 0x003 => some .slip
  | 0x010 => some .fpx | 0x011 => some .vw
  | 0x020 => some .lcnt | 0x021 => some .lbase | 0x022 => some .lring
  | 0x030 => some .wbud | 0x031 => some .wuse | 0x032 => some .scrw
  | 0x040 => some .ctxid | 0x041 => some .evl | 0x042 => some .pidx
  | 0x050 => some .budg | 0x051 => some .dln | 0x052 => some .slice
  | 0x060 => some .pwrl | 0x061 => some .hotid
  | 0x100 => some .cause | 0x101 => some .taddr | 0x102 => some .tepc | 0x103 => some .tinfo
  | 0x104 => some .dfcause | 0x105 => some .dfaddr | 0x106 => some .tfpx
  | 0x110 => some .ymax | 0x120 => some .cmpinj
  | _ => none

/-- RWP and ROP registers: any access from user mode raises PRIV (R7). -/
def CsrName.privOnly : CsrName → Bool
  | .slice | .cause | .taddr | .tepc | .tinfo | .dfcause | .dfaddr | .tfpx | .ymax | .cmpinj => true
  | .platen | .ltime | .stoff | .slip | .fpx | .vw | .lcnt | .lbase | .lring | .wbud | .wuse | .scrw | .ctxid | .evl
  | .pidx | .budg | .dln | .pwrl | .hotid => false

/-! ### Waits -/

/-- The longest wait of an instruction without a field of its own: the team context's WBUD.WAITMAX (R72, R147). -/
def Core.waitMax (k : Core) : Nat := bitsN k.wbud 40 24

/-- An LW field in weighted clk: COUNT, or COUNT × 4,096 with UNIT set (R183). -/
def lwClk (w : LongWait) : Nat := if w.unit then w.count.toNat * 4096 else w.count.toNat

/-- The longest wait of an instruction: its own field, else WAITMAX (R147). -/
def Core.longest (k : Core) (i : Instr) : Nat :=
  match i with
  | .chWait _ _ w | .bar _ _ w | .dlv _ _ _ _ w | .popq _ _ w | .fence _ w | .fenceDone _ w | .pwrAcq _ w => lwClk w
  | _ => k.waitMax

/-- The words are no instruction in any context: a d that names s0 where the write of d is all that there is (R177), or a field that leaves
the register (R182). -/
def voidWords : Instr → Bool
  | .add d _ _ | .sub d _ _ | .mul d _ _ | .mulh d _ _ | .mulhu d _ _ | .div d _ _ | .divu d _ _ | .rem d _ _ | .remu d _ _
  | .and d _ _ | .or d _ _ | .xor d _ _ | .shl d _ _ | .shr d _ _ | .sra d _ _ | .rotl d _ _ | .min d _ _ | .minu d _ _
  | .max d _ _ | .maxu d _ _ | .slt d _ _ | .sltu d _ _ | .seq d _ _ | .clz d _ | .ctz d _ | .popc d _ | .mov d _
  | .sel d _ _ _ | .addi d _ _ | .andi d _ _ | .ori d _ _ | .xori d _ _ | .shli d _ _ | .shri d _ _ | .srai d _ _
  | .ldi d _ | .ldhi d _ => d == 0
  | .bfx d _ pos w | .bfi d _ pos w => d == 0 || 64 < pos.toNat + (w.toNat + 1)
  | _ => false
/-- The words name no instruction of the context: words that are none anywhere, an engine instruction, `TOK` or `STAMP` in a light context,
a CSR that is not there or that the context may not reach (R192, R218); such words wait for no register. -/
def State.refusedWords (s : State) (i : Instr) : Bool :=
  let light := s.cur.ctx != teamCtx
  let csr := fun (n : BitVec 12) => match csrOf n with
    | some r => r.privOnly && !s.cx.priv
    | none => true
  voidWords i || match i with
  | .csrr _ n | .csrw _ n => csr n
  | .csrx _ _ n => csr n || csrOf n == some .cmpinj
  | .fmt _ | .tok _ | .stampClr | .stampAbs _ _ | .stampOff _ _ => light
  | _ => light && (match encode i with
    | w :: _ => 0xE0 ≤ (opOf w).toNat && (opOf w).toNat ≤ 0xFC
    | [] => false)

/-- The count of the wait that an instruction is already in; a wait ends with its instruction. -/
def Ctx.waited (x : Ctx) : Nat :=
  match x.wait with
  | some w => w.count
  | none => 0
/-- The current context waits; its instruction's count goes on (R325). -/
def State.hold (s : State) (kind : WaitKind) (limit : Nat) : State :=
  s.modCx fun x => { x with wait := some ⟨kind, limit, x.waited⟩ }

/-- What a fetch gives: an instruction to run, or a state in which nothing issues. -/
inductive Fetched where
  | run (i : Instr) (s : State)
  | hold (s : State)

/-- One fetched word, or the state its fault or its walk leaves. -/
inductive FetchedWord where
  | word (w : W32) (s : State)
  | stop (s : State)

/-- A host page that its translation does not hold: a page request is sent, and the access holds as a translation miss
does (R368). -/
def State.holdHost (s : State) (pa : Nat) (va : W64) : State :=
  let use := PriUse.load s.cur s.cx.pos
  let s1 := if s.pri.any fun p => p.use == use then s
    else { s with pri := s.pri ++ [⟨pa, va, use⟩], outbox := s.outbox ++ [.pageRequest pa] }
  s1.modCx fun x => { x with wait := some ⟨.walk va, 0, x.waited⟩ }

/-- Fetch the word at an address for the current context; TEPC names the instruction, TADDR the word (R193, R207). -/
def State.fetchWord (s : State) (va : W64) : FetchedWord :=
  match s.translate s.cur.core s.cx.priv .fetch va with
  | .trap c => .stop (s.trapHere c va)
  | .miss =>
    .stop ((s.askWalk s.cur.core (.fetch s.cur.ctx) s.cc.job s.cx.priv va).modCx fun x =>
      { x with wait := some ⟨.walk va, 0, x.waited⟩ })
  | .ok pa e =>
    if s.hostMissing (s.jobFunc s.cc.job) pa then .stop (s.holdHost pa va)
    else
    match s.badAt pa 4 with
    | some p => .stop (s.raise s.cur ⟨causeMemerr, 0, va, infoPhys p, none⟩ s.cx.pc)
    | none =>
      if (tlbFind s.cc.l1tlb s.cc.job va).isSome then .word (s.read32 pa) (s.touchLine s.cur.core pa e.st)
      else .stop (s.modCc fun k => { k with l1tlb := tlbFill k.l1tlb 64 e })

/-- Decode what was fetched; words that are no instruction run as `illegalEncoding` (R192). -/
def decodeOr (w0 w1 : W32) : Instr :=
  match decode w0 w1 with
  | .ok i => i
  | .error _ => .illegalEncoding w0

/-- Both words of a long form are fetched before it executes (R193). -/
def State.fetchInstr (s : State) : Fetched :=
  match s.fetchWord s.cx.pc with
  | .stop s1 => .hold s1
  | .word w0 s0 =>
    if isLongPrimary w0 then
      match s0.fetchWord (s.cx.pc + 4) with
      | .stop s1 => .hold s1
      | .word w1 s1 => .run (decodeOr w0 w1) s1
    else .run (decodeOr w0 0) s0

/-- The context may issue: it runs, and does not stand behind an access of its own that is in flight (R147). -/
def Ctx.mayIssue (x : Ctx) : Bool :=
  x.run == .running &&
  (match x.wait with
   | none => true
   | some w =>
     match w.kind with
     | .walk _ | .atomic _ _ | .acquire _ _ | .bar _ _ | .dlv _ _ _ _ _ => false
     | .reg _ | .popq _ | .chWait _ _ _ | .fence _ _ _ _ _ | .halt | .wfe _ _ | .align _ | .storeFull _ | .pwr _ | .fmt | .ldq | .stgRel | .galley _ => true)

/-- An issue turn of a context: a pending trap is taken at the boundary, else the instruction at its pc is fetched; one
that reads the destination of a pending load waits for it (R321, R147). A control core under reset issues nothing (R48). -/
def State.fetch (s : State) (r : CtxRef) : Fetched :=
  let s1 := { s with cur := r }
  if s1.cc.resetting || !s1.cx.mayIssue then .hold s1
  else if r.ctx = teamCtx ∧ s1.cc.traps ≠ [] ∧ s1.cx.atBoundary ∧ s1.cc.trapsDue then .hold (s1.takePending r.core)
  else
    match s1.fetchInstr with
    | .hold s2 => .hold s2
    | .run i s2 =>
      match (if s2.refusedWords i then none else s2.cx.pendingUse i) with
      | some va => .hold (s2.hold (.reg va) (s2.cc.longest i))
      | none => .run i s2

/-- A pre-emption stop of the team context at a waiting stop point: the wait is abandoned and the instruction executes
again on restore (R43, R350); a power request is withdrawn (R250). -/
def State.stopTeam (s : State) (c : CoreId) : State :=
  let k := s.core c
  match k.preempt with
  | some p =>
    let s1 := s.modCore c fun y =>
      { (y.modCtx teamCtx fun x => { x with run := .stopped, wait := none }) with preempt := some { p with stopped := true } }
    s1.withdrawRegion c
  | none => s

/-- After an issue: a team that waits at a stop point while a pre-emption is pending stops there (R350). -/
def State.settleStop (s : State) (r : CtxRef) : State :=
  let k := s.core r.core
  let x := k.ctx teamCtx
  let waits := match x.wait with
    | some w => w.kind.isStop
    | none => false
  match k.preempt with
  | some p => if r.ctx = teamCtx && !p.stopped && x.run == .running && waits then s.stopTeam r.core else s
  | none => s

end Sys2Proof.Machine
end

