-- ==== Sys2Proof/Machine/Flags.lean ====
section
/-! DEFINITION. Floating-point formats, rounding and the flags (03 R85-R95): encodings to exact values, exact values to
encodings with their flags, and the exact arithmetic between. -/
namespace Sys2Proof.Machine

/-! ### Flags (R93) -/

abbrev Flags := BitVec 6
def flagNX : Flags := 1
def flagUF : Flags := 2
def flagOF : Flags := 4
def flagNV : Flags := 8
def flagSAT : Flags := 16
def flagQNAN : Flags := 32

/-! ### Formats (R85) -/

/-- A binary format: exponent bits, fraction bits, bias. -/
structure FFmt where
  eb : Nat
  fb : Nat
  bias : Nat
deriving DecidableEq, Repr

def fp32 : FFmt := ⟨8, 23, 127⟩
def bf16 : FFmt := ⟨8, 7, 127⟩
def fp16 : FFmt := ⟨5, 10, 15⟩

/-- An exact value: NaN, an infinity, or (-1)^neg × m × 2^e. -/
inductive FVal where
  | nan
  | inf (neg : Bool)
  | fin (neg : Bool) (m : Nat) (e : Int)
deriving DecidableEq, Repr

def FFmt.expMax (f : FFmt) : Nat := 2 ^ f.eb - 1
/-- The encoding of an infinity without its sign. -/
def FFmt.infBits (f : FFmt) : Nat := f.expMax * 2 ^ f.fb
def FFmt.signBit (f : FFmt) : Nat := 2 ^ (f.eb + f.fb)
def FFmt.signed (f : FFmt) (neg : Bool) (mag : Nat) : Nat := if neg then f.signBit + mag else mag
/-- The default NaN (R86). -/
def FFmt.nanBits (f : FFmt) : Nat := f.infBits + 2 ^ (f.fb - 1)
/-- The exponent of the smallest normal. -/
def FFmt.emin (f : FFmt) : Int := 1 - (f.bias : Int)

/-- The value of an encoding (R85, R87). -/
def FFmt.value (f : FFmt) (b : Nat) : FVal :=
  let neg := b / f.signBit % 2 == 1
  let e := b / 2 ^ f.fb % 2 ^ f.eb
  let m := b % 2 ^ f.fb
  if e = f.expMax then (if m = 0 then .inf neg else .nan)
  else if e = 0 then .fin neg m (f.emin - f.fb)
  else .fin neg (m + 2 ^ f.fb) ((e : Int) - f.bias - f.fb)

def FVal.isNan : FVal → Bool
  | .nan => true
  | .inf _ | .fin _ _ _ => false
def FVal.isInf : FVal → Bool
  | .inf _ => true
  | .nan | .fin _ _ _ => false
def FVal.isZero : FVal → Bool
  | .fin _ m _ => m == 0
  | .nan | .inf _ => false
def FVal.neg : FVal → Bool
  | .nan => false
  | .inf n | .fin n _ _ => n
/-- The sign inverted. -/
def FVal.flip : FVal → FVal
  | .nan => .nan
  | .inf n => .inf (!n)
  | .fin n m e => .fin (!n) m e
def FVal.abs : FVal → FVal
  | .nan => .nan
  | .inf _ => .inf false
  | .fin _ m e => .fin false m e

/-! ### Rounding (R92) -/

/-- Round up in magnitude? `rem` of `2^sh` is discarded, with `sticky` more below it. -/
def roundsUp (mode : Rnd) (neg odd : Bool) (rem sh : Nat) (sticky : Bool) : Bool :=
  match mode with
  | .rne => 2 ^ sh < 2 * rem || (2 * rem == 2 ^ sh && 0 < sh && (sticky || odd))
  | .rz => false
  | .rp => !neg && (rem != 0 || sticky)
  | .rm => neg && (rem != 0 || sticky)

/-- `m × 2^e`, and a little more if `sticky`, to a multiple of `2^q`: the multiple, and whether anything was lost. -/
def roundTo (mode : Rnd) (neg : Bool) (m : Nat) (e : Int) (sticky : Bool) (q : Int) : Nat × Bool :=
  if q ≤ e then
    let r := m * 2 ^ (e - q).toNat
    (if roundsUp mode neg (r % 2 == 1) 0 0 sticky then r + 1 else r, sticky)
  else
    let sh := (q - e).toNat
    let r := m / 2 ^ sh
    let rem := m % 2 ^ sh
    (if roundsUp mode neg (r % 2 == 1) rem sh sticky then r + 1 else r, rem != 0 || sticky)

/-- What an overflow delivers (R92). -/
def FFmt.overflow (f : FFmt) (mode : Rnd) (neg : Bool) : Nat :=
  let toInf := match mode with
    | .rne => true
    | .rz => false
    | .rp => !neg
    | .rm => neg
  f.signed neg (if toInf then f.infBits else f.infBits - 1)

/-- A finite exact value to an encoding, with its flags (R92). -/
def FFmt.round (f : FFmt) (mode : Rnd) (neg : Bool) (m : Nat) (e : Int) (sticky : Bool) : Nat × Flags :=
  if m = 0 ∧ !sticky then (f.signed neg 0, 0)
  else
    let top : Int := (Nat.log2 m : Int) + e
    let q0 := top - f.fb
    let q := max q0 (f.emin - f.fb)
    let (r, inexact) := roundTo mode neg m e sticky q
    let mag := (q + f.fb + f.bias - 1).toNat * 2 ^ f.fb + r
    if f.infBits ≤ mag then (f.overflow mode neg, flagOF ||| flagNX)
    else
      let (r0, _) := roundTo mode neg m e sticky q0
      let tiny := top < f.emin ∧ r0 < 2 ^ (f.emin - q0).toNat
      (f.signed neg mag, if inexact then (if tiny then flagUF ||| flagNX else flagNX) else 0)

/-- Any exact value to an encoding. -/
def FFmt.pack (f : FFmt) (mode : Rnd) (v : FVal) : Nat × Flags :=
  match v with
  | .nan => (f.nanBits, 0)
  | .inf n => (f.signed n f.infBits, 0)
  | .fin n m e => f.round mode n m e false

/-! ### Exact arithmetic -/

/-- A signed integer times a power of two. -/
def FVal.int (neg : Bool) (m : Nat) : Int := if neg then -(m : Int) else m

/-- The exact sum of two finite values; the sign of an exact zero follows R92. -/
def addFin (mode : Rnd) (na : Bool) (ma : Nat) (ea : Int) (nb : Bool) (mb : Nat) (eb : Int) : FVal :=
  let e := min ea eb
  let s := FVal.int na (ma * 2 ^ (ea - e).toNat) + FVal.int nb (mb * 2 ^ (eb - e).toNat)
  if s = 0 then .fin (if na == nb && ma == 0 && mb == 0 then na else mode == .rm) 0 0
  else .fin (decide (s < 0)) s.natAbs e

/-- What an operation delivers: an exact value, or a NaN that it produces from inputs that are none (R95). -/
inductive FRes where
  | val (v : FVal)
  | produced
deriving DecidableEq, Repr

def fvAdd (mode : Rnd) (a b : FVal) : FRes :=
  match a, b with
  | .nan, _ | _, .nan => .val .nan
  | .inf x, .inf y => if x = y then .val (.inf x) else .produced
  | .inf x, .fin _ _ _ => .val (.inf x)
  | .fin _ _ _, .inf y => .val (.inf y)
  | .fin na ma ea, .fin nb mb eb => .val (addFin mode na ma ea nb mb eb)

def fvMul (a b : FVal) : FRes :=
  match a, b with
  | .nan, _ | _, .nan => .val .nan
  | .inf x, .inf y => .val (.inf (x != y))
  | .inf x, .fin y m _ => if m = 0 then .produced else .val (.inf (x != y))
  | .fin x m _, .inf y => if m = 0 then .produced else .val (.inf (x != y))
  | .fin x ma ea, .fin y mb eb => .val (.fin (x != y) (ma * mb) (ea + eb))

/-- a × b + c; a NaN among the three is propagated even beside 0 × ∞ (R203, R95). -/
def fvFma (mode : Rnd) (a b c : FVal) : FRes :=
  if a.isNan || b.isNan || c.isNan then .val .nan
  else
    match fvMul a b with
    | .produced => .produced
    | .val p => fvAdd mode p c

/-- A result of an operation in a format: bits, flags, and whether a NaN was produced. -/
structure FOut where
  bits : Nat
  flags : Flags
  produced : Bool
deriving DecidableEq, Repr

def FFmt.out (f : FFmt) (mode : Rnd) : FRes → FOut
  | .produced => ⟨f.nanBits, 0, true⟩
  | .val v => let (b, fl) := f.pack mode v; ⟨b, fl, false⟩

/-- a / b (R202), from a quotient of at least 56 significant bits and a sticky bit below it. -/
def FFmt.div (f : FFmt) (mode : Rnd) (a b : FVal) : FOut :=
  match a, b with
  | .nan, _ | _, .nan => ⟨f.nanBits, 0, false⟩
  | .inf _, .inf _ => ⟨f.nanBits, 0, true⟩
  | .inf x, .fin y _ _ => ⟨f.signed (x != y) f.infBits, 0, false⟩
  | .fin x _ _, .inf y => ⟨f.signed (x != y) 0, 0, false⟩
  | .fin x ma ea, .fin y mb eb =>
    if mb = 0 then (if ma = 0 then ⟨f.nanBits, 0, true⟩ else ⟨f.signed (x != y) f.infBits, 0, false⟩)
    else
      let n := ma * 2 ^ 80
      let (bits, fl) := f.round mode (x != y) (n / mb) (ea - eb - 80) (n % mb != 0)
      ⟨bits, fl, false⟩

/-- The integer square root, one result bit at a time from bit `b`. -/
def isqrtFrom (n r : Nat) : Nat → Nat
  | 0 => if (r + 1) * (r + 1) ≤ n then r + 1 else r
  | b + 1 => isqrtFrom n (if (r + 2 ^ (b + 1)) * (r + 2 ^ (b + 1)) ≤ n then r + 2 ^ (b + 1) else r) b
def isqrt (n : Nat) : Nat := isqrtFrom n 0 (Nat.log2 n / 2 + 1)

/-- √a (R202). -/
def FFmt.sqrt (f : FFmt) (mode : Rnd) (a : FVal) : FOut :=
  match a with
  | .nan => ⟨f.nanBits, 0, false⟩
  | .inf n => if n then ⟨f.nanBits, 0, true⟩ else ⟨f.infBits, 0, false⟩
  | .fin n m e =>
    if m = 0 then ⟨f.signed n 0, 0, false⟩
    else if n then ⟨f.nanBits, 0, true⟩
    else
      let odd := e % 2 != 0
      let m1 := (if odd then 2 * m else m) * 2 ^ 80
      let e1 := (if odd then e - 1 else e) - 80
      let r := isqrt m1
      let (bits, fl) := f.round mode false r (e1 / 2) (r * r != m1)
      ⟨bits, fl, false⟩

/-! ### Comparison (R204) -/

/-- a < b for values that are no NaN, −0 and +0 equal. -/
def fvLt (a b : FVal) : Bool :=
  match a, b with
  | .nan, _ | _, .nan => false
  | .inf x, .inf y => x && !y
  | .inf x, .fin _ _ _ => x
  | .fin _ _ _, .inf y => !y
  | .fin na ma ea, .fin nb mb eb =>
    let e := min ea eb
    decide (FVal.int na (ma * 2 ^ (ea - e).toNat) < FVal.int nb (mb * 2 ^ (eb - e).toNat))
def fvEq (a b : FVal) : Bool := !a.isNan && !b.isNan && !fvLt a b && !fvLt b a
/-- The order of `FMIN` and `FMAX`: −0 below +0. -/
def fvBelow (a b : FVal) : Bool := fvLt a b || (a.isZero && b.isZero && a.neg && !b.neg)
def fvMin (a b : FVal) : FVal := if a.isNan || b.isNan then .nan else if fvBelow b a then b else a
def fvMax (a b : FVal) : FVal := if a.isNan || b.isNan then .nan else if fvBelow a b then b else a
/-- `FCMP`: −1, 0, 1, and 2 for unordered. -/
def fvCmp (a b : FVal) : W64 :=
  if a.isNan || b.isNan then 2 else if fvLt a b then BitVec.allOnes 64 else if fvLt b a then 1 else 0

/-- `FCLASS` of an FP32 encoding. -/
def fclassOf (b : Nat) : Nat :=
  let e := b / 2 ^ 23 % 256
  let m := b % 2 ^ 23
  (if e = 0 then (if m = 0 then 0 else 1) else if e = 255 then (if m = 0 then 3 else 4) else 2) + b / 2 ^ 31 % 2 * 8

/-! ### Conversions (R92, R205) -/

/-- An exact value to a two's-complement integer of `w` bits: the integer and the flags. -/
def toInt (mode : Rnd) (w : Nat) (v : FVal) : Int × Flags :=
  let lo : Int := -(2 ^ (w - 1) : Nat)
  let hi : Int := (2 ^ (w - 1) : Nat) - 1
  match v with
  | .nan => (0, flagQNAN)
  | .inf n => (if n then lo else hi, flagSAT)
  | .fin n m e =>
    let (r, inexact) := roundTo mode n m e false 0
    let i := FVal.int n r
    if i < lo then (lo, flagSAT) else if hi < i then (hi, flagSAT) else (i, if inexact then flagNX else 0)

def ofInt (i : Int) : FVal := .fin (decide (i < 0)) i.natAbs 0

def fmtOf : VTy → FFmt
  | .fp32 | .i8 | .i32 | .bp => fp32
  | .bf16 => bf16
  | .fp16 => fp16

/-- FPX.NANOFF (R93). -/
def nanOff (fpx : W64) : Bool := fpx.getLsbD 8

end Sys2Proof.Machine
end

