-- ==== Sys2Proof/Machine/Numerics.lean ====
section
/-! DEFINITION. Exact arithmetic of the engines: the group sum (03 R102, R103), element products (04 R110-R112), bit-plane
values (03 R89, R91), quantisation (03 R97), and the bounded approximations (10 R265). -/
namespace Sys2Proof.Machine

/-! ### Sums -/

/-- The exact sum of values, or the NaN that it propagates or produces (R95, R264); the sign of an exact zero is R92's. A sum of no terms, of
a component that no table entry reaches, is +0 in every mode (DESIGN CHOICE, log entry 82). -/
def fvSum (mode : Rnd) (xs : List FVal) : FRes :=
  if xs.any FVal.isNan then .val .nan
  else if xs.any (fun x => x == .inf false) && xs.any (fun x => x == .inf true) then .produced
  else
    match xs.find? FVal.isInf with
    | some x => .val x
    | none =>
      match xs with
      | [] => .val (.fin false 0 0)
      | x :: rest =>
        .val (rest.foldl (fun acc y =>
          match acc, y with
          | .fin na ma ea, .fin nb mb eb => addFin mode na ma ea nb mb eb
          | a, _ => a) x)

/-- A product of two factors: it holds a NaN factor, is 0 × ∞, or has a value (R102, R103), with the significands of its factors. -/
inductive Product where
  | nanFactor
  | invalid
  | val (v : FVal) (a b : Nat)
deriving DecidableEq, Repr

/-- The significand of a finite value. -/
def FVal.sig : FVal → Nat
  | .fin _ m _ => m
  | .nan | .inf _ => 0

def productOf (a b : FVal) : Product :=
  if a.isNan || b.isNan then .nanFactor
  else
    match fvMul a b with
    | .produced => .invalid
    | .val v => .val v a.sig b.sig
def Product.flip : Product → Product
  | .nanFactor => .nanFactor
  | .invalid => .invalid
  | .val v a b => .val v.flip a b
def Product.value : Product → FVal
  | .nanFactor | .invalid => .nan
  | .val v _ _ => v

/-- The exact sum of products: a NaN factor propagates, a 0 × ∞ or opposite infinities are produced (R95, R269). -/
def sumProducts (mode : Rnd) (ps : List Product) : FRes :=
  if ps.any (fun p => p == .nanFactor) then .val .nan
  else if ps.any (fun p => p == .invalid) then .produced
  else fvSum mode (ps.map Product.value)

/-- Floor(Log2(|p|)) of a non-zero finite value. -/
def FVal.log : FVal → Option Int
  | .fin _ m e => if m = 0 then none else some ((Nat.log2 m : Int) + e)
  | .nan | .inf _ => none

/-- The largest of a list of integers. -/
def largest : List Int → Option Int
  | [] => none
  | x :: rest =>
    match largest rest with
    | some y => some (max x y)
    | none => some x

/-- One term truncated toward zero to a multiple of 2^q: the signed multiple, and whether anything was lost. -/
def FVal.truncTo (q : Int) : FVal → Int × Bool
  | .fin n m e => let (r, lost) := roundTo .rz n m e false q; (FVal.int n r, lost)
  | .nan | .inf _ => (0, false)

/-- S of R103 for finite products, with NX when a term was truncated. -/
def groupSum (vs : List FVal) : FVal × Flags :=
  match largest (vs.filterMap FVal.log) with
  | none => (.fin (vs.all FVal.neg) 0 0, 0)
  | some e =>
    let ts := vs.map (FVal.truncTo (e - 40))
    let s : Int := ts.foldl (fun acc t => acc + t.1) 0
    (.fin (decide (s < 0)) s.natAbs (e - 40), if ts.any Prod.snd then flagNX else 0)

/-- AddGroup (R103): the working value with a group added, rounded once. -/
def addGroup (w : Nat) (ps : List Product) : FOut :=
  let wv := fp32.value w
  if wv.isNan || ps.any (fun p => p == .nanFactor) then ⟨fp32.nanBits, 0, false⟩
  else if ps.any (fun p => p == .invalid) then ⟨fp32.nanBits, 0, true⟩
  else
    let vs := ps.map Product.value
    let opp := fun n => vs.any fun x => x == .inf n
    if (opp false && opp true) || (wv == .inf false && opp true) || (wv == .inf true && opp false) then
      ⟨fp32.nanBits, 0, true⟩
    else
      match wv with
      | .inf _ => ⟨w, 0, false⟩
      | .nan | .fin _ _ _ =>
        match vs.find? FVal.isInf with
        | some x => fp32.out .rne (.val x)
        | none =>
          let (s, fl) := groupSum vs
          let o := fp32.out .rne (fvAdd .rne wv s)
          { o with flags := o.flags ||| fl }

/-! ### Residues (R105) -/

/-- The residue of a value modulo 127. -/
def residue (n : Int) : Int := n % 127
/-- A significand product against its factors. -/
def productPasses (a b : Nat) (product : Int) : Bool := residue product == residue (residue a * residue b)
/-- A term aligned to 2^q, with the bits that it lost, against its product, which counts 2^e; 2^7 leaves 1, so that a shift rotates
residues. -/
def alignPasses (product : Int) (e q : Int) (aligned lost : Int) : Bool :=
  if q ≤ e then residue aligned == residue (residue product * 2 ^ ((e - q).toNat % 7))
  else residue (residue aligned * 2 ^ ((q - e).toNat % 7) + residue lost) == residue product
/-- The adder tree's sum against its aligned terms. -/
def treePasses (terms : List Int) (sum : Int) : Bool := residue sum == residue ((terms.map residue).sum)
/-- The rounding adder's sum, before it rounds, against the working value and the group's sum. -/
def adderPasses (w sum total : Int) : Bool := residue total == residue (residue w + residue sum)
/-- The bits below 2^`q` that the rounding of `m` × 2^`e` to FP32 discards: how many they are (R92). -/
def discarded (m : Nat) (e : Int) : Nat := (max ((Nat.log2 m : Int) + e - fp32.fb) (fp32.emin - fp32.fb) - e).toNat
/-- The rounding increment against the discarded bits. -/
def incrementPasses (m sh : Nat) (up : Bool) : Bool := up == roundsUp .rne false (m / 2 ^ sh % 2 == 1) (m % 2 ^ sh) sh false

/-- A stage's value under a fault. -/
def faultAt (f : GroupFault) (st : ArithStage) (n : Int) : Int := if f.stage = st then n + f.delta else n
/-- One term of a group on its way to the sum: its checks, its aligned value with its sign, and whether it lost bits. -/
def groupTerm (f : GroupFault) (q : Int) (i : Nat) (p : Product) : Bool × Int × Bool :=
  match p with
  | .val (.fin n m e) a b =>
    let m1 := faultAt f (.product i) m
    let al := if q ≤ e then m1 * 2 ^ (e - q).toNat else m1 / 2 ^ (q - e).toNat
    let lost := if q ≤ e then 0 else m1 % 2 ^ (q - e).toNat
    let al1 := faultAt f (.align i) al
    (productPasses a b m1 && alignPasses m1 e q al1 lost, if n then -al1 else al1, lost != 0)
  | .val .nan _ _ | .val (.inf _) _ _ | .nanFactor | .invalid => (true, 0, false)
/-- AddGroup through its stages (R103), one of which a fault alters: none where a check of R105 fails. A group whose sum has no significand,
of zeros, infinities or NaNs, has no residue. -/
def addGroupChecked (w : Nat) (ps : List Product) (f : GroupFault) : Option FOut :=
  let vs := ps.map Product.value
  match fp32.value w, largest (vs.filterMap FVal.log) with
  | .fin nw mw ew, some e =>
    if vs.any fun v => v.isNan || v.isInf then some (addGroup w ps)
    else
      let q := e - 40
      let ts := ps.zipIdx.map fun (p, i) => groupTerm f q i p
      let sum := faultAt f .tree (ts.foldl (fun n t => n + t.2.1) 0)
      let e0 := min ew q
      let wi := FVal.int nw (mw * 2 ^ (ew - e0).toNat)
      let si := sum * 2 ^ (q - e0).toNat
      let total := faultAt f .adder (wi + si)
      let m := total.natAbs
      let sh := discarded m e0
      let up := roundsUp .rne false (m / 2 ^ sh % 2 == 1) (m % 2 ^ sh) sh false != (f.stage == .increment && f.delta % 2 != 0)
      let passes := ts.all (fun t => t.1) && treePasses (ts.map fun t => t.2.1) sum && adderPasses wi si total && incrementPasses m sh up
      if !passes then none
      else if total = 0 then some (addGroup w ps)
      else
        let (b, fl) := fp32.round .rne (decide (total < 0)) m e0 false
        some ⟨b, fl ||| (if ts.any fun t => t.2.2 then flagNX else 0), false⟩
  | _, _ => some (addGroup w ps)

/-! ### Element products (R110-R112) -/

/-- The terms of every component of a ⊗ b under a table of `c` components, in ligature-table order. -/
def ligProduct (c : Nat) (entries : List Byte) (a b : List FVal) : List (List Product) :=
  (List.range c).map fun t =>
    (List.range (c * c)).filterMap fun ij =>
      match entries[ij]? with
      | none => none
      | some e =>
        if e.toNat % 8 ≠ t ∨ e.toNat / 8 % 4 = 2 then none
        else
          match a[ij / c]?, b[ij % c]? with
          | some x, some y =>
            let p := productOf x y
            some (if e.toNat / 8 % 4 = 1 then p.flip else p)
          | _, _ => none

/-- Whether component `k` is negated by conjugation. -/
def conjNeg (mask : Byte) (k : Nat) : Bool := mask.getLsbD k
/-- The conjugate of an element (R111). -/
def conjOf (mask : Byte) (a : List FVal) : List FVal :=
  a.zipIdx.map fun (x, k) => if conjNeg mask k then x.flip else x

/-- A table is valid (R109). -/
def ligValid (c : Nat) (image : List Byte) : Bool :=
  image.length == c * c + 2 &&
  (image.take (c * c)).all (fun e => e.toNat < 32 && e.toNat / 8 != 3 && decide (e.toNat % 8 < c)) &&
  (List.range c).all (fun i =>
    let ts := ((image.drop (i * c)).take c).filterMap fun e => if e.toNat / 8 % 4 = 2 then none else some (e.toNat % 8)
    ts.eraseDups.length == ts.length) &&
  (match image[c * c]?, image[c * c + 1]? with
   | some m, some n => decide (m.toNat < 2 ^ c) && decide (n.toNat < c)
   | _, _ => false)

/-! ### Bit-plane integers (R89-R91) -/

/-- The stored value of element `i` of a block whose first `planes` plane words are given, least significant bits of absent
planes zero: the planes are bits 7, 6, … (R89). -/
def planesValue (words : List Nat) (i : Nat) : Int :=
  let u := words.zipIdx.foldl (fun acc (w, j) => acc + (w / 2 ^ i % 2) * 2 ^ (7 - j)) 0
  if 128 ≤ u then (u : Int) - 256 else u

/-- Reconstruct (R91). -/
def reconstruct (v : Int) (p e : Nat) : FVal :=
  if e = 0xFF then .nan
  else if p = 8 then .fin (decide (v < 0)) v.natAbs ((e : Int) - 127)
  else
    let vp := v.fdiv (2 ^ (8 - p) : Nat)
    .fin (decide (2 * vp + 1 < 0)) (2 * vp + 1).natAbs ((e : Int) - 127 + 7 - p)

/-- The plane words of 32 values (R89). -/
def planeWord (vs : List Int) (j : Nat) : Nat :=
  vs.zipIdx.foldl (fun acc (v, i) => acc + ((BitVec.ofInt 8 v).toNat / 2 ^ (7 - j) % 2) * 2 ^ i) 0

/-! ### Quantise (R97) -/

/-- |a| ≤ |b| for finite values. -/
def absLe (a b : FVal) : Bool :=
  match a, b with
  | .fin _ ma ea, .fin _ mb eb =>
    let e := min ea eb
    decide (ma * 2 ^ (ea - e).toNat ≤ mb * 2 ^ (eb - e).toNat)
  | _, _ => false
def absMax (xs : List FVal) : FVal :=
  xs.foldl (fun acc x =>
    match x with
    | .fin _ _ _ => if absLe acc x then x else acc
    | .nan | .inf _ => acc) (.fin false 0 0)

/-- The smallest n with 127 × 2^n ≥ m × 2^e. -/
def scaleExp (m : Nat) (e : Int) : Int :=
  let n := (Nat.log2 m : Int) + e - 6
  let lo := min n e
  if m * 2 ^ (e - lo).toNat ≤ 127 * 2 ^ (n - lo).toNat then n else n + 1

/-- A block's scale code, values and flags. -/
def quantise (xs : List FVal) : Nat × List Int × Flags :=
  if xs.any FVal.isNan then (0xFF, xs.map fun _ => 0, flagQNAN)
  else
    let sat := xs.any FVal.isInf
    let e : Nat := match absMax xs with
      | .fin _ m em => if m = 0 then (if sat then 127 else 0) else (max 0 (scaleExp m em + 127)).toNat
      | .nan | .inf _ => 0
    let vs := xs.map fun x =>
      match x with
      | .nan => ((0 : Int), false)
      | .inf n => (if n then -127 else 127, false)
      | .fin n m em =>
        let (r, lost) := roundTo .rne n m em false ((e : Int) - 127)
        (max (-127) (min 127 (FVal.int n r)), lost)
    (e, vs.map Prod.fst, (if sat then flagSAT else 0) ||| (if vs.any Prod.snd then flagNX else 0))

/-! ### Approximations (R265) -/

inductive ApproxFn where | exp2 | log2 | rcp | rsq
deriving DecidableEq, Repr

/-- The part's own value for an input. -/
def ApproxFn.part : ApproxFn → W32 → W32
  | .exp2 => Config.exp2
  | .log2 => Config.log2
  | .rcp => Config.rcp
  | .rsq => Config.rsq

/-- ln 2 in units of 2^-64. -/
def ln2 : Nat := 0xB172_17F7_D1CF_79AC
/-- The terms of e^t from the `n`th on, `t` and the result in units of 2^-64. -/
def expSeries (t term n : Nat) : Nat → Nat
  | 0 => 0
  | fuel + 1 => term + expSeries t (term * t / 2 ^ 64 / n) (n + 1) fuel
/-- 2^(f / 2^64), in units of 2^-64. -/
def exp2Frac (f : Nat) : Nat := expSeries (f * ln2 / 2 ^ 64) (2 ^ 64) 1 24

/-- Bits of log2 of y / 2^160 in [1, 2), most significant first. -/
def logBits (y acc : Nat) : Nat → Nat
  | 0 => acc
  | fuel + 1 =>
    let z := y * y / 2 ^ 160
    if 2 ^ 161 ≤ z then logBits (z / 2) (2 * acc + 1) fuel else logBits z (2 * acc) fuel

/-- The exact result of a finite non-special input, truncated: sign, magnitude × 2^exponent, and whether it is one of the
exact cases of R265. -/
structure Exact where
  neg : Bool
  mag : Nat
  exp : Int
  exact : Bool
deriving DecidableEq, Repr

def isPow2 (m : Nat) : Bool := m == 2 ^ Nat.log2 m

/-- What R265 gives for an input: a special result or an exact value. -/
inductive ApproxRes where
  | special (v : FRes)
  | value (x : Exact)
deriving DecidableEq, Repr

def exp2Exact (n : Bool) (m : Nat) (e : Int) : Exact :=
  if 0 ≤ e ∨ m % 2 ^ (-e).toNat = 0 then
    let k : Nat := min 400 (if 0 ≤ e then m * 2 ^ (min e 20).toNat else m / 2 ^ (-e).toNat)
    let i : Int := FVal.int n k
    ⟨false, 1, i, decide (-149 ≤ i) && decide (i ≤ 127)⟩
  else
    let d : Nat := 2 ^ (-e).toNat
    let x : Int := FVal.int n m
    let i := max (-400) (min 400 (x.fdiv d))
    let f := (x.fmod d).toNat * 2 ^ 64 / d
    ⟨false, exp2Frac f, i - 64, false⟩
def log2Exact (m : Nat) (e : Int) : Exact :=
  let k := Nat.log2 m
  let top : Int := (k : Int) + e
  if isPow2 m then ⟨decide (top < 0), top.natAbs, 0, true⟩
  else
    let f := logBits (m * 2 ^ 160 / 2 ^ k) 0 80
    let r : Int := top * (2 ^ 80 : Nat) + f
    ⟨decide (r < 0), r.natAbs, -80, false⟩
def rcpExact (n : Bool) (m : Nat) (e : Int) : Exact :=
  let k := Nat.log2 m
  ⟨n, 2 ^ (k + 64) / m, -e - k - 64, isPow2 m && decide (-126 ≤ -e - k)⟩
def rsqExact (m : Nat) (e : Int) : Exact :=
  let odd := e % 2 != 0
  let m1 := if odd then 2 * m else m
  let e1 : Int := if odd then e - 1 else e
  let k := Nat.log2 m1
  ⟨false, isqrt (2 ^ (2 * k + 128) / m1), -(e1 / (2 : Int)) - (k : Int) - 64, isPow2 m1 && k % 2 == 0⟩

/-- The table of special inputs and the exact functions (R265). -/
def approxExact (fn : ApproxFn) (a : FVal) : ApproxRes :=
  match a with
  | .nan => .special (.val .nan)
  | .inf n =>
    match fn with
    | .exp2 => .special (.val (if n then .fin false 0 0 else .inf false))
    | .log2 => .special (if n then .produced else .val (.inf false))
    | .rcp => .special (.val (.fin n 0 0))
    | .rsq => .special (if n then .produced else .val (.fin false 0 0))
  | .fin n m e =>
    if m = 0 then
      match fn with
      | .exp2 => .special (.val (.fin false 1 0))
      | .log2 => .special (.val (.inf true))
      | .rcp | .rsq => .special (.val (.inf n))
    else
      match fn with
      | .exp2 => .value (exp2Exact n m e)
      | .log2 => if n then .special .produced else .value (log2Exact m e)
      | .rcp => .value (rcpExact n m e)
      | .rsq => if n then .special .produced else .value (rsqExact m e)

/-- Whether a candidate lies within `num` × 2^`low` of the exact value, one unit of its truncation allowed for. -/
def within (x : Exact) (cand : FVal) (low : Int) (num : Nat) : Bool :=
  match cand with
  | .fin n m e =>
    let b := min (min e x.exp) low
    let d := FVal.int n (m * 2 ^ (e - b).toNat) - FVal.int x.neg (x.mag * 2 ^ (x.exp - b).toNat)
    decide (d.natAbs ≤ num * 2 ^ (low - b).toNat + 2 * 2 ^ (x.exp - b).toNat)
  | .nan | .inf _ => false

/-- The unit in the last place of a format at an exact value, as a power of two. -/
def FFmt.ulpExp (f : FFmt) (x : Exact) : Int := max ((Nat.log2 x.mag : Int) + x.exp - f.fb) (1 - f.bias - f.fb)

/-- A candidate meets R265's bound for an input. -/
def meetsBound (fn : ApproxFn) (a : FVal) (x : Exact) (cand : FVal) : Bool :=
  match fn with
  | .exp2 => within x cand (fp32.ulpExp x) 2
  | .log2 =>
    let half := FVal.fin false 1 (-1)
    let two := FVal.fin false 2 0
    if !fvLt a half && !fvLt two a then within x cand (-22) 1 else within x cand (fp32.ulpExp x) 2
  | .rcp | .rsq => within x cand (fp32.ulpExp x) 1

/-- The FP32 approximation of an input and its flags: the exact cases exactly, else the part's value where it meets the
bound, else the exact value rounded (R265, log entry 3). -/
def approx32 (fn : ApproxFn) (mode : Rnd) (input : W32) : FOut :=
  let a := fp32.value input.toNat
  match approxExact fn a with
  | .special r => fp32.out mode r
  | .value x =>
    let (b, fl) := fp32.round mode x.neg x.mag x.exp (!x.exact)
    let cand := (fn.part input).toNat
    if x.exact then ⟨b, fl, false⟩
    else ⟨if meetsBound fn a x (fp32.value cand) then cand else b, fl ||| flagNX, false⟩

/-- The FP32 approximation that a 16-bit TYPE is rounded from: the part's, unless its rounding would lie more than 1 ulp of TYPE from the exact
value, then that value rounded to FP32 (R265, log entry 3). -/
def approxFor (fn : ApproxFn) (f : FFmt) (mode : Rnd) (input : W32) (bits : Nat) : Nat :=
  match approxExact fn (fp32.value input.toNat) with
  | .special _ => bits
  | .value x =>
    if x.exact || within x (f.value (f.pack mode (fp32.value bits)).1) (f.ulpExp x) 1 then bits
    else (fp32.round mode x.neg x.mag x.exp true).1

/-- The lane result in a format: for a 16-bit TYPE the FP32 approximation is rounded to it under MODE. The manual names no mode for the
FP32 step; the model takes MODE for it too, so that a result past the FP32 range rounds as R92 says (DESIGN CHOICE, log entry 89). -/
def approxIn (fn : ApproxFn) (f : FFmt) (mode : Rnd) (input : W32) : FOut :=
  if f = fp32 then approx32 fn mode input
  else
    let o := approx32 fn mode input
    let (b, fl) := f.pack mode (fp32.value (approxFor fn f mode input o.bits))
    ⟨b, fl ||| o.flags, o.produced⟩

end Sys2Proof.Machine
end

