-- ==== Sys2Proof/Machine/Scalar.lean ====
section
/-! DEFINITION. Integer, immediate and scalar floating-point instructions (08 R195-R205). -/
namespace Sys2Proof.Machine

/-- The outcome of a meaning. -/
abbrev Out := Host.Outcome State Fault Refusal

/-- An instruction of one word that writes one register; d naming s0 raises ILLEGAL (R177). -/
def writeAlu (d : Reg) (v : W64) (n : Nat) (s : State) : Out :=
  if d = 0 then .next s.illegal else .next (s.writeNext d v n)

/-! ### Results (R196, R197) -/

def mulhSigned (a b : W64) : W64 := BitVec.ofInt 64 (a.toInt * b.toInt / 2 ^ 64)
def mulhUnsigned (a b : W64) : W64 := BitVec.ofNat 64 (a.toNat * b.toNat / 2 ^ 64)

def maxS : W64 := 0x7FFF_FFFF_FFFF_FFFF
def minS : W64 := 0x8000_0000_0000_0000

/-- Signed quotient truncated toward zero; what has no 64-bit value is the nearest on its side of zero (R197). -/
def divSigned (a b : W64) : W64 :=
  if b = 0 then (if a = 0 then 0 else if a.toInt < 0 then minS else maxS)
  else if a = minS ∧ b = BitVec.allOnes 64 then maxS
  else BitVec.ofInt 64 (a.toInt.tdiv b.toInt)
def remSigned (a b : W64) : W64 :=
  if b = 0 then 0 else if a = minS ∧ b = BitVec.allOnes 64 then 0 else BitVec.ofInt 64 (a.toInt.tmod b.toInt)
def divUnsigned (a b : W64) : W64 :=
  if b = 0 then (if a = 0 then 0 else BitVec.allOnes 64) else BitVec.ofNat 64 (a.toNat / b.toNat)
def remUnsigned (a b : W64) : W64 := if b = 0 then 0 else BitVec.ofNat 64 (a.toNat % b.toNat)

/-- A shift count, bits [5:0] of b (R196). -/
def shiftBy (b : W64) : Nat := b.toNat % 64

/-- Trailing zeros among the bits from `i` on, `fuel` of them left. -/
def ctzFrom (a : Nat) : Nat → Nat
  | 0 => 0
  | fuel + 1 => if a % 2 = 1 then 0 else 1 + ctzFrom (a / 2) fuel
def popFrom (a : Nat) : Nat → Nat
  | 0 => 0
  | fuel + 1 => a % 2 + popFrom (a / 2) fuel
def clzOf (a : W64) : W64 := if a = 0 then 64 else BitVec.ofNat 64 (63 - Nat.log2 a.toNat)
def ctzOf (a : W64) : W64 := BitVec.ofNat 64 (ctzFrom a.toNat 64)
def popOf (a : W64) : W64 := BitVec.ofNat 64 (popFrom a.toNat 64)

/-! ### The INT group (R196) -/
def execAdd (d a b : Reg) (s : State) : Out := writeAlu d (s.reg a + s.reg b) 4 s
def execSub (d a b : Reg) (s : State) : Out := writeAlu d (s.reg a - s.reg b) 4 s
def execMul (d a b : Reg) (s : State) : Out := writeAlu d (s.reg a * s.reg b) 4 s
def execMulh (d a b : Reg) (s : State) : Out := writeAlu d (mulhSigned (s.reg a) (s.reg b)) 4 s
def execMulhu (d a b : Reg) (s : State) : Out := writeAlu d (mulhUnsigned (s.reg a) (s.reg b)) 4 s
def execDiv (d a b : Reg) (s : State) : Out := writeAlu d (divSigned (s.reg a) (s.reg b)) 4 s
def execDivu (d a b : Reg) (s : State) : Out := writeAlu d (divUnsigned (s.reg a) (s.reg b)) 4 s
def execRem (d a b : Reg) (s : State) : Out := writeAlu d (remSigned (s.reg a) (s.reg b)) 4 s
def execRemu (d a b : Reg) (s : State) : Out := writeAlu d (remUnsigned (s.reg a) (s.reg b)) 4 s
def execAnd (d a b : Reg) (s : State) : Out := writeAlu d (s.reg a &&& s.reg b) 4 s
def execOr (d a b : Reg) (s : State) : Out := writeAlu d (s.reg a ||| s.reg b) 4 s
def execXor (d a b : Reg) (s : State) : Out := writeAlu d (s.reg a ^^^ s.reg b) 4 s
def execShl (d a b : Reg) (s : State) : Out := writeAlu d (s.reg a <<< shiftBy (s.reg b)) 4 s
def execShr (d a b : Reg) (s : State) : Out := writeAlu d (s.reg a >>> shiftBy (s.reg b)) 4 s
def execSra (d a b : Reg) (s : State) : Out := writeAlu d ((s.reg a).sshiftRight (shiftBy (s.reg b))) 4 s
def execRotl (d a b : Reg) (s : State) : Out := writeAlu d ((s.reg a).rotateLeft (shiftBy (s.reg b))) 4 s
def execMin (d a b : Reg) (s : State) : Out := writeAlu d (if (s.reg a).slt (s.reg b) then s.reg a else s.reg b) 4 s
def execMinu (d a b : Reg) (s : State) : Out := writeAlu d (if (s.reg a).ult (s.reg b) then s.reg a else s.reg b) 4 s
def execMax (d a b : Reg) (s : State) : Out := writeAlu d (if (s.reg a).slt (s.reg b) then s.reg b else s.reg a) 4 s
def execMaxu (d a b : Reg) (s : State) : Out := writeAlu d (if (s.reg a).ult (s.reg b) then s.reg b else s.reg a) 4 s
def execSlt (d a b : Reg) (s : State) : Out := writeAlu d (boolW ((s.reg a).slt (s.reg b))) 4 s
def execSltu (d a b : Reg) (s : State) : Out := writeAlu d (boolW ((s.reg a).ult (s.reg b))) 4 s
def execSeq (d a b : Reg) (s : State) : Out := writeAlu d (boolW (s.reg a == s.reg b)) 4 s
def execClz (d a : Reg) (s : State) : Out := writeAlu d (clzOf (s.reg a)) 4 s
def execCtz (d a : Reg) (s : State) : Out := writeAlu d (ctzOf (s.reg a)) 4 s
def execPopc (d a : Reg) (s : State) : Out := writeAlu d (popOf (s.reg a)) 4 s
def execMov (d a : Reg) (s : State) : Out := writeAlu d (s.reg a) 4 s

/-! ### Immediates and fields (R198-R200) -/

def execAddi (d a : Reg) (imm : BitVec 12) (s : State) : Out := writeAlu d (s.reg a + sext64 imm) 4 s
def execAndi (d a : Reg) (imm : BitVec 12) (s : State) : Out := writeAlu d (s.reg a &&& zext64 imm) 4 s
def execOri (d a : Reg) (imm : BitVec 12) (s : State) : Out := writeAlu d (s.reg a ||| zext64 imm) 4 s
def execXori (d a : Reg) (imm : BitVec 12) (s : State) : Out := writeAlu d (s.reg a ^^^ zext64 imm) 4 s
def execShli (d a : Reg) (n : BitVec 6) (s : State) : Out := writeAlu d (s.reg a <<< n.toNat) 4 s
def execShri (d a : Reg) (n : BitVec 6) (s : State) : Out := writeAlu d (s.reg a >>> n.toNat) 4 s
def execSrai (d a : Reg) (n : BitVec 6) (s : State) : Out := writeAlu d ((s.reg a).sshiftRight n.toNat) 4 s

/-- Bits [pos + width − 1 : pos], zero-extended (R199). -/
def bfxOf (a : W64) (pos width : Nat) : W64 := BitVec.ofNat 64 (bitsN a pos width)
/-- The old value with those bits replaced by the low bits of `a` (R199). -/
def bfiOf (old a : W64) (pos width : Nat) : W64 := setBits old pos width a.toNat

/-- pos + width above 64 raises ILLEGAL (R199). -/
def execBfx (d a : Reg) (pos wm1 : BitVec 6) (s : State) : Out :=
  if 64 < pos.toNat + (wm1.toNat + 1) then .next s.illegal
  else writeAlu d (bfxOf (s.reg a) pos.toNat (wm1.toNat + 1)) 4 s
def execBfi (d a : Reg) (pos wm1 : BitVec 6) (s : State) : Out :=
  if 64 < pos.toNat + (wm1.toNat + 1) then .next s.illegal
  else writeAlu d (bfiOf (s.reg d) (s.reg a) pos.toNat (wm1.toNat + 1)) 4 s
def execSel (d a b c : Reg) (s : State) : Out := writeAlu d (if s.reg c ≠ 0 then s.reg a else s.reg b) 4 s
def execLdi (d : Reg) (imm : BitVec 32) (s : State) : Out := writeAlu d (sext64 imm) 8 s
def execLdhi (d : Reg) (imm : BitVec 32) (s : State) : Out :=
  writeAlu d ((imm ++ (s.reg d).setWidth 32 : BitVec 64)) 8 s

/-! ### Scalar floating point (R201-R205) -/

/-- A register's FP32 value: bits [63:32] are ignored (R201). -/
def fpReg (s : State) (r : Reg) : FVal := fp32.value ((s.reg r).toNat % 2 ^ 32)

/-- A float result: under NANOFF = 0 a produced NaN raises NAN and writes nothing; else flags are ORed into FPX and the
result is written (R94, R95, R201). -/
def fpWrite (d : Reg) (o : FOut) (n : Nat) (s : State) : Out :=
  if o.produced ∧ !nanOff s.cx.fpx then .next (s.trapHere causeNan 0)
  else
    let fl := if o.produced then o.flags ||| flagNV else o.flags
    .next ((s.modCx fun x => x.orFlags fl).writeNext d (BitVec.ofNat 64 o.bits) n)

def execFadd (m : Rnd) (d a b : Reg) (s : State) : Out := fpWrite d (fp32.out m (fvAdd m (fpReg s a) (fpReg s b))) 4 s
def execFsub (m : Rnd) (d a b : Reg) (s : State) : Out := fpWrite d (fp32.out m (fvAdd m (fpReg s a) (fpReg s b).flip)) 4 s
def execFmul (m : Rnd) (d a b : Reg) (s : State) : Out := fpWrite d (fp32.out m (fvMul (fpReg s a) (fpReg s b))) 4 s
def execFdiv (m : Rnd) (d a b : Reg) (s : State) : Out := fpWrite d (fp32.div m (fpReg s a) (fpReg s b)) 4 s
def execFsqrt (m : Rnd) (d a : Reg) (s : State) : Out := fpWrite d (fp32.sqrt m (fpReg s a)) 4 s
def execFma (m : Rnd) (d a b c : Reg) (s : State) : Out :=
  fpWrite d (fp32.out m (fvFma m (fpReg s a) (fpReg s b) (fpReg s c))) 8 s
def execFmin (d a b : Reg) (s : State) : Out := fpWrite d (fp32.out .rne (.val (fvMin (fpReg s a) (fpReg s b)))) 4 s
def execFmax (d a b : Reg) (s : State) : Out := fpWrite d (fp32.out .rne (.val (fvMax (fpReg s a) (fpReg s b)))) 4 s
def execFcmp (d a b : Reg) (s : State) : Out := .next (s.writeNext d (fvCmp (fpReg s a) (fpReg s b)) 4)
def execFclass (d a : Reg) (s : State) : Out :=
  .next (s.writeNext d (BitVec.ofNat 64 (fclassOf ((s.reg a).toNat % 2 ^ 32))) 4)

/-- The source of a conversion: a float encoding or a two's-complement integer in the low bits (R205). -/
def cvtSource (t : CvtTy) (a : W64) : FVal :=
  match t with
  | .fp32 => fp32.value (a.toNat % 2 ^ 32)
  | .bf16 => bf16.value (a.toNat % 2 ^ 16)
  | .fp16 => fp16.value (a.toNat % 2 ^ 16)
  | .i8 => ofInt (a.setWidth 8).toInt
  | .i32 => ofInt (a.setWidth 32).toInt
  | .i64 => ofInt a.toInt
/-- The result of a conversion and its flags: an integer is sign-extended, a float zero-extended (R201, R205). -/
def cvtResult (m : Rnd) (t : CvtTy) (v : FVal) : W64 × Flags :=
  match t with
  | .fp32 => let (b, f) := fp32.pack m v; (BitVec.ofNat 64 b, f)
  | .bf16 => let (b, f) := bf16.pack m v; (BitVec.ofNat 64 b, f)
  | .fp16 => let (b, f) := fp16.pack m v; (BitVec.ofNat 64 b, f)
  | .i8 => let (i, f) := toInt m 8 v; (BitVec.ofInt 64 i, f)
  | .i32 => let (i, f) := toInt m 32 v; (BitVec.ofInt 64 i, f)
  | .i64 => let (i, f) := toInt m 64 v; (BitVec.ofInt 64 i, f)
def execFcvt (m : Rnd) (src dst : CvtTy) (d a : Reg) (s : State) : Out :=
  let (v, f) := cvtResult m dst (cvtSource src (s.reg a))
  .next ((s.modCx fun x => x.orFlags f).writeNext d v 4)

end Sys2Proof.Machine
end

