-- ==== Sys2Proof/Machine/Control.lean ====
section
/-! DEFINITION. Branches, hardware loops, YIELD, HALT, TRAP, ERET, WFE, NOP (08 R206-R217) and what is no instruction
(07 R192). -/
namespace Sys2Proof.Machine

/-- An encoding that is no instruction: ILLEGAL, naming its first word (R192). -/
def execIllegalEncoding (_w : BitVec 32) (s : State) : Out := .next s.illegal

/-! ### Branches (R206) -/

/-- PC + 4 × a signed word offset. -/
def branchTo {n : Nat} (pc : W64) (off : BitVec n) : W64 := pc + (sext64 off <<< 2)

def execB (off : BitVec 24) (s : State) : Out := .next (s.jump (branchTo s.cx.pc off))
/-- `BL` links in s63. -/
def execBl (off : BitVec 24) (s : State) : Out :=
  .next ((s.modCx fun x => (x.claim 63).setReg 63 (x.pc + 4)).jump (branchTo s.cx.pc off))

def condHolds (c : Cond) (v : W64) : Bool :=
  match c with
  | .eqz => v == 0
  | .nez => v != 0
  | .ltz => v.slt 0
  | .gez => !v.slt 0
  | .gtz => (0 : W64).slt v
  | .lez => !(0 : W64).slt v
def execBc (c : Cond) (a : Reg) (off : BitVec 12) (s : State) : Out :=
  .next (if condHolds c (s.reg a) then s.jump (branchTo s.cx.pc off) else s.advance 4)
/-- A target that is no multiple of 4 raises ALIGN at the `RET`. -/
def execRet (a : Reg) (s : State) : Out :=
  .next (if bitsN (s.reg a) 0 2 ≠ 0 then s.trapHere causeAlign (s.reg a) else s.jump (s.reg a))

def execNop (s : State) : Out := .next (s.advance 4)

/-! ### Hardware loops (R208-R211) -/

def ringOf (lring : W64) : Nat := bitsN lring 0 4
def wbaseOf (lring : W64) : Nat := bitsN lring 8 5

/-- A light context's loop registers ignore writes (R220). -/
def execLoop (a : Reg) (wbase : BitVec 5) (ring : BitVec 4) (s : State) : Out :=
  if s.cur.ctx = teamCtx then
    .next ((s.modCc fun k => { k with
      lcnt := s.reg a, lbase := 0
      lring := BitVec.ofNat 64 (wbase.toNat * 256 + ring.toNat) }).advance 8)
  else .next (s.advance 8)

/-- One indivisible step; a positive offset, or no loop state, raises ILLEGAL (R182, R209). -/
def execLend (off : BitVec 12) (s : State) : Out :=
  let k := s.cc
  if !off.getLsbD 11 then .next s.illegal
  else if s.cur.ctx ≠ teamCtx ∨ ringOf k.lring = 0 then .next s.illegal
  else
    let lbase := BitVec.ofNat 64 ((k.lbase.toNat + 1) % ringOf k.lring)
    if 1 < k.lcnt.toNat then
      .next ((s.modCc fun y => { y with lbase := lbase, lcnt := y.lcnt - 1 }).jump (branchTo s.cx.pc off))
    else .next ((s.modCc fun y => { y with lbase := lbase, lcnt := 0 }).advance 4)

/-! ### YIELD and the checkpoint (R212, R46) -/

/-- The checkpoint of the team context at a pc (R46). -/
def Core.checkpoint (k : Core) (pc : W64) : Checkpoint :=
  let x := k.ctx teamCtx
  { regs := x.regs, pc := pc, lcnt := k.lcnt, lbase := k.lbase, lring := k.lring, pending := k.pending
    tailM := k.galM.tail, tailV := k.galV.tail, tailX := k.galX.tail, tailK := k.galK.tail
    appended := x.dq.map fun (i, q) => (i, q.appended)
    popped := x.dq.map fun (i, q) => (i, q.popped)
    fmtPush := k.fmtPush, crc := 0, pos := (k.ctx teamCtx).pos }
/-- Steps 2 and 3 of R212: the copy that is not current is written with its CRC. -/
def Core.writeCheckpoint (k : Core) (pc : W64) : Core :=
  let c := (k.checkpoint pc).sealed
  if k.ckIsB then { k with ckA := c } else { k with ckB := c }
/-- The copy becomes current; the span starts anew (R46). -/
def Core.saveCheckpoint (k : Core) (pc : W64) : Core :=
  let k1 := { k.writeCheckpoint pc with ckIsB := !k.ckIsB }
  { k1.modCtx teamCtx (fun x => { x with loadQ := x.loadQ.map fun l => if l.live then l else { l with dest := 0 } }) with
    irrevocable := false, rlog := [], replay := none }
def Core.current (k : Core) : Checkpoint := if k.ckIsB then k.ckB else k.ckA

/-- Every record that the stream has appended is CHECKED: the Proofreader has reached the same point (R212 step 1). -/
def Core.proofRead (k : Core) : Bool := galleys.all fun g => (k.galley g).slots.all fun (_, y) => y.st != .appended

/-- The two maps' bits where they differ. -/
def xorMaps {n : Nat} (a b : FMap (BitVec n)) : FMap (BitVec n) :=
  (FMap.keys a ++ FMap.keys b).foldl (fun m i => FMap.set m 0 i (FMap.get a 0 i ^^^ FMap.get b 0 i)) []
/-- The core as the Proofreader holds the team context's scalar state (R15). -/
def Core.proofView (k : Core) : Core :=
  let d := k.proof
  { k.modCtx teamCtx fun x => { x with regs := xorMaps x.regs d.regs, pc := x.pc ^^^ d.pc, caseMem := xorMaps x.caseMem d.caseMem } with
    lcnt := k.lcnt ^^^ d.lcnt, lbase := k.lbase ^^^ d.lbase, lring := k.lring ^^^ d.lring, pending := d.pending.getD k.pending, proof := .none }
/-- Where the scalar state of `v` differs from that of `k`. -/
def Core.proofDiff (k v : Core) : ProofDiff :=
  let x := k.ctx teamCtx
  let y := v.ctx teamCtx
  { regs := xorMaps x.regs y.regs, pc := x.pc ^^^ y.pc, lcnt := k.lcnt ^^^ v.lcnt, lbase := k.lbase ^^^ v.lbase, lring := k.lring ^^^ v.lring
    caseMem := xorMaps x.caseMem y.caseMem, pending := if v.pending = k.pending then none else some v.pending }
/-- The Proofreader's CRC over the checkpoint of its own state (R212 step 3). -/
def Core.proofCrc (k : Core) : W32 := crc32c (k.proofView.checkpoint ((k.proofView.ctx teamCtx).pc + 4)).bytes

/-- In the team context the wait for the Proofreader, the checkpoint, then the stop of a pending pre-emption; where the Proofreader's
CRC is another, the copy is written and does not become current, and the mismatch goes as R22's; in a light context one turn is passed over
(log entry 27). -/
def execYield (s : State) : Out :=
  if s.cur.ctx = teamCtx then
    if !s.cc.proofRead || s.cc.resetAsked then .next s
    else if s.cc.proof ≠ .none ∧ s.cc.proofCrc ≠ crc32c (s.cc.checkpoint (s.cx.pc + 4)).bytes then
      .next ((s.modCc fun k => k.writeCheckpoint (s.cx.pc + 4)).proofMismatch s.cur.core 0)
    else
      let s1 := (s.modCc fun k => k.saveCheckpoint (s.cx.pc + 4)).advance 4
      .next (if s.cc.preempt.any fun p => !p.stopped then s1.stopTeam s.cur.core else s1)
  else .next ((s.advance 4).modCx fun x => { x with passOver := true })

/-! ### HALT (R213) -/

/-- Stores and atomics of a context are acknowledged at their scopes. -/
def Ctx.storesDone (x : Ctx) : Bool := x.storeQ.isEmpty && x.unacked.isEmpty
/-- Every record of a galley is DONE or FREE. -/
def GalleyState.allDone (g : GalleyState) : Bool := g.entries.all fun (_, y) => y.st == .done || y.st == .free
def Core.galleysDone (k : Core) : Bool := galleys.all fun g => (k.galley g).allDone
/-- What a HALT waits for; the final state of a team holds every load's value (R342). -/
def Core.haltReady (k : Core) (x : CtxId) : Bool :=
  (k.ctx x).storesDone && (x != teamCtx || (k.galleysDone && (k.ctx x).loadQ.isEmpty))

/-- HALT ends the stream: its wait begins, which `HALT_COMPLETE` ends. Queues, and the team context's pending tokens and stamp, go with the
context at its end, so that a STALL at the `HALT` leaves them (R213, R327). -/
def execHalt (s : State) : Out := .next (s.hold .halt s.cc.waitMax)

/-- A light context that has become dormant takes the next queued folio (R36). -/
def State.folioEnds (s : State) (c : CoreId) (x : CtxId) : State := s.modCore c fun k => k.modCtx x Ctx.sleep

def execHaltComplete (c : CoreId) (x : CtxId) (s : State) : Out :=
  let k := s.core c
  let y := k.ctx x
  let waits := match y.run, y.wait with
    | .running, some w => w.kind == .halt
    | _, _ => false
  if waits && k.haltReady x then
    (if x = teamCtx then .next (s.endTeam c .retired)
     else
       match y.role with
       | .trap of => .next ((s.folioEnds c x).failTeam c (k.ctx of).trapOf (k.ctx of).tepc)
       | .folio _ | .none => .next (s.folioEnds c x))
  else .next s

/-! ### TRAP and ERET (R214, R215) -/

/-- TEPC names the next instruction. -/
def execTrap (code : BitVec 12) (s : State) : Out :=
  .next (s.raise s.cur (.plain causeTrap (zext64 code)) (s.cx.pc + 4))

def execEret (s : State) : Out :=
  if !s.cx.priv then .next s.privTrap
  else
    match s.cx.role with
    | .trap of => .next (s.returnTrap s.cur of)
    | .none | .folio _ => .next s.illegal

/-! ### WFE (R216) -/

def State.lt (s : State) (r : CtxRef) : W64 := if r.ctx = teamCtx then s.localTime r.core else s.platen

/-- The reasons for which a `WFE` of context `r` ends now: EVL, the deadline, a reached WAITMAX, a pre-emption request
that a light context sees. -/
def State.wfeWhy (s : State) (r : CtxRef) (a : Reg) : W64 :=
  let x := s.ctx r
  let k := s.core r.core
  let late := a != 0 && (x.reg a).toNat ≤ (s.lt r).toNat
  let waited := match x.wait with
    | some w => (match w.kind with
      | .wfe _ _ => w.count
      | _ => 0)
    | none => 0
  let timed := k.waitMax * 16 ≤ waited
  let drain := r.ctx != teamCtx && k.preempt.isSome
  x.evl ||| (boolW late <<< 3) ||| (boolW timed <<< 4) ||| (boolW drain <<< 2)

/-- Complete a `WFE` of context `r` with its reasons. -/
def State.wfeDone (s : State) (r : CtxRef) (d a : Reg) : State :=
  (s.modCtx r fun x => { (({ x with evl := 0 } : Ctx).claim d).setReg d (s.wfeWhy r a) with pc := x.pc + 4, wait := none }).proofGets r d

def execWfe (d a : Reg) (s : State) : Out :=
  if s.wfeWhy s.cur a ≠ 0 then .next (s.wfeDone s.cur d a) else .next (s.hold (.wfe d a) s.cc.waitMax)

/-- A waiting `WFE` of a context, its registers. -/
def Ctx.wfeWaits (x : Ctx) : Option (Reg × Reg) :=
  match x.run, x.wait with
  | .running, some w => (match w.kind with
    | .wfe d a => some (d, a)
    | _ => none)
  | _, _ => none

/-- An event, the deadline or, in a light context, a pre-emption request ends the wait. -/
def execWfeWake (c : CoreId) (x : CtxId) (s : State) : Out :=
  match (s.ctx ⟨c, x⟩).wfeWaits with
  | some (d, a) => .next (if s.wfeWhy ⟨c, x⟩ a &&& 0xF ≠ 0 then s.wfeDone ⟨c, x⟩ d a else s)
  | none => .next s
/-- Reaching WAITMAX completes the instruction and raises no STALL. -/
def execWfeTimeout (c : CoreId) (x : CtxId) (s : State) : Out :=
  match (s.ctx ⟨c, x⟩).wfeWaits with
  | some (d, a) => .next (if (s.wfeWhy ⟨c, x⟩ a).getLsbD 4 then s.wfeDone ⟨c, x⟩ d a else s)
  | none => .next s

end Sys2Proof.Machine
end

