-- ==== Sys2Proof/Machine/Csr.lean ====
section
/-! DEFINITION. The CSRs (08 R218-R222, 01 R35, R52, 02 R72, 03 R93, 12 R316, R458, 15 R352, 18 R397, R401, R402) and the
TLB invalidations (08 R219). -/
namespace Sys2Proof.Machine

/-- Registers of the team context alone: a light context reads zero and its writes are ignored (R220). -/
def CsrName.teamOnly : CsrName → Bool
  | .stoff | .slip | .vw | .lcnt | .lbase | .lring | .wbud | .wuse | .pidx | .budg | .pwrl => true
  | .platen | .ltime | .fpx | .scrw | .ctxid | .evl | .dln | .slice | .hotid | .cause | .taddr | .tepc | .tinfo | .dfcause
  | .dfaddr | .tfpx | .ymax | .cmpinj => false

/-- The context whose trap registers an access reaches: a light context serving a trap reaches the trapped context's
(R220, R316). -/
def Ctx.trapSet (x : Ctx) (own : CtxId) : CtxId :=
  match x.role with
  | .trap of => of
  | .none | .folio _ => own

/-- A CSR's value for a context (R220). -/
def State.readCsr (s : State) (r : CtxRef) (n : CsrName) : W64 :=
  let k := s.core r.core
  let x := s.ctx r
  let y := k.ctx (x.trapSet r.ctx)
  if n.teamOnly && r.ctx != teamCtx then 0
  else
    match n with
    | .platen => s.platen
    | .ltime => s.lt r
    | .stoff => k.stoff
    | .slip => k.slip
    | .fpx => x.fpx
    | .vw => k.vw
    | .lcnt => k.lcnt
    | .lbase => k.lbase
    | .lring => k.lring
    | .wbud => k.wbud
    | .wuse => k.wuse
    | .scrw => k.scrw
    | .ctxid => s.ctxid r
    | .evl => x.evl
    | .pidx => k.pidx
    | .budg => k.budg
    | .dln => k.dln
    | .slice => k.slice
    | .pwrl => k.pwrl
    | .hotid => s.hotid
    | .cause => y.cause
    | .taddr => y.taddr
    | .tepc => y.tepc
    | .tinfo => y.tinfo
    | .dfcause => k.dfcause
    | .dfaddr => k.dfaddr
    | .tfpx =>
      match x.role with
      | .trap of => (k.ctx of).fpx
      | .none | .folio _ => 0
    | .ymax => s.ymax
    | .cmpinj => k.cmpinj

/-- FPX written with `v`: NANOFF takes its bit, each flag written 1 clears (R93). -/
def fpxWrite (old v : W64) : W64 := (v &&& 0x100) ||| (old &&& 0x3F &&& ~~~v)

/-- VW refuses LANES above 128 and PLN of 1 or above 8 (R255). -/
def vwOk (v : W64) : Bool := bitsN v 0 8 ≤ 128 && bitsN v 12 4 != 1 && bitsN v 12 4 ≤ 8
/-- LRING refuses what LOOP refuses; a ring of 0 clears the loop state (R211). -/
def lringOk (v : W64) : Bool := ringOf v ≤ 8 && wbaseOf v < 24 && wbaseOf v + ringOf v ≤ 24
/-- v mod RING, or 0 for no ring (R211). -/
def ringMod (v ring : Nat) : Nat := if ring = 0 then 0 else v % ring

/-- The band table entry of a band on a die (R393). -/
def Die.band (d : Die) (b : Nat) : W64 := FMap.get d.bands bandReset b
/-- SLICE with LEN written: 0 takes the band's DSLICE, then the clamp at SAVREST + 64 (R402). -/
def sliceWrite (old : W64) (v dslice : Nat) : W64 :=
  let v1 := if v = 0 then dslice else v
  let bound := bitsN old 16 16 + 64
  let len := min (max v1 bound) 65535
  setBits (setBits old 0 16 len) 32 1 (if v1 < bound then 1 else 0)
/-- DSLICE of the band that the team of a core runs in, by the table of the scheduler that admitted it (R399, R402). -/
def State.dsliceOf (s : State) (c : CoreId) : Nat :=
  match (s.core c).team with
  | some r =>
    let die := match s.launch? r.launch with
      | some l => s.schedulerOf l.owner
      | none => coreDie c
    bitsN ((s.die die).band r.band.toNat) 4 16
  | none => bitsN bandReset 4 16

/-- TINFO holds the fields that its KIND gives a meaning; the others, and all of a reserved KIND, read as zero (R317). -/
def tinfoWrite (v : W64) : W64 :=
  match bitsN v 0 4 with
  | 1 => v &&& 0xFFFF_FFFF_0000_000F
  | 2 => v &&& 0xFFFF_FFFF_FFFF_FF0F
  | 3 => v &&& 0xFFFF_FFFF_FF00_00FF
  | 4 => v &&& 0x00FF_FFFF_FFFF_FFFF
  | _ => 0

/-- A write of YMAX that R352 refuses: a zero field, or LIMIT lowered below a loaded kernel's bound. -/
def State.ymaxOk (s : State) (v : W64) : Bool :=
  bitsN v 0 32 != 0 && bitsN v 32 32 != 0 &&
  (bitsN s.ymax 0 32 ≤ bitsN v 0 32 || s.objects.all fun o => o.kernels.all fun k => k.bound ≤ bitsN v 0 32)

/-- A CSR write by a context under the access codes; none where the register's own rule refuses the value (R218). -/
def State.writeCsr (s : State) (r : CtxRef) (n : CsrName) (v : W64) : Option State :=
  let c := r.core
  let x := s.ctx r
  let t : CtxRef := ⟨c, x.trapSet r.ctx⟩
  if n.teamOnly && r.ctx != teamCtx then some s
  else
    match n with
    | .platen | .ltime | .stoff | .wbud | .wuse | .scrw | .ctxid | .pidx | .budg | .dln | .pwrl | .hotid | .dfcause
    | .dfaddr => some s
    | .slip => some (s.modCore c fun k => { k with slip := v &&& ~~~0xF })
    | .fpx => some (s.modCtx r fun y => { y with fpx := fpxWrite y.fpx v })
    | .vw => if vwOk v then some (s.modCore c fun k => { k with vw := v &&& 0xF1FF }) else none
    | .lcnt => some (s.modCore c fun k => { k with lcnt := v })
    | .lbase => some (s.modCore c fun k => { k with lbase := BitVec.ofNat 64 (ringMod v.toNat (ringOf k.lring)) })
    | .lring =>
      if lringOk v then
        some (s.modCore c fun k =>
          { k with lring := v &&& 0x1F0F, lbase := BitVec.ofNat 64 (ringMod k.lbase.toNat (ringOf v)) })
      else none
    | .evl => some (s.modCtx r fun y => { y with evl := y.evl &&& ~~~v })
    | .slice => some (s.modCore c fun k =>
        { k with slice := sliceWrite k.slice (bitsN v 0 16) (s.dsliceOf c), team := k.team.map fun m => { m with sliceAt := s.now } })
    | .cause => some (s.modCtx t fun y => { y with cause := v &&& 0xF1FF })
    | .taddr => some (s.modCtx t fun y => { y with taddr := v })
    | .tepc => some (s.modCtx t fun y => { y with tepc := v &&& ~~~3 })
    | .tinfo => some (s.modCtx t fun y => { y with tinfo := tinfoWrite v })
    | .tfpx =>
      match x.role with
      | .trap of => some (s.modCtx ⟨c, of⟩ fun y => { y with fpx := fpxWrite y.fpx v })
      | .none | .folio _ => some s
    | .ymax => if s.ymaxOk v then some { s with ymax := v } else none
    | .cmpinj =>
      some (s.modCore c fun k =>
        { k with cmpinj := v &&& 0xFFFF_FFFF_0000_000B
                 armed := if v.getLsbD 7 then some ⟨s.now + bitsN v 32 32, v.getLsbD 3, v.setWidth 2⟩ else k.armed })

/-- The value a read delivers: in a replay the log's next, else the register's, which is logged (R47, R48). -/
def State.csrValue (s : State) (n : CsrName) : W64 × State :=
  if s.cur.ctx = teamCtx then
    match s.cc.replayValue with
    | some (v, k) => (v, s.setCore s.cur.core k)
    | none => (s.readCsr s.cur n, s.logNow (s.readCsr s.cur n))
  else (s.readCsr s.cur n, s)

def execCsrr (d : Reg) (n : BitVec 12) (s : State) : Out :=
  match csrOf n with
  | none => .next s.illegal
  | some r =>
    if r.privOnly && !s.cx.priv then .next s.privTrap
    else let (v, s1) := s.csrValue r; .next (s1.writeNext d v 4)

def execCsrw (a : Reg) (n : BitVec 12) (s : State) : Out :=
  match csrOf n with
  | none => .next s.illegal
  | some r =>
    if r.privOnly && !s.cx.priv then .next s.privTrap
    else
      match s.writeCsr s.cur r (s.reg a) with
      | some s1 => .next (s1.advance 4)
      | none => .next s.illegal

/-- `CSRX` naming CMPINJ raises ILLEGAL (R218). -/
def execCsrx (d a : Reg) (n : BitVec 12) (s : State) : Out :=
  match csrOf n with
  | none => .next s.illegal
  | some r =>
    if r = .cmpinj then .next s.illegal
    else if r.privOnly && !s.cx.priv then .next s.privTrap
    else
      match s.writeCsr s.cur r (s.reg a) with
      | some _ =>
        let (v, s1) := s.csrValue r
        match s1.writeCsr s.cur r (s.reg a) with
        | some s2 => .next (s2.writeNext d v 4)
        | none => .next s.illegal
      | none => .next s.illegal

/-! ### TLB.INV (R219) -/

/-- The streams of a context that stand before a position and still have elements to read; each takes the position of its `LDQ` (R124). A
context that waits in a `HALT` reads no more elements (R213). -/
def Ctx.streamsBefore (x : Ctx) (pos : Nat) : List Stream :=
  if x.wait.any fun w => w.kind == .halt then [] else x.dq.flatMap fun d => d.2.streams.filter fun t => t.pos < pos
/-- The loads that stand before a position have their values: those of the load queue, and the elements of streams but for halted ones
(R126, R139; log entry 72). -/
def Ctx.loadsBefore (x : Ctx) (pos : Nat) : Bool :=
  x.loadQ.all (fun l => pos ≤ l.pos || l.got.isSome) && (x.streamsBefore pos).all fun t => t.halted.isSome
/-- The ordering point `ALIGN.S` is met: loads have their values, stores and atomics are visible to all of S (R132, R146). -/
def Ctx.aligned (x : Ctx) : Bool := x.loadQ.all (fun l => l.got.isSome) && x.loadsBefore x.pos && x.storesDone

/-- Run `act` once the context is aligned, else wait (R147, R219). -/
def State.whenAligned (s : State) (sc : Scope) (act : State → State) : State :=
  if s.cx.aligned then act s else s.hold (.align sc) s.cc.waitMax

/-- Every translation of one page in the context's address space. -/
def execTlbInvPage (a : Reg) (s : State) : Out :=
  .next (s.whenAligned .clu fun s1 =>
    let job := s1.cc.job
    let va := va56 (s1.reg a)
    (s1.dropCluster (coreCluster s1.cur.core) (fun e => e.covers job va)
      (fun w => w.job == job && va56 w.va / 65536 == va / 65536)).advance 4)
/-- Every translation of the context's address space. -/
def execTlbInvSpace (s : State) : Out :=
  .next (s.whenAligned .clu fun s1 =>
    let job := s1.cc.job
    (s1.dropCluster (coreCluster s1.cur.core) (fun e => e.job == job) (fun w => w.job == job)).advance 4)
/-- Every translation; privileged. -/
def execTlbInvCluster (s : State) : Out :=
  if !s.cx.priv then .next s.privTrap
  else .next (s.whenAligned .clu fun s1 =>
    (s1.dropCluster (coreCluster s1.cur.core) (fun _ => true) (fun _ => true)).advance 4)

end Sys2Proof.Machine
end

