-- ==== Sys2Proof/Machine/Memory.lean ====
section
/-! DEFINITION. Loads, stores, the Case, atomics, `PREF`, `ALIGN` and the Chase operations (09 R224-R244), with the access
unit's and the write lane's share of each (02 R70-R75, 05 R124, R146, R147). -/
namespace Sys2Proof.Machine

/-! ### The checks of an access (R225) -/

/-- How the checks of one access end. -/
inductive Checked where
  | ok (pa : Nat) (e : TlbEntry)
  | miss
  | hostMiss (pa : Nat)
  | trap (t : Trap)
deriving DecidableEq, Repr

/-- MEMERR of a read: TADDR the virtual address, TINFO the physical one (R225 step 7, R315). -/
def Trap.memerr (unit : BitVec 4) (va : W64) (pa : Nat) : Trap := ⟨causeMemerr, unit, va, infoPhys pa, none⟩

/-- Steps 2 to 6 of R225 for one access of `n` bytes. -/
def State.checkAccess (s : State) (r : CtxRef) (a : Access) (va : W64) (n : Nat) : Checked :=
  if !canonical va then .trap (.plain causeProt va)
  else if va.toNat % n ≠ 0 then .trap (.plain causeAlign va)
  else
    match s.translate r.core (s.ctx r).priv a va with
    | .trap c => .trap (.plain c va)
    | .miss => .miss
    | .ok pa e => if s.hostMissing (s.jobFunc (s.core r.core).job) pa then .hostMiss pa else .ok pa e

/-- All steps of a load. -/
def State.checkLoad (s : State) (r : CtxRef) (va : W64) (n : Nat) : Checked :=
  match s.checkAccess r .read va n with
  | .ok pa e =>
    match s.badAt pa n with
    | some p => .trap (.memerr 0 va p)
    | none => .ok pa e
  | c => c

/-- An atomic on host memory is one that PCIe knows (R240). -/
def hostAtomic (op : BitVec 3) : Bool := op == 0 || op == 6 || op == 7

/-- All steps of an atomic: read and write, and the table of R240 at step 5. -/
def State.checkAtomic (s : State) (r : CtxRef) (op : BitVec 3) (va : W64) (n : Nat) : Checked :=
  match s.checkAccess r .read va n with
  | .ok pa _ =>
    if isHost pa && !hostAtomic op then .trap (.plain causeProt va)
    else
      match s.checkAccess r .write va n with
      | .ok pa e =>
        match s.badAt pa n with
        | some p => .trap (.memerr 0 va p)
        | none => .ok pa e
      | c => c
  | c => c

/-- Run the rest of an access once its checks are passed. -/
def State.checked (s : State) (va : W64) (c : Checked) (go : Nat → TlbEntry → State) : State :=
  match c with
  | .trap t => s.raise s.cur t s.cx.pc
  | .miss => s.holdWalk va
  | .hostMiss pa => s.holdHost pa va
  | .ok pa e => go pa e

/-! ### Loads (R226, R230) -/

/-- A load enters the load queue at its program position and, in the team context, its place in the replay log (R147,
R47). -/
def State.enqueueLoad (s : State) (d : Reg) (va : W64) (pa n : Nat) (signed acquire stereotype : Bool) : State :=
  let l : LoadEntry := ⟨d, va, pa, n, signed, acquire, stereotype, s.cx.pos, s.cx.pc, none, true⟩
  let s1 := if s.cur.ctx = teamCtx then s.modCc fun k => k.reserveLog s.cx.pos none else s
  s1.modCx fun x => { x with loadQ := x.loadQ ++ [l], pos := x.pos + 1 }

/-- A load of the current context: in a replay its value comes from the log (R48), else the checks, the queue and, for an
acquire load, the wait for its value (R147). -/
def State.load (s : State) (d : Reg) (va : W64) (n : Nat) (signed acquire : Bool) : State :=
  match s.cur.ctx == teamCtx, s.cc.replayValue with
  | true, some (v, k) => (s.setCore s.cur.core k).writeNext d v 4
  | _, _ =>
    s.checked va (s.checkLoad s.cur va n) fun pa e =>
      let s1 := (s.enqueueLoad d va pa n signed acquire e.st).advance 4
      if acquire then s1.hold (.acquire va s.cx.pos) s.cc.waitMax else s1

/-- The address of a memory operand (R224). -/
def State.ea {n : Nat} (s : State) (a : Reg) (off : BitVec n) : W64 := s.reg a + sext64 off

def execLdB (d a : Reg) (off : BitVec 12) (s : State) : Out := .next (s.load d (s.ea a off) 1 true false)
def execLdH (d a : Reg) (off : BitVec 12) (s : State) : Out := .next (s.load d (s.ea a off) 2 true false)
def execLdW (d a : Reg) (off : BitVec 12) (s : State) : Out := .next (s.load d (s.ea a off) 4 true false)
def execLdD (d a : Reg) (off : BitVec 12) (s : State) : Out := .next (s.load d (s.ea a off) 8 false false)
def execLdBU (d a : Reg) (off : BitVec 12) (s : State) : Out := .next (s.load d (s.ea a off) 1 false false)
def execLdHU (d a : Reg) (off : BitVec 12) (s : State) : Out := .next (s.load d (s.ea a off) 2 false false)
def execLdWU (d a : Reg) (off : BitVec 12) (s : State) : Out := .next (s.load d (s.ea a off) 4 false false)
def execLdAcq (_sc : Scope) (z : Size) (d a : Reg) (off : BitVec 7) (s : State) : Out :=
  .next (s.load d (s.ea a off) z.bytes false true)

/-! ### PREF (R227) -/

/-- `PREF` asks for the line; it is dropped where R227 says so. -/
def execPref (l2 : Bool) (a : Reg) (off : BitVec 12) (s : State) : Out :=
  let va := s.ea a off
  .next ((match s.translate s.cur.core s.cx.priv .read va with
    | .ok pa e =>
      if isHbm pa && (s.badAt (lineOf pa * 128) 128).isNone then
        (if l2 then (if (FMap.keys s.l2).contains (lineOf pa) then s else s.fillL2 (lineOf pa) ⟨false, false, false⟩)
         else s.touchLine s.cur.core pa e.st)
      else s
    | .miss | .trap _ => s).advance 4)

/-! ### Stores (R228-R230) -/

/-- A plain or release store: the checks, room in the store queue (R73), an entry in program order (R70); a release makes
the span irrevocable (R47). -/
def State.store (s : State) (kind : StoreKind) (sc : Scope) (d : Reg) (va : W64) (n : Nat) : State :=
  s.checked va (s.checkAccess s.cur .write va n) fun pa _ =>
    if 64 ≤ s.cx.storeQ.length then s.hold (.storeFull va) s.cc.waitMax
    else
      let s1 := (s.modCx fun x => { x with
        storeQ := x.storeQ ++ [⟨kind, va, pa, n, BitVec.ofNat 64 ((x.reg d).toNat % 2 ^ (8 * n)), sc, x.pos⟩]
        pos := x.pos + 1 }).advance 4
      if kind = .release then s1.irrevocable else s1

def execStB (sc : Scope) (d a : Reg) (off : BitVec 9) (s : State) : Out := .next (s.store .plain sc d (s.ea a off) 1)
def execStH (sc : Scope) (d a : Reg) (off : BitVec 9) (s : State) : Out := .next (s.store .plain sc d (s.ea a off) 2)
def execStW (sc : Scope) (d a : Reg) (off : BitVec 9) (s : State) : Out := .next (s.store .plain sc d (s.ea a off) 4)
def execStD (sc : Scope) (d a : Reg) (off : BitVec 9) (s : State) : Out := .next (s.store .plain sc d (s.ea a off) 8)

def execStRel (sc : Scope) (z : Size) (d a : Reg) (off : BitVec 7) (s : State) : Out :=
  .next (s.store .release sc d (s.ea a off) z.bytes)

/-! ### The Case (R231) -/

def Ctx.caseRead (x : Ctx) (off n : Nat) : W64 := BitVec.ofNat 64 (natOfBytes (FMap.getMany x.caseMem 0 off n))
def Ctx.caseWrite (x : Ctx) (off n : Nat) (v : W64) : Ctx :=
  { x with caseMem := FMap.setMany x.caseMem 0 off (bytesOfNat v.toNat n) }

/-- A value that the instruction delivers at once: the log's next in a replay, else its own, which is logged (R47, R48). -/
def State.deliverNow (s : State) (d : Reg) (v : W64) (len : Nat) : State :=
  match s.cur.ctx == teamCtx, s.cc.replayValue with
  | true, some (w, k) => (s.setCore s.cur.core k).writeNext d w len
  | _, _ => (s.logNow v).writeNext d v len

def execLdc (z : Size) (d : Reg) (off : BitVec 14) (s : State) : Out :=
  .next (s.deliverNow d (s.cx.caseRead off.toNat z.bytes) 4)
def execStc (z : Size) (d : Reg) (off : BitVec 14) (s : State) : Out :=
  .next ((s.modCx fun x => x.caseWrite off.toNat z.bytes (x.reg d)).advance 4)

/-! ### ALIGN (R236) -/

def execAlign (sc : Scope) (s : State) : Out := .next (s.whenAligned sc fun s1 => s1.advance 4)

/-! ### Atomics (R238-R240) -/

/-- An atomic enters the store queue as one entry, makes the span irrevocable and waits for its old value (R239). -/
def State.atomic (s : State) (op : BitVec 3) (m : AtmForm) : State :=
  let n := if m.dbl then 8 else 4
  let va := s.ea m.a m.off
  s.checked va (s.checkAtomic s.cur op va n) fun pa _ =>
    if 64 ≤ s.cx.storeQ.length then s.hold (.storeFull va) s.cc.waitMax
    else
      (((s.modCx fun x => { x.claim m.d with
        storeQ := (x.claim m.d).storeQ ++ [⟨.atomic op (x.reg m.f) m.d m.ord, va, pa, n, x.reg m.b, m.scope, x.pos⟩]
        pos := x.pos + 1 }).advance 8).hold (.atomic va s.cx.pos) s.cc.waitMax).irrevocable

def execAtmAdd (m : AtmForm) (s : State) : Out := .next (s.atomic 0 m)
def execAtmMin (m : AtmForm) (s : State) : Out := .next (s.atomic 1 m)
def execAtmMax (m : AtmForm) (s : State) : Out := .next (s.atomic 2 m)
def execAtmAnd (m : AtmForm) (s : State) : Out := .next (s.atomic 3 m)
def execAtmOr (m : AtmForm) (s : State) : Out := .next (s.atomic 4 m)
def execAtmXor (m : AtmForm) (s : State) : Out := .next (s.atomic 5 m)
def execAtmXchg (m : AtmForm) (s : State) : Out := .next (s.atomic 6 m)
def execAtmCas (m : AtmForm) (s : State) : Out := .next (s.atomic 7 m)

/-! ### Chase operations (R241-R244) -/

/-- An earlier acquire of the context is still in flight: no later access takes effect (R126, R327). -/
def StoreEntry.acquires (e : StoreEntry) : Bool :=
  match e.kind with
  | .atomic _ _ _ o => o == .acq || o == .ar
  | .plain | .release | .chSet _ | .chAdd _ => false
def Ctx.acquiring (x : Ctx) (pos : Nat) : Bool :=
  x.loadQ.any (fun l => l.acquire && l.got.isNone && decide (l.pos < pos)) || x.storeQ.any fun e => e.acquires && decide (e.pos < pos)

/-- PROT of a counter that the context may not use that way (R241). -/
def State.ctrProt (s : State) (c : BitVec 18) : State := s.trapHere causeProt (zext64 c)

/-- `CH.SET` and `CH.ADD` enter the store queue with no charge (R242); behind a full queue they wait as an `ALIGN` does, and take STALL of
WKIND 4 (R326), not WLANE, which R73 gives a store or an atomic (log entry 76). -/
def State.chaseStore (s : State) (kind : StoreKind) (c : BitVec 18) (v : W64) : State :=
  if !s.mayUpdate s.cx.priv s.cc.job c then s.ctrProt c
  else if 64 ≤ s.cx.storeQ.length then s.hold (.align .pkg) s.cc.waitMax
  else
    ((s.modCx fun x => { x with storeQ := x.storeQ ++ [⟨kind, 0, 0, 0, v, .pkg, x.pos⟩], pos := x.pos + 1 }).advance
      4).irrevocable

def execChSet (c : BitVec 18) (a : Reg) (s : State) : Out := .next (s.chaseStore (.chSet c) c (s.reg a))
def execChAdd (c : BitVec 18) (a : Reg) (s : State) : Out := .next (s.chaseStore (.chAdd c) c (s.reg a))

/-- A `CH.WAIT` of the context at its position is satisfied now, and no acquire before it is in flight (R126, R243). -/
def State.chMet (s : State) (x : Ctx) (c : BitVec 18) (t : W64) : Bool :=
  !s.ctrHeld c && !x.acquiring x.pos && ctrSatisfied (s.ctr c) t.toNat
/-- `CH.WAIT`: the value at the instant of satisfaction goes to sa (R243). -/
def execChWait (c : BitVec 18) (a : Reg) (lw : LongWait) (s : State) : Out :=
  .next (
    match s.cur.ctx == teamCtx, s.cc.replayValue with
    | true, some (v, k) => (s.setCore s.cur.core k).writeNext a v 8
    | _, _ =>
      if !s.mayWait s.cx.priv s.cc.job c then s.ctrProt c
      else if s.chMet s.cx c (s.reg a) then (s.logNow (s.ctr c)).writeNext a (s.ctr c) 8
      else s.hold (.chWait c (s.reg a) a) (lwClk lw))

/-- The context waits in a `CH.WAIT`: its counter, threshold and register. -/
def Ctx.chWaits (x : Ctx) : Option (BitVec 18 × W64 × Reg) :=
  match x.run, x.wait with
  | .running, some w => (match w.kind with
    | .chWait c t a => some (c, t, a)
    | _ => none)
  | _, _ => none

/-- The counter reaches a waiting context's threshold. -/
def execChWaitSatisfied (c : CoreId) (x : CtxId) (s : State) : Out :=
  match (s.ctx ⟨c, x⟩).chWaits with
  | some (n, t, a) =>
    .next (if s.chMet (s.ctx ⟨c, x⟩) n t then
        let s1 := if x = teamCtx then
            s.modCore c fun k => (k.reserveLog (k.ctx x).pos (some (s.ctr n))).modCtx x fun y => { y with pos := y.pos + 1 }
          else s
        (s1.modCtx ⟨c, x⟩ fun y => { (y.claim a).setReg a (s.ctr n) with pc := y.pc + 8, wait := none }).proofGets ⟨c, x⟩ a
      else s)
  | none => .next s

/-- The end of the round that an arrival belongs to (R244). -/
def barTarget (old m : Nat) : Nat := (old / m + 1) * m

/-- `BAR`: the arrival is counted once the earlier accesses are visible, then the wait for the round's end begins. R244 bounds only the
second wait; that `w` bounds the first too, whose count is carried into the second, and that a STALL of the first is WKIND 4 with TEPC the
`BAR` itself, is the model's choice (log entry 91). -/
def execBar (c : BitVec 18) (a : Reg) (lw : LongWait) (s : State) : Out :=
  let m := (s.reg a).toNat
  .next (
    if m = 0 ∨ 2 ^ 40 ≤ m then s.illegal
    else if !s.mayUpdate s.cx.priv s.cc.job c then s.ctrProt c
    else if !s.cx.aligned || s.ctrHeld c then s.hold (.align .pkg) (lwClk lw)
    else
      ((s.addCtr c 1 false (some s.cur.core)).hold (.bar c (barTarget (ctrCount (s.ctr c)) m)) (lwClk lw)).irrevocable)

/-- A waiting `BAR`: its counter and its target. -/
def Ctx.barWaits (x : Ctx) : Option (BitVec 18 × Nat) :=
  match x.run, x.wait with
  | .running, some w => (match w.kind with
    | .bar c t => some (c, t)
    | _ => none)
  | _, _ => none

def execBarRelease (c : CoreId) (x : CtxId) (s : State) : Out :=
  match (s.ctx ⟨c, x⟩).barWaits with
  | some (n, t) =>
    .next (if !s.ctrHeld n && ctrSatisfied (s.ctr n) t then s.modCtx ⟨c, x⟩ fun y => { y with pc := y.pc + 8, wait := none } else s)
  | none => .next s

/-! ### Data queues (R232-R235) -/

def Ctx.queue (x : Ctx) (q : BitVec 3) : DQueue := FMap.get x.dq .empty q.toNat
def Ctx.setQueue (x : Ctx) (q : BitVec 3) (v : DQueue) : Ctx := { x with dq := FMap.set x.dq .empty q.toNat v }

/-- In a replay an `LDQ` appends its stream only if the span had not (R252): the count the replay has reached is compared
with the queue's. -/
def Core.replayedLdq (k : Core) (q : BitVec 3) : Option (Bool × Core) :=
  k.replay.map fun p =>
    let at_ := FMap.get p.appended 0 q.toNat
    let done := ((k.ctx teamCtx).queue q).appended - at_
    (0 < done.toNat && done.toNat < 2 ^ 31, { k with replay := some { p with appended := FMap.set p.appended 0 q.toNat (at_ + 1) } })

/-- Append a stream, or wait for one of the four places. -/
def State.ldq (s : State) (z : Size) (q : BitVec 3) (a b f : W64) : State :=
  let d := s.cx.queue q
  if 4 ≤ d.streams.length then s.hold .ldq s.cc.waitMax
  else
    (s.modCx fun x =>
      { x.setQueue q { d with streams := d.streams ++ [⟨a, b.toNat % 2 ^ 32, f, z, 0, x.pos, none⟩]
                              appended := d.appended + 1 } with pos := x.pos + 1 }).advance 8

def execLdq (z : Size) (q : BitVec 3) (a b f : Reg) (s : State) : Out :=
  if bitsN (s.reg b) 0 32 = 0 then .next (s.advance 8)
  else
    match s.cur.ctx == teamCtx, s.cc.replayedLdq q with
    | true, some (true, k) => .next ((s.setCore s.cur.core k).advance 8)
    | true, some (false, k) =>
      let s1 := s.ldq z q (s.reg a) (s.reg b) (s.reg f)
      .next (if s1.cx.pc = s.cx.pc then s1 else s1.modCc fun y => { y with replay := k.replay })
    | _, _ => .next (s.ldq z q (s.reg a) (s.reg b) (s.reg f))

/-- The trap at which the queue's next element is halted (R235). -/
def DQueue.haltedNext (d : DQueue) : Option Trap :=
  match d.streams with
  | t :: _ => t.halted
  | [] => none
/-- STALL: TADDR names what is waited for, TINFO the kind of wait and its producer (R315, R317, R326). -/
def Trap.stall (wkind : BitVec 4) (name info : W64) : Trap :=
  ⟨causeStall, 0, name, info ||| (zext64 wkind <<< 4) ||| 3, none⟩

/-- `POPQ` (R234): the oldest element, the halting trap, a wait, or STALL at once. That STALL names the queue in TADDR, where R326 puts
a queue's number, and not in TINFO, as R234's comment says (log entry 76). -/
def execPopq (d : Reg) (q : BitVec 3) (lw : LongWait) (s : State) : Out :=
  .next (
    match s.cur.ctx == teamCtx, s.cc.replayValue with
    | true, some (v, k) => (s.setCore s.cur.core k).writeNext d v 8
    | _, _ =>
      let y := s.cx.queue q
      match y.elems with
      | e :: rest =>
        ((s.modCx fun x => x.setQueue q { y with elems := rest, popped := y.popped + 1 }).logNow e).writeNext d e 8
      | [] =>
        match y.haltedNext with
        | some t => s.raiseNoted s.cur t s.cx.pc
        | none =>
          if y.streams.isEmpty then s.raise s.cur (.stall 0 (zext64 q) 0) s.cx.pc
          else s.hold (.popq q) (lwClk lw))

/-! ### The load queue (R147) and its values (R124, R129, R78) -/

/-- The byte that the context's own pending stores leave at an address, the last of them before position `pos`. -/
def forwarded (q : List StoreEntry) (pos pa : Nat) : Option Byte :=
  q.foldl (fun acc e =>
    if e.pos < pos ∧ e.pa ≤ pa ∧ pa < e.pa + e.n then some (BitVec.ofNat 8 (e.data.toNat >>> (8 * (pa - e.pa)))) else acc) none

/-- Entries of the store queue before `pos` that touch some of `n` bytes. -/
def overlapsStore (q : List StoreEntry) (pos pa n : Nat) (sel : StoreEntry → Bool) : Bool :=
  q.any fun e => sel e && decide (e.pos < pos) && decide (e.pa < pa + n) && decide (pa < e.pa + e.n)
def StoreEntry.isAtomic (e : StoreEntry) : Bool :=
  match e.kind with
  | .atomic _ _ _ _ => true
  | .plain | .release | .chSet _ | .chAdd _ => false

def StoreEntry.isWrite (e : StoreEntry) : Bool :=
  match e.kind with
  | .plain | .release => true
  | .atomic _ _ _ _ | .chSet _ | .chAdd _ => false

/-- The bytes that a context's load receives: its own pending stores over memory (R124). -/
def State.loadBytes (s : State) (x : Ctx) (pos pa n : Nat) : List Byte :=
  (List.range n).map fun i =>
    match forwarded x.pendingStores pos (pa + i) with
    | some b => b
    | none => s.byte (pa + i)

/-- An uncorrectable error among the bytes that a load takes from memory (R84). -/
def State.loadBad (s : State) (x : Ctx) (pos pa n : Nat) : Option Nat :=
  match (List.range n).filter fun i => s.badByte (pa + i) && (forwarded x.pendingStores pos (pa + i)).isNone with
  | [] => none
  | i :: _ => some (pa + i)

/-- Some element of the stream that is still to be read touches `n` bytes from a virtual address (R124; log entry 72). -/
def Stream.touches (t : Stream) (va : W64) (n : Nat) : Bool :=
  let lo : Int := (va.toNat : Int) - t.size.bytes + 1 - t.base.toNat
  let hi : Int := (va.toNat : Int) + n - 1 - t.base.toNat
  let st := t.stride.toInt
  ([0, (2 ^ 64 : Int), -(2 ^ 64 : Int)] : List Int).any fun w =>
    let a := if st < 0 then -(hi + w) else lo + w
    let b := if st < 0 then -(lo + w) else hi + w
    if st = 0 then decide (a ≤ 0) && decide (0 ≤ b)
    else decide (max (-((-a) / st.natAbs)) t.next ≤ min (b / st.natAbs) ((t.count : Int) - 1))
/-- The runs of a job's virtual addresses that name the bytes of a run: the run itself, and what other mappings give its bytes. -/
def State.aliasRuns (s : State) (job : BitVec 24) (va : W64) (n : Nat) : List (W64 × Nat) :=
  (va, n) :: s.maps.flatMap fun m =>
    let lo := max m.va va.toNat
    let hi := min (m.va + m.len) (va.toNat + n)
    if m.job ≠ job ∨ hi ≤ lo then []
    else
      s.maps.filterMap fun y =>
        let a := max y.pa (m.pa + (lo - m.va))
        let b := min (y.pa + y.len) (m.pa + (hi - m.va))
        if y.job = job ∧ a < b then some (BitVec.ofNat 64 (y.va + (a - y.pa)), b - a) else none
/-- The virtual addresses at which a job's mappings hold a physical address. -/
def State.aliases (s : State) (job : BitVec 24) (pa : Nat) : List W64 :=
  s.maps.filterMap fun m => if m.job = job ∧ m.pa ≤ pa ∧ pa < m.pa + m.len then some (BitVec.ofNat 64 (m.va + (pa - m.pa))) else none
/-- An element of a stream before `pos` is still to take its value from some of `n` bytes, at whatever address it names them (R124). -/
def State.streamMeets (s : State) (r : CtxRef) (pos : Nat) (va : W64) (n : Nat) : Bool :=
  match (s.ctx r).streamsBefore pos with
  | [] => false
  | l => (s.aliasRuns (s.core r.core).job va n).any fun (a, m) => l.any fun t => t.touches a m

/-- Every load of the load queue before `pos` has its value, or touches none of `n` bytes (R124). -/
def Ctx.loadsClear (x : Ctx) (pos pa n : Nat) : Bool :=
  x.loadQ.all fun l => decide (pos ≤ l.pos) || l.got.isSome || decide (l.pa + l.n ≤ pa) || decide (pa + n ≤ l.pa)
/-- A read at a program position may take its value: no acquire stands before it, no atomic on its bytes, and no load or element of them
that is still to take its own value (R124, R126, R129). -/
def State.mayRead (s : State) (r : CtxRef) (pos : Nat) (va : W64) (pa n : Nat) : Bool :=
  let x := s.ctx r
  !x.acquiring pos && !overlapsStore x.storeQ pos pa n StoreEntry.isAtomic && x.loadsClear pos pa n && !s.streamMeets r pos va n

/-- A release is performed only after the earlier entries are acknowledged at its scope and the earlier loads have their
values (R126, R146). -/
def StoreEntry.releases (e : StoreEntry) : Bool :=
  match e.kind with
  | .release | .chSet _ | .chAdd _ => true
  | .atomic _ _ _ o => o == .rel || o == .ar
  | .plain => false
/-- Two entries touch one byte. -/
def StoreEntry.meets (a b : StoreEntry) : Bool := decide (a.pa < b.pa + b.n) && decide (b.pa < a.pa + a.n)
/-- The oldest entry of a store queue may leave: no earlier load or element is still to read its bytes, no acquire stands before it, and a
release waits for what it orders (R124, R126). -/
def State.mayLeave (s : State) (r : CtxRef) (e : StoreEntry) : Bool :=
  let x := s.ctx r
  (e.n == 0 || (x.loadsClear e.pos e.pa e.n && !s.streamMeets r e.pos e.va e.n)) && !x.acquiring e.pos &&
    (!e.isAtomic || !x.unacked.any e.meets) && (!e.releases || (x.unacked.isEmpty && x.loadsBefore e.pos))

/-- A MEMERR of a load in flight: under a core reset the span loses it (R47), else it is raised at the load (R313). -/
def State.loadFails (s : State) (r : CtxRef) (l : LoadEntry) (p : Nat) : State :=
  let drop := fun (z : Ctx) => { z with loadQ := z.loadQ.filter fun e => e.pos != l.pos }
  if r.ctx = teamCtx ∧ (s.core r.core).resetting then
    (s.uncorrectable p).modCore r.core fun k => { (k.dropLog l.pos).modCtx r.ctx drop with irrevocable := true }
  else if (s.ctx r).run ≠ .running then s
  else (s.modCore r.core fun k => (if r.ctx = teamCtx then k.dropLog l.pos else k).modCtx r.ctx drop).raise r (.memerr 1 l.va p) l.pc

/-- The value that a load takes now, or the byte at which it fails. -/
def State.loadValue (s : State) (y : Ctx) (l : LoadEntry) : Except Nat W64 :=
  match l.got, s.loadBad y l.pos l.pa l.n with
  | some v, _ => .ok v
  | none, some p => .error p
  | none, none => .ok (extendN l.signed l.n (natOfBytes (s.loadBytes y l.pos l.pa l.n)))

/-- The load at place `i` takes its value; values return in the queue's order, so only the oldest load's reaches its register, and
a later one keeps its own until then (R125, R147). -/
def execLoadReturn (c : CoreId) (x : CtxId) (i : Nat) (s : State) : Out :=
  let r : CtxRef := ⟨c, x⟩
  let y := s.ctx r
  match y.loadQ.drop i with
  | [] => .next s
  | l :: _ =>
    if l.got.isNone && !s.mayRead r l.pos l.va l.pa l.n then .next s
    else
      match s.loadValue y l with
      | .error p => .next (if i = 0 then s.loadFails r l p else s)
      | .ok v =>
        let s1 := s.touchLine c l.pa l.stereotype
        if i ≠ 0 then .next (s1.modCtx r fun z => { z with loadQ := z.loadQ.set i { l with got := some v } })
        else
          let s2 := s1.modCore c fun k => if x = teamCtx then k.fillLog l.pos l.dest v else k
          let s3 := s2.modCtx r fun z =>
            { (if l.live then z.setReg l.dest v else z) with
              loadQ := z.loadQ.drop 1
              wait := z.wait.filter fun w => w.kind != .acquire l.va l.pos }
          .next (if l.live then s3.proofGets r l.dest else s3)

/-! ### The store queue (R70-R75, R146) -/

/-- The drain before a save, and of the team context before RETIRED, disregards the budget (R75). -/
def Core.draining (k : Core) (x : CtxId) : Bool :=
  (k.preempt.any fun p => p.stopped) || x == teamCtx &&
  (match (k.ctx x).wait with
   | some w => w.kind == .halt
   | none => false)

/-- The lane is open, or the drain disregards it (R71, R75). -/
def Core.budgetAllows (k : Core) (x : CtxId) : Bool := k.laneOpen || k.draining x
/-- The context has a write at the lane: the oldest entry of its store queue, with nothing of its own before it, or a `DLV` payload. -/
def State.writes (s : State) (r : CtxRef) : Bool :=
  let x := s.ctx r
  (match x.storeQ with
   | e :: _ => s.mayLeave r e
   | [] => false) ||
  (match x.wait with
   | some w => (match w.kind with
     | .dlv _ _ _ _ _ => true
     | _ => false)
   | none => false)
/-- A write of the core waits for budget: of a context, whose drain does not disregard it, of an engine, or a write-back (R71, R72, R75). -/
def State.budgetHolds (s : State) (c : CoreId) : Bool :=
  let k := s.core c
  (([0, 1, 2, 3] : List CtxId).any fun x => s.writes ⟨c, x⟩ && !k.budgetAllows x) ||
  (!k.budgetAllows teamCtx && (!k.wbq.isEmpty || galleys.any fun g => (k.galley g).waits == some .budget))
/-- Write-backs that waited for budget leave; a drain disregards it (R71, R75). -/
def Core.drainBacks (k : Core) : Core :=
  if k.wbq.isEmpty then k
  else if k.draining teamCtx then { k.wbq.foldl (fun k' n => k'.charge n) k with wbq := [] }
  else k.leaveBacks k.wbq
/-- The counter that an entry updates is held (R418). -/
def State.storeHeld (s : State) (e : StoreEntry) : Bool :=
  match e.kind with
  | .chSet c | .chAdd c => s.ctrHeld c
  | .plain | .release | .atomic _ _ _ _ => false

/-- The entry at the head of the queue leaves through the write lane, charged: a store is on its way until it is acknowledged, a
Chase operation is performed as one event in its counter's order (R71, R131, R242). -/
def execStoreLeave (c : CoreId) (x : CtxId) (s : State) : Out :=
  let s0 := s.modCore c fun k => k.rollWindow s.now
  let k := s0.core c
  let y := k.ctx x
  match y.storeQ with
  | [] => .next s
  | e :: rest =>
    if e.isAtomic || !s.mayLeave ⟨c, x⟩ e || !k.budgetAllows x || s.storeHeld e then .next s
    else
      let s1 := s0.setCore c ((k.charge e.n).modCtx x fun z =>
        { z with storeQ := rest, unacked := if e.isWrite then z.unacked ++ [e] else z.unacked })
      .next (if e.isWrite then s1 else (s1.perform c e).1)

/-- A store on its way becomes visible at its scope, at one instant, and is acknowledged (R74, R132); stores to one byte do so in
program order, others in any order (R124, R125). -/
def execStoreAck (c : CoreId) (x : CtxId) (i : Nat) (s : State) : Out :=
  let q := (s.ctx ⟨c, x⟩).unacked
  match q.drop i with
  | [] => .next s
  | e :: _ =>
    if (q.take i).any e.meets then .next s
    else .next ((s.perform c e).1.modCtx ⟨c, x⟩ fun y => { y with unacked := y.unacked.eraseIdx i })

/-- The location of an atomic cannot be read (R84), or the root complex answers it with an error (R240): MEMERR at the atomic that
still waits for its old value; after a STALL (R327) at the context's next instruction. -/
def State.atomicFails (s : State) (r : CtxRef) (e : StoreEntry) (p : Nat) : State :=
  let x := s.ctx r
  let s1 := s.modCtx r fun z => { z with storeQ := z.storeQ.drop 1 }
  let waits := x.wait.any fun w => w.kind == .atomic e.va e.pos
  if x.run = .running then s1.raise r (.memerr 1 e.va p) (if waits then x.pc - 8 else x.pc)
  else if x.run = .dormant then s1.uncorrectable p
  else s

/-- An atomic at the head of the queue is performed as one event at its location (R131, R238). -/
def execAtomicPerform (c : CoreId) (x : CtxId) (s : State) : Out :=
  let s0 := s.modCore c fun k => k.rollWindow s.now
  let k := s0.core c
  let y := k.ctx x
  match y.storeQ with
  | [] => .next s
  | e :: rest =>
    match e.kind with
    | .atomic _ _ d _ =>
      if !s.mayLeave ⟨c, x⟩ e || !k.budgetAllows x then .next s
      else
        match s.badAt e.pa e.n with
        | some p => .next (s.atomicFails ⟨c, x⟩ e p)
        | none =>
        let (s1, old) := (s0.setCore c (k.charge e.n)).perform c e
        .next ((s1.modCtx ⟨c, x⟩ fun z =>
          { (match old with
             | some v => z.setReg d (extendN true e.n v)
             | none => z) with
            storeQ := rest, wait := z.wait.filter fun w => w.kind != .atomic e.va e.pos }).proofGets ⟨c, x⟩ d)
    | .plain | .release | .chSet _ | .chAdd _ => .next s

/-- At a save the oldest entries of a context's store queue are performed in order, the budget disregarded, as long as they may leave and
can be; an atomic's old value goes to its register (R75, R124, R239). -/
def State.drainQueue (s : State) (r : CtxRef) : Nat → State
  | 0 => s
  | n + 1 =>
    match (s.ctx r).storeQ with
    | [] => s
    | e :: rest =>
      if !s.mayLeave r e || s.storeHeld e || (e.isAtomic && (s.badAt e.pa e.n).isSome) then s
      else
        let (s1, old) := s.perform r.core e
        State.drainQueue (s1.modCtx r fun z =>
          { (match e.kind, old with
             | .atomic _ _ d _, some v => z.setReg d (extendN true e.n v)
             | _, _ => z) with storeQ := rest }) r n
/-- The drain of the team context before its save: the stores on their way, then its queue. What a stream's unread element still holds
back goes with the image (R145; log entry 72). -/
def State.drainSaved (s : State) (c : CoreId) : State :=
  let r : CtxRef := ⟨c, teamCtx⟩
  let x := s.ctx r
  ((x.unacked.foldl (fun s' e => (s'.perform c e).1) s).modCtx r fun y => { y with unacked := [] }).drainQueue r x.storeQ.length

/-- The write budget's window begins (R71). -/
def execWriteBudgetWindow (c : CoreId) (s : State) : Out := .next (s.modCore c fun k => k.rollWindow s.now)

/-- The number of a line as an event names it. -/
def execL1Writeback (c : CoreId) (line : BitVec 52) (s : State) : Out :=
  let s0 := s.modCore c fun k => k.rollWindow s.now
  let k := s0.core c
  match k.l1.find? fun e => e.1 == line.toNat with
  | some (_, t) =>
    if t.dirty then
      let k1 := if k.draining teamCtx then k.charge (if t.zero then 8 else 128) else k.writeBack t.zero
      .next ((s0.setCore c { k1 with l1 := FMap.insert k.l1 line.toNat { t with dirty := false } }).fillL2 line.toNat ⟨true, t.zero, false⟩)
    else .next s
  | none => .next s

/-- A dirty L2 line is written to its stack (R66). -/
def execL2Writeback (line : BitVec 52) (s : State) : Out :=
  let n := line.toNat
  if s.l2.any fun e => e.1 == n && e.2.dirty then
    .next (({ s with l2 := s.l2.map fun e => if e.1 = n then (e.1, { e.2 with dirty := false }) else e } : State).writeStack n)
  else .next s

/-! ### Elements of streams (R232, R233, R235, R139) -/

/-- Element `i`'s address. -/
def Stream.address (t : Stream) : W64 := t.base + BitVec.ofNat 64 t.next * t.stride

/-- The next element is placed; a stream that has placed all of its elements is done. -/
def DQueue.placed (d : DQueue) (t : Stream) (rest : List Stream) (v : W64) : DQueue :=
  { d with elems := d.elems ++ [v]
           streams := if t.next + 1 < t.count then { t with next := t.next + 1 } :: rest else rest }
/-- The stream halts at the element's address. -/
def DQueue.halt (d : DQueue) (t : Stream) (rest : List Stream) (trap : Trap) : DQueue :=
  { d with streams := { t with halted := some trap } :: rest }

/-- A walk or a page request of the access unit for this queue is under way. -/
def State.streamWaits (s : State) (c : CoreId) (x : CtxId) (q : BitVec 3) (t : Stream) : Bool :=
  (s.walksOf c).any (fun w => w.unit == .stream x q) || s.pri.any fun p => p.use == .load ⟨c, x⟩ t.pos

/-- The oldest stream of a queue, if its next element may be loaded now: it is not halted, the queue has room, nothing that it waits for
is under way, and no access of its context stands before it (R124, R232, R235). -/
def State.openStream (s : State) (c : CoreId) (x : CtxId) (q : BitVec 3) : Option Stream :=
  let y := s.ctx ⟨c, x⟩
  let d := y.queue q
  match d.streams with
  | [] => none
  | t :: _ =>
    if t.halted.isSome || 32 ≤ d.elems.length || y.run == .dormant || (y.wait.any fun w => w.kind == .halt) || s.streamWaits c x q t then none
    else
      match s.checkAccess ⟨c, x⟩ .read t.address t.size.bytes with
      | .ok pa _ => if s.mayRead ⟨c, x⟩ t.pos t.address pa t.size.bytes then some t else none
      | .trap _ | .miss | .hostMiss _ => some t
/-- The queues of a context. -/
def allQueues : List (BitVec 3) := (List.range 8).map fun i => BitVec.ofNat 3 i
/-- The context whose turn it is at the access unit: round-robin over those with a stream to serve (R358). -/
def State.nextServed (s : State) (c : CoreId) : Option CtxId :=
  let l := (s.core c).served
  ([l + 1, l + 2, l + 3, l] : List CtxId).find? fun x => allQueues.any fun q => (s.openStream c x q).isSome
/-- The access unit serves this queue next: its context is in turn, and no stream of the context stands before its own in `LDQ` order. -/
def State.servesStream (s : State) (c : CoreId) (x : CtxId) (q : BitVec 3) : Bool :=
  match s.openStream c x q with
  | none => false
  | some t => s.nextServed c == some x && allQueues.all fun p => (s.openStream c x p).all fun u => t.pos ≤ u.pos

/-- The access unit loads the next element of the queue's oldest stream; an element that halts at an error has read it (R431). R358 does
not say whether an element that misses, asks for a page or halts uses its context's turn: that `served` advances only with a value is the
model's choice (log entry 100). -/
def execElementLoad (c : CoreId) (x : CtxId) (q : BitVec 3) (s : State) : Out :=
  let r : CtxRef := ⟨c, x⟩
  let y := s.ctx r
  let d := y.queue q
  match d.streams with
  | [] => .next s
  | t :: rest =>
    let va := t.address
    let n := t.size.bytes
    if !s.servesStream c x q then .next s
    else
      let stop := fun trap => s.modCtx r fun z => z.setQueue q (d.halt t rest trap)
      match s.checkAccess r .read va n with
      | .trap trap => .next (stop { trap with unit := 1 })
      | .miss => .next (s.askWalk c (.stream x q) (s.core c).job y.priv va)
      | .hostMiss pa =>
        let use := PriUse.load r t.pos
        .next (if s.pri.any fun p => p.use == use then s
          else { s with pri := s.pri ++ [⟨pa, va, use⟩], outbox := s.outbox ++ [.pageRequest pa] })
      | .ok pa e =>
        if !s.mayRead r t.pos va pa n then .next s
        else
          match s.loadBad y t.pos pa n with
          | some p => .next ((s.uncorrectable p).modCtx r fun z => z.setQueue q (d.halt t rest (.memerr 1 va p)))
          | none =>
            let v := extendN false n (natOfBytes (s.loadBytes y t.pos pa n))
            .next (((s.modCtx r fun z => z.setQueue q (d.placed t rest v)).modCore c fun k => { k with served := x }).touchLine c pa e.st)

end Sys2Proof.Machine
end

