-- ==== Sys2Proof/Machine/Operands.lean ====
section
/-! DEFINITION. Operand forms of the engines: tile codes (07 R174, R175), scratchpad pairs (02 R60-R63), format words (03 R99,
R100), shapes (07 R188-R190), VW (10 R255), lanes (10 R254). -/
namespace Sys2Proof.Machine

/-! ### Tile codes -/

/-- The tile that a slot code names under the loop state (R175); any other code stands for itself. -/
def Core.resolveTile (k : Core) (c : Reg) : Option Reg :=
  if 32 ≤ c.toNat ∧ c.toNat < 40 then
    let j := c.toNat - 32
    let ring := ringOf k.lring
    if ring = 0 ∨ ring ≤ j then none else some (BitVec.ofNat 6 (wbaseOf k.lring + (j + k.lbase.toNat) % ring))
  else some c

/-- The accumulator that a source code 48-55 names (R174, R256). -/
def accNum (c : Reg) : Nat := c.toNat - 48

/-- The first word with its d, a and b fields replaced (R175). -/
def withFields (w : W32) (d a b : Reg) : W32 := packD (fOf w) b a d (opOf w)

/-! ### Scratchpad pairs (R60-R63) -/

/-- A pair operand: base offset, row pitch and tile pitch in 128-byte units, rotation code (R61). -/
structure PairOp where
  base : W64
  rp : Nat
  tp : Nat
  rot : Nat
deriving DecidableEq, Repr

def pairOf (lo hi : W64) : PairOp := ⟨lo, bitsN hi 0 16, bitsN hi 16 16, bitsN hi 32 4⟩

/-- The offset o′ of row `j` of tile 0 of the operand (R61, R62). -/
def PairOp.row (p : PairOp) (j : Nat) : Nat :=
  let o := (p.base.toNat + j * p.rp * 128) % 2 ^ 64
  if p.rot = 0 then o
  else o / 4096 % 1024 * 4096 + (o / 128 % 32 + p.rot * j) % 32 * 128 + o % 128

/-- Bytes of the launch's window (R60). -/
def Core.windowBytes (k : Core) : Nat := bitsN k.scrw 0 7 * 0x1_0000
/-- The physical address of a scratch offset of a core (R60). -/
def Core.scratchPa (k : Core) (c : CoreId) (o : Nat) : Nat :=
  scratchBase (coreCluster c) + bitsN k.scrw 8 6 * 0x1_0000 + o

/-- The least element of a list. -/
def leastOf : List Nat → Option Nat
  | [] => none
  | x :: rest =>
    match leastOf rest with
    | some y => some (min x y)
    | none => some x

/-- The checks of a pair whose rows `0 … rows − 1` are reached (R63). Where several of its conditions hold, the first of the table is
taken: the manual gives no order among them (DESIGN CHOICE, log entry 80). -/
def Core.checkPair (k : Core) (pc lo hi : W64) (dest : Bool) (rows : Nat) : Option Trap :=
  let p := pairOf lo hi
  if bitsN hi 36 28 ≠ 0 then some (.plain causeIllegal pc)
  else if lo.toNat % 128 ≠ 0 then some (.plain causeAlign lo)
  else if p.rot ≠ 0 ∧ p.rp % 32 ≠ 0 then some (.plain causeIllegal pc)
  else if p.rp = 0 ∧ dest then some (.plain causeIllegal pc)
  else
    match leastOf (((List.range rows).map p.row).filter fun o => k.windowBytes ≤ o) with
    | some o => some (.plain causeProt (BitVec.ofNat 64 o))
    | none => none

/-- The stages (64 KiB granules of the window) that rows of a pair reach (R293, R294). -/
def PairOp.stages (p : PairOp) (rows : Nat) : List Nat :=
  ((List.range rows).map fun j => p.row j / 0x1_0000).eraseDups

/-! ### Format words (R99, R100) -/

def fmtAType (w : W32) : Nat := bitsN w 0 5
def fmtBType (w : W32) : Nat := bitsN w 5 5
def fmtAPln (w : W32) : Nat := bitsN w 10 4
def fmtBPln (w : W32) : Nat := bitsN w 14 4
def fmtScf (w : W32) : Nat := bitsN w 18 2
def fmtBlk (w : W32) : Nat := bitsN w 20 2
def fmtASct (w : W32) : Nat := bitsN w 22 5
def fmtBSct (w : W32) : Nat := bitsN w 27 5
def fmtIsBp (w : W32) : Bool := fmtAType w == 4

/-- The legal combinations. -/
def fmtLegal (w : W32) : Bool :=
  fmtAType w == fmtBType w && fmtBlk w == 0 &&
  (if fmtAType w = 4 then
    2 ≤ fmtAPln w && fmtAPln w ≤ 8 && 2 ≤ fmtBPln w && fmtBPln w ≤ 8 && fmtScf w == 1 &&
      decide (fmtASct w < 24) && decide (fmtBSct w < 24)
   else
    1 ≤ fmtAType w && fmtAType w ≤ 3 && fmtAPln w == 0 && fmtBPln w == 0 && fmtScf w == 0 && fmtASct w == 0 && fmtBSct w == 0)

/-! ### Shapes (R188-R190) -/

/-- A class: its full shape, and its component count. -/
structure ShapeClass where
  mf : Nat
  nf : Nat
  kf : Nat
  c : Nat
deriving DecidableEq, Repr

/-- Planes of the container that holds `p` planes (R90). -/
def containerOf (p : Nat) : Nat := if 5 ≤ p then 8 else if 3 ≤ p then 4 else 2
/-- Elements in a tile row of a container (R90). -/
def containerRow (p : Nat) : Nat := 1024 / containerOf p

/-- The class of a format word and a component count; none where the two do not go together (R118, R188). -/
def classOf (w : W32) (c : Nat) : Option ShapeClass :=
  let t := fmtAType w
  if t = 4 then
    (if c = 1 then some ⟨64, 64, containerRow (max (fmtAPln w) (fmtBPln w)), 1⟩ else none)
  else
    let full := if t = 1 then 32 else 64
    some ⟨64, full / c, full / c, c⟩

/-- The first shape code of a count above 1. -/
def firstCode (c : Nat) : Nat := if c = 2 then 0x10 else if c = 4 then 0x14 else 0x18

/-- What a shape code gives: M × N × K, the K-step and the number of K-steps, the issue time. -/
structure Shape where
  m : Nat
  n : Nat
  k : Nat
  ks : Nat
  nk : Nat
  t : Nat
deriving DecidableEq, Repr

/-- ShapeOf (R189); none where the code is not of the class. -/
def shapeOf (s : Nat) (cl : ShapeClass) : Option Shape :=
  let ij : Option (Nat × Nat) :=
    if cl.c = 1 then
      (if s = 0x1F then some (3, 3)
       else if 1 ≤ s ∧ s ≤ 0x0F then some ((s - 1) / 4, (s - 1) % 4)
       else none)
    else if firstCode cl.c ≤ s ∧ s < firstCode cl.c + 4 then some (s - firstCode cl.c, 3)
    else none
  ij.map fun (i, j) =>
    let m := cl.mf / 2 ^ (3 - i)
    let n := cl.nf / 2 ^ (3 - j)
    let k := cl.kf / 2 ^ (3 - max i j)
    let ks := max 1 (min (k / 4) (32 / cl.c))
    let nk := k / ks
    ⟨m, n, k, ks, nk, max nk (64 * m * n * k / (cl.mf * cl.nf * cl.kf))⟩

/-- Elements that a tile row of an operand holds. -/
def rowElems (w : W32) (c pln : Nat) : Nat :=
  if fmtIsBp w then containerRow pln else (if fmtAType w = 1 then 32 else 64) / c

/-- Rows and elements per row of A and of B (R190). -/
def aImage (sh : Shape) (ta : Bool) : Nat × Nat := if ta then (sh.k, sh.m) else (sh.m, sh.k)
def bImage (w : W32) (sh : Shape) (tb : Bool) : Nat × Nat := if tb || fmtIsBp w then (sh.n, sh.k) else (sh.k, sh.n)

/-- Both operands fit (R190). -/
def fits (w : W32) (c : Nat) (sh : Shape) (ta tb : Bool) : Bool :=
  let a := aImage sh ta
  let b := bImage w sh tb
  a.1 ≤ 64 && a.2 ≤ rowElems w c (fmtAPln w) && b.1 ≤ 64 && b.2 ≤ rowElems w c (fmtBPln w) &&
    !(fmtIsBp w && (ta || tb))

/-- Components of a count code (R292). -/
def countOf (code : BitVec 2) : Nat := 2 ^ code.toNat

/-! ### Lanes (R254, R255) -/

/-- Bytes of a lane of a type; a BP element is one byte of its row's 128 (R254). -/
def laneBytes : VTy → Nat
  | .fp32 | .i32 => 4
  | .bf16 | .fp16 => 2
  | .i8 | .bp => 1
def lanesOf (t : VTy) : Nat := 128 / laneBytes t
/-- The active lanes of a type under a captured VW. -/
def activeLanes (vw : W64) (t : VTy) : Nat :=
  let l := bitsN vw 0 8
  if l = 0 then lanesOf t else min l (lanesOf t)
def vwAcoff (vw : W64) : Bool := vw.getLsbD 8
def vwPlanes (vw : W64) : Nat := if bitsN vw 12 4 = 0 then 8 else bitsN vw 12 4

/-- A lane of a row as a number. -/
def laneOf (r : Row) (w i : Nat) : Nat := bitsN r (8 * w * i) (8 * w)
def setLane (r : Row) (w i v : Nat) : Row := setBits r (8 * w * i) (8 * w) v
/-- A column of an accumulator row, FP32 bits (R58). -/
def accCol (r : AccRow) (i : Nat) : Nat := bitsN r (32 * i) 32
def setAccCol (r : AccRow) (i v : Nat) : AccRow := setBits r (32 * i) 32 v

end Sys2Proof.Machine
end

