-- ==== Sys2Proof/Machine/Galley.lean ====
section
/-! DEFINITION. The galleys as the control core sees them: the append of a record (01 R19, R20, R32), its replay (01 R48), the
format queue (03 R101, 11 R290, R291), marker fences (09 R237), `TOK` and `STAMP` (09 R245, R246). -/
namespace Sys2Proof.Machine

/-! ### Records -/

def Slot.op (y : Slot) : Nat := bitsN y.body.w0 0 8
/-- A `FENCE` marker (R19). -/
def Slot.isMarker (y : Slot) : Bool := y.op == 0xCA || y.op == 0xCB
def Slot.isMma (y : Slot) : Bool := y.op == 0xF0 || y.op == 0xF1
/-- The record is in the galley and has work left to do. -/
def Slot.isOpen (y : Slot) : Bool := y.st != .free && y.st != .done

/-! ### The galley store (R18, R21, R23) -/

/-- STATE of a status word (R21). -/
def RecState.code : RecState → BitVec 3
  | .free => 0
  | .appended => 1
  | .checked => 2
  | .issued => 3
  | .parked => 4
  | .done => 5
def Slot.statusWord (y : Slot) : W64 := (y.hash ++ y.seq ++ (0 : BitVec 5) ++ y.st.code : BitVec 64)
def Slot.markWord (y : Slot) : W64 := (y.prog ++ y.markSeq ++ (0 : BitVec 7) ++ BitVec.ofBool y.markValid : BitVec 64)
def galleyNum (n : Nat) : Galley := if n = 0 then .m else if n = 1 then .v else if n = 2 then .x else .k

/-- Byte `o` of the galley store, as the leaf controller reads it (R18); the order of what a checkpoint copy and an entry of the folio queue
hold is log entry 79. -/
def Core.storeByte (k : Core) (o : Nat) : Byte :=
  let byteOf := fun (w : W64) => w.extractLsb' (8 * (o % 8)) 8
  if o < 0x4000 then (k.slot (galleyNum (o / 0x1000)) (o % 0x1000 / 64)).body.bytes.getD (o % 64) 0
  else if o < 0x4800 then byteOf (k.slot (galleyNum ((o - 0x4000) / 512)) ((o - 0x4000) % 512 / 8)).markWord
  else if o < 0x5000 then byteOf (k.slot (galleyNum ((o - 0x4800) / 512)) ((o - 0x4800) % 512 / 8)).statusWord
  else if o < 0x5040 then
    let y := k.galley (galleyNum ((o - 0x5000) / 16))
    byteOf (zext64 (if o % 16 < 8 then y.head else y.tail))
  else if o < 0x5800 then 0
  else if o < 0x6000 then
    let p := if o < 0x5C00 then k.ckA else k.ckB
    (p.bytes ++ bytesOfNat p.crc.toNat 4).getD (o % 0x400) 0
  else if o < 0x6400 then
    match k.folioQ.drop ((o - 0x6000) / 64) with
    | f :: _ => f.bytes.getD (o % 64) 0
    | [] => 0
  else if o < 0x6C00 then
    match k.rlog.drop ((o - 0x6400) / 8) with
    | (_, some v) :: _ => byteOf v
    | (_, none) :: _ | [] => 0
  else FMap.get k.fwArea 0 o
/-- The leaf controller reads 8 bytes of a core's galley store for firmware (R18). -/
def State.storeRead (s : State) (c : CoreId) (off : BitVec 13) : State :=
  { s with outbox := s.outbox ++ [.storeData c off
      (BitVec.ofNat 64 (natOfBytes ((List.range 8).map fun i => (s.core c).storeByte (off.toNat * 8 + i))))] }
/-- Firmware writes a byte of the firmware area; the rest of the store the control core and the engines write (R18). -/
def State.storeWrite (s : State) (c : CoreId) (off : BitVec 16) (b : Byte) : State :=
  if off.toNat < 0x6C00 then s else s.modCore c fun k => { k with fwArea := FMap.set k.fwArea 0 off.toNat b }

/-! ### The head advances past DONE records (R22) -/

/-- Advance the head sequence past DONE records, at most `fuel` of them; each becomes FREE. -/
def GalleyState.retire (g : GalleyState) : Nat → GalleyState
  | 0 => g
  | fuel + 1 =>
    if g.head = g.tail then g
    else
      let i := (slotOf g.head).val
      match (g.slot i).st with
      | .done | .free => GalleyState.retire { g.modSlot i (fun y => { y with st := .free }) with head := g.head + 1 } fuel
      | .appended | .checked | .issued | .parked => g

/-- Free the oldest `n` claimed words: those of the records that became FREE (R101). -/
def freeWords (n : Nat) : List FmtWord → List FmtWord
  | [] => []
  | w :: rest =>
    match n with
    | 0 => w :: rest
    | m + 1 => if w.claimed then freeWords m rest else w :: freeWords (m + 1) rest

/-- Matrix products that the galley holds. -/
def GalleyState.products (g : GalleyState) : Nat := (g.entries.filter fun e => e.2.isMma && e.2.st != .free).length

/-- DONE records at the head of a galley become FREE. -/
def Core.retire (k : Core) (g : Galley) : Core :=
  let k1 := k.modGalley g fun y => y.retire 64
  if g = .m then { k1 with fmtQ := freeWords (k.galM.products - k1.galM.products) k1.fmtQ } else k1

/-! ### Append (R19, R20, R32) -/

/-- What an engine instruction appends: its galley, its words with tile slots resolved, its operand values. -/
structure Command where
  g : Galley
  w0 : W32
  w1 : W32
  o0 : W64
  o1 : W64
  o2 : W64
  o3 : W64
deriving DecidableEq, Repr

/-- STAMP: the target in local time (R34). -/
def stampField (lt : W64) : Option PendStamp → W64
  | some p => if p.offset then lt + p.value else p.value
  | none => 0

/-- The record of a command under the pending tokens and stamp (R19, R32). -/
def Core.recordOf (k : Core) (c : Command) (lt : W64) (sgen : W16) : Record :=
  { w0 := c.w0, w1 := c.w1, o0 := c.o0, o1 := c.o1, o2 := c.o2, o3 := c.o3, wait := waitField k.pending.wait
    sig := sigField k.pending.signal, sched := schedField sgen k.pending.stamp, stamp := stampField lt k.pending.stamp }
/-- A marker: its words, and every other field zero (R19). -/
def markerRecord (w0 w1 : W32) : Record := { Record.zero with w0 := w0, w1 := w1 }

/-- Take the oldest unclaimed format word (R101). -/
def claimFmt : List FmtWord → List FmtWord
  | [] => []
  | w :: rest => if w.claimed then w :: claimFmt rest else { w with claimed := true } :: rest
def Core.unclaimed? (k : Core) : Option W32 := (k.fmtQ.find? fun w => !w.claimed).map FmtWord.word

/-- The three steps of R20: the slot holds the record, its status word and hash, and the tail advances; the record takes a program position
of its own (R133). The Proofreader computes the same hash, but where its copy of the state is another (`State.proofread`). -/
def Core.pushRecord (k : Core) (g : Galley) (r : Record) (fmt : Option W32) (now : Nat) : Core :=
  let y := k.galley g
  let s : Slot := { Slot.fresh with
    body := r, hash := r.hash, proofHash := r.hash, appendedAt := now, seq := y.tail, st := .appended, fmt := fmt, pos := (k.ctx teamCtx).pos }
  let k1 := (k.setGalley g { y.setSlot (slotOf y.tail).val s with tail := y.tail + 1 }).modCtx teamCtx fun x => { x with pos := x.pos + 1 }
  match fmt with
  | some _ => { k1 with fmtQ := claimFmt k1.fmtQ }
  | none => k1

/-- 64 records that are not FREE (R20). -/
def GalleyState.full (g : GalleyState) : Bool := 64 ≤ g.live

/-! ### Replay of an append (R48 step 5) -/

def Replay.seq (p : Replay) : Galley → BitVec 24
  | .m => p.seqM
  | .v => p.seqV
  | .x => p.seqX
  | .k => p.seqK
def Replay.setSeq (p : Replay) (g : Galley) (q : BitVec 24) : Replay :=
  match g with
  | .m => { p with seqM := q }
  | .v => { p with seqV := q }
  | .x => { p with seqX := q }
  | .k => { p with seqK := q }

/-- The sequence number at which a replay stands lies below the tail: the span had appended the record. -/
def Core.replayedSeq (k : Core) (g : Galley) : Option (BitVec 24) :=
  match k.replay with
  | some p =>
    let d := ((k.galley g).tail - p.seq g).toNat
    if 1 ≤ d ∧ d ≤ 2 ^ 23 then some (p.seq g) else none
  | none => none
def Core.bumpReplay (k : Core) (g : Galley) : Core :=
  { k with replay := k.replay.map fun p => p.setSeq g (p.seq g + 1) }

/-- What was captured at the first append, an offset stamp's target and the stage generation, is taken as the record holds
it before the hashes are compared (log entry 16). -/
def Record.asCaptured (r held : Record) : Record :=
  { r with stamp := if bitsN r.sched 12 2 = 2 then held.stamp else r.stamp
           sched := setBits r.sched 16 16 (bitsN held.sched 16 16) }
/-- The held record and the replayed one are the same, where the slot still holds that sequence number. -/
def Core.replayAgrees (k : Core) (g : Galley) (q : BitVec 24) (r : Record) : Bool :=
  let y := k.slot g (slotOf q).val
  y.seq != q || (r.asCaptured y.body).hash == y.hash

/-- CORE-RESET-IRREVOCABLE: the team fails and the cause goes to the host only (R48, R315). -/
def State.failIrrevocable (s : State) (c : CoreId) : State :=
  s.failTeam c ⟨causeIrrevocable, 0, 0, 0, none⟩ ((s.core c).ctx teamCtx).pc

/-! ### The append of an engine instruction -/

/-- Append a command of the team context, its checks passed: in a replay the record that stands is compared; a full galley
holds the instruction; else the record is written, the pending tokens and stamp are cleared, and a signal makes the span
irrevocable (R20, R32, R47, R48). -/
def State.append (s : State) (c : Command) (fmt : Option W32) (sgen : W16) (after : Core → Core) : State :=
  let k0 := s.cc.retire c.g
  let r := k0.recordOf c (s.localTime s.cur.core) sgen
  match k0.replayedSeq c.g with
  | some q =>
    if k0.replayAgrees c.g q r then
      (s.setCore s.cur.core { k0.bumpReplay c.g with pending := .none }).advance 8
    else s.failIrrevocable s.cur.core
  | none =>
    if (k0.galley c.g).full then (s.setCore s.cur.core k0).hold (.galley c.g) k0.waitMax
    else
      let k1 := after ((k0.pushRecord c.g r fmt s.now).bumpReplay c.g)
      let k2 := { k1 with pending := .none, irrevocable := k1.irrevocable || k0.pending.signal.isSome || c.g == .k }
      (s.setCore s.cur.core k2).advance 8

/-- An engine instruction: ILLEGAL in a light context (R16, R192), the checks of its entry, then the append. -/
def State.engine (s : State) (check : Core → Except Trap Command) (after : Core → Core) : State :=
  if s.cur.ctx ≠ teamCtx then s.illegal
  else
    match check s.cc with
    | .error t => s.raise s.cur t s.cx.pc
    | .ok c => s.append c none (if c.g = .m then s.cc.sgen else 0) after

/-- A trap of an append check that names the first word. -/
def State.illegalTrap (s : State) : Trap := .plain causeIllegal s.cx.pc

/-! ### FMT (R290, R291) -/

/-- A replayed push compares its word with the one that stands (R291). -/
def Core.replayedFmt (k : Core) : Option W32 :=
  match k.replay with
  | some p =>
    let d := (k.fmtPush - p.fmtPush).toNat
    if 1 ≤ d ∧ d ≤ 2 ^ 31 then some p.fmtPush else none
  | none => none
def Core.bumpFmt (k : Core) : Core := { k with replay := k.replay.map fun p => { p with fmtPush := p.fmtPush + 1 } }

def execFmt (a : Reg) (s : State) : Out :=
  let w : W32 := (s.reg a).setWidth 32
  .next (
    if s.cur.ctx ≠ teamCtx then s.illegal
    else if !fmtLegal w then s.illegal
    else
      let k := s.cc.retire .m
      match k.replayedFmt with
      | some n =>
        if k.fmtQ.all fun e => e.push != n || e.word == w then (s.setCore s.cur.core k.bumpFmt).advance 4
        else s.failIrrevocable s.cur.core
      | none =>
        if 16 ≤ k.fmtQ.length then (s.setCore s.cur.core k).hold .fmt k.waitMax
        else
          (s.setCore s.cur.core { k.bumpFmt with
            fmtQ := k.fmtQ ++ [⟨w, k.fmtPush, false⟩], fmtPush := k.fmtPush + 1 }).advance 4)

/-! ### Marker fences (R237) -/

/-- A marker has reached its galley head: it is DONE, or the head has passed it. -/
def GalleyState.reached (g : GalleyState) (q : BitVec 24) : Bool :=
  !(g.seqs.contains q) || !(g.slot (slotOf q).val).isOpen
/-- Every record before a marker is DONE or FREE. -/
def GalleyState.doneBefore (g : GalleyState) (q : BitVec 24) : Bool :=
  (g.seqs.takeWhile fun p => p != q).all fun p => !(g.slot (slotOf p).val).isOpen

/-- The join of a fence is met (R137, R237). -/
def Core.joined (k : Core) (done : Bool) (mark : Galley → Option (BitVec 24)) : Bool :=
  galleys.all fun g =>
    match mark g with
    | some q => if done then (k.galley g).doneBefore q else (k.galley g).reached q
    | none => true

/-- The galleys of a mask (R173). -/
def maskHas (mask : BitVec 4) : Galley → Bool
  | .m => mask.getLsbD 0
  | .v => mask.getLsbD 1
  | .x => mask.getLsbD 2
  | .k => mask.getLsbD 3

/-- Append one marker, or step over the one that a replay finds; with the marker's sequence number. -/
def Core.pushMarker (k : Core) (g : Galley) (w0 w1 : W32) (now : Nat) : Core × BitVec 24 :=
  match k.replayedSeq g with
  | some q => (k.bumpReplay g, q)
  | none => ((k.pushRecord g (markerRecord w0 w1) none now).bumpReplay g, (k.galley g).tail)
/-- The markers that a replay finds agree with the fence. -/
def Core.markersAgree (k : Core) (mask : BitVec 4) (w0 w1 : W32) : Bool :=
  galleys.all fun g => !maskHas mask g ||
    (match k.replayedSeq g with
     | some q => k.replayAgrees g q (markerRecord w0 w1)
     | none => true)

/-- Markers into the galleys of a mask, and where each went. -/
def Core.pushMarkers (k : Core) (mask : BitVec 4) (w0 w1 : W32) (now : Nat) : Core × (Galley → Option (BitVec 24)) :=
  galleys.foldl (fun (k', f) g =>
    if maskHas mask g then
      let (k2, q) := k'.pushMarker g w0 w1 now
      (k2, fun h => if h = g then some q else f h)
    else (k', f)) (k, fun _ => none)

/-- The first galley of a mask that has no room for a marker. -/
def Core.fullGalley (k : Core) (mask : BitVec 4) : Option Galley :=
  galleys.find? fun g => maskHas mask g && (k.galley g).full && (k.replayedSeq g).isNone

/-- The fence that the context is waiting in. -/
def Ctx.fenceWait (x : Ctx) : Option (Galley → Option (BitVec 24)) :=
  match x.wait with
  | some w => (match w.kind with
    | .fence _ m v x k => some fun g => match g with
      | .m => m
      | .v => v
      | .x => x
      | .k => k
    | _ => none)
  | none => none

/-- The join's end, or the wait for it. -/
def State.joinFence (s : State) (done : Bool) (mark : Galley → Option (BitVec 24)) (lw : LongWait) : State :=
  if s.cc.joined done mark && s.cx.aligned then s.advance 8
  else s.hold (.fence done (mark .m) (mark .v) (mark .x) (mark .k)) (lwClk lw)

/-- `FENCE` and `FENCE.DONE`: markers, then the join. -/
def State.fence (s : State) (done : Bool) (mask : BitVec 4) (lw : LongWait) (w0 w1 : W32) : State :=
  if s.cur.ctx ≠ teamCtx ∧ mask ≠ 0 then s.illegal
  else
    match s.cx.fenceWait with
    | some mark => s.joinFence done mark lw
    | none =>
      let k := galleys.foldl (fun k' g => if maskHas mask g then k'.retire g else k') s.cc
      let s0 := s.setCore s.cur.core k
      if !k.markersAgree mask w0 w1 then s.failIrrevocable s.cur.core
      else
        match k.fullGalley mask with
        | some g => s0.hold (.galley g) (lwClk lw)
        | none =>
          let (k1, mark) := k.pushMarkers mask w0 w1 s.now
          (s0.setCore s.cur.core k1).joinFence done mark lw

def execFence (mask : BitVec 4) (lw : LongWait) (s : State) : Out :=
  .next (s.fence false mask lw (packD 0 0 0 ((0 : BitVec 2) ++ mask) 0xCA) (packLW lw))
def execFenceDone (mask : BitVec 4) (lw : LongWait) (s : State) : Out :=
  .next (s.fence true mask lw (packD 0 0 0 ((0 : BitVec 2) ++ mask) 0xCB) (packLW lw))

/-! ### TOK and STAMP (R245, R246) -/

/-- `TOK` sets both pending tokens; its counters are checked under R241. -/
def execTok (t : TokForm) (s : State) : Out :=
  let thr := s.reg t.a
  .next (
    if s.cur.ctx ≠ teamCtx then s.illegal
    else if t.wv ∧ 2 ^ 40 ≤ thr.toNat then s.illegal
    else if t.wv && !s.mayWait s.cx.priv s.cc.job t.wctr then s.ctrProt t.wctr
    else if t.sv && !s.mayUpdate s.cx.priv s.cc.job t.sctr then s.ctrProt t.sctr
    else
      (s.modCc fun k => { k with pending := { k.pending with
        wait := if t.wv then some (t.wctr, thr.setWidth 40) else none
        signal := if t.sv then some (t.sctr, t.inc) else none } }).advance 8)

/-- Set the pending stamp of the team context. -/
def State.stamp (s : State) (p : Option PendStamp) : State :=
  if s.cur.ctx ≠ teamCtx then s.illegal
  else (s.modCc fun k => { k with pending := { k.pending with stamp := p } }).advance 4

def execStampClr (s : State) : Out := .next (s.stamp none)
def execStampAbs (a : Reg) (quoin : BitVec 12) (s : State) : Out := .next (s.stamp (some ⟨false, s.reg a, quoin⟩))
def execStampOff (a : Reg) (quoin : BitVec 12) (s : State) : Out := .next (s.stamp (some ⟨true, s.reg a, quoin⟩))

end Sys2Proof.Machine
end

