-- ==== Sys2Proof/Machine/Sync.lean ====
section
/-! DEFINITION. `DLV` and its folios (09 R247, R248, 01 R36, R37), `CANCEL` (09 R249), power regions (09 R250, R251, 21 R444,
R445), and STALL (12 R325-R327). -/
namespace Sys2Proof.Machine

/-! ### DLV (R247, R248) -/

/-- A range cut at the 64 KiB boundaries of the virtual space. -/
def pieces (va : W64) (n : Nat) : List (W64 × Nat) :=
  let first := min n (0x1_0000 - va.toNat % 0x1_0000)
  if first < n then [(va, first), (va + BitVec.ofNat 64 first, n - first)] else [(va, first)]

/-- What the check of a range finds: its physical runs, a walk to wait for, or a trap. -/
inductive RangeCheck where
  | ok (runs : List (Nat × Nat))
  | miss (va : W64)
  | hostMiss (va : W64) (pa : Nat)
  | trap (t : Trap)

/-- The next piece after those already checked. -/
def RangeCheck.andThen (c : RangeCheck) (next : RangeCheck) : RangeCheck :=
  match c, next with
  | .ok a, .ok b => .ok (a ++ b)
  | .ok _, d => d
  | d, _ => d

/-- The source range: canonical, present, readable, without uncorrectable error (R247 step 4). -/
def State.checkSource (s : State) (r : CtxRef) (va : W64) (n : Nat) : RangeCheck :=
  (pieces va n).foldl (fun acc p => acc.andThen (
    match s.checkAccess r .read p.1 1 with
    | .trap t => .trap t
    | .miss => .miss p.1
    | .hostMiss pa => .hostMiss p.1 pa
    | .ok pa _ =>
      match s.outAt pa p.2, s.badAt pa p.2 with
      | some j, _ => .trap (.plain causeProt (p.1 + BitVec.ofNat 64 j))
      | none, some b => .trap (.memerr 0 (p.1 + BitVec.ofNat 64 (b - pa)) b)
      | none, none => .ok [(pa, p.2)])) (.ok [])

/-- The target core's own places (R247 step 5): its cluster's scratchpad and its own vault. -/
def ownPlace (c : CoreId) (pa : Nat) : Bool :=
  match placeOf pa with
  | some (.scratch cl) => cl == coreCluster c
  | some (.vault _ _) => decide (vaultBase c ≤ pa) && decide (pa < vaultBase c + 0x80_0000)
  | some (.hbm _) | some .host | none => false

/-- The target range: translated, writeable, and every byte in the target core's own places (R247 step 5). -/
def State.checkTarget (s : State) (r : CtxRef) (target : CoreId) (va : W64) (n : Nat) : RangeCheck :=
  (pieces va n).foldl (fun acc p => acc.andThen (
    if !canonical p.1 then .trap (.plain causeProt p.1)
    else
      match s.lookup r.core p.1 with
      | none => .miss p.1
      | some e =>
        let pa := e.pa + (va56 p.1 - e.va)
        if e.permits (s.ctx r).priv .write && ownPlace target pa && ownPlace target (pa + p.2 - 1) then .ok [(pa, p.2)]
        else .trap (.plain causeProt p.1))) (.ok [])

/-- The bytes of physical runs. -/
def State.readRuns (s : State) (runs : List (Nat × Nat)) : List Byte := runs.flatMap fun r => s.readBytes r.1 r.2
/-- Write bytes to physical runs. -/
def State.writeRuns (s : State) (runs : List (Nat × Nat)) (data : List Byte) : State :=
  match runs with
  | [] => s
  | (pa, n) :: rest => State.writeRuns (s.writeBytes pa (data.take n)) rest (data.drop n)

/-- FOLIO of a `DLV`: why it is refused (R247). -/
def folioTrap (why : W64) : Trap := .plain causeFolio why

/-- Go on with a range that is checked. -/
def State.ranged (s : State) (c : RangeCheck) (go : List (Nat × Nat) → State) : State :=
  match c with
  | .trap t => s.raise s.cur t s.cx.pc
  | .miss va => s.holdWalk va
  | .hostMiss va pa => s.holdHost pa va
  | .ok runs => go runs

/-- `DLV`: the checks in their order, the release at `.pkg`, then the wait for the target. -/
def execDlv (d a b f : Reg) (lw : LongWait) (s : State) : Out :=
  let dst := s.reg d
  let who := s.reg (d + 1)
  let n := (s.reg b).toNat
  let h := s.reg f
  let target := coreOfNat (who.toNat % 256)
  .next (
    if n = 0 ∨ 4096 < n then s.illegal
    else if bitsN h 0 2 ≠ 0 then s.trapHere causeAlign h
    else if 256 ≤ who.toNat || (s.core target).disabled then s.raise s.cur (folioTrap 2) s.cx.pc
    else
      s.ranged (s.checkSource s.cur (s.reg a) n) fun src =>
        s.ranged (s.checkTarget s.cur target dst n) fun runs =>
          if !s.cx.aligned then s.hold (.align .pkg) (lwClk lw)
          else ((s.readAll src).hold (.dlv target ⟨dst, n, h, s.cur.core, s.cc.job⟩ (s.readRuns src) runs s.now) (lwClk lw)).irrevocable)

/-- A context that waits to deliver to core `c`. -/
def Ctx.delivers (x : Ctx) (c : CoreId) : Option (Folio × List Byte × List (Nat × Nat)) :=
  match x.run, x.wait with
  | .running, some w => (match w.kind with
    | .dlv t f p r _ => if t = c then some (f, p, r) else none
    | _ => none)
  | _, _ => none
/-- The clk on which a context that waits in a `DLV` sent its folio. -/
def Ctx.sentAt (x : Ctx) : Nat :=
  match x.wait with
  | some w => (match w.kind with
    | .dlv _ _ _ _ t => t
    | _ => 0)
  | none => 0
/-- The senders that wait for core `c`, in the order in which they sent, ties by core and context (R36). -/
def State.senders (s : State) (c : CoreId) : List CtxRef :=
  (s.cores.flatMap fun (i, k) =>
    k.ctxs.filterMap fun (j, x) =>
      if (x.delivers c).isSome then some (⟨coreOfNat i, ⟨j % 4, Nat.mod_lt _ (by decide)⟩⟩ : CtxRef) else none).mergeSort fun a b =>
    (s.ctx a).sentAt ≤ (s.ctx b).sentAt

/-- The folio light contexts that are dormant, LC1 first (R16, R36). -/
def Core.folioLights (k : Core) : List CtxId := ([2, 3] : List CtxId).filter fun x => (k.ctx x).run == .dormant

/-- Start a folio's handler: everything zero but s1, s2 and s3, in user mode (R36, R194). -/
def Core.startFolio (k : Core) (x : CtxId) (f : Folio) : Core :=
  let l := k.ctx x
  let y := { Ctx.fresh with pc := f.handler, run := .running, role := .folio f, storeQ := l.storeQ, unacked := l.unacked
                            loadQ := l.loadQ, pos := l.pos }
  k.setCtx x (((y.setReg 1 f.addr).setReg 2 (BitVec.ofNat 64 f.len)).setReg 3 (BitVec.ofNat 64 f.sender.val))

/-- EVL.FOLIO and EVL.DONE (R216). -/
def evlFolio : W64 := 2
def evlDone : W64 := 1

/-- A core takes folios of a job: it hosts a running team of it, and no pre-emption request has reached the team (R37,
R247 step 6). -/
def Core.takesFolio (k : Core) (job : BitVec 24) : Bool :=
  k.preempt.isNone && (match k.team with
    | some t => t.job == job && t.state == .running
    | none => false)

/-- The sender's `DLV` is complete. -/
def Ctx.delivered (x : Ctx) : Ctx := { x with pc := x.pc + 8, wait := none }

/-- The payload of a sender may pass its write lane, or its folio is refused, which needs no payload (R71, R248). -/
def State.folioPasses (s : State) (c : CoreId) (r : CtxRef) : Bool :=
  match (s.ctx r).delivers c with
  | some (f, _, _) => !(s.core c).takesFolio f.job || ((s.core r.core).rollWindow s.now).budgetAllows r.ctx
  | none => false
/-- A folio finds its place: a dormant light context with no folio queued before it, or one of the 16 places of the queue (R36). -/
def Core.folioRoom (k : Core) : Bool := (!k.folioLights.isEmpty && k.folioQ.isEmpty) || decide (k.folioQ.length < 16)

/-- A folio arrives at core `c`: refused, or its payload is written and it starts or is queued (R36, R248). A sender that waits for budget
holds no other back; a cluster that is not ACTIVE leaves its power state first (R453). -/
def execFolioArrival (c : CoreId) (s : State) : Out :=
  .next (
    match (s.senders c).filter (s.folioPasses c) with
    | [] => s
    | r :: _ =>
      match (s.ctx r).delivers c with
      | none => s
      | some (f, data, runs) =>
        let s0 := s.modCore r.core fun k => k.rollWindow s.now
        let k := s0.core c
        if !s.powered c then s.wakeFor c
        else if !k.takesFolio f.job then s.raise r (folioTrap 1) (s.ctx r).pc
        else if !k.folioRoom then s
        else
          let s1 := (s0.modCore r.core fun y => y.charge f.len).writeRuns runs data
          let s2 := s1.modCtx r Ctx.delivered
          s2.modCore c fun y =>
            let y1 := y.setEvl evlFolio
            match y1.folioLights with
            | x :: _ => if y1.folioQ.isEmpty then y1.startFolio x f else { y1 with folioQ := y1.folioQ ++ [f] }
            | [] => { y1 with folioQ := y1.folioQ ++ [f] })

/-- The next queued folio starts in a dormant light context (R36). -/
def execFolioStart (c : CoreId) (s : State) : Out :=
  .next (s.modCore c fun k =>
    match k.folioQ, k.folioLights with
    | f :: rest, x :: _ => { k with folioQ := rest }.startFolio x f
    | _, _ => k)

/-! ### CANCEL (R249) -/

/-- The executing context's own instance of a level; 0 where there is none. -/
def State.ownInstance (s : State) (l : Level) : BitVec 24 :=
  match s.cc.team with
  | none => 0
  | some t =>
    let graph := match s.launch? t.launch with
      | some y => y.entry.level
      | none => 0
    match l with
    | .launch => t.launch
    | .graph => graph
    | .phase =>
      match s.level? .graph graph t.job with
      | some g => g.parent
      | none => 0
    | .job => t.job

/-- Where a cancel goes: the scheduler that owns the instance; none where it does not exist or has completed. -/
def State.cancelOwner (s : State) (l : Level) (num job : BitVec 24) : Option DieId :=
  match l with
  | .launch =>
    match s.launch? num with
    | some y => if y.complete then none else some (s.schedulerOf y.owner)
    | none => none
  | .graph | .phase | .job =>
    match s.level? l num job with
    | some y => some (s.schedulerOf (queueHome y.queue))
    | none => none

/-- An identifier that names a launch or a job of another job (R249 step 3). -/
def State.foreign (s : State) (l : Level) (num job : BitVec 24) : Bool :=
  match l with
  | .launch =>
    match s.launch? num with
    | some y => y.entry.job != job
    | none => false
  | .job => num != job
  | .graph | .phase => false

/-- The owning scheduler takes a core's request: it runs, and the links on the way have permits (R415). -/
def State.mayRequest (s : State) (c : CoreId) (d : DieId) : Bool :=
  (s.die d).resetAt.isNone && s.mayMessage (coreDie c) (linkOf (coreCluster c) + 12) && s.mayPeer (coreDie c) d
/-- A core's request goes to its die's scheduler, and from there to the owner. -/
def State.request (s : State) (c : CoreId) (d : DieId) (r : Level × BitVec 24 × BitVec 24) : State :=
  ((s.message (coreDie c) (linkOf (coreCluster c) + 12)).peerMessage (coreDie c) d).modDie d fun y => { y with cancels := y.cancels ++ [r] }

/-- `CANCEL`: it completes when the scheduler has taken the request; one that cannot yet keeps it waiting, without a longest wait (log entry
59). -/
def execCancel (l : Level) (a : Reg) (s : State) : Out :=
  let job := s.cc.job
  let named : BitVec 24 := (s.reg a).setWidth 24
  let num := if named = 0 then s.ownInstance l else named
  .next (
    if s.foreign l num job then s.trapHere causeProt (s.reg a)
    else s.whenAligned .pkg fun s1 =>
      match s1.cancelOwner l num job with
      | some d =>
        if s1.mayRequest s1.cur.core d then ((s1.request s1.cur.core d (l, num, job)).advance 4).irrevocable
        else s1.modCtx s1.cur fun x => { x with wait := none }
      | none => (s1.advance 4).irrevocable)

/-! ### Power regions (R250, R251, R444, R445) -/

/-- PWRL of an open region. -/
def pwrlOpen (level : Nat) : W64 := BitVec.ofNat 64 (16 + level)
def Core.regionOpen (k : Core) : Bool := k.pwrl.getLsbD 4
def Core.regionLevel (k : Core) : Nat := bitsN k.pwrl 0 4

/-- CAP of the table in force (R447). -/
def LimitTable.cap : LimitTable → Nat
  | .air => 3
  | .coldPlate | .immersion => 8
/-- The levels granted to open regions of a cluster, but for one core. -/
def State.regionSum (s : State) (cl : ClusterId) (but : CoreId) : Nat :=
  (coresOf cl).foldl (fun n c => if c = but then n else n + (s.core c).regionLevel) 0
/-- A request fits (R445). -/
def State.regionFits (s : State) (c : CoreId) (level : Nat) : Bool :=
  s.regionSum (coreCluster c) c + level ≤ s.table.cap

/-- `PWR.ACQ`: a lower level at once, a fitting request behind no other at once, else the wait in arrival order. -/
def execPwrAcq (lvl : BitVec 4) (lw : LongWait) (s : State) : Out :=
  let c := s.cur.core
  let cl := coreCluster c
  let ask := fun (t : State) => t.modCluster cl fun y => { y with regionAsk := some (s.now, c) }
  .next (
    if s.cur.ctx ≠ teamCtx then s.illegal
    else if s.cc.regionOpen ∧ lvl.toNat ≤ s.cc.regionLevel then (s.modCc fun k => { k with pwrl := pwrlOpen lvl.toNat }).advance 8
    else if (s.cluster cl).regionQ.isEmpty ∧ s.regionFits c lvl.toNat then
      ask ((s.modCc fun k => { k with pwrl := pwrlOpen lvl.toNat }).advance 8)
    else
      ((ask s).modCluster cl fun y =>
        if y.regionQ.any fun e => e.1 == c then y else { y with regionQ := y.regionQ ++ [(c, lvl)] }).hold
        (.pwr lvl) (lwClk lw))

/-- A request of the queue still stands: its team waits in `PWR.ACQ`, or waits for its first fetch after a restore. -/
def State.regionAsked (s : State) (e : CoreId × BitVec 4) : Bool :=
  let k := s.core e.1
  let x := k.ctx teamCtx
  (match x.run, x.wait with
   | .running, some w => w.kind == .pwr e.2
   | _, _ => false) ||
  (match k.team with
   | some t => t.state == .loading
   | none => false)

/-- The current manager tests the head request (R445). -/
def execRegionGrant (cl : ClusterId) (s : State) : Out :=
  .next (
    let q := (s.cluster cl).regionQ.filter s.regionAsked
    match q with
    | [] => s
    | (c, lvl) :: rest =>
      if s.regionFits c lvl.toNat then
        let s1 := s.modCluster cl fun y => { y with regionQ := rest }
        s1.modCore c fun k =>
          let k1 := { k with pwrl := pwrlOpen lvl.toNat }
          match k.team with
          | some t =>
            if t.state = .loading then k1 else k1.modCtx teamCtx fun x => { x with pc := x.pc + 8, wait := none }
          | none => k1
      else s)

def execPwrRel (s : State) : Out :=
  .next (if s.cur.ctx ≠ teamCtx then s.illegal else (s.modCc fun k => { k with pwrl := 0 }).advance 4)

/-! ### STALL (R325-R327) -/

/-- The oldest entry that is not yet acknowledged (R326). -/
def Ctx.oldestStore (x : Ctx) : W64 :=
  match x.unacked ++ x.storeQ with
  | e :: _ => e.va
  | [] => 0

/-- The oldest record of a galley that is not DONE, or, for a join that waits on heads, that has not issued (R326). -/
def GalleyState.oldestOpen (g : GalleyState) (issued : Bool) : Option Slot :=
  (g.entries.find? fun e =>
    if issued then e.2.st == .appended || e.2.st == .checked else e.2.isOpen).map Prod.snd

/-- STALL on galleys: TADDR the mask, TINFO and PIDX the record of the galleys that was appended first (R326; log entry 32). -/
def Core.galleyStall (k : Core) (gs : List Galley) (issued : Bool) : Trap :=
  let mask := gs.foldl (fun n g => n + 2 ^ (galleyCode g).toNat) 0
  let found := gs.filterMap fun g => ((k.galley g).oldestOpen issued).map fun y => (g, y)
  match found.mergeSort fun a b => a.2.pos ≤ b.2.pos with
  | (g, y) :: _ =>
    { (Trap.stall 2 (BitVec.ofNat 64 mask) (infoRecord g y.seq &&& ~~~0xF)) with
      pidx := some (pidxOf g { y with seq := y.seq }) }
  | [] => .stall 2 (BitVec.ofNat 64 mask) 0

/-- The producer core in TINFO[31:24] (R317). -/
def pcore (c : CoreId) : W64 := BitVec.ofNat 64 (c.val * 2 ^ 24)

/-- The trap of an expired wait and its TEPC (R326, R327); none for a wait that never stalls. -/
def State.stallTrap (s : State) (r : CtxRef) (w : Wait) : Option (Trap × W64) :=
  let k := s.core r.core
  let x := s.ctx r
  let lane : Trap := .stall 4 x.oldestStore 0
  match w.kind with
  | .walk _ | .wfe _ _ => none
  | .reg va => some (.stall 6 va 0, x.pc)
  | .popq q => some (.stall 0 (zext64 q) 0, x.pc)
  | .chWait c _ _ => some (.stall 1 (zext64 c) (pcore (s.producer r.core w.kind)), x.pc)
  | .bar c _ => some (.stall 1 (zext64 c) (pcore (s.producer r.core w.kind)), x.pc + 8)
  | .fence done m v y z =>
    let mark : Galley → Option (BitVec 24) := fun g => match g with
      | .m => m
      | .v => v
      | .x => y
      | .k => z
    some (if k.joined done mark then lane else k.galleyStall (galleys.filter fun g => (mark g).isSome) !done, x.pc)
  | .halt =>
    match (if r.ctx = teamCtx then galleys.find? fun g => !(k.galley g).allDone else none) with
    | some g => some (k.galleyStall [g] false, x.pc)
    | none => some (lane, x.pc)
  | .align _ => some (lane, x.pc)
  | .storeFull va => some (.plain causeWlane va, x.pc)
  | .atomic va _ | .acquire va _ => some (.stall 6 va 0, x.pc)
  | .dlv t _ _ _ _ => some (.stall 5 (BitVec.ofNat 64 t.val) (pcore t), x.pc)
  | .pwr _ => some (.stall 3 0 0, x.pc)
  | .fmt | .ldq | .stgRel => some (.stall 7 0 0, x.pc)
  | .galley g => some (k.galleyStall [g] false, x.pc)

/-- A wait has passed the instruction's longest wait: STALL, or WLANE for a store or atomic that found its queue full
(R73, R325). -/
def execStall (c : CoreId) (x : CtxId) (s : State) : Out :=
  let r : CtxRef := ⟨c, x⟩
  let y := s.ctx r
  .next (
    match y.run, y.wait with
    | .running, some w =>
      if w.limit * 16 < w.count then
        match s.stallTrap r w with
        | some (t, tepc) => s.raise r t tepc
        | none => s
      else s
    | _, _ => s)

end Sys2Proof.Machine
end

