-- ==== Sys2Proof/Machine/Engine.lean ====
section
/-! DEFINITION. What the engines share: parking a record (01 R22), one access of an engine (10 R271, 02 R71, R73), pins on
scratchpad stages (11 R293, R295), engine writes and the L2's zero flag (02 R66, R70). -/
namespace Sys2Proof.Machine

/-! ### A record and its traps (R22, R315) -/

def Core.modSlotG (k : Core) (g : Galley) (i : SlotId) (f : Slot → Slot) : Core := k.modSlot g i.val f
/-- A class R trap that names the record (R315, R317). -/
def Slot.trap (y : Slot) (g : Galley) (code : BitVec 8) (addr : W64) : Trap :=
  ⟨code, galleyUnit g, addr, infoRecord g y.seq, some (pidxOf g y)⟩
/-- A class R trap that names an element (KIND 2). -/
def Slot.trapAt (y : Slot) (g : Galley) (code : BitVec 8) (kstep col row acc : Nat) : Trap :=
  ⟨code, galleyUnit g, 0, infoElement g y.seq kstep col row acc, some (pidxOf g y)⟩
/-- A class R trap of an uncorrectable read error (KIND 4). -/
def Slot.trapPhys (y : Slot) (g : Galley) (va : W64) (pa : Nat) : Trap :=
  ⟨causeMemerr, galleyUnit g, va, infoPhys pa, some (pidxOf g y)⟩

/-- The mark stands, work since it is discarded, and the record is PARKED (R22). -/
def Slot.parked (y : Slot) (t : Trap) : Slot :=
  { y with st := .parked, cause := some t, markSeq := y.seq, markValid := true, flags := 0, step := y.prog.toNat, ran := 0, owed := 0, early := [],
           held := [] }

/-- The engine has done something, or stands still for a cause of its own (R49). -/
def GalleyState.moved (g : GalleyState) : GalleyState := { g with noProgress := 0, waits := none }

/-- Park a record: its trap waits for the team context's next boundary. -/
def State.park (s : State) (c : CoreId) (g : Galley) (i : SlotId) (t : Trap) : State :=
  (s.modCore c fun k => (k.modSlotG g i fun y => y.parked t).modGalley g GalleyState.moved).raiseLater c t

/-- The engine stands at its unit, held from outside. -/
def State.engineHolds (s : State) (c : CoreId) (g : Galley) (w : EngineHold) : State :=
  s.modCore c fun k => k.modGalley g fun y => { y with waits := some w }

/-- Some record of the galley is PARKED. -/
def GalleyState.hasParked (g : GalleyState) : Bool := g.slots.any fun (_, y) => y.st == .parked
/-- The ISSUED records of a galley. -/
def GalleyState.issuedSlots (g : GalleyState) : List Slot := g.slots.filterMap fun (_, y) => if y.st = .issued then some y else none
/-- A reset of the engine is under way, or is taken before anything else that the engine does (R49, R332, R437). -/
def GalleyState.stalled (g : GalleyState) : Bool :=
  g.resetting || g.asked == some .full || (g.asked == some .step1 && !g.hasParked) || (g.asked == some .scrub && g.issuedSlots.isEmpty)

/-- The record of a slot that its engine may work on. -/
def Core.issued? (k : Core) (g : Galley) (i : SlotId) : Option Slot :=
  let y := k.slot g i.val
  if y.st = .issued ∧ !(k.galley g).stalled then some y else none

/-! ### Asking for a reset (R49, R434, R436) -/

/-- The causes of an engine reset, in the order of the health page's counters (R434). -/
inductive ResetWhy where | watchdog | parity | protocol | residue | scrub | injection
deriving DecidableEq, Repr
def ResetWhy.num : ResetWhy → Nat
  | .watchdog => 0
  | .parity => 1
  | .protocol => 2
  | .residue => 3
  | .scrub => 4
  | .injection => 5

/-- An engine reset is asked for, counted and, but for the scrub, logged. -/
def State.askReset (s : State) (c : CoreId) (g : Galley) (why : ResetWhy) : State :=
  let s1 := (s.modCore c fun k => k.modGalley g fun y =>
    { y with asked := if why = .scrub then some (y.asked.getD (if y.hasParked || y.resetting then .step1 else .scrub))
                      else some .full }).bumpDie (coreDie c) why.num
  if why = .scrub then s1
  else s1.log { LogRec.zero with kind := 5, unit := (galleyUnit g).setWidth 8, core := BitVec.ofNat 8 c.val, stack := 0xFF }

/-! ### Pins (R293, R295) -/

/-- A byte of a scratchpad lies in a stage that the core's team context has pinned. -/
def Core.pinsByte (k : Core) (c : CoreId) (pa : Nat) : Bool :=
  let base := k.scratchPa c 0
  base ≤ pa && pa < base + k.windowBytes && FMap.get k.pins false ((pa - base) / 0x1_0000)

/-- Some team context of the cluster, resident or saved, has pinned the byte. -/
def State.pinnedByte (s : State) (pa : Nat) : Bool :=
  match placeOf pa with
  | some (.scratch cl) =>
    (coresOf cl).any (fun c => (s.core c).pinsByte c pa) ||
    s.launches.any fun (_, l) => l.saved.any fun (t, k) =>
      let c := coreOfNat (FMap.get l.savedOn 0 t)
      coreCluster c == cl && k.pinsByte c pa
  | some (.hbm _) | some (.vault _ _) | some .host | none => false
def State.pinned (s : State) (pa n : Nat) : Bool := s.pinnedByte pa || s.pinnedByte (pa + (n - 1))

/-! ### One access of an engine (R271, R302) -/

/-- How an access goes on: at a physical address, held, or with the record parked. -/
inductive EngineAccess where
  | ok (pa : Nat) (e : TlbEntry)
  | hold (s : State)
  | park (t : Trap)

/-- Where one access of a record goes, of bytes inside one page. -/
def State.engineAt (s : State) (c : CoreId) (g : Galley) (i : SlotId) (a : Access) (va : W64) (n : Nat) : EngineAccess :=
  let k := s.core c
  let y := k.slot g i.val
  let priv := (k.ctx teamCtx).priv
  match s.translateEngine (k.tlb g) y.held k.job priv a va with
  | .trap code => .park (y.trap g code va)
  | .miss => .hold (s.askWalk c (.engine g i) k.job priv va)
  | .ok pa e =>
    if s.hostMissing (s.jobFunc k.job) pa then
      let use := PriUse.engine c g i
      .hold (if s.pri.any fun p => p.use == use then s
        else { s with pri := s.pri ++ [⟨pa, va, use⟩], outbox := s.outbox ++ [.pageRequest pa] })
    else
      match s.outAt pa n with
      | some j => .park (y.trap g causeProt (va + BitVec.ofNat 64 j))
      | none => .ok pa e
/-- The checks of one access of a record, of at most 128 bytes inside one page, in the order of R271. -/
def State.engineCheck (s : State) (c : CoreId) (g : Galley) (i : SlotId) (a : Access) (va : W64) (n : Nat) : EngineAccess :=
  match s.engineAt c g i a va n with
  | .ok pa e =>
    (match a, s.badAt pa n with
     | .read, some p => .park (((s.core c).slot g i.val).trapPhys g va p)
     | _, _ => .ok pa e)
  | r => r

/-- An engine's write reaches the L2 of HBM lines, and every L1 loses them (R65, R66, R70). -/
def State.writtenLines (s : State) (pa n : Nat) (zero : Bool) : State :=
  if isHbm pa then
    (linesOf pa n).foldl (fun s' line => s'.atL2 line zero) s
  else s
/-- The bytes of an engine write, its charge, and its lines. -/
def State.engineWrite (s : State) (c : CoreId) (pa : Nat) (data : List Byte) (charge : Nat) (zero : Bool) : State :=
  ((s.modCore c fun k => k.charge charge).writeBytes pa data).writtenLines pa data.length zero

/-- A write that has passed the checks: held by a pin or by the budget, or performed, and then what follows it. -/
def State.engineStore (s : State) (c : CoreId) (g : Galley) (pa : Nat) (data : List Byte) (charge : Nat) (go : State → State) : State :=
  let s0 := s.modCore c fun k => k.rollWindow s.now
  if s0.pinned pa data.length then s.engineHolds c g (.pin pa data.length)
  else if !(s0.core c).laneOpen then s.engineHolds c g .budget
  else go (s0.engineWrite c pa data charge false)

/-! ### Several accesses of one unit -/

/-- The checks of a list of accesses: the first that holds or parks decides; else their physical addresses. -/
inductive EngineChecks where
  | ok (pas : List Nat)
  | hold (s : State)
  | park (t : Trap)

def State.engineChecks (s : State) (c : CoreId) (g : Galley) (i : SlotId) (a : Access) : List (W64 × Nat) → EngineChecks
  | [] => .ok []
  | (va, n) :: rest =>
    match s.engineCheck c g i a va n with
    | .hold s1 => .hold s1
    | .park t => .park t
    | .ok pa _ =>
      match State.engineChecks s c g i a rest with
      | .ok pas => .ok (pa :: pas)
      | .hold s1 => .hold s1
      | .park t => .park t

/-- A row of 128 bytes as a number, and back. -/
def rowBytes (r : Row) : List Byte := bytesOfNat r.toNat 128
def rowOf (b : List Byte) : Row := BitVec.ofNat 1024 (natOfBytes b)
def accBytes (r : AccRow) : List Byte := bytesOfNat r.toNat 256
def accOfBytes (b : List Byte) : AccRow := BitVec.ofNat 2048 (natOfBytes b)

/-- Address `a` + `j` × the signed stride `b`, modulo 2^64 (R270, R287). -/
def rowAddr (a b : W64) (j : Nat) : W64 := a + BitVec.ofNat 64 j * b

end Sys2Proof.Machine
end

