-- ==== Sys2Proof/Machine/Vector.lean ====
section
/-! DEFINITION. The vector engine (10 R254-R277): what a command computes for one destination row, its commit, and the
appends of the V galley. -/
namespace Sys2Proof.Machine

/-! ### Commands -/

/-- The functions of VOP, VALG, VLD and VST (R186). -/
inductive VFn where
  | add | sub | mul | fma | min | max | abs | neg | and | or | xor | shl | shr | iadd | imul | cmp | sel | shuf | bcast | movs
  | red | exp2 | log2 | rcp | rsq | cvt | qnt | dqnt | amul | conj | norm | ld | st
deriving DecidableEq, Repr

/-- Functions of VOP in the order of their codes. -/
def vopFns : List VFn :=
  [.add, .sub, .mul, .fma, .min, .max, .abs, .neg, .and, .or, .xor, .shl, .shr, .iadd, .imul, .cmp, .sel, .shuf, .bcast,
   .movs, .red, .exp2, .log2, .rcp, .rsq, .cvt, .qnt, .dqnt]

def vfnOf (op f : Nat) : Option VFn :=
  if op = 0xE0 then vopFns[f]?
  else if op = 0xE1 then (if f % 8 = 0 then some .amul else if f % 8 = 1 then some .conj else if f % 8 = 2 then some .norm else none)
  else if op = 0xE2 then some .ld
  else if op = 0xE3 then some .st
  else none

/-- A V command as its record holds it: tile codes resolved, operand values captured (R260). -/
structure VCmd where
  fn : VFn
  v : VForm
  slot : Nat
  o0 : W64
  o1 : W64
  vw : W64
deriving DecidableEq, Repr

def Slot.vcmd (y : Slot) : Option VCmd :=
  match vfnOf y.op (fOf y.body.w0).toNat, vFormOf y.body.w0 y.body.w1 with
  | some fn, some v => some ⟨fn, v, (fOf y.body.w0).toNat / 8, y.body.o0, y.body.o1, y.body.o3⟩
  | _, _ => none

def VFn.isMem : VFn → Bool
  | .ld | .st => true
  | _ => false
def VFn.isAlg : VFn → Bool
  | .amul | .conj | .norm => true
  | _ => false
/-- The a field names a row source. -/
def VFn.readsA : VFn → Bool
  | .movs | .ld | .st => false
  | _ => true
/-- The b field names a row source. -/
def VFn.readsB : VFn → Bool
  | .add | .sub | .mul | .fma | .min | .max | .and | .or | .xor | .iadd | .imul | .cmp | .sel | .shuf | .dqnt | .amul => true
  | _ => false
/-- The destination row is a source (R261). -/
def VFn.readsD : VFn → Bool
  | .fma | .sel => true
  | _ => false
/-- The b field holds a tile code. -/
def VFn.tileB : VFn → Bool
  | .qnt => true
  | f => f.readsB

/-! ### Rows and lanes (R254-R258) -/

/-- The source type of `VCVT`, in BROW[14:12]. -/
def VCmd.src (c : VCmd) : VTy :=
  match VTy.ofCode? (c.v.brow.setWidth 3) with
  | some t => t
  | none => .fp32

/-- Lanes of a source row as it is read (R256, R258). -/
def VCmd.esrc (c : VCmd) : Nat :=
  match c.fn with
  | .cvt => if isAccCode c.v.a then 64 else lanesOf c.src
  | .qnt => if isAccCode c.v.a then 64 else lanesOf c.v.ty
  | .dqnt => 128
  | _ => lanesOf c.v.ty
/-- Lanes of a destination row. -/
def VCmd.edst (c : VCmd) : Nat :=
  match c.fn with
  | .qnt => 128
  | _ => lanesOf c.v.ty
/-- The a row that holds element `i` of step `k` (R258). -/
def VCmd.arow (c : VCmd) (k i : Nat) : Nat := c.v.arow.toNat + (k * c.edst + i) / c.esrc
/-- The b row of step `k`. -/
def VCmd.brow (c : VCmd) (k : Nat) : Nat :=
  c.v.brow.toNat + (if c.fn = .dqnt then k * c.edst / c.esrc else k)
def VCmd.drow (c : VCmd) (k : Nat) : Nat := c.v.drow.toNat + k

/-- A float lane of a source row: a tile lane of its type, or an accumulator column as FP32 (R256). -/
def Core.vLane (k : Core) (code : Reg) (row : Nat) (ty : VTy) (acoff : Bool) (i : Nat) : FVal :=
  if isAccCode code then
    fp32.value (accCol (k.accRow (accNum code) row) (if lanesOf ty = 32 ∧ acoff then 32 + i else i))
  else (fmtOf ty).value (laneOf (k.tile code.toNat row) (laneBytes ty) i)
/-- The bits of a tile lane. -/
def Core.vBits (k : Core) (code : Reg) (row : Nat) (ty : VTy) (i : Nat) : Nat :=
  laneOf (k.tile code.toNat row) (laneBytes ty) i

def VCmd.aVal (c : VCmd) (k : Core) (j i : Nat) : FVal := k.vLane c.v.a (c.arow j 0) c.v.ty (vwAcoff c.vw) i
def VCmd.bVal (c : VCmd) (k : Core) (j i : Nat) : FVal := k.vLane c.v.b (c.brow j) c.v.ty (vwAcoff c.vw) i
def VCmd.dVal (c : VCmd) (k : Core) (j i : Nat) : FVal := k.vLane c.v.d (c.drow j) c.v.ty false i
def VCmd.aBits (c : VCmd) (k : Core) (j i : Nat) : Nat := k.vBits c.v.a (c.arow j 0) c.v.ty i
def VCmd.bBits (c : VCmd) (k : Core) (j i : Nat) : Nat := k.vBits c.v.b (c.brow j) c.v.ty i
def VCmd.dBits (c : VCmd) (k : Core) (j i : Nat) : Nat := k.vBits c.v.d (c.drow j) c.v.ty i
def VCmd.mode (c : VCmd) : Rnd := Rnd.ofCode c.v.mode

/-- An integer lane modulo its width. -/
def intLane (w : Nat) (i : Int) : FOut := ⟨(i % (2 ^ (8 * w) : Nat)).toNat, 0, false⟩
def bitLane (n : Nat) : FOut := ⟨n, 0, false⟩

/-- Comparison of R263 by MODE: EQ, LT, LE, NE. -/
def vcmpInt (op : Nat) (a b : Int) : Bool :=
  if op = 0 then decide (a = b) else if op = 1 then decide (a < b) else if op = 2 then decide (a ≤ b) else decide (a ≠ b)
def vcmpFloat (op : Nat) (a b : FVal) : Bool :=
  if op = 0 then fvEq a b
  else if op = 1 then fvLt a b
  else if op = 2 then fvLt a b || fvEq a b
  else !fvEq a b

/-- A value converted to a type (R92, R205). -/
def cvtLane (m : Rnd) (ty : VTy) (v : FVal) : FOut :=
  match ty with
  | .fp32 | .bf16 | .fp16 | .bp => let (b, f) := (fmtOf ty).pack m v; ⟨b, f, false⟩
  | .i8 => let (i, f) := toInt m 8 v; { intLane 1 i with flags := f }
  | .i32 => let (i, f) := toInt m 32 v; { intLane 4 i with flags := f }
/-- The source lane of `VCVT`. -/
def VCmd.cvtSrc (c : VCmd) (k : Core) (row i : Nat) : FVal :=
  match c.src with
  | .i8 => ofInt (signedN 1 (k.vBits c.v.a row .i8 i))
  | .i32 => ofInt (signedN 4 (k.vBits c.v.a row .i32 i))
  | .fp32 => if isAccCode c.v.a then fp32.value (accCol (k.accRow (accNum c.v.a) row) i) else k.vLane c.v.a row .fp32 false i
  | .bf16 => k.vLane c.v.a row .bf16 false i
  | .fp16 => k.vLane c.v.a row .fp16 false i
  | .bp => .nan

/-- Element `x` of a source row of `VDQNT` (R268): eight planes, its block's scale in row `brow` of tb. -/
def VCmd.dqSrc (c : VCmd) (k : Core) (j i : Nat) : FVal :=
  let x := (j * c.edst + i) % 128
  let row := k.tile c.v.a.toNat (c.arow j i)
  let words := (List.range 8).map fun t => bitsN row (256 * (x / 32) + 32 * t) 32
  reconstruct (planesValue words (x % 32)) (vwPlanes c.vw) (laneOf (k.tile c.v.b.toNat (c.brow j)) 1 (x / 32))

/-- The FP32 or BF16 input `x` of step `j` of `VQNT` (R267). -/
def VCmd.qSrc (c : VCmd) (k : Core) (j x : Nat) : FVal :=
  let e := j * 128 + x
  let row := c.v.arow.toNat + e / c.esrc
  if isAccCode c.v.a then fp32.value (accCol (k.accRow (accNum c.v.a) row) (e % 64))
  else k.vLane c.v.a row c.v.ty false (e % c.esrc)

/-- An approximation of a lane (R265); a 16-bit lane or a column enters as FP32, exactly. -/
def approxLane (fn : ApproxFn) (f : FFmt) (m : Rnd) (a : FVal) : FOut :=
  approxIn fn f m (BitVec.ofNat 32 (fp32.pack .rne a).1)

/-- Lane `i` of step `j` of a function that acts lane by lane (R261-R266, R268). -/
def VCmd.lane (c : VCmd) (k : Core) (j i : Nat) : FOut :=
  let ty := c.v.ty
  let w := laneBytes ty
  let f := fmtOf ty
  let m := c.mode
  let ia := signedN w (c.aBits k j i)
  let ib := signedN w (c.bBits k j i)
  let n := c.o1.toNat
  match c.fn with
  | .add => f.out m (fvAdd m (c.aVal k j i) (c.bVal k j i))
  | .sub => f.out m (fvAdd m (c.aVal k j i) (c.bVal k j i).flip)
  | .mul => f.out m (fvMul (c.aVal k j i) (c.bVal k j i))
  | .fma => f.out m (fvFma m (c.aVal k j i) (c.bVal k j i) (c.dVal k j i))
  | .min => if ty.isFloat then f.out .rne (.val (fvMin (c.aVal k j i) (c.bVal k j i))) else intLane w (if ia < ib then ia else ib)
  | .max => if ty.isFloat then f.out .rne (.val (fvMax (c.aVal k j i) (c.bVal k j i))) else intLane w (if ia < ib then ib else ia)
  | .abs => if ty.isFloat then f.out .rne (.val (c.aVal k j i).abs) else intLane w (ia.natAbs : Int)
  | .neg => if ty.isFloat then f.out .rne (.val (c.aVal k j i).flip) else intLane w (-ia)
  | .and => bitLane (c.aBits k j i &&& c.bBits k j i)
  | .or => bitLane (c.aBits k j i ||| c.bBits k j i)
  | .xor => bitLane (c.aBits k j i ^^^ c.bBits k j i)
  | .shl => bitLane (if 8 * w ≤ n then 0 else c.aBits k j i * 2 ^ n % 2 ^ (8 * w))
  | .shr => intLane w (ia.fdiv ((2 ^ min n (8 * w) : Nat) : Int))
  | .iadd => intLane w (ia + ib)
  | .imul => intLane w (ia * ib)
  | .cmp =>
    let holds := if ty.isFloat then vcmpFloat c.v.mode.toNat (c.aVal k j i) (c.bVal k j i) else vcmpInt c.v.mode.toNat ia ib
    bitLane (if holds then 2 ^ (8 * w) - 1 else 0)
  | .sel => bitLane (if 2 ^ (8 * w - 1) ≤ c.dBits k j i then c.aBits k j i else c.bBits k j i)
  | .shuf => bitLane (if c.bBits k j i < lanesOf ty then c.aBits k j (c.bBits k j i) else 0)
  | .bcast => bitLane (c.aBits k j n)
  | .movs => bitLane (c.o0.toNat % 2 ^ (8 * w))
  | .exp2 => approxLane .exp2 f m (c.aVal k j i)
  | .log2 => approxLane .log2 f m (c.aVal k j i)
  | .rcp => approxLane .rcp f m (c.aVal k j i)
  | .rsq => approxLane .rsq f m (c.aVal k j i)
  | .cvt =>
    let e := (j * c.edst + i) % c.esrc
    cvtLane m ty (c.cvtSrc k (c.arow j i) e)
  | .dqnt => let (b, fl) := f.pack m (c.dqSrc k j i); ⟨b, fl, false⟩
  | .red | .qnt | .amul | .conj | .norm | .ld | .st => bitLane 0

/-! ### One destination row -/

/-- What a step leaves: the row, for `VQNT` the scale row, its flags, and the byte column of the lowest NaN it produced. -/
structure VRow where
  row : Row
  scale : Option Row
  flags : Flags
  nan : Option Nat
deriving DecidableEq, Repr

/-- Put lane results into a row in lane order; a produced NaN sets NV (R93, R95). -/
def putLanes (w : Nat) (old : Row) (outs : List (Nat × FOut)) : VRow :=
  outs.foldl (fun r (i, o) =>
    { r with row := setLane r.row w i o.bits
             flags := r.flags ||| o.flags ||| (if o.produced then flagNV else 0)
             nan := match r.nan with
               | some n => some n
               | none => if o.produced then some (w * i) else none }) ⟨old, none, 0, none⟩

def VCmd.active (c : VCmd) : Nat := activeLanes c.vw c.v.ty

/-- Lanes of a lane-by-lane step; `VDQNT` acts on the whole row (R255). -/
def VCmd.laneRow (c : VCmd) (k : Core) (j : Nat) : VRow :=
  let n := if c.fn = .dqnt then c.edst else c.active
  putLanes (laneBytes c.v.ty) (k.tile c.v.d.toNat (c.drow j)) ((List.range n).map fun i => (i, c.lane k j i))

/-- `VRED` (R264): one value in lane 0. -/
def VCmd.redOut (c : VCmd) (k : Core) (j : Nat) : FOut :=
  let ty := c.v.ty
  let w := laneBytes ty
  let is := List.range c.active
  if ty.isFloat then
    let xs := is.map fun i => c.aVal k j i
    match c.v.mode.toNat, xs with
    | 0, _ => (fmtOf ty).out .rne (fvSum .rne xs)
    | 1, x :: rest => (fmtOf ty).out .rne (.val (rest.foldl fvMin x))
    | _, x :: rest => (fmtOf ty).out .rne (.val (rest.foldl fvMax x))
    | _, [] => bitLane 0
  else
    let xs := is.map fun i => signedN w (c.aBits k j i)
    match c.v.mode.toNat, xs with
    | 0, _ => intLane w (xs.foldl (· + ·) 0)
    | 1, x :: rest => intLane w (rest.foldl min x)
    | _, x :: rest => intLane w (rest.foldl max x)
    | _, [] => bitLane 0

/-- `VQNT` (R267): four blocks and their scale codes. -/
def VCmd.qntRow (c : VCmd) (k : Core) (j : Nat) : VRow :=
  let blocks := (List.range 4).map fun b => quantise ((List.range 32).map fun i => c.qSrc k j (32 * b + i))
  let words := blocks.flatMap fun (_, vs, _) => (List.range 8).map (planeWord vs)
  let row := BitVec.ofNat 1024 (natOfBytes (words.flatMap fun w => bytesOfNat w 4))
  let scale := blocks.zipIdx.foldl (fun r ((e, _, _), b) => setLane r 1 b e) (k.tile c.v.b.toNat (c.brow j))
  ⟨row, some scale, blocks.foldl (fun fl (_, _, f) => fl ||| f) 0, none⟩

/-- The `n` lanes of element `g`. -/
def elemOf (n g : Nat) (lane : Nat → FVal) : List FVal := (List.range n).map fun t => lane (g * n + t)

/-- The bits of a source lane of `VCONJ`: a tile's lane, or an FP32 column. -/
def VCmd.conjSrc (c : VCmd) (k : Core) (j i : Nat) : Nat :=
  if isAccCode c.v.a then accCol (k.accRow (accNum c.v.a) (c.arow j 0)) (if vwAcoff c.vw then 32 + i else i) else c.aBits k j i
/-- A component of the conjugate, for every encoding: the sign bit inverted, or the bits unchanged (R111). -/
def conjBits (mask : Byte) (e w n : Nat) : Nat := if conjNeg mask e then n ^^^ 2 ^ (8 * w - 1) else n

/-- The result lanes of one element (R269). -/
def VCmd.elem (c : VCmd) (k : Core) (t : LigTable) (j g : Nat) : List FOut :=
  let n := countOf t.code
  let f := fmtOf c.v.ty
  let a := elemOf n g (c.aVal k j)
  match c.fn with
  | .amul => (ligProduct n t.entries a (elemOf n g (c.bVal k j))).map fun ps => f.out c.mode (sumProducts c.mode ps)
  | .conj =>
    if isAccCode c.v.a && laneBytes c.v.ty == 2 then (conjOf t.mask a).map fun x => f.out .rne (.val x)
    else (List.range n).map fun e => bitLane (conjBits t.mask e (laneBytes c.v.ty) (c.conjSrc k j (g * n + e)))
  | _ =>
    let ps := (ligProduct n t.entries a (conjOf t.mask a)).getD t.norm.toNat []
    f.out c.mode (sumProducts c.mode ps) :: List.replicate (n - 1) (bitLane 0)

/-- The elements whose lanes are all active (R255). -/
def VCmd.algRow (c : VCmd) (k : Core) (t : LigTable) (j : Nat) : VRow :=
  let n := countOf t.code
  let outs := (List.range (c.active / n)).flatMap fun g => (c.elem k t j g).zipIdx.map fun (o, e) => (g * n + e, o)
  putLanes (laneBytes c.v.ty) (k.tile c.v.d.toNat (c.drow j)) outs

/-- What step `j` computes from the rows of a core (R272). -/
def VCmd.step (c : VCmd) (k : Core) (t : LigTable) (j : Nat) : VRow :=
  match c.fn with
  | .red =>
    let o := c.redOut k j
    putLanes (laneBytes c.v.ty) (k.tile c.v.d.toNat (c.drow j)) [(0, o)]
  | .qnt => c.qntRow k j
  | .amul | .conj | .norm => c.algRow k t j
  | _ => c.laneRow k j

/-! ### The rows a command reads (R272, R273) -/

/-- The tile rows that step `j` reads. -/
def VCmd.reads (c : VCmd) (j : Nat) : List (Nat × Nat) :=
  let rowsA := c.arow j (c.edst - 1) - c.arow j 0 + 1
  (if c.fn.readsA && !isAccCode c.v.a then (List.range rowsA).map fun i => (c.v.a.toNat, c.arow j 0 + i) else []) ++
  (if c.fn.readsB && !isAccCode c.v.b then [(c.v.b.toNat, c.brow j)] else []) ++
  (if c.fn.readsD then [(c.v.d.toNat, c.drow j)] else [])

/-- A destination row is a source row of a different step: the command commits as one unit. -/
def VCmd.oneUnit (c : VCmd) : Bool :=
  let n := c.v.n
  !c.fn.isMem &&
  (List.range n).any fun i => (List.range n).any fun j => i != j && (c.reads j).contains (c.v.d.toNat, c.drow i)

/-- The tiles a command reads and writes. -/
def VCmd.tilesRead (c : VCmd) : List Nat :=
  (if c.fn = .st then [c.v.d.toNat] else []) ++ ((List.range c.v.n).flatMap fun j => (c.reads j).map Prod.fst).eraseDups ++
  (if c.fn = .qnt then [c.v.b.toNat] else [])
def VCmd.tilesWritten (c : VCmd) : List Nat :=
  (if c.fn = .st then [] else [c.v.d.toNat]) ++ (if c.fn = .qnt then [c.v.b.toNat] else [])

/-! ### Row steps (R272) -/

/-- The latches as step `j` reads its rows (R275, R363): a tile row read for a or b with its hold bit, a destination row read as a source
in latch C. -/
def Core.latch (k : Core) (c : VCmd) (j : Nat) : Core :=
  { k with
    latchA := if c.fn.readsA && !isAccCode c.v.a then some (c.v.a.toNat * 64 + c.arow j (c.edst - 1), c.v.ha) else k.latchA
    latchB := if c.fn.readsB && !isAccCode c.v.b then some (c.v.b.toNat * 64 + c.brow j, c.v.hb) else k.latchB
    latchC := if c.fn.readsD then some (c.v.d.toNat * 64 + c.drow j) else k.latchC }

/-- Commit a row, and for `VQNT` its scale row. -/
def Core.commitRow (k : Core) (c : VCmd) (j : Nat) (r : VRow) : Core :=
  let k1 := k.setTile c.v.d.toNat (c.drow j) r.row
  match r.scale with
  | some q => k1.setTile c.v.b.toNat (c.brow j) q
  | none => k1
/-- The mark of a V command: PROG rows are committed, with the flags they gathered (R24, R94). -/
def Slot.rowsDone (y : Slot) (prog : Nat) (fl : Flags) : Slot :=
  { y with prog := BitVec.ofNat 32 prog, markSeq := y.seq, markValid := true, step := prog, sealedFlags := y.sealedFlags ||| fl, held := [] }

/-- Rows computed from one state of the core are committed with the mark, or the record parks at its mark with NAN naming
the lowest row and byte column (R95, R96). -/
def State.commitRows (s : State) (c : CoreId) (i : SlotId) (y : Slot) (cmd : VCmd) (js : List Nat) : State :=
  let k := s.core c
  let t := match y.lig with
    | some t => t
    | none => ligReal
  let rows := js.map fun j => (j, cmd.step k t j)
  let off := nanOff (k.ctx teamCtx).fpx
  let read := js.foldl (fun k' j => k'.latch cmd j) k
  match rows.find? fun (_, r) => r.nan.isSome && !off with
  | some (j, r) => (s.setCore c read).park c .v i (y.trapAt .v causeNan 0 (r.nan.getD 0) (cmd.drow j) 0)
  | none =>
    let k1 := rows.foldl (fun k' (j, r) => k'.commitRow cmd j r) read
    let fl := rows.foldl (fun f (_, r) => f ||| r.flags) 0
    s.setCore c ((k1.modSlotG .v i fun z => z.rowsDone (y.prog.toNat + js.length) fl).modGalley .v GalleyState.moved)

/-- One row of `VLD` or `VST` (R270, R271). -/
def State.memRow (s : State) (c : CoreId) (i : SlotId) (y : Slot) (cmd : VCmd) : State :=
  let k := s.core c
  let j := y.prog.toNat
  let va := rowAddr cmd.o0 cmd.o1 j
  let done := fun (s' : State) =>
    s'.modCore c fun k' => (k'.modSlotG .v i fun z => z.rowsDone (j + 1) 0).modGalley .v GalleyState.moved
  match s.engineCheck c .v i (if cmd.fn = .st then .write else .read) va 128 with
  | .hold s1 => s1
  | .park t => s.park c .v i t
  | .ok pa _ =>
    if cmd.fn = .st then s.engineStore c .v pa (rowBytes (k.tile cmd.v.d.toNat (cmd.drow j))) 128 done
    else done ((s.readThrough pa 128).modCore c fun k' => k'.setTile cmd.v.d.toNat (cmd.drow j) (rowOf (s.readBytes pa 128)))

/-- `ROW_STEP`: the next row of an ISSUED V command, or all rows of a one-unit command. -/
def execRowStep (c : CoreId) (i : SlotId) (s : State) : Out :=
  match (s.core c).issued? .v i with
  | none => .next s
  | some y =>
    match y.vcmd with
    | none => .next s
    | some cmd =>
      let j := y.prog.toNat
      if cmd.v.n ≤ j then .next s
      else if cmd.fn.isMem then .next (s.memRow c i y cmd)
      else if cmd.oneUnit then .next (s.commitRows c i y cmd (List.range cmd.v.n))
      else .next (s.commitRows c i y cmd [j])

/-! ### Appends (R259, R260) -/

/-- Tile slots of the fields that hold tile codes, resolved (R175). -/
def Core.resolveV (k : Core) (fn : VFn) (v : VForm) : Option VForm :=
  match k.resolveTile v.d, (if fn.readsA then k.resolveTile v.a else some v.a),
      (if fn.tileB then k.resolveTile v.b else some v.b) with
  | some d, some a, some b => some { v with d := d, a := a, b := b }
  | _, _, _ => none

/-- The checks that need the machine's state: ACOFF beside a 64-lane accumulator source (R256), the lane of `VBCAST` (R263),
the tiles of `VQNT` (R267). -/
def VCmd.legal (c : VCmd) : Bool :=
  let acc := (c.fn.readsA && isAccCode c.v.a) || (c.fn.readsB && isAccCode c.v.b)
  !(acc && c.fn != .cvt && c.fn != .qnt && lanesOf c.v.ty == 64 && vwAcoff c.vw) &&
  (c.fn != .bcast || decide (c.o1.toNat < lanesOf c.v.ty)) &&
  (c.fn != .qnt || (c.v.b != c.v.d && (isAccCode c.v.a || c.v.b != c.v.a)))

/-- The append of a V command. -/
def State.vector (s : State) (fn : VFn) (f : Reg) (op : BitVec 8) (v : VForm) : State :=
  let o0 := if fn.readsA then 0 else s.reg v.a
  let o1 := match fn with
    | .shl | .shr | .bcast | .ld | .st => s.reg v.b
    | _ => 0
  s.engine (fun k =>
    match k.resolveV fn v with
    | none => .error s.illegalTrap
    | some r =>
      let cmd : VCmd := ⟨fn, r, f.toNat / 8, o0, o1, k.vw⟩
      if !cmd.legal then .error s.illegalTrap
      else if fn.isMem && (o0.toNat % 128 != 0 || o1.toNat % 128 != 0) then .error (.plain causeAlign o0)
      else .ok { g := .v, w0 := packD f r.b r.a r.d op, w1 := packV r, o0 := o0, o1 := o1, o2 := 0, o3 := k.vw }) id

def execVadd (v : VForm) (s : State) : Out := .next (s.vector .add 0x00 0xE0 v)
def execVsub (v : VForm) (s : State) : Out := .next (s.vector .sub 0x01 0xE0 v)
def execVmul (v : VForm) (s : State) : Out := .next (s.vector .mul 0x02 0xE0 v)
def execVfma (v : VForm) (s : State) : Out := .next (s.vector .fma 0x03 0xE0 v)
def execVmin (v : VForm) (s : State) : Out := .next (s.vector .min 0x04 0xE0 v)
def execVmax (v : VForm) (s : State) : Out := .next (s.vector .max 0x05 0xE0 v)
def execVabs (v : VForm) (s : State) : Out := .next (s.vector .abs 0x06 0xE0 v)
def execVneg (v : VForm) (s : State) : Out := .next (s.vector .neg 0x07 0xE0 v)
def execVand (v : VForm) (s : State) : Out := .next (s.vector .and 0x08 0xE0 v)
def execVor (v : VForm) (s : State) : Out := .next (s.vector .or 0x09 0xE0 v)
def execVxor (v : VForm) (s : State) : Out := .next (s.vector .xor 0x0A 0xE0 v)
def execVshl (v : VForm) (s : State) : Out := .next (s.vector .shl 0x0B 0xE0 v)
def execVshr (v : VForm) (s : State) : Out := .next (s.vector .shr 0x0C 0xE0 v)
def execViadd (v : VForm) (s : State) : Out := .next (s.vector .iadd 0x0D 0xE0 v)
def execVimul (v : VForm) (s : State) : Out := .next (s.vector .imul 0x0E 0xE0 v)
def execVcmp (v : VForm) (s : State) : Out := .next (s.vector .cmp 0x0F 0xE0 v)
def execVsel (v : VForm) (s : State) : Out := .next (s.vector .sel 0x10 0xE0 v)
def execVshuf (v : VForm) (s : State) : Out := .next (s.vector .shuf 0x11 0xE0 v)
def execVbcast (v : VForm) (s : State) : Out := .next (s.vector .bcast 0x12 0xE0 v)
def execVmovs (v : VForm) (s : State) : Out := .next (s.vector .movs 0x13 0xE0 v)
def execVred (v : VForm) (s : State) : Out := .next (s.vector .red 0x14 0xE0 v)
def execVexp2 (v : VForm) (s : State) : Out := .next (s.vector .exp2 0x15 0xE0 v)
def execVlog2 (v : VForm) (s : State) : Out := .next (s.vector .log2 0x16 0xE0 v)
def execVrcp (v : VForm) (s : State) : Out := .next (s.vector .rcp 0x17 0xE0 v)
def execVrsq (v : VForm) (s : State) : Out := .next (s.vector .rsq 0x18 0xE0 v)
def execVcvt (v : VForm) (s : State) : Out := .next (s.vector .cvt 0x19 0xE0 v)
def execVqnt (v : VForm) (s : State) : Out := .next (s.vector .qnt 0x1A 0xE0 v)
def execVdqnt (v : VForm) (s : State) : Out := .next (s.vector .dqnt 0x1B 0xE0 v)
def execVamul (v : VForm) (slot : BitVec 3) (s : State) : Out := .next (s.vector .amul (slot ++ (0 : BitVec 3)) 0xE1 v)
def execVconj (v : VForm) (slot : BitVec 3) (s : State) : Out := .next (s.vector .conj (slot ++ (1 : BitVec 3)) 0xE1 v)
def execVnorm (v : VForm) (slot : BitVec 3) (s : State) : Out := .next (s.vector .norm (slot ++ (2 : BitVec 3)) 0xE1 v)
def execVld (v : VForm) (s : State) : Out := .next (s.vector .ld 0 0xE2 v)
def execVst (v : VForm) (s : State) : Out := .next (s.vector .st 0 0xE3 v)

end Sys2Proof.Machine
end

