-- ==== Sys2Proof/Machine/Matrix.lean ====
section
/-! DEFINITION. The matrix engine (11 R278-R298): appends of the M galley, issue, K-steps and proof steps (01 R25, 03 R102-R106),
movers, ligature loads and the stage checks. -/
namespace Sys2Proof.Machine

/-! ### Appends (R191, R282, R289, R292) -/

/-- Tile slots of the operands that are tiles, resolved. -/
def Core.resolveM (k : Core) (m : MmaForm) : Option MmaForm :=
  match (if m.srca then some m.a else k.resolveTile m.a), (if m.srcb then some m.b else k.resolveTile m.b) with
  | some a, some b => some { m with a := a, b := b }
  | _, _ => none

/-- The recorded component count of a slot (R114). -/
def Core.ligCount (k : Core) (slot : BitVec 3) : Nat := countOf (FMap.get k.ligCnt 0 slot.toNat)

/-- The shape of a product under a format word and a component count; none where R188-R190 refuse it. -/
def mmaShape (m : MmaForm) (w : W32) (c : Nat) : Option Shape :=
  match classOf w c with
  | none => none
  | some cl =>
    match shapeOf m.shape.toNat cl with
    | none => none
    | some sh => if fits w c sh m.ta m.tb then some sh else none

/-- Step 4 of R191 for one operand. -/
def checkOperand (k : Core) (pc : W64) (src : Bool) (lo hi : W64) (rows : Nat) : Option Trap :=
  if src then k.checkPair pc lo hi false rows else none

/-- The checks of an `MMA` in order; the word it claims. Of two pairs that both fail R63, the trap is that of SRCA's: the manual orders the
steps, not the operands of step 4 (DESIGN CHOICE, log entry 80). -/
def Core.checkMma (k : Core) (pc : W64) (m : MmaForm) (a0 a1 b0 b1 : W64) : Except Trap W32 :=
  match k.unclaimed? with
  | none => .error (.plain causeFmtq 0)
  | some w =>
    match mmaShape m w (k.ligCount m.alg) with
    | none => .error (.plain causeIllegal pc)
    | some sh =>
      match checkOperand k pc m.srca a0 a1 (aImage sh m.ta).1, checkOperand k pc m.srcb b0 b1 (bImage w sh m.tb).1 with
      | some t, _ => .error t
      | none, some t => .error t
      | none, none => .ok w

/-- Append an `MMA` or `MMAZ`; one that a replay finds is only compared. -/
def State.mma (s : State) (op : BitVec 8) (m : MmaForm) : State :=
  if s.cur.ctx ≠ teamCtx then s.illegal
  else
    match s.cc.resolveM m with
    | none => s.illegal
    | some r =>
      let v := fun (src : Bool) (n : Reg) => if src then s.reg n else 0
      let a0 := v m.srca m.a
      let a1 := v m.srca (m.a + 1)
      let b0 := v m.srcb m.b
      let b1 := v m.srcb (m.b + 1)
      let cmd : Command := { g := .m, w0 := packD 0 r.b r.a 0 op, w1 := packM r, o0 := a0, o1 := a1, o2 := b0, o3 := b1 }
      match s.cc.replayedSeq .m with
      | some _ => s.append cmd none s.cc.sgen id
      | none =>
        match s.cc.checkMma s.cx.pc r a0 a1 b0 b1 with
        | .error t => s.raise s.cur t s.cx.pc
        | .ok w => s.append cmd (some w) s.cc.sgen id

def execMma (m : MmaForm) (s : State) : Out := .next (s.mma 0xF0 m)
def execMmaz (m : MmaForm) (s : State) : Out := .next (s.mma 0xF1 m)

/-- A memory operand of a mover: both values multiples of 128 (R289). -/
def checkMem (a b : W64) : Option Trap :=
  if a.toNat % 128 ≠ 0 then some (.plain causeAlign a)
  else if b.toNat % 128 ≠ 0 then some (.plain causeAlign b)
  else none

/-- A mover command: its words with the tile fields resolved, its two operand values. -/
def mvCommand (f : Reg) (op : BitVec 8) (m : MvForm) (o0 o1 : W64) : Command :=
  { g := .m, w0 := packD f m.b m.a m.d op, w1 := packMv m, o0 := o0, o1 := o1, o2 := 0, o3 := 0 }

def execAmov (d a : BitVec 3) (s : State) : Out :=
  .next (s.engine (fun _ => .ok { g := .m, w0 := packD 0 0 (six a) (six d) 0xF2, w1 := 0, o0 := 0, o1 := 0, o2 := 0, o3 := 0 }) id)
def execAmovT (m : MvForm) (s : State) : Out :=
  .next (s.engine (fun k =>
    match k.resolveTile m.a with
    | some a => .ok (mvCommand 1 0xF2 { m with a := a } 0 0)
    | none => .error s.illegalTrap) id)
def execAzero (d : BitVec 3) (s : State) : Out :=
  .next (s.engine (fun _ => .ok { g := .m, w0 := packD 0 0 0 (six d) 0xF3, w1 := 0, o0 := 0, o1 := 0, o2 := 0, o3 := 0 }) id)

/-- `ALD` and `AST`. -/
def State.accMover (s : State) (op : BitVec 8) (m : MvForm) : State :=
  s.engine (fun _ =>
    match checkMem (s.reg m.a) (s.reg m.b) with
    | some t => .error t
    | none => .ok (mvCommand 0 op m (s.reg m.a) (s.reg m.b))) id
def execAld (m : MvForm) (s : State) : Out := .next (s.accMover 0xF4 m)
def execAst (m : MvForm) (s : State) : Out := .next (s.accMover 0xF5 m)

/-- `TLD` and `TST`: a scratchpad pair, or an address and a stride. -/
def State.tileMover (s : State) (op : BitVec 8) (m : MvForm) (dest : Bool) : State :=
  s.engine (fun k =>
    match k.resolveTile m.d with
    | none => .error s.illegalTrap
    | some d =>
      let o0 := s.reg m.a
      let o1 := if m.pair then s.reg (m.a + 1) else s.reg m.b
      match (if m.pair then k.checkPair s.cx.pc o0 o1 dest m.n else checkMem o0 o1) with
      | some t => .error t
      | none => .ok (mvCommand 0 op { m with d := d } o0 o1)) id
def execTld (m : MvForm) (s : State) : Out := .next (s.tileMover 0xF6 m false)
def execTst (m : MvForm) (s : State) : Out := .next (s.tileMover 0xF7 m true)

/-- `LIG`: the count is recorded at append (R114). -/
def execLig (slot : BitVec 3) (a : Reg) (code : BitVec 2) (s : State) : Out :=
  .next (s.engine (fun _ =>
      if (s.reg a).toNat % 64 ≠ 0 then .error (.plain causeAlign (s.reg a))
      else .ok { g := .m, w0 := packD 0 0 a (six slot) 0xF8, w1 := ((0 : BitVec 30) ++ code), o0 := s.reg a, o1 := 0, o2 := 0, o3 := 0 })
    (fun k => { k with ligCnt := FMap.set k.ligCnt 0 slot.toNat code }))

/-! ### What an M record names (R278, R294) -/

def Slot.mmaForm (y : Slot) : MmaForm := mmaFormOf y.body.w0 y.body.w1
def Slot.mvForm (y : Slot) : Option MvForm := mvFormOf y.body.w0 y.body.w1
def Slot.isLig (y : Slot) : Bool := y.op == 0xF8
/-- The component count of the slot's table at issue, or the recorded one before it. -/
def Slot.count (y : Slot) : Nat :=
  match y.lig with
  | some t => countOf t.code
  | none => 1

/-- The shape of an `MMA` under its claimed word and the table read at issue. A `LIG` that ends by error propagation (R30) leaves its table
unread, so the count recorded at its append is not the table's; a product appended under that count takes the table's, and where that
gives no shape it stays ISSUED without a K-step (DESIGN CHOICE, log entry 81). -/
def Slot.shape (y : Slot) : Option Shape :=
  match y.fmt with
  | some w => mmaShape y.mmaForm w y.count
  | none => none

/-- The pair operands that a record reads, each with its row count. -/
def Slot.pairs (y : Slot) : List (PairOp × Nat) :=
  let m := y.mmaForm
  if y.isMma then
    match y.fmt, y.shape with
    | some w, some sh =>
      (if m.srca then [(pairOf y.body.o0 y.body.o1, (aImage sh m.ta).1)] else []) ++
      (if m.srcb then [(pairOf y.body.o2 y.body.o3, (bImage w sh m.tb).1)] else [])
    | _, _ => []
  else if y.op = 0xF6 then
    match y.mvForm with
    | some v => if v.pair then [(pairOf y.body.o0 y.body.o1, v.n)] else []
    | none => []
  else []
/-- The stages that a record reads through pairs (R294, R297). -/
def Slot.stages (y : Slot) : List Nat := (y.pairs.flatMap fun (p, n) => p.stages n).eraseDups
/-- The stages that a record writes: a `TST` with a pair those of its rows, an `AST` or a `TST` by address those of its window in which a
row's physical address lies (R278, R294). -/
def State.stagesWritten (s : State) (c : CoreId) (y : Slot) : List Nat :=
  let k := s.core c
  let base := k.scratchPa c 0
  match y.mvForm with
  | some v =>
    if y.op = 0xF7 ∧ v.pair then (pairOf y.body.o0 y.body.o1).stages v.n
    else if y.op = 0xF5 ∨ y.op = 0xF7 then
      ((List.range v.n).flatMap fun j =>
        let va := rowAddr y.body.o0 y.body.o1 j
        (if y.op = 0xF5 ∧ v.ty = .fp32 then [va, va + 128] else [va]).filterMap fun a =>
          match s.walk k.job a with
          | .hit e =>
            let pa := e.pa + (va56 a - e.va)
            if base ≤ pa ∧ pa < base + k.windowBytes then some ((pa - base) / 0x1_0000) else none
          | .fault | .prot | .memerr _ | .onDie _ _ => none).eraseDups
    else []
  | none => []

/-- Tiles an M record reads: operands and scale tiles. -/
def Slot.mTilesRead (y : Slot) : List Nat :=
  let m := y.mmaForm
  if y.isMma then
    (if m.srca then [] else [m.a.toNat]) ++ (if m.srcb then [] else [m.b.toNat]) ++
    (match y.fmt with
     | some w => if fmtIsBp w then [fmtASct w, fmtBSct w] else []
     | none => [])
  else if y.op = 0xF2 ∧ (fOf y.body.w0).toNat = 1 then [(aOf y.body.w0).toNat]
  else if y.op = 0xF7 then [(dOf y.body.w0).toNat]
  else []
def Slot.mTilesWritten (y : Slot) : List Nat := if y.op = 0xF6 then [(dOf y.body.w0).toNat] else []
/-- The accumulator that a record writes, and the one it reads. -/
def Slot.accWritten (y : Slot) : Option Nat := accOf y.body.w0 y.body.w1
def Slot.accRead (y : Slot) : Option Nat :=
  if y.op = 0xF0 then some (bitsN y.body.w1 8 3)
  else if y.op = 0xF2 ∧ (fOf y.body.w0).toNat = 0 then some (bitsN y.body.w0 14 3)
  else if y.op = 0xF5 then some (bitsN y.body.w0 8 3)
  else none

def listsMeet (a b : List Nat) : Bool := a.any fun x => b.contains x
def optMeets (a b : Option Nat) : Bool := a.isSome && a == b

/-- One record writes a tile or an accumulator that the other reads or writes, or a stage that the other's operands lie in. -/
def State.spoils (s : State) (c : CoreId) (w r : Slot) : Bool :=
  listsMeet w.mTilesWritten (r.mTilesRead ++ r.mTilesWritten) || optMeets w.accWritten r.accRead ||
  optMeets w.accWritten r.accWritten || listsMeet (s.stagesWritten c w) (r.stages ++ s.stagesWritten c r)
/-- Two M records may be ISSUED together (R278). -/
def State.mayPair (s : State) (c : CoreId) (a b : Slot) : Bool :=
  !a.isLig && !b.isLig && (a.isMma != b.isMma) && !s.spoils c a b && !s.spoils c b a

/-! ### Stage checks (R297) -/

/-- A stage has been released since the record captured the generation. -/
def Core.stageFails (k : Core) (y : Slot) (stage : Nat) : Bool :=
  let d := (FMap.get k.release 0 stage - (y.body.sched >>> 16).setWidth 16).toNat
  1 ≤ d && d ≤ 32767
/-- The lowest stage of the record that fails. -/
def Core.stageLost (k : Core) (y : Slot) : Option Nat := leastOf (y.stages.filter fun st => k.stageFails y st)
/-- Park a record of the M galley; a product's grant ends as at a stop, with a spacer (R339). -/
def State.parkM (s : State) (c : CoreId) (i : SlotId) (t : Trap) : State :=
  let y := (s.core c).slot .m i.val
  (s.park c .m i t).modCore c fun k => if y.isMma && k.grant then { k with spacerFrom := some s.now } else k
/-- REPLAY-LOST parks the record at its mark. -/
def State.replayLost (s : State) (c : CoreId) (i : SlotId) (stage : Nat) : State :=
  s.parkM c i (((s.core c).slot .m i.val).trap .m causeReplayLost (BitVec.ofNat 64 (stage * 0x1_0000)))

/-! ### Issue (R25, R280, R283) -/

/-- The bank moves of an issue: from the visible bank, from zero for `MMAZ`, or from the proof bank where the mark stands. -/
def Core.issueBanks (k : Core) (y : Slot) : Core :=
  match y.accWritten with
  | none => k
  | some a =>
    if y.markValid && y.markSeq == y.seq then { k with accW := bankCopy k.accW k.accP a }
    else if y.op = 0xF1 then { k with accW := bankZero k.accW a, accP := bankZero k.accP a }
    else { k with accW := bankCopy k.accW k.accV a, accP := bankCopy k.accP k.accV a }

/-- The slot of an issued record: the mark stands, or is written with progress 0 (R22). -/
def Slot.issue (y : Slot) (t : LigTable) (now : Nat) : Slot :=
  let prog := if y.markValid && y.markSeq == y.seq then y.prog else 0
  { y with st := .issued, prog := prog, step := prog.toNat, markSeq := y.seq, markValid := true, lig := some t, lastProof := now
           flags := 0, missed := false, waived := false, resumed := false, ran := 0, owed := 0, early := [], held := [] }

/-- The ligature slot that a command reads: `ALG` of a product, f[5:3] of VALG. -/
def Slot.ligSlot (y : Slot) : Nat := if y.isMma then bitsN y.body.w1 5 3 else (fOf y.body.w0).toNat / 8
def Core.ligOf (k : Core) (n : Nat) : LigTable := FMap.get k.ligTab ligReal n

/-- Issue a record of the M galley: its stage check, its pins at the first issue, its banks. -/
def State.issueM (s : State) (c : CoreId) (i : SlotId) : State :=
  let k := s.core c
  let y0 := k.slot .m i.val
  let y := y0.issue (k.ligOf y0.ligSlot) s.now
  match k.stageLost y with
  | some st => s.replayLost c i st
  | none =>
    let pins := if y.pinned then k.pins else y.stages.foldl (fun p st => FMap.set p false st true) k.pins
    let k1 := (k.issueBanks y0).modSlotG .m i fun _ => { y with pinned := true }
    let k2 := { k1 with pins := pins, spacerFrom := if y.isMma then none else k1.spacerFrom }
    s.setCore c (k2.modGalley .m GalleyState.moved)

/-! ### Products (R283, R103) -/

/-- The format of a type code of a format word (R99). -/
def fmtType (w : W32) : FFmt := if fmtAType w = 1 then fp32 else if fmtAType w = 2 then bf16 else fp16
def fmtBytes (w : W32) : Nat := if fmtAType w = 1 then 4 else 2

/-- An element of a BP row read at `p` planes (R90, R91). -/
def bpElem (row : Row) (p e scale : Nat) : FVal :=
  let cont := containerOf p
  let words := (List.range p).map fun j => bitsN row (32 * cont * (e / 32) + 32 * j) 32
  reconstruct (planesValue words (e % 32)) p scale

/-- Row `r` of an operand: of a tile, or of a pair in the launch's window. -/
def State.operandRow (s : State) (c : CoreId) (src : Bool) (tile : Reg) (p : PairOp) (r : Nat) : Row :=
  if src then rowOf (s.readBytes ((s.core c).scratchPa c (p.row r)) 128) else (s.core c).tile tile.toNat r

/-- Element `e` of row `r` of an operand, its components in order. -/
def State.operandElem (s : State) (c : CoreId) (w : W32) (cnt : Nat) (src : Bool) (tile : Reg) (p : PairOp) (pln sct r e : Nat) :
    List FVal :=
  let row := s.operandRow c src tile p r
  if fmtIsBp w then [bpElem row pln e (laneOf ((s.core c).tile sct r) 1 (e / 32))]
  else (List.range cnt).map fun t => (fmtType w).value (laneOf row (fmtBytes w) (e * cnt + t))

/-- ReadA and ReadB. -/
def State.readA (s : State) (c : CoreId) (y : Slot) (w : W32) (t : LigTable) (i k : Nat) : List FVal :=
  let m := y.mmaForm
  let rd := s.operandElem c w (countOf t.code) m.srca m.a (pairOf y.body.o0 y.body.o1) (fmtAPln w) (fmtASct w)
  let e := if m.ta then rd k i else rd i k
  if m.ca then conjOf t.mask e else e
def State.readB (s : State) (c : CoreId) (y : Slot) (w : W32) (t : LigTable) (k j : Nat) : List FVal :=
  let m := y.mmaForm
  let rd := s.operandElem c w (countOf t.code) m.srcb m.b (pairOf y.body.o2 y.body.o3) (fmtBPln w) (fmtBSct w)
  let e := if m.tb || fmtIsBp w then rd j k else rd k j
  if m.cb then conjOf t.mask e else e

/-- The groups of output element (i, j) in K-step `st`: one list of products for each component. -/
def State.prodGroups (s : State) (c : CoreId) (y : Slot) (w : W32) (t : LigTable) (sh : Shape) (st i j : Nat) : List (List Product) :=
  (List.range sh.ks).foldl (fun acc q =>
    let k := st * sh.ks + q
    let ps := ligProduct (countOf t.code) t.entries (s.readA c y w t i k) (s.readB c y w t k j)
    acc.zipWith (· ++ ·) ps) (List.replicate (countOf t.code) [])

/-- The results of output row `i` in a K-step: element, component and result. -/
def State.stepRow (s : State) (c : CoreId) (y : Slot) (w : W32) (t : LigTable) (sh : Shape) (st i : Nat) :
    List (Nat × Nat × FOut) :=
  let cnt := countOf t.code
  let wr := (s.core c).workRow (y.accWritten.getD 0) i
  (List.range sh.n).flatMap fun j =>
    (s.prodGroups c y w t sh st i j).zipIdx.map fun (ps, q) => (j, q, addGroup (accCol wr (j * cnt + q)) ps)

/-- One K-step: the rows with their results, lowest row first. -/
def State.kResults (s : State) (c : CoreId) (y : Slot) (w : W32) (t : LigTable) (sh : Shape) (st : Nat) :
    List (Nat × List (Nat × Nat × FOut)) :=
  (List.range sh.m).map fun i => (i, s.stepRow c y w t sh st i)

/-- The lowest row, then column or element, whose group produced a NaN (R96). -/
def firstNan : List (Nat × List (Nat × Nat × FOut)) → Option (Nat × Nat)
  | [] => none
  | (i, outs) :: rest =>
    match outs.find? fun e => e.2.2.produced with
    | some e => some (i, e.1)
    | none => firstNan rest

/-- The working rows with a K-step's results. -/
def Core.putStep (k : Core) (a cnt : Nat) (rows : List (Nat × List (Nat × Nat × FOut))) : Core :=
  rows.foldl (fun k' (i, outs) =>
    k'.setWorkRow a i (outs.foldl (fun r (j, q, o) => setAccCol r (j * cnt + q) o.bits) (k'.workRow a i))) k
def stepFlags (rows : List (Nat × List (Nat × Nat × FOut))) : Flags :=
  rows.foldl (fun f (_, outs) => outs.foldl (fun f' (_, _, o) => f' ||| o.flags ||| (if o.produced then flagNV else 0)) f) 0

/-- The product that is ISSUED on a core. -/
def Core.product? (k : Core) : Option (SlotId × Slot) :=
  if k.galM.stalled then none
  else (k.galM.seqs.find? fun q => (k.galM.slot (slotOf q).val).isMma && (k.galM.slot (slotOf q).val).st == .issued).map
    fun q => (slotOf q, k.galM.slot (slotOf q).val)

/-- ProofDue (R283): after a K-step that PINT names, or 4,096 clk after the last proof step. -/
def Slot.proofDue (y : Slot) (nk now : Nat) : Bool :=
  let pint := y.mmaForm.pint.toNat
  decide (y.prog.toNat < y.step) &&
    ((pint != 0 && (y.step % pint == 0 || y.step == nk)) || decide (y.lastProof + 4096 ≤ now))

/-! ### Residue failures (R106) -/

/-- A residue failure in a K-step (R106): the first on its record and K-step resets the engine; a second parks the record. -/
def State.residueFails (s : State) (c : CoreId) (i : SlotId) (y : Slot) (row col : Nat) : State :=
  let st := y.step
  let trap := y.trapAt .m causeResidue st col row (y.accWritten.getD 0)
  let again := y.residue.contains st
  let s1 := (s.askReset c .m .residue).bumpDie (coreDie c) (if again then 9 else 8)
  let s2 := s1.log { LogRec.zero with
    kind := 3, unit := 2, core := BitVec.ofNat 8 c.val, stack := 0xFF, occ := if again then 2 else 1, detail := trap.info }
  if again then
    let ts := recent s.now (s.core c).residueTimes ++ [s.now]
    let s3 := s2.modCore c fun k => { k with residueTimes := ts }
    let s4 := if 2 ≤ ts.length then s3.coreOff c else s3
    s4.parkM c i trap
  else s2.modCore c fun k => k.modSlotG .m i fun z => { z with residue := st :: z.residue }

/-- A K-step's results, in which a fault stands in one group; none where the group fails a check of R105. -/
def State.faultyResults (s : State) (c : CoreId) (y : Slot) (w : W32) (t : LigTable) (sh : Shape) (f : GroupFault) :
    Option (List (Nat × List (Nat × Nat × FOut))) :=
  let cnt := countOf t.code
  let ps := (s.prodGroups c y w t sh y.step f.row (f.col / cnt)).getD (f.col % cnt) []
  (addGroupChecked (accCol ((s.core c).workRow (y.accWritten.getD 0) f.row) f.col) ps f).map fun o =>
    (s.kResults c y w t sh y.step).map fun (i, outs) =>
      (i, if i = f.row then outs.map fun (j, q, r) => (j, q, if j * cnt + q = f.col then o else r) else outs)

/-- The cycle of the K-step has begun: the product has run for the cycles of its earlier steps (R285). -/
def Slot.reachedStep (y : Slot) : Bool := decide (16 * y.owed ≤ y.ran)

/-- A K-step's results reach the working bank, or the first NaN that it produces parks the record (R95, R96). -/
def State.kStepped (s : State) (c : CoreId) (i : SlotId) (y : Slot) (sh : Shape) (t : LigTable) (rows : List (Nat × List (Nat × Nat × FOut))) :
    State :=
  let k := s.core c
  match (if nanOff (k.ctx teamCtx).fpx then none else firstNan rows) with
  | some (r, j) => s.parkM c i (y.trapAt .m causeNan y.step j r (y.accWritten.getD 0))
  | none =>
    let k1 := (k.putStep (y.accWritten.getD 0) (countOf t.code) rows).modSlotG .m i fun z =>
      { z with step := y.step + 1, flags := z.flags ||| stepFlags rows, resumed := false, owed := z.owed + sh.t / sh.nk }
    s.setCore c (k1.modGalley .m GalleyState.moved)

/-- `K_STEP`: one K-step's groups, with the residue of the group that a fault stands in (R105, R106); it takes T/nK cycles (R285). -/
def execKStep (c : CoreId) (fault : Option GroupFault) (s : State) : Out :=
  let k := s.core c
  match k.product? with
  | none => .next s
  | some (i, y) =>
    match y.fmt, y.lig, y.shape with
    | some w, some t, some sh =>
      if !k.grant || k.spacerFrom.isSome || decide (sh.nk ≤ y.step) || y.proofDue sh.nk s.now || !y.reachedStep then .next s
      else
        match (if y.resumed then k.stageLost y else none) with
        | some st => .next (s.replayLost c i st)
        | none =>
          match fault.filter fun f => f.row < sh.m && f.col < sh.n * countOf t.code with
          | none => .next (s.kStepped c i y sh t (s.kResults c y w t sh y.step))
          | some f =>
            match s.faultyResults c y w t sh f with
            | none => .next (s.residueFails c i y f.row f.col)
            | some rows => .next (s.kStepped c i y sh t rows)
    | _, _, _ => .next s

/-- `PROOF_STEP`: proof ← working, and the mark (R25); it takes the cycle after the K-step that it seals (R285). -/
def execProofStep (c : CoreId) (s : State) : Out :=
  let k := s.core c
  match k.product? with
  | none => .next s
  | some (i, y) =>
    match y.shape with
    | none => .next s
    | some sh =>
      if y.proofDue sh.nk s.now ∧ y.reachedStep then
        let a := y.accWritten.getD 0
        let k1 := ({ k with accP := bankCopy k.accP k.accW a } : Core).modSlotG .m i fun z =>
          { z with prog := BitVec.ofNat 32 z.step, sealedFlags := z.sealedFlags ||| z.flags, flags := 0, lastProof := s.now, owed := z.owed + 1 }
        .next (s.setCore c (k1.modGalley .m GalleyState.moved))
      else .next s

/-! ### Completion (R27) -/

/-- The record's signal counter is held (R418). -/
def State.signalHeld (s : State) (y : Slot) : Bool := y.body.sig.getLsbD 18 && s.ctrHeld (y.body.sig.setWidth 18)

/-- The completion step: flags reach FPX, the record is DONE, its signal is sent, with bit 63 for an error (R27, R31, R94). -/
def State.finish (s : State) (c : CoreId) (g : Galley) (i : SlotId) (err : Bool) : State :=
  let k := s.core c
  let y := k.slot g i.val
  let k1 := (k.modCtx teamCtx fun x => x.orFlags (y.sealedFlags ||| y.flags)).modSlotG g i fun z =>
    { z with st := .done, flags := 0, sealedFlags := 0, cause := none }
  let s1 := s.setCore c ((k1.modGalley g GalleyState.moved).setEvl evlDone)
  if y.body.sig.getLsbD 18 then s1.addCtr (y.body.sig.setWidth 18) (bitsN y.body.sig 20 12) err (some c) else s1

/-- A record that is not DONE or FREE stands before this one: completion steps come in galley order. -/
def Core.isOldest (k : Core) (g : Galley) (i : SlotId) : Bool :=
  match k.galley g |>.seqs.find? fun q => ((k.galley g).slot (slotOf q).val).isOpen with
  | some q => slotOf q == i
  | none => false

/-- Rotate the banks of an accumulator (R25). -/
def Core.rotate (k : Core) (a : Nat) : Core := { k with accV := bankCopy k.accV k.accW a, accW := bankCopy k.accW k.accV a }

/-- The completion step of an M record, after its work. -/
def State.finishM (s : State) (c : CoreId) (i : SlotId) : State :=
  let k := s.core c
  let y := k.slot .m i.val
  if !k.isOldest .m i then s
  else
    match k.stageLost y with
    | some st => s.replayLost c i st
    | none =>
      let k1 := match y.accWritten with
        | some a => k.rotate a
        | none => k
      let k2 := k1.modSlotG .m i fun z => if y.isMma then z else { z with prog := 1 }
      let k3 := if y.isMma then { k2 with spacerFrom := some s.now } else k2
      (s.setCore c k3).finish c .m i false

/-! ### Movers and LIG (R287, R288, R114) -/

/-- One step of an attempt is done. -/
def State.stepped (s : State) (c : CoreId) (i : SlotId) (fl : Flags) : State :=
  s.modCore c fun k =>
    (k.modSlotG .m i fun z => { z with step := z.step + 1, flags := z.flags ||| fl, resumed := false, held := [] }).modGalley .m GalleyState.moved

/-- A lane widened to FP32: FP32 and BF16 by their bits, which `AMOV` copies exactly, FP16 by its value (R287). -/
def widenLane (ty : VTy) (b : Nat) : Nat :=
  match ty with
  | .fp32 => b
  | .bf16 => b * 65536
  | .fp16 | .i8 | .i32 | .bp => (fp32.pack .rne ((fmtOf ty).value b)).1
/-- FP32 columns of an accumulator row from the lanes of tile rows, widened exactly (R287). -/
def widenRow (ty : VTy) (rows : List Row) : AccRow :=
  let lanes := rows.flatMap fun r => (List.range (lanesOf ty)).map fun i => laneOf r (laneBytes ty) i
  (lanes.map (widenLane ty)).zipIdx.foldl (fun r (b, i) => setAccCol r i b) 0
/-- An accumulator row rounded to a type, the default NaN for a NaN: its bytes and flags (R287). -/
def narrowRow (ty : VTy) (m : Rnd) (r : AccRow) : List Byte × Flags :=
  let outs := (List.range 64).map fun i => (fmtOf ty).pack m (fp32.value (accCol r i))
  (outs.flatMap fun o => bytesOfNat o.1 (laneBytes ty), outs.foldl (fun f o => f ||| o.2) 0)

/-- The container of a `TLD` row (R288): `words` words of each 32-byte block. -/
def contBytes (cont : Nat) (data : List Byte) : List Byte :=
  if cont = 2 then (List.range 8).flatMap fun b => (data.drop (32 * b)).take 16
  else if cont = 3 then (List.range 16).flatMap fun b => (data.drop (32 * b)).take 8
  else data
/-- 128-byte accesses of a `TLD` row. -/
def contRows (cont : Nat) : Nat := if cont = 2 then 2 else if cont = 3 then 4 else 1

/-- A read of several 128-byte accesses, and what is done with the bytes. -/
def State.readRow (s : State) (c : CoreId) (i : SlotId) (vas : List W64) (go : State → List Byte → State) : State :=
  match s.engineChecks c .m i .read (vas.map fun va => (va, 128)) with
  | .hold s1 => s1
  | .park t => s.park c .m i t
  | .ok pas => go (s.readAll (pas.map fun pa => (pa, 128))) (pas.flatMap fun pa => s.readBytes pa 128)

/-- One write of 128 bytes at a virtual address. -/
def State.writeRow (s : State) (c : CoreId) (i : SlotId) (va : W64) (data : List Byte) (fl : Flags) : State :=
  match s.engineCheck c .m i .write va 128 with
  | .hold s1 => s1
  | .park t => s.park c .m i t
  | .ok pa _ => s.engineStore c .m pa data 128 fun s1 => s1.stepped c i fl

/-- The next row of `ALD`, `TLD` and `TST`, the next 128 bytes of `AST`; with all done, the completion step. A row of 256 bytes of `AST.fp32`
is one access of the engine in R289 and two accesses of 128 bytes in R461: that it is two, each checked and charged alone, so that the first
half is written before the second is checked, is the model's choice (log entry 92). -/
def State.moverStep (s : State) (c : CoreId) (i : SlotId) (y : Slot) (m : MvForm) : State :=
  let k := s.core c
  let j := y.step
  let a := y.body.o0
  let b := y.body.o1
  let addr := rowAddr a b
  let acc := m.d.toNat % 8
  if y.op = 0xF4 then
    (if m.n ≤ j then s.finishM c i
     else s.readRow c i [addr j, addr j + 128] fun s0 data =>
       (s0.modCore c fun k' => k'.setWorkRow acc (m.drow.toNat + j) (accOfBytes data)).stepped c i 0)
  else if y.op = 0xF5 then
    let per := if m.ty = .fp32 then 2 else 1
    (if per * m.n ≤ j then s.finishM c i
     else
       let (bytes, fl) := narrowRow m.ty (Rnd.ofCode m.mode) (k.accRow acc (m.srow.toNat + j / per))
       s.writeRow c i (addr (j / per) + BitVec.ofNat 64 (128 * (j % per))) ((bytes.drop (128 * (j % per))).take 128) fl)
  else if y.op = 0xF6 then
    (if m.n ≤ j then s.finishM c i
     else
       let put := fun (s0 : State) (r : Row) => (s0.modCore c fun k' => k'.setTile m.d.toNat (m.drow.toNat + j) r).stepped c i 0
       if m.pair then put s (rowOf (s.readBytes (k.scratchPa c ((pairOf a b).row j)) 128))
       else
         let n := contRows m.mode.toNat
         s.readRow c i ((List.range n).map fun q => addr j + BitVec.ofNat 64 (128 * q)) fun s0 data =>
           put s0 (rowOf (contBytes m.mode.toNat data)))
  else
    (if m.n ≤ j then s.finishM c i
     else
       let data := rowBytes (k.tile m.d.toNat (m.srow.toNat + j))
       if m.pair then
         s.engineStore c .m (k.scratchPa c ((pairOf a b).row j)) data 128 fun s1 => s1.stepped c i 0
       else s.writeRow c i (addr j) data 0)

/-- `AMOV`, `AMOV.t`, `AZERO`: the working rows, then the completion step. -/
def Core.accMove (k : Core) (y : Slot) (m : MvForm) : Core :=
  let d := m.d.toNat % 8
  if y.op = 0xF3 then { k with accW := bankZero k.accW d }
  else if (fOf y.body.w0).toNat = 0 then { k with accW := FMap.setMany k.accW 0 (d * 64) (FMap.getMany k.accV 0 (m.a.toNat % 8 * 64) 64) }
  else
    (List.range m.n).foldl (fun k' j =>
      let rows := if m.ty = .fp32 then [m.srow.toNat + 2 * j, m.srow.toNat + 2 * j + 1] else [m.srow.toNat + j]
      k'.setWorkRow d (m.drow.toNat + j) (widenRow m.ty (rows.map (k'.tile m.a.toNat)))) k

/-- `LIG` reads and checks the image, then writes the slot in its completion step. -/
def State.ligStep (s : State) (c : CoreId) (i : SlotId) (y : Slot) : State :=
  let code : BitVec 2 := y.body.w1.setWidth 2
  let cnt := countOf code
  let va := y.body.o0
  match s.engineChecks c .m i .read (pieces va (cnt * cnt + 2)) with
  | .hold s1 => s1
  | .park t => s.park c .m i t
  | .ok pas =>
    let runs := (pas.zip (pieces va (cnt * cnt + 2))).map fun (pa, _, n) => (pa, n)
    let image := s.readRuns runs
    let s := s.readAll runs
    if ligValid cnt image then
      let t : LigTable := ⟨code, image.take (cnt * cnt), image.getD (cnt * cnt) 0, image.getD (cnt * cnt + 1) 0⟩
      if (s.core c).isOldest .m i then
        (s.modCore c fun k => { k with ligTab := FMap.set k.ligTab ligReal (bitsN y.body.w0 8 3) t }).finishM c i
      else s
    else s.park c .m i (y.trap .m causeIllegal va)

/-- What remains of an ISSUED M record: a product waits for its K-steps and proof steps, and completes on the cycle after the last of them
(R285). -/
def State.completeM (s : State) (c : CoreId) (i : SlotId) (y : Slot) : State :=
  let k := s.core c
  match (if y.resumed then k.stageLost y else none) with
  | some st => s.replayLost c i st
  | none =>
    if y.isMma then
      match y.shape with
      | some sh => if y.step = sh.nk ∧ !y.proofDue sh.nk s.now ∧ y.reachedStep then s.finishM c i else s
      | none => s
    else if y.isLig then s.ligStep c i y
    else
      match y.mvForm with
      | none => s
      | some m =>
        if y.op = 0xF2 ∨ y.op = 0xF3 then (if k.isOldest .m i then (s.setCore c (k.accMove y m)).finishM c i else s)
        else s.moverStep c i y m

end Sys2Proof.Machine
end

