-- ==== Sys2Proof/Machine/Copy.lean ====
section
/-! DEFINITION. The copy engine (11 R299-R304), `STG.REL` (11 R296), and the copy commands of DATA packets (17 R376). -/
namespace Sys2Proof.Machine

/-! ### Commands (R299, R300) -/

/-- A copy command: its primary, its four operand values, its second word. -/
structure CopyCmd where
  op : Nat
  d : W64
  a : W64
  b : W64
  f : W64
  w1 : W32
deriving DecidableEq, Repr

def Slot.copy (y : Slot) : CopyCmd := ⟨y.op, y.body.o0, y.body.o1, y.body.o2, y.body.o3, y.body.w1⟩

def CopyCmd.is2 (c : CopyCmd) : Bool := c.op == 0xE9 || c.op == 0xEA
def CopyCmd.isIndexed (c : CopyCmd) : Bool := c.op == 0xEB || c.op == 0xEC
def CopyCmd.isFill (c : CopyCmd) : Bool := c.op == 0xED || c.op == 0xEE
/-- Dimensions. -/
def CopyCmd.planes (c : CopyCmd) : Nat := bitsN c.b 48 16 + 1
def CopyCmd.rows (c : CopyCmd) : Nat := bitsN c.b 32 16 + 1
def CopyCmd.rowBytes (c : CopyCmd) : Nat := bitsN c.b 0 32
/-- A signed field. -/
def signedField (v : W64) (lo len : Nat) : Int := signedBits (bitsN v lo len) len
where
  /-- An unsigned number of `len` bits as two's complement. -/
  signedBits (n len : Nat) : Int := if 2 ^ (len - 1) ≤ n then (n : Int) - (2 ^ len : Nat) else n
def CopyCmd.dstStride (c : CopyCmd) : Int := signedField c.f 32 32
def CopyCmd.srcStride (c : CopyCmd) : Int := signedField c.f 0 32
def CopyCmd.dstPlane (c : CopyCmd) : Int := if c.op = 0xEA then signedField (c.w1.setWidth 64) 16 16 * 4096 else 0
def CopyCmd.srcPlane (c : CopyCmd) : Int := if c.op = 0xEA then signedField (c.w1.setWidth 64) 0 16 * 4096 else 0
/-- Count and element size. -/
def CopyCmd.count (c : CopyCmd) : Nat := bitsN c.f 32 32
def CopyCmd.elem (c : CopyCmd) : Nat := bitsN c.f 0 32
/-- Bytes of an index. -/
def CopyCmd.ixBytes (c : CopyCmd) : Nat := if c.w1.getLsbD 0 then 8 else 4

/-- The length of the byte sequence (R300). -/
def CopyCmd.total (c : CopyCmd) : Nat :=
  if c.is2 then c.planes * c.rows * c.rowBytes
  else if c.isIndexed then c.count * c.elem
  else c.b.toNat

/-- base + p × plane stride + r × row stride + x. -/
def gridAddr (base : W64) (plane row : Int) (c : CopyCmd) (n : Nat) : W64 :=
  let rb := c.rowBytes
  base + BitVec.ofInt 64 ((n / (rb * c.rows) : Nat) * plane + (n / rb % c.rows : Nat) * row + (n % rb : Nat))
/-- The destination of byte `n` of the sequence, given the index of its element. -/
def CopyCmd.dst (c : CopyCmd) (ix : Nat → Nat) (n : Nat) : W64 :=
  if c.is2 then gridAddr c.d c.dstPlane c.dstStride c n
  else if c.op = 0xEC then c.d + BitVec.ofNat 64 (ix (n / c.elem) * c.elem + n % c.elem)
  else c.d + BitVec.ofNat 64 n
def CopyCmd.src (c : CopyCmd) (ix : Nat → Nat) (n : Nat) : W64 :=
  if c.is2 then gridAddr c.a c.srcPlane c.srcStride c n
  else if c.op = 0xEB then c.a + BitVec.ofNat 64 (ix (n / c.elem) * c.elem + n % c.elem)
  else c.a + BitVec.ofNat 64 n

/-! ### Spans (R301) -/

/-- An interval of addresses, its end excluded. -/
structure Span where
  lo : Int
  hi : Int
deriving DecidableEq, Repr
def Span.meets (a b : Span) : Bool := decide (a.lo < b.hi) && decide (b.lo < a.hi) && decide (a.lo < a.hi) && decide (b.lo < b.hi)
def lineSpan (base : W64) (n : Nat) : Span := ⟨base.toNat, base.toNat + n⟩
def gridSpan (base : W64) (plane row : Int) (c : CopyCmd) : Span :=
  let p := ((c.planes : Int) - 1) * plane
  let r := ((c.rows : Int) - 1) * row
  ⟨base.toNat + min 0 p + min 0 r, base.toNat + max 0 p + max 0 r + c.rowBytes⟩
def CopyCmd.dstSpan (c : CopyCmd) : Span := if c.is2 then gridSpan c.d c.dstPlane c.dstStride c else lineSpan c.d c.total
def CopyCmd.srcSpan (c : CopyCmd) : Span := if c.is2 then gridSpan c.a c.srcPlane c.srcStride c else lineSpan c.a c.total
def CopyCmd.ixSpan (c : CopyCmd) : Span := lineSpan c.b (c.count * c.ixBytes)

/-- Steps 2 to 4 of R301. A COUNT of 0 lies outside R299's range and is ILLEGAL by step 2; R300's count of 0 that accesses nothing is no such
case (DEDUCED, log entry 77). -/
def CopyCmd.check (c : CopyCmd) (pc : W64) : Option Trap :=
  let ill := some (Trap.plain causeIllegal pc)
  if c.is2 && (c.rowBytes == 0 || decide (2 ^ 24 < c.rowBytes) || (c.op == 0xE9 && c.planes != 1)) then ill
  else if c.isIndexed && (c.count == 0 || decide (2 ^ 24 < c.count) || c.elem == 0 || decide (65536 < c.elem)) then ill
  else if !c.is2 && !c.isIndexed && decide (2 ^ 36 < c.b.toNat) then ill
  else if c.isIndexed && c.b.toNat % c.ixBytes != 0 then some (.plain causeAlign c.b)
  else if (c.op == 0xE8 || c.is2) && c.dstSpan.meets c.srcSpan then ill
  else if c.op == 0xEB && c.dstSpan.meets c.ixSpan then ill
  else none

/-! ### Appends -/

/-- A copy command of the X galley. -/
def State.copy (s : State) (w0 w1 : W32) (d a b f : W64) : State :=
  s.engine (fun _ =>
    match (CopyCmd.mk (bitsN w0 0 8) d a b f w1).check s.cx.pc with
    | some t => .error t
    | none => .ok { g := .x, w0 := w0, w1 := w1, o0 := d, o1 := a, o2 := b, o3 := f }) id

def execCpy (d a b : Reg) (s : State) : Out := .next (s.copy (packD 0 b a d 0xE8) 0 (s.reg d) (s.reg a) (s.reg b) 0)
def execCpy2d (d a b f : Reg) (s : State) : Out :=
  .next (s.copy (packD f b a d 0xE9) 0 (s.reg d) (s.reg a) (s.reg b) (s.reg f))
def execCpy3d (d a b f : Reg) (dps sps : BitVec 16) (s : State) : Out :=
  .next (s.copy (packD f b a d 0xEA) (dps ++ sps) (s.reg d) (s.reg a) (s.reg b) (s.reg f))
def execGath (ix64 : Bool) (d a b f : Reg) (s : State) : Out :=
  .next (s.copy (packD f b a d 0xEB) ((0 : BitVec 31) ++ BitVec.ofBool ix64) (s.reg d) (s.reg a) (s.reg b) (s.reg f))
def execScat (ix64 : Bool) (d a b f : Reg) (s : State) : Out :=
  .next (s.copy (packD f b a d 0xEC) ((0 : BitVec 31) ++ BitVec.ofBool ix64) (s.reg d) (s.reg a) (s.reg b) (s.reg f))
def execFill (d b f : Reg) (s : State) : Out := .next (s.copy (packD f b 0 d 0xED) 0 (s.reg d) 0 (s.reg b) (s.reg f))
def execZero (d b : Reg) (s : State) : Out := .next (s.copy (packD 0 b 0 d 0xEE) 0 (s.reg d) 0 (s.reg b) 0)

/-- The new generation lies 32,768 or more past that of an M record in the galley (R296). -/
def Core.wrapGuard (k : Core) (gen : W16) : Bool :=
  k.galM.entries.any fun (_, y) => y.st != .free && !y.isMarker && decide (32768 ≤ (gen - (y.body.sched >>> 16).setWidth 16).toNat)

/-- `STG.REL` (R296). -/
def execStgRel (ra rb : Reg) (s : State) : Out :=
  let a := s.reg ra
  let b := s.reg rb
  let k := s.cc
  let win := k.windowBytes
  .next (
    if s.cur.ctx ≠ teamCtx then s.illegal
    else if a.toNat % 0x1_0000 ≠ 0 then s.trapHere causeAlign a
    else if b.toNat % 0x1_0000 ≠ 0 ∨ b = 0 then s.trapHere causeAlign b
    else if win < a.toNat + b.toNat then s.trapHere causeProt (BitVec.ofNat 64 (max a.toNat win))
    else
      let cmd : Command := { g := .x, w0 := packD 0 rb ra 0 0xEF, w1 := 0, o0 := a, o1 := b, o2 := 0, o3 := 0 }
      match k.replayedSeq .x with
      | some _ => s.append cmd none k.sgen id
      | none =>
        let gen := k.sgen + 1
        let k1 := k.retire .m
        if k1.wrapGuard gen then (s.setCore s.cur.core k1).hold .stgRel k.waitMax
        else s.append cmd none gen fun k' => { k' with sgen := gen })

/-! ### Where a copy command runs -/

/-- A command of the X galley, or of a DATA packet. -/
inductive CopyAt where
  | galley (i : SlotId)
  | packet
deriving DecidableEq, Repr

def Core.copySlot (k : Core) : CopyAt → Option Slot
  | .galley i => some (k.slot .x i.val)
  | .packet => k.packet.map Packet.slot
def Core.modCopy (k : Core) (x : CopyAt) (f : Slot → Slot) : Core :=
  match x with
  | .galley i => (k.modSlotG .x i f).modGalley .x GalleyState.moved
  | .packet => { k with packet := k.packet.map fun p => { p with slot := f p.slot } }

/-- One access of a DATA packet's command: in its job, with the user's rights (R376). -/
def State.packetAt (s : State) (c : CoreId) (p : Packet) (a : Access) (va : W64) (n : Nat) : EngineAccess :=
  let y := p.slot
  match s.translateEngine ((s.core c).tlb (if p.collective then .k else .x)) y.held p.job false a va with
  | .trap code => .park (y.trap .x code va)
  | .miss => .hold (s.askWalk c .packet p.job false va)
  | .ok pa e =>
    if s.hostMissing (s.jobFunc p.job) pa then
      let use := PriUse.packet c
      .hold (if s.pri.any fun r => r.use == use then s
        else { s with pri := s.pri ++ [⟨pa, va, use⟩], outbox := s.outbox ++ [.pageRequest pa] })
    else
      match s.outAt pa n with
      | some j => .park (y.trap .x causeProt (va + BitVec.ofNat 64 j))
      | none => .ok pa e
def State.packetCheck (s : State) (c : CoreId) (p : Packet) (a : Access) (va : W64) (n : Nat) : EngineAccess :=
  match s.packetAt c p a va n with
  | .ok pa e =>
    (match a, s.badAt pa n with
     | .read, some b => .park (p.slot.trapPhys .x va b)
     | _, _ => .ok pa e)
  | r => r

def State.copyCheck (s : State) (c : CoreId) (x : CopyAt) (a : Access) (va : W64) (n : Nat) : EngineAccess :=
  match x with
  | .galley i => s.engineCheck c .x i a va n
  | .packet =>
    match (s.core c).packet with
    | some p => s.packetCheck c p a va n
    | none => .hold s

/-- The write budget of a packet (R71, R375): its windows as they pass. -/
def Packet.rolled (p : Packet) (now : Nat) : Packet :=
  { p with used := p.used - (now / 4096 - p.window) * p.wbud.toNat, window := max p.window (now / 4096) }

/-- Budget and pins let a unit of writes through; the state with the charge made (R71, R295). -/
def State.copyMayWrite (s : State) (c : CoreId) (x : CopyAt) (charge : Nat) (runs : List (Nat × Nat)) : Option State :=
  if runs.any fun r => s.pinned r.1 r.2 then none
  else
    match x with
    | .galley _ =>
      let s0 := s.modCore c fun k => k.rollWindow s.now
      if (s0.core c).laneOpen || runs.isEmpty then some (s0.modCore c fun k => k.charge charge) else none
    | .packet =>
      match (s.core c).packet with
      | some p =>
        let q := p.rolled s.now
        if q.used < q.wbud.toNat ∨ runs = [] then some (s.modCore c fun k => { k with packet := some { q with used := q.used + charge } })
        else none
      | none => none

def State.copyPark (s : State) (c : CoreId) (x : CopyAt) (t : Trap) : State :=
  match x with
  | .galley i => s.park c .x i t
  | .packet => (s.noteRead t).modCore c fun k => k.modCopy .packet fun y => y.parked t
def State.copyHolds (s : State) (c : CoreId) (x : CopyAt) (w : EngineHold) : State :=
  match x with
  | .galley _ => s.engineHolds c .x w
  | .packet => s

/-! ### One unit (R300, R302, R303) -/

/-- Put one more byte to a list of runs that do not cross a page of 64 KiB; the newest run stands first. -/
def addRun (va : W64) : List (W64 × Nat) → List (W64 × Nat)
  | [] => [(va, 1)]
  | (v, n) :: rest =>
    if v + BitVec.ofNat 64 n = va ∧ va.toNat % 0x1_0000 ≠ 0 then (v, n + 1) :: rest else (va, 1) :: (v, n) :: rest
/-- The runs of addresses `at_ first … at_ (first + len − 1)`, in order. -/
def runsOf (at_ : Nat → W64) (first len : Nat) : List (W64 × Nat) :=
  ((List.range len).foldl (fun acc i => addRun (at_ (first + i)) acc) []).reverse

/-- The accesses of a list of runs: their physical runs, or the first that holds or fails. -/
inductive CopyRuns where
  | ok (runs : List (Nat × Nat))
  | hold (s : State)
  | park (t : Trap)
def State.copyRuns (s : State) (c : CoreId) (x : CopyAt) (a : Access) : List (W64 × Nat) → CopyRuns
  | [] => .ok []
  | (va, n) :: rest =>
    match s.copyCheck c x a va n with
    | .hold s1 => .hold s1
    | .park t => .park t
    | .ok pa _ =>
      match State.copyRuns s c x a rest with
      | .ok runs => .ok ((pa, n) :: runs)
      | .hold s1 => .hold s1
      | .park t => .park t

/-- Elements of an indexed command that bytes `first … first + len − 1` belong to. -/
def CopyCmd.elems (cmd : CopyCmd) (first len : Nat) : List Nat :=
  if len = 0 ∨ cmd.elem = 0 then [] else (List.range ((first + len - 1) / cmd.elem - first / cmd.elem + 1)).map fun i => first / cmd.elem + i

/-- The indices of a unit's elements, read from the array. -/
def State.copyIndices (s : State) (c : CoreId) (x : CopyAt) (cmd : CopyCmd) (els : List Nat) : CopyRuns × (Nat → Nat) :=
  match s.copyRuns c x .read (els.map fun i => (cmd.b + BitVec.ofNat 64 (i * cmd.ixBytes), cmd.ixBytes)) with
  | .ok runs =>
    let vals := (els.zip runs).map fun (i, pa, n) => (i, s.readNat pa n)
    (.ok runs, fun i => match vals.find? fun e => e.1 == i with
      | some e => e.2
      | none => 0)
  | r => (r, fun _ => 0)

/-- An element of `SCAT` that meets its source or index span, or of `GATH` that meets its destination span (R302). -/
def CopyCmd.elemBad (cmd : CopyCmd) (ix : Nat → Nat) (i : Nat) : Bool :=
  if cmd.op = 0xEC then
    let e := lineSpan (cmd.d + BitVec.ofNat 64 (ix i * cmd.elem)) cmd.elem
    e.meets cmd.srcSpan || e.meets cmd.ixSpan
  else if cmd.op = 0xEB then (lineSpan (cmd.a + BitVec.ofNat 64 (ix i * cmd.elem)) cmd.elem).meets cmd.dstSpan
  else false

/-- The byte that a fill writes at an address (R303). -/
def CopyCmd.fillByte (cmd : CopyCmd) (va : W64) : Byte :=
  if cmd.op = 0xED then BitVec.ofNat 8 (bitsN cmd.f (8 * (va.toNat % 8)) 8) else 0
def CopyCmd.zeroFill (cmd : CopyCmd) : Bool := cmd.op == 0xEE || (cmd.op == 0xED && cmd.f == 0)

/-- A whole aligned line of a zero fill (R66, R303): the line of an address lies in the destination. -/
def CopyCmd.wholeLine (cmd : CopyCmd) (va : W64) : Bool :=
  let l := va.toNat / 128 * 128
  cmd.zeroFill && decide (cmd.d.toNat ≤ l) && decide (l + 128 ≤ cmd.d.toNat + cmd.total)
/-- The charge of a byte: 8 for a whole HBM line, at its first byte; else 1 (R71, R303). -/
def CopyCmd.byteCharge (cmd : CopyCmd) (hbm : Bool) (va : W64) : Nat :=
  if hbm && cmd.wholeLine va then (if va.toNat % 128 = 0 then 8 else 0) else 1

/-- Write runs, each with its bytes, and the lines that are whole zero lines now. -/
def State.putRuns (s : State) (cmd : CopyCmd) (runs : List ((W64 × Nat) × (Nat × Nat))) (data : List Byte) : State :=
  match runs with
  | [] => s
  | ((va, _), (pa, n)) :: rest =>
    let s1 := (s.writeBytes pa (data.take n)).writtenLines pa n false
    let whole := (linesOf pa n).filter fun l => isHbm (l * 128) && cmd.wholeLine (va + BitVec.ofNat 64 (l * 128 - pa)) &&
      decide (l * 128 + 128 ≤ pa + n)
    State.putRuns (whole.foldl (fun s' l => s'.fillL2 l ⟨true, true, false⟩) s1) cmd rest (data.drop n)

/-- The X record that works, else the packet's command. -/
def Core.copyAt (k : Core) : Option (CopyAt × Slot) :=
  if k.galX.stalled then none else
  match k.galX.seqs.find? fun q => (k.galX.slot (slotOf q).val).st == .issued with
  | some q => some (.galley (slotOf q), k.galX.slot (slotOf q).val)
  | none =>
    match k.packet with
    | some p => if p.collective || p.slot.st != .issued then none else some (.packet, p.slot)
    | none => none

/-- A turn of the engine's read-ahead (R300, R359): unit `n` after the next to commit, one of the 64 whose reads are in flight, is read now,
once, if nothing holds its reads; a fault or an error waits for the unit's own turn. -/
def State.copyRead (s : State) (c : CoreId) (n : Nat) : State :=
  match (s.core c).copyAt with
  | none => s
  | some (x, y) =>
    let cmd := y.copy
    let u := y.prog.toNat + n
    let len := min 128 (cmd.total - u * 128)
    let els := if cmd.isIndexed then cmd.elems (u * 128) len else []
    if 64 ≤ n ∨ len = 0 ∨ cmd.isFill ∨ y.op = 0xEF ∨ (FMap.at? y.early u).isSome then s
    else
      match s.copyIndices c x cmd els with
      | (.ok ixRuns, ix) =>
        (match els.any (cmd.elemBad ix), s.copyRuns c x .read (runsOf (cmd.src ix) (u * 128) len) with
         | false, .ok reads =>
           (s.readAll (ixRuns ++ reads)).modCore c fun k => k.modCopy x fun z => { z with early := FMap.insert z.early u (s.readRuns reads) }
         | _, _ => s)
      | _ => s

/-- One unit: its indices, its reads, unless they were made ahead, its writes and its mark commit together. -/
def State.copyUnit (s : State) (c : CoreId) (x : CopyAt) (y : Slot) : State :=
  let cmd := y.copy
  let first := y.prog.toNat * 128
  let len := min 128 (cmd.total - first)
  let els := if cmd.isIndexed then cmd.elems first len else []
  let early := FMap.at? y.early y.prog.toNat
  match s.copyIndices c x cmd els with
  | (.hold s1, _) => s1
  | (.park t, _) => s.copyPark c x t
  | (.ok ixRuns, ix) =>
    if els.any (cmd.elemBad ix) then s.copyPark c x (y.trap .x causeIllegal 0)
    else
      match s.copyRuns c x .read (if cmd.isFill || early.isSome then [] else runsOf (cmd.src ix) first len) with
      | .hold s1 => s1
      | .park t => s.copyPark c x t
      | .ok reads =>
        let vruns := runsOf (cmd.dst ix) first len
        match s.copyRuns c x .write vruns with
        | .hold s1 => s1
        | .park t => s.copyPark c x t
        | .ok writes =>
          let data := if cmd.isFill then (List.range len).map fun i => cmd.fillByte (cmd.dst ix (first + i)) else early.getD (s.readRuns reads)
          let charge := (vruns.zip writes).foldl (fun acc (v, p) =>
            acc + (List.range v.2).foldl (fun q i => q + cmd.byteCharge (isHbm p.1) (v.1 + BitVec.ofNat 64 i)) 0) 0
          match s.copyMayWrite c x charge writes with
          | none => s.copyHolds c x (match writes.find? fun r => s.pinned r.1 r.2 with
              | some r => .pin r.1 r.2
              | none => .budget)
          | some s1 =>
            ((s1.readAll (ixRuns ++ reads)).putRuns cmd (vruns.zip writes) data).modCore c fun k => k.modCopy x fun z =>
              { z with prog := z.prog + 1, step := z.step + 1, markSeq := z.seq, markValid := true, held := [], early := FMap.erase z.early y.prog.toNat }

/-- The stages of `STG.REL` lose their pins and take the captured generation (R296). -/
def Core.releaseStages (k : Core) (y : Slot) : Core :=
  let gen : W16 := (y.body.sched >>> 16).setWidth 16
  let stages := (List.range (y.body.o1.toNat / 0x1_0000)).map fun i => y.body.o0.toNat / 0x1_0000 + i
  { k with pins := stages.foldl (fun p st => FMap.set p false st false) k.pins
           release := stages.foldl (fun r st => FMap.set r 0 st gen) k.release }

/-- The units of an X record. -/
def Slot.copyUnits (y : Slot) : Nat := if y.op = 0xEF then 1 else ceilDiv y.copy.total 128

/-- `COPY_UNIT_COMMIT`. -/
def execCopyUnitCommit (c : CoreId) (s : State) : Out :=
  match (s.core c).copyAt with
  | none => .next s
  | some (x, y) =>
    if y.copyUnits ≤ y.prog.toNat then .next s
    else if y.op = 0xEF then
      .next (s.modCore c fun k => (k.releaseStages y).modCopy x fun z => { z with prog := 1, step := 1, markSeq := z.seq, markValid := true })
    else .next (s.copyUnit c x y)

end Sys2Proof.Machine
end

