-- ==== Sys2Proof/Machine/Collective.lean ====
section
/-! DEFINITION. The collective engine and the hub switch (11 R305-R312, 14 R341): registration, joins, folds and verdicts. -/
namespace Sys2Proof.Machine

/-! ### Appends (R305, R307) -/

/-- A group number within the job's grant (R305). -/
def State.ownsGroup (s : State) (job : BitVec 24) (n : W64) : Bool :=
  decide (n.toNat < 1024) && FMap.get s.groupGrant 0 n.toNat == job && job != 0

/-- A K command names a group of the job's grant. -/
def State.collective (s : State) (group : W64) (also : Option Trap) (w0 : W32) (a b : W64) : State :=
  s.engine (fun k =>
    if !s.ownsGroup k.job group then .error (.plain causeProt group)
    else
      match also with
      | some t => .error t
      | none => .ok { g := .k, w0 := w0, w1 := 0, o0 := a, o1 := b, o2 := 0, o3 := 0 }) id

def execAgrp (a b : Reg) (s : State) : Out :=
  .next (s.collective (s.reg b) (if (s.reg a).toNat % 64 ≠ 0 then some (.plain causeAlign (s.reg a)) else none)
    (packD 0 b a 0 0xFA) (s.reg a) (s.reg b))
def execMclr (a : Reg) (s : State) : Out := .next (s.collective (s.reg a) none (packD 0 0 a 0 0xFB) (s.reg a) 0)
def execMcst (a b : Reg) (s : State) : Out := .next (s.collective (s.reg a) none (packD 0 b a 0 0xFC) (s.reg a) (s.reg b))

/-! ### Descriptors (R306) -/

/-- A field of a descriptor, little-endian. -/
def descField (d : List Byte) (off n : Nat) : Nat := natOfBytes ((d.drop off).take n)
def descZero (d : List Byte) (off n : Nat) : Bool := ((d.drop off).take n).all fun b => b == 0

structure MemberDesc where
  pkg : W16
  core : Nat
  src : W64
  dst : W64
deriving DecidableEq, Repr
def memberDesc (d : List Byte) (m : Nat) : MemberDesc :=
  let o := 64 + 32 * m
  ⟨BitVec.ofNat 16 (descField d o 2), descField d (o + 2) 1, BitVec.ofNat 64 (descField d (o + 8) 8), BitVec.ofNat 64 (descField d (o + 16) 8)⟩

/-- The header's MEMBERS, where it lies in range. -/
def descMembers (d : List Byte) : Option Nat :=
  let n := descField d 0 2
  if 2 ≤ n ∧ n ≤ 256 then some n else none

/-- Reserved fields are zero and fields lie in range. -/
def descOk (d : List Byte) (members : Nat) : Bool :=
  decide (descField d 2 1 < 3) && decide (descField d 3 1 < 3) && decide (descField d 4 1 < 3) && decide (descField d 5 1 < 2) &&
  descZero d 6 2 && decide (1 ≤ descField d 8 4) && decide (descField d 8 4 ≤ 2 ^ 24) && decide (1 ≤ descField d 12 4) &&
  decide (descField d 12 4 ≤ 1000000) && descZero d 16 48 &&
  (List.range members).all fun m => descZero d (64 + 32 * m + 3) 5 && descZero d (64 + 32 * m + 24) 8

/-- The member that a core of this package is; none unless it appears exactly once. -/
def ownMember (s : State) (c : CoreId) (d : List Byte) (members : Nat) : Option Nat :=
  match (List.range members).filter fun m => (memberDesc d m).pkg == s.fabricId && (memberDesc d m).core == c.val with
  | [m] => some m
  | _ => none

/-- Bytes of a type code of a descriptor: FP32, BF16, FP16. -/
def codeBytes (t : Nat) : Nat := if t = 0 then 4 else 2
def codeFmt (t : Nat) : FFmt := if t = 0 then fp32 else if t = 1 then bf16 else fp16

/-! ### Registration (R307) -/

/-- What the translation of a buffer finds: its physical runs, what its engine's access finds instead, or PROT of an address. -/
inductive BufferCheck where
  | ok (runs : List (Nat × Nat))
  | prot (va : W64)
  | stop (e : EngineAccess)

/-- Every page of a range: present, permitted, pinned (R307 step 2), each through the stream TLB of the engine (R80, R81). -/
def State.bufferRuns (s : State) (at_ : W64 → EngineAccess) (va : W64) (n : Nat) : Nat → BufferCheck
  | 0 => .prot va
  | fuel + 1 =>
    if n = 0 then .ok []
    else
      match at_ va with
      | .ok pa e =>
        let len := min n (e.va + e.size - va56 va)
        if !e.pn || !s.reaches pa len then .prot va
        else
          (match State.bufferRuns s at_ (va + BitVec.ofNat 64 len) (n - len) fuel with
           | .ok runs => .ok ((pa, len) :: runs)
           | r => r)
      | r => .stop r

/-- How an `AGRP` goes on. -/
inductive AgrpEnd where
  | accepted (s : State)
  | refused
  | trap (code : BitVec 8) (addr : W64)
  | stop (e : EngineAccess)
  | wait

/-- The home's treatment of a registration: accepted with its descriptor, or refused; kept verdicts stay. -/
def Group.register (g : Group) (d : List Byte) (members idx : Nat) (m : Member) : Option Group :=
  let crc := crc32c d
  let put := fun (h : Group) => { h with
    crc := crc, members := members, itype := BitVec.ofNat 8 (descField d 2 1), otype := BitVec.ofNat 8 (descField d 3 1)
    op := BitVec.ofNat 8 (descField d 4 1), quiet := descField d 5 1 == 1, count := descField d 8 4
    timeout := descField d 12 4, places := (List.range members).map fun i => ((memberDesc d i).pkg, (memberDesc d i).core)
    regs := FMap.set h.regs none idx (some m) }
  if g.regs.isEmpty then some (put { g with rounds := 0, base := g.base + g.rounds, opened := none })
  else if g.crc = crc then some (put g)
  else if g.opened.isNone && g.regs.any (fun (_, r) => r.any fun y => y.core == m.core) then
    some (put { g with regs := [], rounds := 0, base := g.base + g.rounds })
  else none

/-- Steps 1 to 3 of `AGRP` on a descriptor that has been read, for core `c`. A home in another package answers from outside
this model. -/
def State.agrpRegister (s : State) (c : CoreId) (grp : BitVec 10) (addr : W64) (d : List Byte) (at_ : Access → W64 → EngineAccess) :
    AgrpEnd :=
  match descMembers d with
  | none => .trap causeIllegal addr
  | some n =>
    match descOk d n, ownMember s c d n with
    | true, some idx =>
      let me := memberDesc d idx
      let count := descField d 8 4
      match s.bufferRuns (at_ .read) me.src (count * codeBytes (descField d 2 1)) 1100 with
      | .prot va => .trap causeProt va
      | .stop e => .stop e
      | .ok src =>
        match s.bufferRuns (at_ .write) me.dst (count * codeBytes (descField d 3 1)) 1100 with
        | .prot va => .trap causeProt va
        | .stop e => .stop e
        | .ok dst =>
          if (memberDesc d 0).pkg ≠ s.fabricId then .wait else
          match (s.group grp).register d n idx ⟨c, me.src, src, dst⟩ with
          | some g =>
            .accepted ((s.setGroup grp g).modCore c fun k => { k with rounds := FMap.set k.rounds 0 grp.toNat g.rounds })
          | none => .refused
    | _, _ => .trap causeIllegal addr

/-- The ISSUED record of the K galley. -/
def Core.collective? (k : Core) : Option (SlotId × Slot) :=
  if k.galK.stalled then none
  else (k.galK.seqs.find? fun q => (k.galK.slot (slotOf q).val).st == .issued).map fun q => (slotOf q, k.galK.slot (slotOf q).val)

/-- The bytes of a descriptor, first its header, then the rest. -/
def State.readDesc (s : State) (check : W64 → Nat → EngineAccess) (addr : W64) (n : Nat) : EngineChecks × List Byte :=
  match pieces addr n with
  | [] => (.ok [], [])
  | ps =>
    ps.foldl (fun (acc : EngineChecks × List Byte) p =>
      match acc.1 with
      | .ok pas =>
        (match check p.1 p.2 with
         | .ok pa _ => (.ok (pas ++ [pa]), acc.2 ++ s.readBytes pa p.2)
         | .hold s1 => (.hold s1, [])
         | .park t => (.park t, []))
      | _ => acc) (.ok [], [])

/-- One progress unit of `AGRP` on a core's K engine (R307). -/
def State.agrpUnit (s : State) (c : CoreId) (grp : W64) (addr : W64) (check : W64 → Nat → EngineAccess) (at_ : Access → W64 → EngineAccess) :
    AgrpEnd ⊕ EngineChecks :=
  match s.readDesc check addr 64 with
  | (.ok _, h) =>
    (match descMembers h with
     | none => .inl (.trap causeIllegal addr)
     | some n =>
       match s.readDesc check addr (64 + 32 * n) with
       | (.ok _, d) => .inl (s.agrpRegister c (grp.setWidth 10) addr d at_)
       | (r, _) => .inr r)
  | (r, _) => .inr r

/-- `AGRP_REGISTRATION`: the `AGRP` of the K galley, else that of a DATA packet (R376). -/
def execAgrpRegistration (c : CoreId) (s : State) : Out :=
  let k := s.core c
  match k.collective? with
  | some (i, y) =>
    if y.op ≠ 0xFA ∨ y.prog ≠ 0 then .next s
    else
      match s.agrpUnit c y.body.o1 y.body.o0 (fun va n => s.engineCheck c .k i .read va n) (fun a va => s.engineAt c .k i a va 1) with
      | .inl (.accepted s1) =>
        .next (s1.modCore c fun k' => (k'.modSlotG .k i fun z => { z with prog := 1, step := 1, held := [] }).modGalley .k GalleyState.moved)
      | .inl .refused => .next (s.park c .k i (y.trap .k causeIllegal y.body.o0))
      | .inl (.trap code va) => .next (s.park c .k i (y.trap .k code va))
      | .inl (.stop (.hold s1)) => .next s1
      | .inl (.stop (.park t)) => .next (s.park c .k i t)
      | .inl (.stop (.ok _ _)) => .next s
      | .inl .wait => .next (s.engineHolds c .k .answer)
      | .inr (.park t) => .next (s.park c .k i t)
      | .inr (.hold s1) => .next s1
      | .inr (.ok _) => .next s
  | none =>
    match k.packet with
    | none => .next s
    | some p =>
      let y := p.slot
      if !p.collective || y.st != .issued || y.prog != 0 then .next s
      else
        match s.agrpUnit c y.body.o2 y.body.o1 (fun va n => s.packetCheck c p .read va n) (fun a va => s.packetAt c p a va 1) with
        | .inl (.accepted s1) => .next (s1.modCore c fun k' => k'.modCopy .packet fun z => { z with prog := 1 })
        | .inl .refused => .next (s.copyPark c .packet (y.trap .k causeIllegal y.body.o1))
        | .inl (.trap code va) => .next (s.copyPark c .packet (y.trap .k code va))
        | .inl (.stop (.hold s1)) => .next s1
        | .inl (.stop (.park t)) => .next (s.copyPark c .packet t)
        | .inl (.stop (.ok _ _)) => .next s
        | .inl .wait => .next s
        | .inr (.park t) => .next (s.copyPark c .packet t)
        | .inr (.hold s1) => .next s1
        | .inr (.ok _) => .next s

/-! ### Folds (R309) -/

/-- One step of the fold: the FP32 value, the flags, and whether a NaN was produced. -/
def foldStep (op : Nat) (acc : FOut) (w : FVal) : FOut :=
  let v := fp32.value acc.bits
  if op = 0 then
    let o := fp32.out .rne (fvAdd .rne v w)
    ⟨o.bits, acc.flags ||| o.flags, acc.produced || o.produced⟩
  else
    let o := fp32.out .rne (.val (if op = 1 then fvMin v w else fvMax v w))
    { acc with bits := o.bits }

/-- Element `e` of the members' sources, in member order: the result's bits and flags. -/
def foldElem (op : Nat) (otype : FFmt) (xs : List FVal) : Nat × Flags :=
  match xs with
  | [] => (0, 0)
  | x :: rest =>
    let o := rest.foldl (foldStep op) ⟨(fp32.pack .rne x).1, 0, false⟩
    let (b, fl) := otype.pack .rne (fp32.value o.bits)
    (b, o.flags ||| fl ||| (if o.produced && !xs.any FVal.isNan then flagNV else 0))

/-- Element `e` of a source's bytes. -/
def elemVal (t : Nat) (bytes : List Byte) (e : Nat) : FVal :=
  (codeFmt t).value (natOfBytes ((bytes.drop (e * codeBytes t)).take (codeBytes t)))

/-- The result of a round: the bytes for every destination, and its flags. -/
def Group.result (g : Group) (srcs : List (List Byte)) : List Byte × Flags :=
  let it := g.itype.toNat
  let ot := g.otype.toNat
  let outs := (List.range g.count).map fun e => foldElem g.op.toNat (codeFmt ot) (srcs.map fun b => elemVal it b e)
  (outs.flatMap fun o => bytesOfNat o.1 (codeBytes ot), outs.foldl (fun f o => f ||| o.2) 0)

/-! ### Rounds (R308, R310, R311, R341) -/

/-- A member that cannot be reached: its core lies on a die of this package that is reset or that no path reaches, or it is in another
package and every link is dead (R311, R341). -/
def State.unreachable (s : State) (g : Group) (idx : Nat) : Bool :=
  match g.places.drop idx with
  | [] => false
  | (pkg, c) :: _ =>
    if pkg = s.fabricId then (s.die (coreDie (coreOfNat c))).resetAt.isSome || s.cutOff (coreDie (coreOfNat c))
    else (List.range 18).all fun p => FMap.get s.deadLinks false p

def Group.missing (g : Group) (r : Round) : List Nat := (List.range g.members).filter fun i => (FMap.get r.joined none i).isNone

/-- End the open round with a verdict. -/
def Group.close (g : Group) (e : RoundEnd) : Group :=
  { g with rounds := g.rounds + 1, opened := none, ends := FMap.set g.ends none (g.base + g.rounds + 1) (some e) }
/-- ABSENT, naming the lowest absent member: no destination is written and no flag is set (R311, R341). -/
def Group.closeAbsent (g : Group) (m : Nat) : Group := g.close ⟨.absent m, 0, [], []⟩

/-- Write a result into a member's destination runs. -/
def State.writeMember (s : State) (m : Member) (data : List Byte) : State :=
  (m.dst.foldl (fun (acc : State × List Byte) r =>
    ((acc.1.writeBytes r.1 (acc.2.take r.2)).writtenLines r.1 r.2 false, acc.2.drop r.2)) (s, data)).1

/-- Some byte of a destination lies in a pinned stage (R295). -/
def State.memberPinned (s : State) (m : Member) : Bool :=
  m.dst.any fun r => (List.range (r.2 / 0x1_0000 + 1)).any fun i => s.pinnedByte (r.1 + min (i * 0x1_0000) (r.2 - 1)) || s.pinnedByte (r.1 + (r.2 - 1))

/-- The switch writes the destinations that no pin holds; a member's verdict waits for its own destination alone (R141, R295). -/
def State.payEnd (s : State) (e : RoundEnd) : State × RoundEnd :=
  e.owing.foldl (fun (acc : State × RoundEnd) m =>
    if acc.1.memberPinned m then acc
    else (acc.1.writeMember m e.data, { acc.2 with owing := acc.2.owing.filter fun n => n != m })) (s, e)
/-- The same for every kept round of a group. -/
def State.payGroup (s : State) (grp : BitVec 10) : State :=
  (s.group grp).ends.foldl (fun s' (n, e) =>
    match e with
    | some e' => if e'.owing.isEmpty then s' else
        let (s2, e2) := s'.payEnd e'
        s2.setGroup grp { s2.group grp with ends := FMap.set (s2.group grp).ends none n (some e2) }
    | none => s') s

/-- Settle an open round: ABSENT at once for an unreachable member, the lowest of them named (log entry 74); with every contribution
the fold is made, and written to every member's destination that no pin holds. -/
def State.settleRound (s : State) (grp : BitVec 10) : State :=
  let g := s.group grp
  match g.opened with
  | none => s.payGroup grp
  | some r =>
    match leastOf ((List.range g.members).filter (s.unreachable g)) with
    | some m => s.setGroup grp (g.closeAbsent m)
    | none =>
      if !(g.missing r).isEmpty then s.payGroup grp
      else
        let contribs := (List.range g.members).map fun i => (FMap.get r.joined none i).getD []
        let srcs := match r.root with
          | some root => [contribs.getD root []]
          | none => contribs
        let (data, fl) := g.result srcs
        (s.setGroup grp (g.close ⟨.ok, fl, data, g.regs.filterMap Prod.snd⟩)).payGroup grp

/-- The registration of a core in a group. -/
def Group.memberOf (g : Group) (c : CoreId) : Option (Nat × Member) :=
  g.regs.findSome? fun (i, m) => match m with
    | some y => if y.core = c then some (i, y) else none
    | none => none

/-- The first uncorrectable byte of runs that lie one after another from a virtual address: its virtual and its physical address. -/
def State.badRun (s : State) (va : W64) : List (Nat × Nat) → Option (W64 × Nat)
  | [] => none
  | (pa, n) :: rest =>
    match s.badAt pa n with
    | some p => some (va + BitVec.ofNat 64 (p - pa), p)
    | none => State.badRun s (va + BitVec.ofNat 64 n) rest
/-- The source bytes of a member, or the first uncorrectable byte. -/
def State.memberSource (s : State) (m : Member) : Except (W64 × Nat) (List Byte) :=
  match s.badRun m.va m.src with
  | some e => .error e
  | none => .ok (s.readRuns m.src)

/-- The open round's TIMEOUT has passed, and the lowest member that has not joined; ABSENT names it (R311). -/
def State.roundTimeout (s : State) (grp : BitVec 10) : State :=
  let g := s.group grp
  match g.opened with
  | none => s
  | some r =>
    match leastOf (g.missing r) with
    | none => s
    | some m => if r.openedAt + g.timeout * Config.clkPerUs ≤ s.now then s.setGroup grp (g.closeAbsent m) else s
/-- Every group's. -/
def State.roundTimeouts (s : State) : State := s.groups.foldl (fun s' (i, _) => s'.roundTimeout (BitVec.ofNat 10 i)) s

/-- A member's join: the first join of a round opens it with its root, which must lie below MEMBERS; a join with another root, or of the
other kind of command, is absent and ends the round (R310, R311; log entry 74). -/
def State.joinRound (s0 : State) (c : CoreId) (i : SlotId) (y : Slot) (grp : BitVec 10) (idx : Nat) (m : Member) (root : Option Nat) : State :=
  let s := s0.roundTimeout grp
  let g := s.group grp
  let n := FMap.get (s.core c).rounds 0 grp.toNat + 1
  if n ≤ g.rounds then s
  else if g.opened.isNone ∧ root.any (fun t => g.members ≤ t) then s.park c .k i (y.trap .k causeIllegal y.body.o1)
  else
    let r := match g.opened with
      | some r => r
      | none => ⟨s.now, root, []⟩
    if (FMap.get r.joined none idx).isSome then s.settleRound grp
    else if r.root ≠ root then s.setGroup grp (g.closeAbsent idx)
    else
      let gives := match root with
        | some t => t == idx
        | none => true
      match (if gives then s.memberSource m else .ok []) with
      | .error (va, pa) => s.park c .k i (y.trapPhys .k va pa)
      | .ok data =>
        ((if gives then s.readAll m.src else s).setGroup grp
          { g with opened := some { r with joined := FMap.set r.joined none idx (some data) } }).settleRound grp

/-- The group that a `MCLR` or `MCST` names, and its root. -/
def Slot.group (y : Slot) : BitVec 10 := y.body.o0.setWidth 10
def Slot.root (y : Slot) : Option Nat := if y.op = 0xFC then some y.body.o1.toNat else none

/-- `ROUND_JOIN`: unit 1 of a member's command reaches the home. -/
def execRoundJoin (c : CoreId) (s : State) : Out :=
  match (s.core c).collective? with
  | none => .next s
  | some (i, y) =>
    if y.op = 0xFA ∨ y.prog ≠ 0 then .next s
    else
      let g := s.group y.group
      match g.memberOf c with
      | none => .next (s.park c .k i (y.trap .k causeIllegal y.body.o0))
      | some (idx, m) => .next (s.joinRound c i y y.group idx m y.root)

/-- `CONTRIBUTION`: the home holds the member's join, or the round has its verdict: unit 1 commits. -/
def execContribution (c : CoreId) (s : State) : Out :=
  match (s.core c).collective? with
  | none => .next s
  | some (i, y) =>
    let g := s.group y.group
    let n := FMap.get (s.core c).rounds 0 y.group.toNat + 1
    let held := match g.memberOf c, g.opened with
      | some (idx, _), some r => decide (n ≤ g.rounds) || (FMap.get r.joined none idx).isSome
      | some _, none => decide (n ≤ g.rounds)
      | none, _ => false
    if y.op = 0xFA ∨ y.prog ≠ 0 ∨ !held then .next s
    else
      .next (s.modCore c fun k =>
        (k.modSlotG .k i fun z => { z with prog := 1, step := 1, markSeq := z.seq, markValid := true, round := g.base + n }).modGalley .k GalleyState.moved)

/-- The member's round count advances. -/
def Core.countRound (k : Core) (grp : BitVec 10) : Core := { k with rounds := FMap.set k.rounds 0 grp.toNat (FMap.get k.rounds 0 grp.toNat + 1) }
/-- The member's command completes with a verdict; its round count advances (R308, R311). -/
def State.verdictReached (s : State) (c : CoreId) (i : SlotId) (y : Slot) (e : RoundEnd) : State :=
  let grp := y.group
  let s1 := s.modCore c fun k => (k.modSlotG .k i fun z => { z with prog := 2, flags := z.flags ||| e.flags }).countRound grp
  match e.verdict with
  | .ok => s1.finish c .k i false
  | .absent low =>
    let t := { y.trap .k causeGroupAbsent (BitVec.ofNat 64 (low * 65536 + grp.toNat)) with pidx := some (pidxOf .k { y with prog := 2 }) }
    let s2 := s1.finish c .k i true
    if (s.group grp).quiet then s2 else s2.raiseLater c t

/-- `VERDICT`: the home's verdict on the round reaches the member; OK once the member's own destination is written (R141, R308). -/
def execVerdict (c : CoreId) (s : State) : Out :=
  match (s.core c).collective? with
  | none => .next s
  | some (i, y) =>
    if y.op = 0xFA ∨ y.prog ≠ 1 ∨ !(s.core c).isOldest .k i ∨ s.signalHeld y then .next s
    else
      let s1 := s.settleRound y.group
      match FMap.get (s1.group y.group).ends none y.round with
      | some e => .next (if e.owing.any (fun m => m.core == c) then s1 else s1.verdictReached c i y e)
      | none => .next s1

/-- `ROUND_TIMEOUT`: a member has not joined TIMEOUT µs after the first join (R311). -/
def execRoundTimeout (grp : BitVec 10) (s : State) : Out :=
  match (s.group grp).opened with
  | none => .next (s.payGroup grp)
  | some _ => .next (s.roundTimeout grp)

/-- `VERDICT_TIMEOUT`: after twice the timeout with no verdict, the package completes its own members' records (R311); the round is over
for the home of this package too. -/
def execVerdictTimeout (grp : BitVec 10) (s : State) : Out :=
  let g := s.group grp
  match g.opened with
  | none => .next s
  | some r =>
    if s.now < r.openedAt + 2 * g.timeout * Config.clkPerUs then .next s
    else
      let low := (leastOf (g.missing r)).getD 0
      .next ((g.regs.foldl (fun s' (_, m) =>
        match m with
        | none => s'
        | some y =>
          match (s'.core y.core).collective? with
          | some (i, z) =>
            if z.op != 0xFA && z.group == grp && z.prog == 1 && z.round == g.base + g.rounds + 1 then
              s'.verdictReached y.core i z ⟨.absent low, 0, [], []⟩
            else s'
          | none => s') s).setGroup grp (g.closeAbsent low))

end Sys2Proof.Machine
end

