-- ==== Sys2Proof/Machine/Records.lean ====
section
/-! DEFINITION. The life of a record (01 R22): the Proofreader's check, issue with its conditions (01 R28, R34, 05 R133, 10 R273,
11 R278), error propagation (01 R30), markers (05 R137), completion (01 R27); and the issue grants of the current managers
(14 R336-R338) with the draw they measure (12 R329). -/
namespace Sys2Proof.Machine

/-! ### Records that become FREE from APPENDED (R22, R48 step 2, R101) -/

/-- Sequence numbers of the youngest records, from the first APPENDED one that a test takes. -/
def GalleyState.appendedFrom (g : GalleyState) (hit : Slot → Bool) : List (BitVec 24) :=
  g.seqs.dropWhile fun q =>
    let y := g.slot (slotOf q).val
    !(y.st == .appended && hit y)

/-- Their slots are FREE and the tail stands at the oldest of them. -/
def GalleyState.retreat (g : GalleyState) (qs : List (BitVec 24)) : GalleyState :=
  match qs with
  | [] => g
  | q :: _ => { (qs.foldl (fun h p => h.modSlot (slotOf p).val fun y => { y with st := .free }) g) with tail := q }

/-- The youngest `n` claimed format words are unclaimed again. -/
def unclaim (n : Nat) (ws : List FmtWord) : List FmtWord :=
  (ws.reverse.foldl (fun (acc : Nat × List FmtWord) w =>
    if w.claimed && 0 < acc.1 then (acc.1 - 1, { w with claimed := false } :: acc.2) else (acc.1, w :: acc.2)) (n, [])).2

/-- The recorded counts are those of the `LIG` records that stand, else of the tables (R114). -/
def Core.recount (k : Core) : Core :=
  let loads := k.galM.entries.filter fun e => e.2.isLig && e.2.isOpen
  let base := (List.range 8).foldl (fun m i => FMap.set m 0 i (k.ligOf i).code) ([] : FMap (BitVec 2))
  { k with ligCnt := loads.foldl (fun m e => FMap.set m 0 (bitsN e.2.body.w0 8 3) (e.2.body.w1.setWidth 2)) base }

/-- Free the APPENDED records that a test takes, in every galley. -/
def Core.freeAppended (k : Core) (hit : Galley → Slot → Bool) : Core :=
  let ms := k.galM.appendedFrom (hit .m)
  let n := (ms.filter fun q => (k.galM.slot (slotOf q).val).isMma).length
  ({ k with galM := k.galM.retreat ms, galV := k.galV.retreat (k.galV.appendedFrom (hit .v))
            galX := k.galX.retreat (k.galX.appendedFrom (hit .x)), galK := k.galK.retreat (k.galK.appendedFrom (hit .k))
            fmtQ := unclaim n k.fmtQ } : Core).recount

/-! ### The Proofreader (R22, R440) -/

/-- The oldest APPENDED record of a galley. -/
def GalleyState.oldestAppended (g : GalleyState) : Option (BitVec 24) := g.seqs.find? fun q => (g.slot (slotOf q).val).st == .appended

/-- A mismatch: the record and every later APPENDED one become FREE, and the control core's reset is asked for. -/
def State.proofFails (s : State) (c : CoreId) (g : Galley) (y : Slot) : State :=
  (s.modCore c fun k => k.freeAppended fun h z => if h = g then z.pos == y.pos || y.pos < z.pos else y.pos < z.pos).proofMismatch c
    ((galleyUnit g).setWidth 8)

/-- `PROOF_CHECK`: the Proofreader's hash of the oldest APPENDED record is compared; `flip` is the bits that an upset turns in what is
compared, none on a core that works. -/
def State.proofCheck (s : State) (c : CoreId) (g : Galley) (flip : BitVec 32) : State :=
  let k := s.core c
  match (k.galley g).oldestAppended with
  | none => s
  | some q =>
    let y := k.slot g (slotOf q).val
    if k.resetting then s
    else if y.proofHash ^^^ flip = y.hash then s.modCore c fun k' => k'.modSlotG g (slotOf q) fun z => { z with st := .checked }
    else s.proofFails c g y
def execProofCheck (c : CoreId) (g : Galley) (flip : BitVec 32) (s : State) : Out := .next (s.proofCheck c g flip)

/-! ### The head record (R22, R34, R133) -/

/-- The first record of a galley that has not issued, and whether everything before it is ISSUED or DONE. -/
def GalleyState.headRecord (g : GalleyState) : Option (BitVec 24) :=
  g.seqs.find? fun q =>
    let y := g.slot (slotOf q).val
    y.st != .issued && y.st != .done && y.st != .free

def Slot.waitValid (y : Slot) : Bool := y.body.wait.getLsbD 18
def Slot.waitCtr (y : Slot) : BitVec 18 := y.body.wait.setWidth 18
def Slot.waitThr (y : Slot) : Nat := bitsN y.body.wait 24 40
/-- The wait token is satisfied; with bit 63 the command does not execute (R30). -/
def State.waitMet (s : State) (y : Slot) : Bool := !y.waitValid || !s.ctrHeld y.waitCtr && ctrSatisfied (s.ctr y.waitCtr) y.waitThr
def State.waitError (s : State) (y : Slot) : Bool := y.waitValid && !s.ctrHeld y.waitCtr && ctrError (s.ctr y.waitCtr)

/-- An index of `SCAT` as memory holds it. -/
def State.peekIndex (s : State) (c : CoreId) (cmd : CopyCmd) (i : Nat) : Nat :=
  let va := cmd.b + BitVec.ofNat 64 (i * cmd.ixBytes)
  match s.walk (s.core c).job va with
  | .hit e => s.readNat (e.pa + (va56 va - e.va)) cmd.ixBytes
  | .fault | .prot | .memerr _ | .onDie _ _ => 0
/-- The bytes that a command is to write: runs of virtual addresses (R133). -/
def State.commandWrites (s : State) (c : CoreId) (g : Galley) (y : Slot) : List (W64 × Nat) :=
  let k := s.core c
  let rows := fun (n len : Nat) => (List.range n).map fun j => (rowAddr y.body.o0 y.body.o1 j, len)
  let phys := fun (runs : List (Nat × Nat)) => runs.flatMap fun (pa, n) => (s.aliases k.job pa).map fun va => (va, n)
  match g with
  | .m =>
    (match y.mvForm with
     | some m =>
       if y.op = 0xF5 then rows m.n (if m.ty = .fp32 then 256 else 128)
       else if y.op = 0xF7 then
         (if m.pair then phys ((List.range m.n).map fun j => (k.scratchPa c ((pairOf y.body.o0 y.body.o1).row j), 128)) else rows m.n 128)
       else []
     | none => [])
  | .v =>
    (match y.vcmd with
     | some cmd => if cmd.fn = .st then rows cmd.v.n 128 else []
     | none => [])
  | .x => if y.op = 0xEF then [] else runsOf (y.copy.dst (s.peekIndex c y.copy)) 0 y.copy.total
  | .k =>
    if y.op = 0xFA then []
    else
      match (s.group y.group).memberOf c with
      | some (_, m) => phys m.dst
      | none => []

/-- Earlier stores and atomics are performed and no earlier acquire is in flight; earlier loads, and elements of earlier streams, have
taken their values from the bytes that the command writes, at whatever address they name them (R126, R133). -/
def State.settledBefore (s : State) (c : CoreId) (g : Galley) (y : Slot) : Bool :=
  let x := (s.core c).ctx teamCtx
  let loads := x.loadQ.filter fun l => decide (l.pos < y.pos) && l.got.isNone
  let streams := x.streamsBefore y.pos
  x.pendingStores.all (fun e => y.pos ≤ e.pos) && !x.acquiring y.pos &&
    ((loads.isEmpty && streams.isEmpty) ||
      ((s.commandWrites c g y).flatMap fun (va, n) => s.aliasRuns (s.core c).job va n).all fun (va, n) =>
        loads.all (fun l => decide (l.va.toNat + l.n ≤ va.toNat) || decide (va.toNat + n ≤ l.va.toNat)) &&
          streams.all fun t => !t.touches va n)

/-- What a stamp says now: not due, due with a lateness, or missed (R34). -/
inductive Due where
  | unstamped
  | early
  | late (l : Nat)
  | missed (l : Nat)
deriving DecidableEq, Repr

def State.due (s : State) (c : CoreId) (y : Slot) : Due :=
  if bitsN y.body.sched 12 2 = 0 ∨ y.waived then .unstamped
  else
    let lt := (s.localTime c).toNat
    let st := y.body.stamp.toNat
    if lt < st then .early
    else if bitsN y.body.sched 0 12 < lt - st then .missed (lt - st)
    else .late (lt - st)

/-- SLIP counts a late issue and a drifted absolute stamp (R34, R35). -/
def slipWith (slip : W64) (l : Nat) (drift : Bool) : W64 :=
  let a := if l = 0 then slip else
    setBits (setBits slip 40 24 (satAdd (bitsN slip 40 24) 1 24)) 28 12 (max (bitsN slip 28 12) l)
  if drift then setBits a 4 24 (satAdd (bitsN a 4 24) 1 24) else a
def State.countSlip (s : State) (c : CoreId) (y : Slot) : State :=
  match s.due c y with
  | .late l =>
    s.modCore c fun k => { k with slip := slipWith k.slip l (bitsN y.body.sched 12 2 == 1 && k.stoff != 0) }
  | .unstamped | .early | .missed _ => s

/-- The record stays CHECKED at its head; SCHEDMISS names it (R22, R34). -/
def State.schedMiss (s : State) (c : CoreId) (g : Galley) (i : SlotId) (l : Nat) : State :=
  let y := (s.core c).slot g i.val
  let t := y.trap g causeSchedMiss (BitVec.ofNat 64 l)
  (s.modCore c fun k => k.modSlotG g i fun z => { z with missed := true, cause := some t }).raiseLater c t

/-! ### Conditions between records (R28, R273, R278) -/

/-- A record that has issued and is not DONE: ISSUED, PARKED, or CHECKED again with its mark after a stop. -/
def Slot.hasIssued (y : Slot) : Bool :=
  y.st == .issued || y.st == .parked || (y.st == .checked && y.markValid && y.markSeq == y.seq)
/-- A V command would write a tile that an M command which has issued reads; the hold lasts until that command is DONE (R28, R284). -/
def Core.tileHeld (k : Core) (cmd : VCmd) : Bool :=
  k.galM.slots.any fun (_, y) => y.hasIssued && listsMeet cmd.tilesWritten y.mTilesRead
/-- Two V records may run in the two pipes (R273). -/
def vPair (old new : VCmd) : Bool :=
  !old.fn.isMem && !new.fn.isMem && !listsMeet new.tilesWritten (old.tilesRead ++ old.tilesWritten) &&
    !listsMeet new.tilesRead old.tilesWritten

/-- The record may run beside those that are ISSUED. -/
def State.mayRun (s : State) (c : CoreId) (g : Galley) (y : Slot) : Bool :=
  let k := s.core c
  let run := (k.galley g).issuedSlots
  match g with
  | .m => (match run with
    | [] => true
    | [z] => s.mayPair c z { y with lig := some (k.ligOf y.ligSlot) }
    | _ => false)
  | .v =>
    match y.vcmd with
    | none => true
    | some cmd =>
      !k.tileHeld cmd &&
      (match run with
       | [] => true
       | [z] => z.vcmd.any fun old => vPair old cmd
       | _ => false)
  | .x | .k => run.isEmpty

/-- A product that an ISSUED or CHECKED record is, with its slot, that may issue but for its stamp and grant. -/
def State.issuable (s : State) (c : CoreId) (g : Galley) : Option SlotId :=
  let k := s.core c
  let y := k.galley g
  match y.headRecord with
  | none => none
  | some q =>
    let z := y.slot (slotOf q).val
    if z.st = .checked ∧ !z.isMarker ∧ !z.missed ∧ !y.stalled ∧ !(k.preempt.any Preempt.stopped) ∧
        s.waitMet z ∧ !s.waitError z ∧ s.settledBefore c g z ∧ s.mayRun c g z
    then some (slotOf q) else none

/-! ### Issue -/

/-- The record issues: SLIP, then its engine's own part. -/
def State.issueRecord (s : State) (c : CoreId) (g : Galley) (i : SlotId) : State :=
  let s1 := s.countSlip c ((s.core c).slot g i.val)
  match g with
  | .m => s1.issueM c i
  | .v | .x | .k =>
    s1.modCore c fun k => (k.modSlotG g i fun z => z.issue (k.ligOf z.ligSlot) s.now).modGalley g GalleyState.moved

/-- Matrix engines of a cluster that are active: they hold a grant (R336). -/
def State.activeCount (s : State) (cl : ClusterId) : Nat := ((coresOf cl).filter fun c => (s.core c).grant).length
/-- Ask for a grant; the first request while no engine is active starts a ramp. A ramp whose request is withdrawn before any grant keeps its
t0 until a spacer's end: the manual does not end it, and this is the model's choice (log entry 93). -/
def State.requestGrant (s : State) (c : CoreId) : State :=
  if (s.core c).wantGrant.isSome then s
  else
    (s.modCore c fun k => { k with wantGrant := some s.now }).modCluster (coreCluster c) fun cl =>
      { cl with ramp := if s.activeCount (coreCluster c) = 0 ∧ cl.ramp = none then some s.now else cl.ramp }

/-- A product that has resumed asks again, though its spacer still runs (R339). -/
def State.askAgain (s : State) (c : CoreId) : State :=
  let k := s.core c
  if k.product?.isSome && !(k.grant && k.spacerFrom.isNone) then s.requestGrant c else s
/-- The head record issues, misses its stamp, or asks for a grant; a product that misses withdraws its request (R338). -/
def State.recordIssue (s0 : State) (c : CoreId) (g : Galley) : State :=
  let s := if g = .m then s0.askAgain c else s0
  let k := s.core c
  match s.issuable c g with
  | none => s
  | some i =>
    let y := k.slot g i.val
    match s.due c y with
    | .early => s
    | .missed l => (if y.isMma then s.modCore c fun k' => { k' with wantGrant := none } else s).schedMiss c g i l
    | .unstamped | .late _ => if y.isMma && !k.grant then s.requestGrant c else s.issueRecord c g i

/-- The head command's token is satisfied by bit 63: it completes with an error (R30). A collective counts its round (R308). -/
def State.errorEnds (s : State) (c : CoreId) (g : Galley) : State :=
  let k := s.core c
  match (k.galley g).headRecord with
  | none => s
  | some q =>
    let y := k.slot g (slotOf q).val
    if y.st = .checked ∧ !y.isMarker ∧ s.waitError y ∧ k.isOldest g (slotOf q) ∧ !s.signalHeld y then
      (s.modCore c fun k' =>
        (if g = .k ∧ y.op ≠ 0xFA then k'.countRound y.group else k').modSlotG g (slotOf q) fun z => { z with flags := 0, sealedFlags := 0 }).finish
        c g (slotOf q) true
    else s
/-- `ERROR_PROPAGATION`. Flags that rows or proof steps of the command had sealed before a stop are dropped, which the manual leaves open: a
model's choice (log entry 90). -/
def execErrorPropagation (c : CoreId) (g : Galley) (s : State) : Out := .next (s.errorEnds c g)

/-- The first command or marker that has not issued is a marker: every earlier command has issued, and it is DONE (R137, R237). -/
def State.markerRetire (s : State) (c : CoreId) (g : Galley) : State :=
  let k := s.core c
  let y := k.galley g
  let waits := fun q => let z := y.slot (slotOf q).val; z.st == .appended || z.st == .checked
  match y.seqs.find? waits with
  | none => s
  | some q =>
    let z := y.slot (slotOf q).val
    if z.st = .checked ∧ z.isMarker then s.finish c g (slotOf q) false else s
/-- `MARKER_RETIRE`. -/
def execMarkerRetire (c : CoreId) (g : Galley) (s : State) : Out := .next (s.markerRetire c g)

/-- `COMMAND_COMPLETION`: an ISSUED record whose units are done takes its completion step (R27); a mover's own steps are its
attempt (R279). -/
def execCommandCompletion (c : CoreId) (g : Galley) (i : SlotId) (s : State) : Out :=
  let k := s.core c
  match k.issued? g i with
  | none => .next s
  | some y =>
    if s.signalHeld y then .next s else
    match g with
    | .m => .next (s.completeM c i y)
    | .v =>
      (match y.vcmd with
       | some cmd =>
         if cmd.v.n ≤ y.prog.toNat ∧ k.isOldest .v i then .next (s.finish c .v i false) else .next s
       | none => .next s)
    | .x => .next (if y.copyUnits ≤ y.prog.toNat ∧ k.isOldest .x i then s.finish c .x i false else s)
    | .k => .next (if y.op = 0xFA ∧ y.prog = 1 ∧ k.isOldest .k i then s.finish c .k i false else s)

/-! ### Issue grants (R336-R338) -/

/-- The limit of a ramp step. -/
def rampLimit (mkrt : W64) (t0 now : Nat) : Nat := bitsN mkrt (4 * min ((now - t0) / 4) 15) 4

/-- The waiting requests of a cluster, oldest first, ties to the lower core number. -/
def State.grantOrder (s : State) (cl : ClusterId) : List CoreId :=
  let reqs := (coresOf cl).filterMap fun c => (s.core c).wantGrant.map fun t => (t, c)
  (reqs.mergeSort fun a b => decide (a.1 < b.1) || (a.1 == b.1 && decide (a.2.val ≤ b.2.val))).map Prod.snd

/-- A granted engine's record issues on the clk of its grant; a product that was parked goes on, whatever stands at the head beside it. -/
def State.grantTo (s : State) (c : CoreId) : State :=
  let take := fun (s' : State) => s'.modCore c fun k => { k with grant := true, wantGrant := none, spacerFrom := none }
  if (s.core c).product?.isSome then take s
  else
    match s.issuable c .m with
    | some i =>
      if ((s.core c).slot .m i.val).isMma then
        (match s.due c ((s.core c).slot .m i.val) with
         | .unstamped | .late _ => (take s).issueRecord c .m i
         | .early | .missed _ => s)
      else s.modCore c fun k => { k with wantGrant := none }
    | none => s.modCore c fun k => { k with wantGrant := none }

/-- The requests of a clk: with no engine active and no ramp a ramp starts; then they are granted, oldest first, up to its limit. -/
def State.grants (s : State) (cl : ClusterId) : State :=
  let order := s.grantOrder cl
  let s1 := if order ≠ [] ∧ s.activeCount cl = 0 ∧ (s.cluster cl).ramp = none then s.modCluster cl fun y => { y with ramp := some s.now } else s
  order.foldl (fun s' c =>
    let y := s'.cluster cl
    match y.ramp with
    | none => s'
    | some t0 => if (s'.core c).withheld || decide (rampLimit y.mkrt t0 s'.now ≤ s'.activeCount cl) then s' else s'.grantTo c) s1
/-- Every product of a cluster that may go on but for its grant asks for it. -/
def State.requests (s : State) (cl : ClusterId) : State :=
  (coresOf cl).foldl (fun s' c =>
    let s1 := s'.askAgain c
    match s1.issuable c .m with
    | none => s1
    | some i =>
      let y := (s1.core c).slot .m i.val
      match s1.due c y with
      | .unstamped | .late _ => if y.isMma && !(s1.core c).grant then s1.requestGrant c else s1
      | .early | .missed _ => s1) s
/-- `RECORD_ISSUE`; a request that it makes stands beside those of the cluster's other cores on this clk, and the grants come on it (R336). -/
def execRecordIssue (c : CoreId) (g : Galley) (s : State) : Out :=
  let s1 := s.recordIssue c g
  .next (if g = .m ∧ (s1.core c).wantGrant.isSome then (s1.requests (coreCluster c)).grants (coreCluster c) else s1)
/-- `ISSUE_GRANT`. -/
def execIssueGrant (cl : ClusterId) (s : State) : Out := .next (s.grants cl)

/-- `GRANT_LATENESS`: a record that waits for its grant passes its quoin (R338). -/
def execGrantLateness (c : CoreId) (s : State) : Out :=
  match (s.core c).wantGrant, s.issuable c .m with
  | some _, some i =>
    (match s.due c ((s.core c).slot .m i.val) with
     | .missed l => .next ((s.modCore c fun k => { k with wantGrant := none }).schedMiss c .m i l)
     | .unstamped | .early | .late _ => .next s)
  | _, _ => .next s

/-- `SPACER_END`: 12 clk after its start the grant ends, and with the last one the ramp (R336, R337). -/
def State.spacerEnd (s : State) (c : CoreId) : State :=
  match (s.core c).spacerFrom with
  | none => s
  | some t =>
    if s.now < t + 12 then s
    else
      let s1 := s.modCore c fun k => { k with grant := false, spacerFrom := none }
      if s1.activeCount (coreCluster c) = 0 then s1.modCluster (coreCluster c) fun cl => { cl with ramp := none } else s1
def execSpacerEnd (c : CoreId) (s : State) : Out := .next (s.spacerEnd c)

/-! ### The measured draw (R329) -/

/-- The granted level: the open region's, or the one-unit allowance. -/
def Core.grantedLevel (k : Core) : Nat := if k.regionOpen then k.regionLevel else 1

/-- `n` windows of 4 clk, each with a draw of `sum` quarters of a clk: how long the draw has been above the granted level, or at or
below it. -/
def Core.windows (k : Core) (sum n : Nat) : Core :=
  if n = 0 then k
  else if k.grantedLevel * 16 < sum then
    { k with overFor := k.overFor + 4 * n, calmFor := if k.calmFor < 64 then 0 else k.calmFor }
  else { k with overFor := 0, calmFor := k.calmFor + 4 * n, withheld := false }
/-- One core's measurement, once the 4 clk of its window have passed. -/
def Core.measure (k : Core) : Core := if k.drawClk < 4 then k else { k.windows k.draw 1 with draw := 0, drawClk := 0 }

/-- A matrix product is ISSUED on the core's array (R329). -/
def Core.arrayBusy (k : Core) : Bool := k.galM.issuedSlots.any Slot.isMma
/-- The array's draw on this clk in quarters of a matrix engine: full while a product is ISSUED, else 3, 2 and 1 quarters for 4 clk
each of its spacer (R329, R337). -/
def Core.drawNow (k : Core) (now : Nat) : Nat :=
  if k.arrayBusy then 4
  else
    match k.spacerFrom with
    | some t => 3 - (now - t) / 4
    | none => 0
/-- `dt` clk on which the array draws `q` quarters. -/
def Core.drawFor (k : Core) (q dt : Nat) : Core :=
  let k0 := k.measure
  let room := 4 - k0.drawClk
  if dt ≤ room then { k0 with draw := k0.draw + dt * q, drawClk := k0.drawClk + dt }
  else
    let n := (dt - room - 1) / 4
    let left := dt - room - 4 * n
    { ({ k0 with draw := k0.draw + room * q, drawClk := 4 } : Core).measure.windows (4 * q) n with draw := left * q, drawClk := left }

/-- `DRAW_MEASURE`: every core of the cluster. -/
def execDrawMeasure (cl : ClusterId) (s : State) : Out := .next ((coresOf cl).foldl (fun s' c => s'.modCore c Core.measure) s)

/-- Above the granted level for more than 64 clk: grants are withheld, and OVERDRAW is raised, again only after 64 calm clk. A core's
draw never exceeds 1. -/
def State.overdraw (s : State) (c : CoreId) : State :=
  let k := s.core c
  if k.overFor ≤ 64 ∨ k.team.isNone then s
  else if k.calmFor < 64 then s.setCore c { k with withheld := true }
  else
    (s.setCore c { k with withheld := true, calmFor := 0 }).raiseLater c
      ⟨causeOverdraw, 7, BitVec.ofNat 64 (k.grantedLevel * 16 + 1), 0, none⟩
/-- `OVERDRAW`. -/
def execOverdraw (c : CoreId) (s : State) : Out := .next (s.overdraw c)

end Sys2Proof.Machine
end

