-- ==== Sys2Proof/Machine/Walks.lean ====
section
/-! DEFINITION. The walk unit (19 R410-R412), the stream TLBs' prefetch (02 R80), PRI responses (17 R368). -/
namespace Sys2Proof.Machine

/-! ### Where a walk ends (R409, R411) -/

/-- The translation goes to the TLBs of the unit that asked; a cluster TLB keeps 512 pinned ones (R411). -/
def State.fillUnit (s : State) (w : Walk) (e : TlbEntry) : State :=
  match w.unit with
  | .fetch _ | .data _ | .stream _ _ =>
    (s.modCore w.core fun k => { k with l1tlb := tlbFill k.l1tlb 64 e }).modCluster (coreCluster w.core) fun cl =>
      { cl with tlb := tlbFill cl.tlb 4096 { e with pn := e.pn && decide ((cl.tlb.filter TlbEntry.pn).length < 512) } }
  | .prefetch g => s.modCore w.core fun k => k.setTlb g (tlbFill (k.tlb g) 16 e)
  | .engine g i =>
    s.modCore w.core fun k => (k.setTlb g (tlbFill (k.tlb g) 16 e)).modSlotG g i fun y => if y.st = .issued then { y with held := y.held ++ [e] } else y
  | .packet =>
    s.modCore w.core fun k =>
      let g : Galley := if k.packet.any Packet.collective then .k else .x
      { k.setTlb g (tlbFill (k.tlb g) 16 e) with packet := k.packet.map fun p => { p with slot := { p.slot with held := p.slot.held ++ [e] } } }

/-- The context stands in a hold on the address. -/
def Ctx.holdsOn (x : Ctx) (va : W64) : Bool :=
  x.run == .running && (x.wait.any fun w => w.kind == .walk va)
/-- Its hold ends; the instruction executes again from its start (R81). -/
def State.releaseHold (s : State) (r : CtxRef) (va : W64) : State :=
  if (s.ctx r).holdsOn va then s.modCtx r fun x => { x with wait := none } else s
/-- The unit that the walk held goes on. -/
def State.releaseUnit (s : State) (w : Walk) : State :=
  match w.unit with
  | .fetch x | .data x => s.releaseHold ⟨w.core, x⟩ w.va
  | .stream _ _ | .engine _ _ | .packet | .prefetch _ => s

/-- A scalar access that a hold served fails: its trap is precise to the instruction (R81). -/
def State.holdFails (s : State) (r : CtxRef) (va : W64) (code : BitVec 8) (info : W64) : State :=
  if (s.ctx r).holdsOn va then s.raise r ⟨code, 0, va, info, none⟩ (s.ctx r).pc else s
/-- The access unit halts at the element (R81, R235). -/
def State.streamFails (s : State) (r : CtxRef) (q : BitVec 3) (va : W64) (code : BitVec 8) (info : W64) : State :=
  s.modCtx r fun x =>
    let d := x.queue q
    match d.streams with
    | t :: rest => if t.halted.isNone && t.address == va then x.setQueue q (d.halt t rest ⟨code, 1, va, info, none⟩) else x
    | [] => x
/-- An ISSUED record is PARKED at its mark (R22, R81). -/
def State.engineFails (s : State) (c : CoreId) (g : Galley) (i : SlotId) (va : W64) (code : BitVec 8) (pa : Option Nat) : State :=
  let y := (s.core c).slot g i.val
  if y.st ≠ .issued then s
  else
    match pa with
    | some p => s.park c g i (y.trapPhys g va p)
    | none => s.park c g i (y.trap g code va)
/-- A DATA packet's command fails (R376). -/
def State.packetFails (s : State) (c : CoreId) (va : W64) (code : BitVec 8) (pa : Option Nat) : State :=
  match (s.core c).packet with
  | none => s
  | some p =>
    if p.slot.st ≠ .issued then s
    else
      match pa with
      | some a => s.copyPark c .packet (p.slot.trapPhys (if p.collective then .k else .x) va a)
      | none => s.copyPark c .packet (p.slot.trap (if p.collective then .k else .x) code va)

/-- The access that a walk serves fails; `pa` is the entry's address of a MEMERR. A prefetch raises nothing (R80), but what its walk reads is
counted (R431). -/
def State.walkFails (s : State) (w : Walk) (code : BitVec 8) (pa : Option Nat) : State :=
  let info := match pa with
    | some p => infoPhys p
    | none => 0
  match w.unit with
  | .fetch x | .data x => s.holdFails ⟨w.core, x⟩ w.va code info
  | .stream x q => s.streamFails ⟨w.core, x⟩ q w.va code info
  | .engine g i => s.engineFails w.core g i w.va code pa
  | .packet => s.packetFails w.core w.va code pa
  | .prefetch _ =>
    match pa with
    | some p => if s.badByte p then s.uncorrectable p else s
    | none => s

/-! ### The walk unit (R410) -/

/-- Take walk `i` out of a die's unit. -/
def State.dropWalk (s : State) (d : DieId) (i : Nat) : State := s.modDie d fun y => { y with walks := y.walks.eraseIdx i }

/-- A waiting walk may take a slot: 96 run on the die at most, 24 for one cluster. -/
def Die.walkFits (d : Die) (w : Walk) : Bool :=
  let run := d.walks.filter Walk.running
  !w.running && decide (run.length < 96) && decide ((run.filter fun v => coreCluster v.core == coreCluster w.core).length < 24)
/-- The oldest waiting walk that fits starts. -/
def startFirst (fits : Walk → Bool) : List Walk → List Walk
  | [] => []
  | w :: rest => if fits w then { w with running := true } :: rest else w :: startFirst fits rest

def execWalkStart (die : DieId) (s : State) : Out :=
  .next (s.modDie die fun d => { d with walks := startFirst d.walkFits d.walks })

/-- `WALK_COMPLETE`: the walk's outcome; a table on a die under reset holds it (R412). -/
def execWalkComplete (die : DieId) (i : Nat) (s : State) : Out :=
  match (s.die die).walks.drop i with
  | [] => .next s
  | w :: _ =>
    if !w.running then .next s
    else
      let s0 := (s.clusterWalked (coreCluster w.core) w.job w.va).dropWalk die i
      .next (match s.clusterWalk (coreCluster w.core) w.job w.va with
        | .hit e => (s0.fillUnit w e).releaseUnit w
        | .fault => s0.walkFails w causeFault none
        | .prot => s0.walkFails w causeProt none
        | .memerr pa => s0.walkFails w causeMemerr (some pa)
        | .onDie _ pa =>
          if w.since.any fun t => t.1 == pa then s
          else s.modDie die fun d => { d with walks := d.walks.set i { w with since := some (pa, s.now) } })

/-- 100 ms in clk (R6). -/
def clk100ms : Nat := 100000 * Config.clkPerUs

/-- `WALK_DIE_TIMEOUT`: 100 ms after its issue the read is given up. -/
def execWalkDieTimeout (die : DieId) (i : Nat) (s : State) : Out :=
  match (s.die die).walks.drop i with
  | [] => .next s
  | w :: _ =>
    match w.since, s.clusterWalk (coreCluster w.core) w.job w.va with
    | some (pa, t), .onDie _ p =>
      if w.running && pa == p && decide (t + clk100ms ≤ s.now) then .next ((s.dropWalk die i).walkFails w causeMemerr (some pa))
      else .next s
    | _, _ => .next s

/-! ### Prefetch (R80) -/

/-- Bytes as a walk would find them now; zeros where it finds none. -/
def State.peek (s : State) (job : BitVec 24) (va : W64) (n : Nat) : List Byte :=
  (pieces va n).flatMap fun (v, len) =>
    match s.walk job v with
    | .hit e => s.readBytes (e.pa + (va56 v - e.va)) len
    | .fault | .prot | .memerr _ | .onDie _ _ => List.replicate len 0
/-- The pages of an `AGRP`'s descriptor and of its own buffers (R306, R307). -/
def State.agrpAhead (s : State) (c : CoreId) (y : Slot) : List W64 :=
  let job := (s.core c).job
  let h := s.peek job y.body.o0 64
  match descMembers h with
  | none => [y.body.o0]
  | some n =>
    let d := s.peek job y.body.o0 (64 + 32 * n)
    let pages := fun (va : W64) (len : Nat) =>
      (List.range ((va.toNat % 0x1_0000 + len + 0xFFFF) / 0x1_0000)).map fun i => BitVec.ofNat 64 (va.toNat / 0x1_0000 * 0x1_0000 + i * 0x1_0000)
    match ownMember s c d n with
    | none => [y.body.o0]
    | some m =>
      let me := memberDesc d m
      [y.body.o0, y.body.o0 + BitVec.ofNat 64 (63 + 32 * n)] ++ pages me.src (descField d 8 4 * codeBytes (descField d 2 1)) ++
        pages me.dst (descField d 8 4 * codeBytes (descField d 3 1))
/-- The addresses of one unit of a copy command, in its order: indices, sources, destinations. -/
def State.unitAhead (s : State) (c : CoreId) (cmd : CopyCmd) (u : Nat) : List W64 :=
  let n := u * 128
  if cmd.isIndexed then
    (cmd.elems n (min 128 (cmd.total - n))).flatMap fun i =>
      let ix := fun j => s.peekIndex c cmd j
      [cmd.b + BitVec.ofNat 64 (i * cmd.ixBytes), cmd.src ix (max n (i * cmd.elem)), cmd.dst ix (max n (i * cmd.elem))]
  else (if cmd.isFill then [] else [cmd.src (fun _ => 0) n]) ++ [cmd.dst (fun _ => 0) n]
/-- The addresses that an ISSUED stream command still touches, in order; a copy looks 513 units ahead, more than a page. -/
def State.streamAhead (s : State) (c : CoreId) (y : Slot) (g : Galley) : List W64 :=
  let row := fun (first n : Nat) => (List.range (n - first)).map fun j => rowAddr y.body.o0 y.body.o1 (first + j)
  match g with
  | .m =>
    (match y.mvForm with
     | some m => if y.op = 0xF4 ∨ y.op = 0xF5 ∨ ((y.op = 0xF6 ∨ y.op = 0xF7) ∧ !m.pair) then row y.step m.n else []
     | none => [])
  | .v =>
    (match y.vcmd with
     | some v => if v.fn.isMem then row y.prog.toNat v.v.n else []
     | none => [])
  | .x =>
    if y.op = 0xEF then []
    else (List.range (min 513 (y.copyUnits - y.prog.toNat))).flatMap fun u => s.unitAhead c y.copy (y.prog.toNat + u)
  | .k => if y.op = 0xFA ∧ y.prog = 0 then s.agrpAhead c y else []

/-- `STREAM_TLB_PREFETCH`: the next page whose translation the engine does not hold is asked for. -/
def execStreamTlbPrefetch (c : CoreId) (g : Galley) (s : State) : Out :=
  let k := s.core c
  let ahead := (k.galley g).issuedSlots.flatMap fun y => (s.streamAhead c y g).filter fun va => (tlbFind y.held k.job va).isNone
  match ahead.find? fun va => canonical va && (tlbFind (k.tlb g) k.job va).isNone with
  | some va => .next (s.askWalk c (.prefetch g) k.job (k.ctx teamCtx).priv va)
  | none => .next s

end Sys2Proof.Machine
end

