-- ==== Sys2Proof/Machine/Resets.lean ====
section
/-! DEFINITION. Trap entry as a step of its own (12 R319), and the resets of a core's parts: their causes (01 R49, R51, R52, 20 R437),
the engine reset (01 R50, 10 R277, 11 R281, R304, R312), the control-core reset and its replay (01 R48, 12 R324). -/
namespace Sys2Proof.Machine

/-! ### Trap entry (R319) -/

/-- `TRAP_ENTRY`: a stopped context whose handler waits gets a light context that has become dormant; else the team context's
oldest pending trap is taken at its boundary. A team that is being cancelled gets no further handler (R324). -/
def execTrapEntry (c : CoreId) (x : CtxId) (s : State) : Out :=
  let k := s.core c
  if (k.ctx x).run = .trapped then
    .next (if (k.handlerOf x).isNone ∧ !k.team.any (fun r => r.cancel) then s.setCore c (k.startHandler x (s.ctxid ⟨c, x⟩)) else s)
  else if x = teamCtx ∧ !k.resetting then .next (s.takePending c)
  else .next s

/-! ### Causes of a reset (R49-R52, R437) -/

/-- No reset of the engine is asked for or under way. -/
def GalleyState.quiet (g : GalleyState) : Bool := g.asked.isNone && !g.resetting

/-- `ENGINE_WATCHDOG`: 8,192 clk without progress while ISSUED and not held. -/
def execEngineWatchdog (c : CoreId) (g : Galley) (s : State) : Out :=
  let y := (s.core c).galley g
  if 8192 ≤ y.noProgress ∧ y.quiet ∧ y.issuedSlots ≠ [] then
    .next ((s.modCore c fun k => k.modGalley g fun z => { z with noProgress := 0 }).askReset c g .watchdog)
  else .next s

def execEngineAlarm (c : CoreId) (g : Galley) (protocol : Bool) (s : State) : Out :=
  .next (s.askReset c g (if protocol then .protocol else .parity))
def execControlCoreAlarm (c : CoreId) (s : State) : Out := .next (s.askCoreReset c 0)
def execOperatorRequest (c : CoreId) (s : State) : Out := .next (s.askCoreReset c 0)

/-- The engine of a CMPINJ code (R52). -/
def engOf (e : BitVec 2) : Galley := if e = 0 then .m else if e = 1 then .v else if e = 2 then .x else .k

/-- An armed injection whose DELAY has passed asks for its reset. -/
def State.cmpinj (s : State) (c : CoreId) : State :=
  match (s.core c).armed with
  | none => s
  | some a =>
    if s.now < a.due then s
    else
      let s1 := s.modCore c fun k => { k with armed := none }
      if a.core then s1.askCoreReset c 0 else s1.askReset c (engOf a.eng) .injection
/-- `CMPINJ_REQUEST`. -/
def execCmpinjRequest (c : CoreId) (s : State) : Out := .next (s.cmpinj c)

/-- The scrub period of a die in ms. -/
def Pages.scrubMs (p : Pages) (d : DieId) : Nat := bitsN p.scrubp (16 * d.val) 16
/-- The time between two scrub resets of a die, a 256th of its period, in 256ths of a clk. -/
def Pages.scrubStep (p : Pages) (d : DieId) : Nat := p.scrubMs d * 1000 * Config.clkPerUs

/-- `ROLLING_SCRUB`: the next engine in the order of cores and, within a core, M, V, X, K. -/
def execRollingScrub (die : DieId) (s : State) : Out :=
  let d := s.die die
  let step := s.pages.scrubStep die
  if step = 0 ∨ d.resetAt.isSome ∨ s.now * 256 < d.scrubAt + step then .next s
  else
    let c := coreOfNat (die.val * 64 + d.scrubNext / 4 % 64)
    let g := engOf (BitVec.ofNat 2 (d.scrubNext % 4))
    .next ((s.modDie die fun y => { y with scrubNext := (d.scrubNext + 1) % 256, scrubAt := d.scrubAt + step }).askReset c g .scrub)

/-! ### The engine reset (R50) -/

/-- Work since the mark is discarded. -/
def Slot.backToMark (y : Slot) : Slot := if y.st = .issued then { y with step := y.prog.toNat, flags := 0, ran := 0, owed := 0, early := [], held := [] } else y
def GalleyState.backToMark (g : GalleyState) : GalleyState := { g with slots := g.slots.map fun (i, y) => (i, y.backToMark) }

/-- Working ← proof for the accumulators that ISSUED M records write (R50 step 2). -/
def Core.workFromProof (k : Core) : Core :=
  { k with accW := (k.galM.issuedSlots.filterMap Slot.accWritten).foldl (fun w a => bankCopy w k.accP a) k.accW }

/-- The latches lose their rows (R275). -/
def Core.dropLatches (k : Core) (g : Galley) : Core := if g = .v then { k with latchA := none, latchB := none, latchC := none } else k

/-- An ISSUED product between two proof steps (R51). -/
def GalleyState.midProof (g : GalleyState) : Bool := g.issuedSlots.any fun y => y.isMma && y.step != y.prog.toNat

/-- Steps 1 and 2 of a reset: uncommitted work goes, and the engine is under reset until its end. -/
def Core.resetEngine (k : Core) (g : Galley) (now : Nat) : Core :=
  let k1 := if g = .m then k.workFromProof else k
  (k1.modGalley g fun z => { z.backToMark with asked := none, resetting := true, resetFrom := now, noProgress := 0, waits := none }).dropLatches g

/-- `ENGINE_RESET`: a scrub waits for a proof step (R51); one that fell due on an engine PARKED or under reset waits for that to end and is
step 1 only (R437). An idle engine takes step 1 only (R50), and a PARKED record stays PARKED (R324); with a record ISSUED the stream TLB
is filled again (R50 step 4). -/
def State.engineReset (s : State) (c : CoreId) (g : Galley) : State :=
  let k := s.core c
  let y := k.galley g
  match y.asked with
  | none => s
  | some ask =>
    if y.resetting ∨ (ask ≠ .full ∧ y.hasParked) ∨ (ask = .scrub ∧ g = .m ∧ y.midProof) then s
    else
      let k1 := k.resetEngine g s.now
      s.setCore c (if ask = .step1 ∨ y.issuedSlots = [] then k1 else k1.setTlb g [])
def execEngineReset (c : CoreId) (g : Galley) (s : State) : Out := .next (s.engineReset c g)

/-- `ENGINE_RESET_END`: the record is reloaded and resumes at PROG; its stages are checked again (R297). -/
def State.engineResetEnd (s : State) (c : CoreId) (g : Galley) : State :=
  s.modCore c fun k => k.modGalley g fun y =>
    if y.resetting then
      { y with resetting := false
               slots := y.slots.map fun (i, z) => (i, if z.st = .issued then { z with resumed := true } else z) }
    else y
def execEngineResetEnd (c : CoreId) (g : Galley) (s : State) : Out := .next (s.engineResetEnd c g)
/-- The clk by which a reset has ended: 8 clk where the engine is idle, 96 where a record runs (R50, R333). -/
def GalleyState.resetBy (g : GalleyState) : Nat := g.resetFrom + (if g.issuedSlots.isEmpty then 7 else 95)

/-! ### The control-core reset (R48) -/

/-- Dirty lines of a core's L1 pass to the L2, and the L1 is invalid (R48 step 3). -/
def State.flushL1 (s : State) (c : CoreId) : State :=
  let s1 := (s.core c).l1.foldl (fun s' e => s'.evictLine c e.1) s
  s1.modCore c fun k => { k with l1 := [] }

/-- A trap handler's run is discarded, and its context is dormant (R324). -/
def Core.endHandlers (k : Core) : Core :=
  lightCtxs.foldl (fun k' x =>
    match (k'.ctx x).role with
    | .trap _ => k'.modCtx x Ctx.sleep
    | .none | .folio _ => k') k

/-- The traps that are raised again after a replay: those pending that no PARKED record holds, then those of the PARKED
records, in galley order (R324, R321). -/
def Core.parkedTraps (k : Core) : List Trap :=
  galleys.flatMap fun g => (k.galley g).entries.filterMap fun (_, y) => if y.st = .parked then y.cause else none
def Core.trapsAfterReset (k : Core) : List Trap := (k.traps.filter fun t => !k.parkedTraps.contains t) ++ k.parkedTraps
/-- A record held by a SCHEDMISS whose handler is discarded meets its stamp again (R34, R324). -/
def Core.missAgain (k : Core) : Core :=
  galleys.foldl (fun k' g => k'.modGalley g fun y => { y with slots := y.slots.map fun (i, z) =>
    (i, if z.missed && !(z.cause.any fun t => k.traps.contains t) then { z with missed := false, cause := none } else z) }) k
/-- Walks for an instruction of a context that waits for none serve nobody (R410). -/
def State.dropIdleWalks (s : State) (c : CoreId) : State :=
  let waits := fun (x : CtxId) =>
    let y := (s.core c).ctx x
    y.run == .running && y.wait.any fun w => match w.kind with
      | .walk _ => true
      | _ => false
  s.modDie (coreDie c) fun d => { d with walks := d.walks.filter fun w => w.core != c ||
    (match w.unit with
     | .fetch x | .data x => waits x
     | .stream _ _ | .engine _ _ | .packet | .prefetch _ => true) }

/-- `CONTROL_CORE_RESET`: steps 1 to 3. Folio handlers keep their state and issue nothing until the reset's end. -/
def execControlCoreReset (c : CoreId) (s : State) : Out :=
  let k := s.core c
  if !k.resetAsked || k.resetting || (k.preempt.any Preempt.saving) then .next s
  else if k.team.isNone then .next (s.modCore c fun k' => { k' with resetAsked := false })
  else
    let k1 := ((k.freeAppended fun _ _ => true).endHandlers).missAgain
    let k2 := { k1.modCtx teamCtx fun x => { x with run := .running, wait := none, passOver := false } with
      resetAsked := false, resetting := true, traps := k.trapsAfterReset
      preempt := k.preempt.map fun p => { p with stopped := false } }
    .next ((((s.setCore c k2).flushL1 c).dropIdleWalks c).withdrawRegion c)

/-- The team context at its checkpoint, with the span's log to be replayed (R46, R48 step 5). -/
def Core.startReplay (k : Core) : Core :=
  let p := k.current
  let k1 := k.modCtx teamCtx fun x => { x with regs := p.regs, pc := p.pc, run := .running, wait := none, passOver := false }
  { k1 with proof := .none, lcnt := p.lcnt, lbase := p.lbase, lring := p.lring, pending := p.pending, resetting := false
            replay := some { log := k.rlog.filterMap Prod.snd, seqM := p.tailM, seqV := p.tailV, seqX := p.tailX
                             seqK := p.tailK, appended := p.appended, fmtPush := p.fmtPush } }

/-- `REPLAY_START`: once every load of the span has its value (R48 step 4). -/
def execReplayStart (c : CoreId) (s : State) : Out :=
  let k := s.core c
  if !k.resetting || !(k.ctx teamCtx).loadQ.isEmpty then .next s
  else if k.irrevocable then .next (s.failIrrevocable c)
  else .next (s.setCore c k.startReplay)

end Sys2Proof.Machine
end

