-- ==== Sys2Proof/Machine/Sched.lean ====
section
/-! DEFINITION. The deadline scheduler (18 R393-R403): accounts, admission, ranks, where a team may run, and the request that
stops a resident team (12 R330, 18 R400). -/
namespace Sys2Proof.Machine

/-! ### Accounts (R394-R396) -/

def State.entry? (s : State) (q : QueueId) (pos : SlotPos) : Option Entry := s.entries.find? fun e => e.queue == q && e.pos == pos
def State.modEntry (s : State) (q : QueueId) (pos : SlotPos) (f : Entry → Entry) : State :=
  { s with entries := s.entries.map fun e => if e.queue == q && e.pos == pos then f e else e }

/-- Charges of teams that have not ended: residents, and teams that are SAVED. -/
def State.openCharge (s : State) (id : BitVec 24) (l : Launch) : Nat :=
  s.cores.foldl (fun n (_, k) =>
    match k.team with
    | some r => if r.launch = id then n + r.charge else n
    | none => n) 0 +
  l.saved.foldl (fun n (i, k) =>
    if FMap.get l.teams .waiting i = .saved then
      (match k.team with
       | some r => n + r.charge
       | none => n)
    else n) 0
/-- The charge of a DATA entry's command. -/
def State.packetCharge (s : State) (q : QueueId) (pos : SlotPos) : Nat :=
  s.cores.foldl (fun n (_, k) =>
    match k.packet with
    | some p => if p.queue = q ∧ p.pos = pos then n + p.charge else n
    | none => n) 0
/-- Consumed(f), in units of 64 clk·core. -/
def State.consumed (s : State) (e : Entry) : Nat :=
  let open_ := s.launches.foldl (fun n (i, l) =>
    if l.entry.queue = e.queue ∧ l.entry.pos = e.pos then n + s.openCharge (BitVec.ofNat 24 i) l else n) 0
  (e.consumed + open_ + s.packetCharge e.queue e.pos) / 64
/-- Rem(f). -/
def State.remaining (s : State) (e : Entry) : Nat := e.budget.toNat - s.consumed e

/-- The admitted entries of a band in the accounts of a die's queues. -/
def State.inBand (s : State) (d : DieId) (b : BitVec 6) : List Entry :=
  s.entries.filter fun e => e.admitted && queueHome e.queue == d && e.band == b
/-- U[b]. -/
def State.bandUse (s : State) (d : DieId) (b : BitVec 6) : Nat := (s.inBand d b).foldl (fun n e => n + e.density) 0

/-! ### The band table (R393) -/

def bandMaxBudL (t : W64) : Nat := bitsN t 58 6
def bandMinSlice (t : W64) : Nat := bitsN t 42 16
def bandUlim (t : W64) : Nat := bitsN t 31 11
def bandShare (t : W64) : Nat := bitsN t 20 11
def bandDslice (t : W64) : Nat := bitsN t 4 16

/-! ### Admission (R394, R395) -/

/-- The demand test at one deadline. -/
def State.demandOk (s : State) (e : Entry) (share now d : Nat) : Bool :=
  let fs := (s.inBand (queueHome e.queue) e.band).filter fun f => f.deadline.toNat ≤ d
  decide (e.budget.toNat + fs.foldl (fun n f => n + s.remaining f) 0 ≤ share * (d - now) / 1024)

/-- Admit: the rejection code, or 0 with the density. -/
def State.admission (s : State) (e : Entry) : Nat × Nat :=
  let q := s.queue e.queue
  let t := (s.die (s.schedulerOf (queueHome e.queue))).band e.band.toNat
  let now := s.now
  let dl := e.deadline.toNat
  let budget := e.budget.toNat
  if q.status.getLsbD 1 then (7, 0)
  else if decide (e.band.toNat < bitsN q.qcfg 16 6) || decide (bitsN q.qcfg 22 6 < e.band.toNat) || bandShare t == 0 then (5, 0)
  else if dl ≤ now then (3, 0)
  else if budget = 0 ∨ 2 ^ bandMaxBudL t < budget then (4, 0)
  else if e.kind = .launch ∧ (e.tbudget = 0 ∨ budget < e.teams.toNat * e.tbudget.toNat) then (4, 0)
  else if e.slice ≠ 0 ∧ e.slice.toNat < bandMinSlice t then (6, 0)
  else
    let d := ceilDiv (budget * 1024) (dl - now)
    if bandUlim t < s.bandUse (queueHome e.queue) e.band + d then (1, 0)
    else
      let later := (s.inBand (queueHome e.queue) e.band).filterMap fun f => if dl < f.deadline.toNat then some f.deadline.toNat else none
      if (dl :: later).all (s.demandOk e (bandShare t) now) then (0, d) else (2, 0)

/-! ### Ranks (R399) -/

/-- Rank keys of a team, the smaller list first: band, deadline, queue, position, team. -/
def rankOf (e : Entry) (band : BitVec 6) (team : Nat) : List Nat := [63 - band.toNat, e.deadline.toNat, e.queue.val, e.pos.era, e.pos.toNat, team]
/-- The rank `a` is higher than `b`. -/
def above : List Nat → List Nat → Bool
  | [], _ => false
  | _ :: _, [] => false
  | a :: as, b :: bs => decide (a < b) || (a == b && above as bs)

/-- A resident team's rank, in the band it runs in. -/
def State.residentRank (s : State) (r : Resident) : Option (List Nat) :=
  (s.launch? r.launch).map fun l => rankOf l.entry r.band r.index.toNat

/-! ### Which teams wait (R38, R403, R405) -/

/-- The lowest index that a team store does not list: the first WAITING team. -/
def firstGap {α : Type} (n : Nat) : FMap α → Nat
  | [] => n
  | (i, _) :: rest => if i = n then firstGap (n + 1) rest else n
/-- The WAITING and SAVED teams that come next: the first of the one, all of the other. -/
def Launch.next (l : Launch) : List Nat :=
  let w := firstGap 0 l.teams
  (if w < l.entry.teams.toNat then [w] else []) ++ l.teams.filterMap fun (i, t) => if t = .saved then some i else none

/-- Every team of a launch has been placed at least once. -/
def Launch.allPlaced (l : Launch) : Bool := decide (l.entry.teams.toNat ≤ l.placed.length)

/-- The phase that a launch's graph belongs to has opened, if it has one. -/
def State.phaseOpen (s : State) (l : Launch) : Bool :=
  s.levels.all fun g => g.level != .graph || g.ended || !l.inGraph g.num g.job ||
    s.levels.all fun p => p.level != .phase || p.ended || !g.inPhase p.num p.job || p.opened

/-- Entries of the same queue taken earlier. -/
def State.earlier (s : State) (q : QueueId) (pos : SlotPos) : List Entry :=
  (s.entries.filter fun e => e.queue == q).takeWhile fun e => e.pos != pos

/-- Teams of the launch may be placed: its scheduler has the state (R418), its entry has started, earlier launches of its queue have placed all their teams, its
phase is open, nothing has stopped it (R403, R405). -/
def State.launchReady (s : State) (l : Launch) : Bool :=
  s.acts l.owner l.ctr && !l.complete && !l.stopping && (s.entry? l.entry.queue l.entry.pos).any Entry.running && s.phaseOpen l &&
  (s.earlier l.entry.queue l.entry.pos).all fun e => e.kind != .launch || s.launches.all fun (_, m) =>
    m.entry.queue != e.queue || m.entry.pos != e.pos || m.allPlaced || m.complete

/-! ### Where a team may run (R60, R293, R375, R399, R440) -/

/-- The cluster's granules of a launch's window. -/
def Cluster.windowOf (cl : Cluster) (id : BitVec 24) : List Nat := cl.granules.filterMap fun (g, o) => if o = id then some g else none
/-- The job whose launch holds a granule of a cluster. -/
def State.windowJob (s : State) (cl : ClusterId) (g : Nat) : Option (BitVec 24) :=
  match FMap.at? (s.cluster cl).granules g with
  | some id => (s.launch? id).map fun l => l.entry.job
  | none => none
/-- A granule is free for a job: no launch holds it, and no other job's pages still lie in it (R60, R69; log entry 49). -/
def State.granuleFree (s : State) (cl : ClusterId) (job : BitVec 24) (g : Nat) : Bool :=
  let lo := scratchBase cl + g * 0x1_0000
  FMap.get (s.cluster cl).granules 0 g == 0 && s.maps.all fun m => m.job == job || decide (lo + 0x1_0000 ≤ m.pa) || decide (m.pa + m.len ≤ lo)
/-- The lowest run of free granules (R60). -/
def State.freeRun (s : State) (cl : ClusterId) (job : BitVec 24) (n : Nat) : Option Nat :=
  (List.range (65 - n)).find? fun b => (List.range n).all fun i => s.granuleFree cl job (b + i)
/-- The cluster holds the launch's window, or has room for it. -/
def State.fitsWindow (s : State) (cl : ClusterId) (id : BitVec 24) (job : BitVec 24) (n : Nat) : Bool :=
  n == 0 || !((s.cluster cl).windowOf id).isEmpty || (s.freeRun cl job n).isSome

/-- The core takes a team of the launch once it is free and powered. -/
def State.suits (s : State) (c : CoreId) (id : BitVec 24) (l : Launch) (team : Nat) : Bool :=
  let k := s.core c
  !k.disabled && !k.offNext && (s.die (coreDie c)).resetAt.isNone && s.emergency == .none &&
  (l.entry.place == 0 || l.entry.place.getLsbD (coreDie c).val) && s.fitsWindow (coreCluster c) id l.entry.job l.entry.scratch.toNat &&
  (match FMap.get l.teams .waiting team with
   | .saved =>
     (l.saved.all fun (i, y) => i != team || y.pins.isEmpty || coreCluster (coreOfNat (FMap.get l.savedOn 0 i)) == coreCluster c)
   | _ => true)

/-- The band that a team runs in: a demoted team keeps its own (R398). -/
def Launch.bandOf (l : Launch) (team : Nat) : BitVec 6 :=
  match (FMap.at? l.saved team).bind Core.team with
  | some r => r.band
  | none => l.entry.band

/-- No team, no save image and no light context holds the core. -/
def Core.isFree (k : Core) : Bool := k.team.isNone && lightCtxs.all fun x => (k.ctx x).run == .dormant

/-- The teams that a scheduler may place on a core once it is free, each with its rank. -/
def State.candidates (s : State) (d : DieId) (c : CoreId) : List (List Nat × Nat × Nat) :=
  if (s.die d).resetAt.isSome then []
  else
    s.launches.flatMap fun (i, l) =>
      if s.schedulerOf l.owner = d ∧ s.launchReady l then
        l.next.filterMap fun t =>
          if s.suits c (BitVec.ofNat 24 i) l t then some (rankOf l.entry (l.bandOf t) t, i, t) else none
      else []
/-- The highest rank of a list. -/
def best : List (List Nat × Nat × Nat) → Option (List Nat × Nat × Nat)
  | [] => none
  | x :: rest =>
    match best rest with
    | some y => if above y.1 x.1 then some y else some x
    | none => some x
/-- The team that is placed next on a free core: of the die's own scheduler, else of another that PLACE lets in (R399). -/
def State.bestFor (s : State) (c : CoreId) : Option (List Nat × Nat × Nat) :=
  match best (s.candidates (coreDie c) c) with
  | some x => some x
  | none => best (allDies.flatMap fun d => if d = coreDie c then [] else s.candidates d c)

/-! ### Pre-emption of a resident team (R400, R43, R330) -/

/-- The team has been resident for its slice, which counts from its placement or from a write of LEN (R400, R402). -/
def Core.sliceOver (k : Core) (r : Resident) (now : Nat) : Bool := decide (r.sliceAt + bitsN k.slice 0 16 * 64 ≤ now)

/-- W of rank `w` may pre-empt the core's team: a higher band, or the same band, a higher rank and the slice over. One that is stopping
already counts: it is the one that W stops (R400). -/
def State.mayPreempt (s : State) (c : CoreId) (w : List Nat) : Bool :=
  let k := s.core c
  match k.team with
  | some r =>
    (match s.residentRank r with
     | some x =>
       r.state == .running &&
       (match w, x with
        | wb :: _, xb :: _ => decide (wb < xb) || (wb == xb && above w x && k.sliceOver r s.now)
        | _, _ => false)
     | none => false)
  | none => false

/-- Of the residents that W may pre-empt, the core's is of the lowest rank, and no free core takes W. -/
def State.isVictim (s : State) (c : CoreId) (w : List Nat × Nat × Nat) (cores : List CoreId) : Bool :=
  let rank := fun d => ((s.core d).team.bind s.residentRank).getD []
  s.mayPreempt c w.1 &&
  cores.all fun d =>
    let may := (s.candidates (coreDie c) d).contains w
    !(may && (s.core d).isFree) && (d == c || !may || !s.mayPreempt d w.1 || !above (rank c) (rank d))

/-- Some waiting team of the die's scheduler pre-empts the core's team. -/
def State.preempted (s : State) (c : CoreId) : Bool :=
  (s.candidates (coreDie c) c).any fun w => s.isVictim c w (coresOfDie (coreDie c))

/-- THE REQUEST reaches the team (R330): folios are refused from now on (R37), and a team that waits at a stop point stops
there (R43); one whose handler runs stops at its return (R324). -/
def State.requestPreempt (s : State) (c : CoreId) : State :=
  let k := s.core c
  if k.team.isNone || k.preempt.isSome then s
  else
    let s1 := s.setCore c { k with preempt := some ⟨s.now, false, false, !k.traps.isEmpty⟩ }
    let x := k.ctx teamCtx
    if x.run == .running && x.wait.any fun w => w.kind.isStop then s1.stopTeam c else s1

end Sys2Proof.Machine
end

