-- ==== Sys2Proof/Machine/Preempt.lean ====
section
/-! DEFINITION. A pre-emption from its request to SAVED (12 R330, 01 R44), placement and restore (15 R354, 12 R460, 02 R60, R68, R79,
19 R411), slices (18 R400-R402) and budgets (18 R398, 12 R328). -/
namespace Sys2Proof.Machine

/-! ### Request, light drain, engine stop (R330, R37, R44) -/

/-- `PREEMPTION_REQUEST`: a waiting team pre-empts the core's, or a thermal emergency saves every team (R400, R454). -/
def execPreemptionRequest (c : CoreId) (s : State) : Out :=
  let emergency := match s.emergency with
    | .saving _ _ _ => true
    | .none | .dark _ => false
  .next (if emergency || s.preempted c then s.requestPreempt c else s)

/-- `SLICE_EXPIRY`: the slice of the core's team is over, and a waiting team pre-empts it. -/
def execSliceExpiry (c : CoreId) (s : State) : Out :=
  match (s.core c).team with
  | some r => .next (if (s.core c).sliceOver r s.now && s.preempted c then s.requestPreempt c else s)
  | none => .next s

/-- The trapped context whose handler still runs, or waits for a light context. -/
def Core.servedTrap (k : Core) : Option CtxId :=
  lightCtxs.findSome? fun x =>
    match (k.ctx x).role with
    | .trap of => some of
    | .none | .folio _ => none

/-- `LIGHT_DRAIN_LIMIT`: 4,096 clk after the request a trap handler makes the team FAILED; folio handlers and queued folios are
lost and reported. A trap handler that starts only after that time, of which R330 does not speak, fails the team too (log entry 95). -/
def execLightDrainLimit (c : CoreId) (s : State) : Out :=
  let k := s.core c
  match k.preempt with
  | none => .next s
  | some p =>
    if p.saving || decide (s.now < p.since + 4096) then .next s
    else
      match k.servedTrap with
      | some x => .next (s.failTeam c (k.ctx x).trapOf (k.ctx x).tepc)
      | none =>
        let s1 := (k.runningFolios ++ k.folioQ).foldl (fun s' f => s'.folioLost c f) s
        .next ((s1.modCore c fun y =>
          { lightCtxs.foldl (fun y' x => if (y'.ctx x).run == .dormant then y' else y'.modCtx x Ctx.sleep) y with folioQ := [] }).dropIdleWalks c)

/-- An ISSUED record is CHECKED again at its mark (R44). -/
def Slot.halt (y : Slot) : Slot :=
  if y.st = .issued then { y with st := .checked, step := y.prog.toNat, flags := 0, lig := none, waived := false, early := [], held := [] } else y
/-- The engine stops its records; PIDX shows the last of them; a product's spacer starts (R44, R339). A stop clears the latches (R275). -/
def Core.stopEngine (k0 : Core) (g : Galley) (now : Nat) : Core :=
  let k := k0.dropLatches g
  match (k.galley g).issuedSlots.getLast? with
  | none => k
  | some y =>
    let k1 := k.modGalley g fun z =>
      { z with slots := z.slots.map (fun (i, w) => (i, w.halt)), noProgress := 0, waits := none, resetting := false }
    { k1 with pidx := pidxOf g y
              spacerFrom := if g = .m ∧ k.grant ∧ (k.galM.issuedSlots.any Slot.isMma) then some now else k.spacerFrom }

/-- The team context has stopped for a pre-emption or a cancel. -/
def Core.teamStopped (k : Core) : Bool := k.preempt.any Preempt.stopped

/-- `ENGINE_STOP`. -/
def execEngineStop (c : CoreId) (g : Galley) (s : State) : Out :=
  .next (if (s.core c).teamStopped then s.modCore c fun k => k.stopEngine g s.now else s)

/-- No engine of the team works. -/
def Core.enginesStopped (k : Core) : Bool := galleys.all fun g => (k.galley g).issuedSlots.isEmpty

/-! ### The save (R330, R75) -/

/-- `CONTEXT_SAVE`: with stops and drain done, the store queues drain and the image's writing begins. -/
def execContextSave (c : CoreId) (s : State) : Out :=
  let k := s.core c
  match k.preempt, k.team with
  | some p, some r =>
    if p.stopped && !p.saving && !r.cancel && k.enginesStopped && k.folioQ.isEmpty && !k.resetAsked &&
        lightCtxs.all (fun x => (k.ctx x).run == .dormant) && (k.ctx teamCtx).loadQ.isEmpty then
      .next ((lightCtxs.foldl (fun s' x => s'.drainCtx c x) (s.drainSaved c)).modCore c fun y => { y with preempt := some ⟨s.now, true, true, p.trapped⟩, wantGrant := none })
    else .next s
  | _, _ => .next s

/-- A galley as it is saved: its records, with nothing of its engine's run. -/
def GalleyState.still (g : GalleyState) : GalleyState := { g with noProgress := 0, asked := none, waits := none, resetting := false }
/-- The save image: what R330 names; light contexts, caches, TLBs and the working bank are no part of it. -/
def Core.image (k : Core) (dur : Nat) : Core :=
  { Core.fresh with
    ctxs := [(0, { k.ctx teamCtx with run := .stopped, wait := none, unacked := [] })]
    team := k.team.map fun r => { r with state := .saved }
    tiles := k.tiles, accV := k.accV, accP := k.accP, ligTab := k.ligTab, ligCnt := k.ligCnt, fmtQ := k.fmtQ, fmtPush := k.fmtPush
    galM := k.galM.still, galV := k.galV.still, galX := k.galX.still, galK := k.galK.still, sgen := k.sgen, pins := k.pins, release := k.release
    pending := k.pending, lcnt := k.lcnt, lbase := k.lbase, lring := k.lring, stoff := k.stoff, slip := k.slip, vw := k.vw
    pidx := k.pidx, wbud := k.wbud, wuse := k.wuse, budg := k.budg, dln := k.dln, slice := k.slice, pwrl := k.pwrl, scrw := k.scrw
    ckA := k.ckA, ckB := k.ckB, ckIsB := k.ckIsB, irrevocable := k.irrevocable, rlog := k.rlog, replay := k.replay
    traps := k.traps, trapEntry := k.trapEntry, saveClk := dur, measured := k.measured }

/-- `SAVE_COMPLETE`: the team is SAVED, its pins stay in force, its region returns to the manager, and the core is free. -/
def execSaveComplete (c : CoreId) (s : State) : Out :=
  let k := s.core c
  match k.preempt, k.team with
  | some p, some r =>
    (match p.saving, s.launch? r.launch with
     | true, some l =>
       let l1 := { l.setTeam r.index .saved with
         saved := FMap.insert l.saved r.index.toNat (k.image (s.now - p.since)), savedOn := FMap.insert l.savedOn r.index.toNat c.val }
       let s1 := ((s.setLaunch r.launch l1).modCore c fun y => y.release_ s.now).dropWaits c
       .next (match s.emergency with
         | .saving _ _ _ => { s1 with emgSaved := FMap.insert s1.emgSaved c.val (r.launch, r.index) }
         | .none | .dark _ => s1)
     | _, _ => .next s)
  | _, _ => .next s

/-! ### Placement (R399, R354, R60, R68) -/

/-- What belongs to the core and not to its team. -/
def Core.keepHardware (k hw : Core) : Core :=
  { k with
    disabled := hw.disabled, offNext := hw.offNext, proofTimes := hw.proofTimes, residueTimes := hw.residueTimes
    l1 := hw.l1, l1tlb := hw.l1tlb, tlbM := hw.tlbM, tlbV := hw.tlbV, tlbX := hw.tlbX, tlbK := hw.tlbK
    grant := hw.grant, spacerFrom := hw.spacerFrom, draw := hw.draw, drawClk := hw.drawClk, calmFor := hw.calmFor
    packet := hw.packet, rounds := hw.rounds, armed := hw.armed }

/-- Jobs that a cluster holds a team of: LOADING or RUNNING there, or SAVED with a stage pin there (R411). -/
def State.jobsOn (s : State) (cl : ClusterId) : List (BitVec 24) :=
  (coresOf cl).filterMap (fun c => (s.core c).job?) ++
  s.launches.flatMap fun (_, l) => l.saved.filterMap fun (i, k) =>
    if !k.pins.isEmpty && coreCluster (coreOfNat (FMap.get l.savedOn 0 i)) == cl then some l.entry.job else none
/-- The entries of jobs that the cluster no longer holds leave it. -/
def State.dropOldJobs (s : State) (cl : ClusterId) : State :=
  let held := s.jobsOn cl
  s.dropCluster cl (fun e => !held.contains e.job) fun _ => false


/-- The launch's window on a cluster, granted and zeroed if it has none yet (R60, R69); with SCRW. -/
def State.window (s : State) (cl : ClusterId) (id job : BitVec 24) (n : Nat) : W64 × State :=
  if n = 0 then (0, s)
  else
    let y := s.cluster cl
    match y.windowOf id with
    | b :: _ => (BitVec.ofNat 64 (b * 256 + n), s)
    | [] =>
      match s.freeRun cl job n with
      | none => (0, s)
      | some b =>
        let s1 := s.setCluster cl { y with granules := FMap.setMany y.granules 0 b (List.replicate n id) }
        (BitVec.ofNat 64 (b * 256 + n), s1.zeroRange (scratchBase cl + b * 0x1_0000) (n * 0x1_0000))

/-- WBUD at placement (R72, R354); WAITMAX has 24 bits, in which a greater minimum saturates (log entry 99). -/
def wbudOf (e : Entry) (ymax : W64) (kwchg : Nat) : W64 :=
  let wchg := bitsN ymax 32 32
  let w := if e.waitmax = 0 then wchg else e.waitmax.toNat
  setBits (setBits 0 0 32 e.wbud.toNat) 40 24 (min (min (min w wchg) kwchg) (2 ^ 24 - 1))
/-- The wait charge that the loader recorded for the kernel (R351). -/
def State.kernelCharge (s : State) (job : BitVec 24) (entry : W64) : Nat :=
  match (s.objects.filter fun o => o.job == job).flatMap Object.kernels |>.find? fun k => k.entry == entry with
  | some k => k.wchg
  | none => 2 ^ 32

/-- The context prepared for a new team, with copy A of its checkpoint (R354, R46). -/
def Core.prepare (e : Entry) (ctr : BitVec 18) (r : Resident) (scrw wbud : W64) (dslice : Nat) (entry : W64) : Core :=
  let x := { Ctx.fresh with pc := e.kernel, priv := e.priv, run := .running }
  let x1 := ((x.setReg 1 e.args).setReg 2 (zext64 e.arglen)).setReg 3 (zext64 ctr)
  let k := { Core.fresh with
    ctxs := [(0, x1)], team := some r, scrw := scrw, wbud := wbud, dln := e.deadline, trapEntry := entry
    budg := setBits 0 32 32 e.tbudget.toNat, slice := sliceWrite sliceReset e.slice.toNat dslice }
  { k with ckA := (k.checkpoint e.kernel).sealed, ckIsB := false }

/-- `TEAM_PLACEMENT`: the team of the highest rank that may run on the core takes it; a new one is prepared and runs, a
SAVED one waits for its image. The placement waits until its cluster has left its power state (R453). -/
def execTeamPlacement (launch team : BitVec 24) (c : CoreId) (s : State) : Out :=
  match s.launch? launch with
  | none => .next s
  | some l =>
    if !(s.core c).isFree || !((s.bestFor c).any fun b => b.2 == (launch.toNat, team.toNat)) then .next s
    else if !s.powered c then .next (s.wakeFor c)
    else
      let cl := coreCluster c
      let s1 := s.dropOldJobs cl
      let (scrw, s2) := s1.window cl launch l.entry.job l.entry.scratch.toNat
      let hw := s2.core c
      let hw1 := if hw.lastLaunch = some launch then hw
        else { hw with l1 := hw.l1.filter fun e => !e.2.stereotype || e.2.dirty }
      let e := l.entry
      let start := fun (k : Core) =>
        { k.keepHardware hw1 with lastLaunch := some launch, lastJob := some e.job, window := s.now / 4096 }
      .next (match FMap.at? l.saved team.toNat with
        | none =>
          let r : Resident := { launch := launch, index := team, job := e.job, state := .running, band := e.band
                                placedAt := s.now, sliceAt := s.now, charge := 0, overrun := false, cancel := false }
          let k := Core.prepare e l.ctr r scrw (wbudOf e s.ymax (s.kernelCharge e.job e.kernel))
            (bandDslice ((s.die (s.schedulerOf l.owner)).band e.band.toNat)) s.eweindEntry
          (s2.setCore c (start k)).setLaunch launch
            { l.setTeam team .running with placed := FMap.insert l.placed team.toNat true }
        | some img =>
          let k := { Core.fresh with
            ctxs := img.ctxs, budg := img.budg
            team := img.team.map fun r => { r with state := .loading, placedAt := s.now, sliceAt := s.now }
            scrw := scrw, trapEntry := s.eweindEntry, dfcause := hw.dfcause, dfaddr := hw.dfaddr, cmpinj := hw.cmpinj }
          (s2.setCore c (start k)).setLaunch launch (l.setTeam team .loading))

/-! ### The restore (R460, R72, R250, R402) -/

/-- SAVREST after a save and a restore. -/
def Core.measureRest (k : Core) (restore : Nat) : Core :=
  let m := min ((k.saveClk + restore) / 64) 65535
  { k with slice := setBits k.slice 16 16 (max m ((m + k.measured) / 2)), measured := m }

/-- The team makes its first fetch. -/
def State.teamRuns (s : State) (c : CoreId) : State :=
  let k := s.core c
  match k.team with
  | none => s
  | some r =>
    let s1 := s.setCore c { k.modCtx teamCtx (fun x => { x with run := .running }) with team := some { r with state := .running } }
    match s1.launch? r.launch with
    | some l => s1.setLaunch r.launch (l.setTeam r.index .running)
    | none => s1

/-- The image's context on the core, WUSE's USED 0 and BUDG's the units charged so far (R397), LEN clamped again by the new SAVREST (R402), a region asked for again. -/
def State.restoreImage (s : State) (c : CoreId) (r : Resident) (l : Launch) (img : Core) : State :=
  let hw := s.core c
  let k1 := (img.measureRest (s.now - r.placedAt)).keepHardware hw
  let k := { k1 with
    slice := sliceWrite k1.slice (bitsN k1.slice 0 16) (s.dsliceOf c), budg := setBits k1.budg 0 32 (min (r.charge / 64) (2 ^ 32 - 1)), traps := img.traps ++ hw.traps
    team := some r, scrw := hw.scrw, trapEntry := hw.trapEntry, wuse := setBits img.wuse 0 32 0, pwrl := 0
    dfcause := hw.dfcause, dfaddr := hw.dfaddr, cmpinj := hw.cmpinj, lastLaunch := hw.lastLaunch, lastJob := hw.lastJob
    window := s.now / 4096, preempt := hw.preempt, saveClk := 0 }
  let s1 := (s.setCore c k).setLaunch r.launch
    { l with saved := FMap.erase l.saved r.index.toNat, savedOn := FMap.erase l.savedOn r.index.toNat }
  if img.regionOpen then
    s1.modCluster (coreCluster c) fun cl => { cl with regionQ := cl.regionQ ++ [(c, BitVec.ofNat 4 img.regionLevel)] }
  else s1.teamRuns c

/-- `RESTORE_COMPLETE`: the image has been read back; a team whose region was open runs once the grant comes. -/
def execRestoreComplete (c : CoreId) (s : State) : Out :=
  match (s.core c).team with
  | none => .next s
  | some r =>
    if r.state ≠ .loading ∨ r.cancel then .next s
    else
      match s.launch? r.launch with
      | none => .next s
      | some l =>
        match FMap.at? l.saved r.index.toNat with
        | some img => .next (s.restoreImage c r l img)
        | none => .next (if (s.core c).regionOpen then s.teamRuns c else s)

/-! ### Budget (R398, R328) -/

/-- OVERRUN of a team: TADDR its consumed units. -/
def overrunTrap (units : Nat) : Trap := ⟨causeOverrun, 6, BitVec.ofNat 64 units, 0, none⟩

/-- The entry's overrun action, once for a team. -/
def State.overrun (s : State) (c : CoreId) (r : Resident) (ovr : BitVec 2) : State :=
  let units := r.charge / 64
  let mark := fun (f : Resident → Resident) => s.modCore c fun k => { k with team := some { f r with overrun := true } }
  if ovr = 2 then s.failTeam c (overrunTrap units) ((s.core c).ctx teamCtx).pc
  else if ovr = 1 ∧ r.band ≠ 0 then mark fun t => { t with band := t.band - 1 }
  else (mark id).raiseLater c (overrunTrap units)

/-- The team's charge, or that of a DATA packet on the core, passes its limit. -/
def State.budgetOverrun (s : State) (c : CoreId) : State :=
  let k := s.core c
  let s1 := match k.team with
    | some r =>
      (match s.launch? r.launch with
       | some l => if !r.overrun && decide (bitsN k.budg 32 32 * 64 < r.charge) then s.overrun c r l.entry.ovr else s
       | none => s)
    | none => s
  match (s1.core c).packet with
  | some p =>
    (match s1.entry? p.queue p.pos with
     | some e =>
       if p.slot.st = .issued ∧ e.budget.toNat * 64 < e.consumed + p.charge then
         s1.copyPark c .packet (overrunTrap ((e.consumed + p.charge) / 64))
       else s1
     | none => s1)
  | none => s1
/-- `BUDGET_OVERRUN`. -/
def execBudgetOverrun (c : CoreId) (s : State) : Out := .next (s.budgetOverrun c)

end Sys2Proof.Machine
end

