-- ==== Sys2Proof/Machine/Levels.lean ====
section
/-! DEFINITION. A cancel below its request (01 R41), a severed launch (01 R42, 19 R420), the release of a launch's record
(18 R405) and the return of a scratchpad window (02 R60). -/
namespace Sys2Proof.Machine

/-! ### Cancelling a level (R41) -/

/-- A resident team is to stop for a cancel: within its pre-emption bound, at once where a handler serves its trap or its
image is still being read; every trap handler ends, and its context is dormant at once (R324). -/
def State.stopForCancel (s : State) (c : CoreId) : State :=
  let k := s.core c
  match k.team with
  | none => s
  | some r =>
    let s1 := (s.setCore c { k with team := some { r with cancel := true } }).requestPreempt c
    let s2 := s1.modCore c Core.endHandlers
    (if r.state == .loading || (k.ctx teamCtx).run == .trapped then
      s2.modCore c fun y =>
        { y.modCtx teamCtx (fun x => { x with run := .stopped, wait := none }) with
          preempt := y.preempt.map fun p => { p with stopped := true } }
    else s2).dropIdleWalks c

/-- A launch is cancelled by a scheduler that acts: teams not started are dropped, each with its addition to the launch counter (R39), RUNNING ones stop (R41); by a
severing scheduler it ends severed (R42 step 1). A completed launch is not affected. -/
def State.stopLaunch (s : State) (id : BitVec 24) (sever : Bool) : State :=
  match s.launch? id with
  | none => s
  | some l =>
    if l.complete then s
    else
      let waiting := if l.cancelled then 0 else l.entry.teams.toNat - l.teams.length
      let s0 := s.setLaunch id { l with cancelled := true, stopping := true, severing := l.severing || sever }
      let s1 := if waiting = 0 then s0 else s0.addCtr l.ctr waiting true none
      s1.cores.foldl (fun s' (i, k) =>
        match k.team with
        | some r => if r.launch = id then s'.stopForCancel (coreOfNat i) else s'
        | none => s') s1

/-- A launch is cancelled; a scheduler that cannot act cancels it once it can (R418). -/
def State.cancelLaunch (s : State) (id : BitVec 24) (sever : Bool) : State :=
  match s.launch? id with
  | none => s
  | some l => if s.acts l.owner l.ctr then s.stopLaunch id sever else if l.complete then s else s.defer (.cancel id sever)
/-- What was left to be done is done where its scheduler can act now, in its order, and left where it still cannot (R418). -/
def State.resumeActs (s : State) : State :=
  State.settle (s.deferred.foldl (fun s' a =>
    match a with
    | .final id team t =>
      (match s'.launch? id with
       | some l => if s'.acts l.owner l.ctr then s'.countTeam id team t else s'.defer a
       | none => s')
    | .add lv num job err => s'.levelAdd lv num job err 4
    | .cancel id sever => s'.cancelLaunch id sever) { s with deferred := [] })

/-- A declared instance is stopping; nothing happens where none stands. -/
def State.markStopping (s : State) (lv : Level) (num job : BitVec 24) : State :=
  s.modLevel lv num job fun l => { l with stopping := true, cancelled := true }
def State.cancelGraph (s : State) (num job : BitVec 24) : State :=
  let s1 := s.markStopping .graph num job
  s1.launches.foldl (fun s' (i, l) =>
    if l.inGraph num job then s'.cancelLaunch (BitVec.ofNat 24 i) false else s') s1
def State.cancelPhase (s : State) (num job : BitVec 24) : State :=
  let s1 := s.markStopping .phase num job
  s1.levels.foldl (fun s' g =>
    if g.inPhase num job ∧ !g.ended then s'.cancelGraph g.num job else s') s1
def State.cancelJob (s : State) (job : BitVec 24) : State :=
  let s1 := s.markStopping .job job job
  s1.levels.foldl (fun s' p => if p.level = .phase ∧ p.job = job ∧ !p.ended then s'.cancelPhase p.num job else s') s1

/-- A cancel at a level, with the completions that follow at once (R41 steps 1 and 3). -/
def State.cancelLevel (s : State) (lv : Level) (num job : BitVec 24) : State :=
  State.settle
    (match lv with
     | .launch => s.cancelLaunch num false
     | .graph => if (s.level? .graph num job).isSome then s.cancelGraph num job else s
     | .phase => if (s.level? .phase num job).isSome then s.cancelPhase num job else s
     | .job => if (s.level? .job num job).isSome then s.cancelJob job else s)

/-- The scheduler can act on what a request names; it forgets one that names nothing. -/
def State.mayStop (s : State) (lv : Level) (num job : BitVec 24) : Bool :=
  match lv with
  | .launch => (s.launch? num).all fun l => s.acts l.owner l.ctr
  | .graph | .phase | .job => (s.level? lv num job).all fun l => s.acts (queueHome l.queue) l.ctr
/-- A request reaches the scheduler that owns the instance: over the peer link where that is another die's (R249, R415). -/
def State.sendCancel (s : State) (die : DieId) (lv : Level) (num job : BitVec 24) : State :=
  match s.cancelOwner lv num job with
  | some d => (s.peerMessage die d).modDie d fun y => { y with cancels := y.cancels ++ [(lv, num, job)] }
  | none => s
/-- The request names another die's instance and waits for a permit, or for that die. -/
def State.cancelWaits (s : State) (die : DieId) (lv : Level) (num job : BitVec 24) : Bool :=
  (s.cancelOwner lv num job).any fun d => d != die && !(s.mayPeer die d && (s.die d).resetAt.isNone)
/-- `LEVEL_CANCEL`: the scheduler carries out the oldest request that it has taken and can act on, or sends on one that another owns. -/
def execLevelCancel (die : DieId) (s : State) : Out :=
  let d := s.die die
  match d.resetAt, d.cancels.find? fun r => s.mayStop r.1 r.2.1 r.2.2 && !s.cancelWaits die r.1 r.2.1 r.2.2 with
  | none, some (lv, num, job) =>
    let s1 := s.setDie die { d with cancels := d.cancels.erase (lv, num, job) }
    .next (if (s.cancelOwner lv num job).any fun e => e != die then s1.sendCancel die lv num job else s1.cancelLevel lv num job)
  | _, _ => .next s

/-! ### A cancelled team (R38, R41 step 2) -/

/-- The image of a team that is not placed again goes. -/
def State.dropImage (s : State) (launch team : BitVec 24) : State :=
  match s.launch? launch with
  | none => s
  | some l =>
    s.setLaunch launch { l with saved := FMap.erase l.saved team.toNat, savedOn := FMap.erase l.savedOn team.toNat }

/-- The core where a team is resident. -/
def State.homeOf (s : State) (launch team : BitVec 24) : Option CoreId :=
  (s.cores.find? fun e => e.2.team.any fun r => r.launch == launch && r.index == team).map fun e => coreOfNat e.1

/-- `TEAM_CANCELLED`: a team whose context and engines have stopped, or a SAVED one. -/
def execTeamCancelled (launch team : BitVec 24) (s : State) : Out :=
  match s.launch? launch with
  | none => .next s
  | some l =>
    .next (match s.homeOf launch team with
      | some c =>
        let k := s.core c
        if k.team.any (fun r => r.cancel) && k.teamStopped && k.enginesStopped then (s.dropImage launch team).endTeam c .cancelled else s
      | none =>
        if l.stopping && FMap.get l.teams .waiting team.toNat == .saved then
          let used := match (FMap.at? l.saved team.toNat).bind Core.team with
            | some r => r.charge
            | none => 0
          ((s.dropImage launch team).chargeEntry launch used).teamFinal launch team .cancelled
        else s)

/-! ### Severing, release, window (R42, R405, R60) -/

/-- Teams were lost with a die. -/
def Launch.lostTeams (l : Launch) : Bool := l.teams.any fun e => e.2 == .lost

/-- The launch's record: its two bitmaps (R420). -/
def Launch.record (l : Launch) : Nat × Nat := (l.recordAt, 2 * bitmapBytes l.entry.teams.toNat)

/-- `LAUNCH_SEVER`: the launch's scheduler, where it can act and is no lost die's own, learns that a die with teams of it is lost (R42, R418). -/
def execLaunchSever (die : DieId) (launch : BitVec 24) (s : State) : Out :=
  match s.launch? launch with
  | none => .next s
  | some l =>
    if s.schedulerOf l.owner = die ∧ s.acts l.owner l.ctr ∧ !s.cutOff die ∧ l.lostTeams ∧ !l.severing ∧ !l.complete then
      .next (s.cancelLaunch launch true).settle
    else .next s

/-- `LAUNCH_RELEASE`: the entry has ended and no team remains; the counter returns to the pool, and the record's memory too, but for the
bitmaps of a severed launch. -/
def execLaunchRelease (launch : BitVec 24) (s : State) : Out :=
  match s.launch? launch with
  | none => .next s
  | some l =>
    if l.complete && l.quiet && l.entry.ended && s.acts l.owner l.ctr then
      .next { s with
        launches := FMap.erase s.launches launch.toNat
        keptRecords := if l.severed then s.keptRecords ++ [l.record] else s.keptRecords }
    else .next s

/-- Some team of the launch has pinned a stage of the cluster. -/
def State.launchPins (s : State) (cl : ClusterId) (launch : BitVec 24) : Bool :=
  ((coresOf cl).any fun c => (s.core c).team.any (fun r => r.launch == launch) && !(s.core c).pins.isEmpty) ||
  (match s.launch? launch with
   | some l => l.saved.any fun (i, k) => !k.pins.isEmpty && coreCluster (coreOfNat (FMap.get l.savedOn 0 i)) == cl
   | none => false)

/-- `SCRATCH_WINDOW_RETURN`. -/
def execScratchWindowReturn (cl : ClusterId) (launch : BitVec 24) (s : State) : Out :=
  let finished := match s.launch? launch with
    | some l => l.complete
    | none => true
  if finished && !s.launchPins cl launch then
    .next (s.modCluster cl fun y => { y with granules := y.granules.filter fun e => e.2 != launch })
  else .next s

end Sys2Proof.Machine
end

