-- ==== Sys2Proof/Machine/Slots.lean ====
section
/-! DEFINITION. Slots and completions: the ring area (17 R372, R378), the slot checks (17 R381), taking an entry (17 R382, 18 R405),
and its end (17 R384, R385). -/
namespace Sys2Proof.Machine

/-! ### The ring area (R371, R372) -/

def Queue.size (q : Queue) : Nat := 2 ^ bitsN q.qcfg 0 4
/-- Positions are counted modulo W. -/
def Queue.span (q : Queue) : Nat := q.size * 2 ^ 16
def Queue.job (q : Queue) : BitVec 24 := bits q.qcfg 28 24
def Queue.enabled (q : Queue) : Bool := q.qcfg.getLsbD 63
def Queue.stopped (q : Queue) : Bool := q.status.getLsbD 0
def Queue.failstop (q : Queue) : Bool := q.status.getLsbD 1
def Queue.inHbm (q : Queue) : Bool := q.qaddr.getLsbD 0
/-- The physical address of the header. -/
def Queue.base (q : Queue) : Nat := (if q.inHbm then 0 else hostBase) + q.qaddr.toNat / 128 * 128
/-- The physical address of the slot of a position. -/
def Queue.slotAt (q : Queue) (pos : W32) : Nat := q.base + 128 + 128 * (pos.toNat % q.size)
/-- STATUS from its parts. -/
def statusWord (pos : W32) (code : Nat) (failstop stopped : Bool) : W64 :=
  BitVec.ofNat 64 (pos.toNat * 2 ^ 32 + code % 256 * 2 ^ 16 + (if failstop then 2 else 0) + (if stopped then 1 else 0))

/-- The function that owns a queue's ring, through which the device reaches it in host memory (R368, R371). -/
def State.ringFunc (s : State) (q : QueueId) : FuncId := (s.queue q).func
/-- The device writes bytes of a queue's header. -/
def State.putRing (s : State) (q : QueueId) (pa : Nat) (data : List Byte) : State :=
  match s.place pa with
  | some .host => s.hostPut (s.ringFunc q) pa data
  | some (.hbm _) | some (.vault _ _) | some (.scratch _) => (s.writeBytes pa data).writtenLines pa data.length false
  | none => s
/-- The device writes `n` bytes of a queue's header. -/
def State.putHeader (s : State) (q : QueueId) (off n v : Nat) : State := s.putRing q ((s.queue q).base + off) (bytesOfNat v n)
def State.putHead (s : State) (q : QueueId) : State := s.putHeader q 0 4 (s.queue q).head.toNat
def State.putTail (s : State) (q : QueueId) : State := s.putHeader q 4 4 (s.queue q).tail.toNat
def State.putStatus (s : State) (q : QueueId) : State := s.putHeader q 8 8 (s.queue q).status.toNat
def State.putDbcnt (s : State) (q : QueueId) : State := s.putHeader q 0x10 8 (s.queue q).dbcnt.toNat

/-- Reading the ring: its bytes, a failed read, or a wait for a die under reset or a page request. -/
inductive RingRead where
  | ok (s : State) (data : List Byte)
  | err (s : State)
  | wait (s : State)

def State.ringRead (s : State) (q : QueueId) (pa n : Nat) : RingRead :=
  match s.place pa with
  | some .host =>
    if s.hostMissing (s.ringFunc q) pa then
      .wait (if s.pri.any fun p => p.use == .queue q then s
        else { s with pri := s.pri ++ [⟨pa, 0, .queue q⟩], outbox := s.outbox ++ [.pageRequest pa] })
    else if (s.badAt pa n).isSome then .err s
    else .ok s (s.readBytes pa n)
  | some (.hbm st) =>
    if !(s.queue q).inHbm then .err s
    else if (s.die (dieOfNat (st.val / 2))).resetAt.isSome then
      .wait (s.modQueue q fun y => { y with waitRing := some (y.waitRing.getD s.now) })
    else
      match s.badAt pa n with
      | some p => .err (s.uncorrectable p)
      | none => .ok ((s.readThrough pa n).modQueue q fun y => { y with waitRing := none }) (s.readBytes pa n)
  | some (.vault _ _) | some (.scratch _) | none => .err s

/-- The queue stops at HEAD with a code; the event follows (R381, R391). -/
def State.stopQueue (s : State) (q : QueueId) (code : Nat) (header : Bool) : State :=
  let y := s.queue q
  let s1 := s.setQueue q { y with status := statusWord y.head code y.failstop true, waitRing := none, skipping := false }
  (if header then s1.putStatus q else s1).postQ q { Event.none with kind := 1, code := code, pos := y.head.toNat }

/-! ### Slots (R374-R378) -/

/-- A slot's 128 bytes as one word. -/
abbrev SlotWord := BitVec 1024

/-- `n` bytes of a slot from an offset. -/
def slotField (w : SlotWord) (off n : Nat) : Nat := bitsN w (8 * off) (8 * n)
def slotKind (w : SlotWord) : Nat := bitsN w 44 4
/-- The slot is current for a position (R378). -/
def slotCurrent (hdr : W64) (pos size : Nat) : Bool := bitsN hdr 48 16 == (pos / size + 1) % 2 ^ 16 && bitsN hdr 44 4 != 0

def kindOf (k : Nat) : EntryKind := if k = 1 then .launch else if k = 2 then .data else if k = 4 then .declare else .nop

/-- The bits of a slot that are not reserved, as (offset, bits) pairs (R374, R375, R377). -/
def slotUses (kind level : Nat) : List (Nat × Nat) :=
  let hdr := (2, 48)
  if kind = 1 then
    [hdr, (0x08, 64), (0x10, 32), (0x14, 32), (0x18, 32), (0x1C, 32), (0x20, 64), (0x28, 64), (0x30, 32), (0x34, 24), (0x38, 64),
     (0x40, 30), (0x44, 24), (0x48, 4), (0x70, 7)]
  else if kind = 2 then
    [hdr, (0x08, 64), (0x10, 32), (0x1C, 32), (0x20, 64), (0x34, 24), (0x38, 64), (0x40, 30), (0x48, 4), (0x50, 64), (0x58, 64),
     (0x60, 64), (0x68, 64)]
  else if kind = 4 then
    [hdr, (0x14, 32), (0x34, 26), (0x38, 64), (0x40, 30), (0x44, 18)] ++ (if level = 1 then [(0x48, 24)] else [])
  else [hdr]
/-- Reserved bits of a slot are zero. -/
def slotReservedZero (w : SlotWord) : Bool :=
  let uses := slotUses (slotKind w) (bitsN w (8 * 0x34 + 24) 2)
  let mask := uses.foldl (fun m (o, n) => m ||| BitVec.ofNat 1024 ((2 ^ n - 1) * 2 ^ (8 * o))) 0
  w &&& ~~~mask == 0

def levelOfCode (c : Nat) : Level := if c = 1 then .graph else if c = 2 then .phase else .job

/-- The entry that a slot describes (R374-R377). -/
def entryOf (q : QueueId) (pos : SlotPos) (job : BitVec 24) (w : SlotWord) : Entry :=
  let f := slotField w
  let declare := slotKind w == 4
  { queue := q, pos := pos, kind := kindOf (slotKind w), job := job, die := queueHome q, barrier := w.getLsbD 43
    csigValid := w.getLsbD 42, priv := w.getLsbD 41, ovr := BitVec.ofNat 2 (bitsN w 39 2), band := BitVec.ofNat 6 (bitsN w 33 6)
    irq := w.getLsbD 32, slice := BitVec.ofNat 16 (f 2 2), deadline := BitVec.ofNat 64 (f 0x08 8), budget := BitVec.ofNat 32 (f 0x10 4)
    teams := BitVec.ofNat 32 (f 0x14 4), tbudget := BitVec.ofNat 32 (f 0x18 4), wbud := BitVec.ofNat 32 (f 0x1C 4)
    kernel := BitVec.ofNat 64 (f 0x20 8), args := BitVec.ofNat 64 (f 0x28 8), arglen := BitVec.ofNat 32 (f 0x30 4)
    level := BitVec.ofNat 24 (f 0x34 3), cdone := BitVec.ofNat 64 (f 0x38 8), csig := BitVec.ofNat 32 (f 0x40 4)
    waitmax := if declare then 0 else BitVec.ofNat 24 (f 0x44 3), place := if declare then 0 else BitVec.ofNat 4 (f 0x48 1)
    rdBase := BitVec.ofNat 64 (f 0x50 8), rdLen := BitVec.ofNat 64 (f 0x58 8), wrBase := BitVec.ofNat 64 (f 0x60 8)
    wrLen := BitVec.ofNat 64 (f 0x68 8), scratch := BitVec.ofNat 7 (f 0x70 1)
    lctr := if declare then BitVec.ofNat 18 (f 0x44 4) else 0, parent := if declare then BitVec.ofNat 24 (f 0x48 3) else 0
    declLevel := BitVec.ofNat 2 (f 0x37 1), admitted := false, running := false, ended := false, density := 0, consumed := 0
    status := 0, retired := 0, since := none }

/-- An instance that can take no further member: none, or all have joined. -/
def State.levelFull (s : State) (lv : Level) (num job : BitVec 24) : Bool :=
  match s.level? lv num job with
  | none => true
  | some l => decide (l.members ≤ l.joined)

/-- BADLEVEL (R381). -/
def State.badLevel (s : State) (e : Entry) : Bool :=
  match e.kind with
  | .launch => e.level != 0 && s.levelFull .graph e.level e.job
  | .declare =>
    let lv := levelOfCode e.declLevel.toNat
    e.declLevel == 0 || e.teams == 0 || (s.level? lv e.level e.job).isSome || !s.granted e.job e.lctr ||
      (lv == .job && e.level != e.job) || (lv == .graph && e.parent != 0 && s.levelFull .phase e.parent e.job)
  | .data | .nop => false

/-- CheckSlot: the code of the first failing check, 0 for none (R381). -/
def State.checkSlot (s : State) (q : QueueId) (w : SlotWord) : Nat :=
  let y := s.queue q
  let e := entryOf q ⟨y.era, y.head⟩ y.job w
  if 5 ≤ slotKind w then 1
  else if !slotReservedZero w || e.ovr == 3 || (e.kind == .declare && (e.band != 0 || e.ovr != 0 || e.slice != 0)) then 2
  else if e.priv && !y.qcfg.getLsbD 15 then 3
  else if ((e.kind == .launch || e.kind == .data) && e.kernel.toNat % 64 != 0) || e.cdone.toNat % 8 != 0 ||
      (e.kind == .launch && ((e.arglen != 0 && e.args == 0) || decide (65536 < e.arglen.toNat))) then 4
  else if (e.kind == .launch && (e.teams == 0 || decide (2 ^ 24 < e.teams.toNat) || decide (64 < e.scratch.toNat))) ||
      (e.csigValid && bitsN e.csig 18 12 == 0) then 5
  else if s.badLevel e then 7
  else 0

/-! ### The end of an entry (R384, R385) -/

/-- Whether an access of the scheduler in a queue's job may be made (R375, R376, R390, R412). -/
inductive WordAccess where
  | ok (pa : Nat)
  | fail (s : State) (code : BitVec 8) (pa : Option Nat)
  | wait (s : State)

def State.wordAccess (s : State) (e : Entry) (a : Access) (va : W64) (n : Nat) : WordAccess :=
  if !canonical va then .fail s causeProt none
  else
    match s.walk e.job va with
    | .fault => .fail s causeFault none
    | .prot => .fail s causeProt none
    | .memerr p => .fail (s.uncorrectable p) causeMemerr (some p)
    | .onDie _ p =>
      (match e.since with
       | some (t, at_) =>
         if t = p then (if at_ + clk100ms ≤ s.now then .fail s causeMemerr (some p) else .wait s)
         else .wait (s.modEntry e.queue e.pos fun y => { y with since := some (p, s.now) })
       | none => .wait (s.modEntry e.queue e.pos fun y => { y with since := some (p, s.now) }))
    | .hit t =>
      let pa := t.pa + (va56 va - t.va)
      let allowed := match a with
        | .read => t.r && t.u
        | .write => t.w
        | .fetch => t.x
      if !allowed || !s.reaches pa n then .fail s causeProt none
      else if s.hostMissing (s.ringFunc e.queue) pa then
        let use := PriUse.word e.queue e.pos
        .wait (if s.pri.any fun p => p.use == use then s
          else { s with pri := s.pri ++ [⟨pa, va, use⟩], outbox := s.outbox ++ [.pageRequest pa] })
      else
        match a, s.badAt pa n with
        | .read, some p => .fail (s.uncorrectable p) causeMemerr (some p)
        | _, _ => .ok pa

/-- The completion word (R384). -/
def completionWord (e : Entry) : W64 := BitVec.ofNat 64 (2 ^ 63 + e.status.toNat * 2 ^ 48 + e.retired.toNat)

/-- Admitted DATA entries that hold no interval table entry take free ones, in the order they were taken (R404). -/
def State.fillInterval (s : State) (d : DieId) : State :=
  let t := (s.die d).interval
  let more := s.entries.filter fun e =>
    e.kind == .data && e.admitted && !e.ended && s.schedulerOf (queueHome e.queue) == d && !t.contains (e.queue, e.pos)
  s.modDie d fun y => { y with interval := t ++ (more.take (64 - t.length)).map fun e => (e.queue, e.pos) }

/-- The scheduler forgets an entry that has ended, with a declared instance and an interval table entry; a launch's record
keeps that its entry has ended. -/
def State.forgetEntry (s : State) (q : QueueId) (pos : SlotPos) : State :=
  let d := s.schedulerOf (queueHome q)
  let s1 := { s with
    entries := s.entries.filter fun e => !(e.queue == q && e.pos == pos)
    levels := s.levels.filter fun l => !(l.ended && l.queue == q && l.pos == pos)
    launches := s.launches.map fun (i, (l : Launch)) =>
      (i, if l.entry.queue = q ∧ l.entry.pos = pos then { l with entry := { l.entry with ended := true } } else l) }
  (s1.modDie d fun y => { y with interval := y.interval.filter fun t => t != (q, pos) }).fillInterval d

/-- SEVERED, once the completion word has been written (R420 step 4). -/
def State.postSevered (s : State) (e : Entry) : State :=
  match s.launches.find? fun x => x.2.severed && x.2.entry.queue == e.queue && x.2.entry.pos == e.pos && !x.2.entry.ended with
  | some (_, l) =>
    s.postQ e.queue { Event.none with
      kind := 5, pos := e.pos.toNat, arg0 := BitVec.ofNat 64 (l.recordAt + bitmapBytes l.entry.teams.toNat) }
  | none => s

/-- What follows the completion word: SEVERED, and steps 3 and 4 of R385; they wait for a counter that holds (R418). -/
def State.signalEntry (s : State) (e : Entry) : State :=
  if e.csigValid ∧ s.ctrHeld (e.csig.setWidth 18) then s.modEntry e.queue e.pos fun y => { y with cdone := 0 }
  else
  let s0 := s.postSevered e
  let s1 := if e.csigValid then s0.addCtr (e.csig.setWidth 18) (bitsN e.csig 18 12) (e.status != 0) none else s0
  let y := s1.queue e.queue
  let s2 := if e.irq then { s1 with outbox := s1.outbox ++ [.msix y.func (bits y.qcfg 6 6)] } else s1
  s2.forgetEntry e.queue e.pos

/-- The completion word could not be written (R390). -/
def State.wordFails (s : State) (e : Entry) (code : BitVec 8) : State :=
  (s.postQ e.queue { Event.none with kind := 8, code := code.toNat, pos := e.pos.toNat, arg0 := e.cdone, arg1 := completionWord e }).signalEntry e

/-- Steps 2 to 4 of R385 for an entry whose status is fixed; the word's write may wait. -/
def State.finishEntry (s : State) (q : QueueId) (pos : SlotPos) : State :=
  match s.entry? q pos with
  | none => s
  | some e =>
    if !e.ended then s
    else if e.cdone = 0 then s.signalEntry e
    else
      match s.wordAccess e .write e.cdone 8 with
      | .ok pa => (((s.walked e.job e.cdone).writeNat pa (completionWord e).toNat 8).writtenLines pa 8 false).signalEntry e
      | .fail s1 code _ => s1.wordFails e code
      | .wait s1 => s1

/-- An entry leaves its band's accounts; a late one is counted (R395). -/
def State.countLate (s : State) (e : Entry) : State :=
  if e.admitted ∧ e.deadline.toNat < s.now then
    { s.modDie (s.schedulerOf (queueHome e.queue)) (fun d =>
        { d with lateEnds := FMap.set d.lateEnds 0 e.band.toNat (FMap.get d.lateEnds 0 e.band.toNat + 1) }) with
      pages := { s.pages with updated := s.platen } }
  else s

/-- An entry ends with a status: FAILSTOP of a launch under SOF, LASTFAIL, then the steps of R385. -/
def State.endEntry (s : State) (q : QueueId) (pos : SlotPos) (status : Byte) (retired : Nat) (fail : Option (BitVec 24 × Trap)) : State :=
  match s.entry? q pos with
  | none => s
  | some e =>
    let s1 := (s.countLate e).modEntry q pos fun y =>
      { y with ended := true, admitted := false, status := status, retired := BitVec.ofNat 32 retired, since := none }
    let y := s1.queue q
    let s2 := if e.kind = .launch ∧ status ≠ 0 ∧ y.qcfg.getLsbD 14 then
        (s1.setQueue q { y with status := y.status ||| 2 }).putStatus q
      else s1
    let s3 := match fail with
      | some (team, t) =>
        let v : W64 := (pos.at_ ++ t.code ++ team : BitVec 64)
        (s2.modQueue q fun z => { z with lastfail := v }).putHeader q 0x18 8 v.toNat
      | none => s2
    s3.finishEntry q pos

/-! ### Taking an entry (R382, R405) -/

/-- The counters of a die that are reserved to firmware (log entry 20). -/
def firmwareCtrs (d : DieId) : List (BitVec 18) := (List.range 4096).map fun i => BitVec.ofNat 18 (d.val * 65536 + 61440 + i)
/-- A counter of firmware's pool that no launch holds. -/
def State.freeCtr (s : State) (d : DieId) : Option (BitVec 18) :=
  (firmwareCtrs d).find? fun c => !s.launches.any fun (_, l) => l.ctr == c
/-- The next launch identifier of a die's scheduler, and the count after it (R405). -/
def State.nextLaunch (s : State) (d : DieId) : Nat → BitVec 22 → BitVec 24 × BitVec 22
  | 0, n => (BitVec.ofNat 2 d.val ++ n, n + 1)
  | fuel + 1, n =>
    let id : BitVec 24 := BitVec.ofNat 2 d.val ++ n
    if id = 0 ∨ (s.launch? id).isSome then State.nextLaunch s d fuel (n + 1) else (id, n + 1)

/-- The records that stand: of launches not released, and of severed ones (R405). -/
def State.records (s : State) : List (Nat × Nat) := s.launches.map (fun e => e.2.record) ++ s.keptRecords
/-- A place for a record of `n` bytes in the die's HBM: the first that meets no record that stands. -/
def State.freeRecord (s : State) (d : DieId) (n : Nat) : Option Nat :=
  let lo := recordBase d
  (lo :: s.records.map fun r => r.1 + r.2).find? fun p =>
    decide (lo ≤ p) && decide (p + n ≤ lo + recordSpace) && s.records.all fun r => decide (p + n ≤ r.1) || decide (r.1 + r.2 ≤ p)

/-- The graph that a launch joins, and the phase that a graph joins. -/
def State.joinLevel (s : State) (lv : Level) (num job : BitVec 24) : State :=
  if num = 0 then s else s.modLevel lv num job fun g => { g with joined := g.joined + 1 }
/-- The instance that encloses a new member is being cancelled. -/
def State.stops (s : State) (lv : Level) (num job : BitVec 24) : Bool := num != 0 && (s.level? lv num job).any LevelInst.stopping

/-- An admitted launch gets its identifier, its counter and its record, zero in both copies; one whose graph is being cancelled is
dropped. -/
def State.addLaunch (s : State) (e : Entry) (ctr : BitVec 18) (rec_ : Nat) : State :=
  let d := s.schedulerOf (queueHome e.queue)
  let y := s.die d
  let (id, n) := s.nextLaunch d (s.launches.length + 1) y.launchCount
  let l : Launch :=
    { entry := e, owner := d, ctr := ctr, teams := [], placed := [], recordAt := rec_, severing := false, severed := false
      cancelled := false, complete := false, stopping := false, failed := none, saved := [], savedOn := [] }
  let s1 := (((s.setDie d { y with launchCount := n }).zeroRange rec_ l.record.2).zeroRange (recordCopy rec_) l.record.2).setCtr ctr 0 none
  let s2 := (s1.setLaunch id l).joinLevel .graph e.level e.job
  if s2.stops .graph e.level e.job then (s2.cancelLaunch id false).settle else s2

/-- A declared instance, its counter 0 (R405). -/
def State.addLevel (s : State) (e : Entry) : State :=
  let lv := levelOfCode e.declLevel.toNat
  let l : LevelInst :=
    { level := lv, num := e.level, job := e.job, ctr := e.lctr, members := e.teams.toNat, joined := 0, parent := e.parent
      queue := e.queue, pos := e.pos, opened := lv != .phase, cancelled := false, stopping := false, ended := false, done := 0, err := false }
  let s1 := (s.setCtr e.lctr 0 none).joinLevel .phase (if lv = .graph then e.parent else 0) e.job
  let s2 := { s1 with levels := s1.levels ++ [l] }
  match lv with
  | .phase =>
    let s3 := s2.openPhase e.job
    if (s3.level? .job e.job e.job).any fun j => j.stopping then (s3.cancelPhase e.level e.job).settle else s3
  | .graph => if s2.stops .phase e.parent e.job then (s2.cancelGraph e.level e.job).settle else s2
  | .job | .launch => s2

/-- The life cycle lets an entry's work run: in Blank and Returned only firmware teams (R424). -/
def State.lifeAdmits (s : State) (e : Entry) : Bool :=
  match s.lifecycle with
  | .provisioned | .deployed => true
  | .blank | .returned | .retired => e.kind == .nop || e.kind == .declare || (e.kind == .launch && e.priv)

/-- An entry is taken; none where a launch must wait for a counter of firmware's pool or for memory for its record, a declared instance for a
counter that holds (R418), or where the life cycle admits no job (log entry 20). A NOP completes with OK also under FAILSTOP, where R382 says
both that every NOP does and that ADM_STOPPED refuses every entry (log entry 101). -/
def State.takeEntry (s : State) (e : Entry) : Option State :=
  let add := fun (y : Entry) => { s with entries := s.entries ++ [y] }
  let refuse := fun (code : Nat) => (add e).endEntry e.queue e.pos (BitVec.ofNat 8 code) 0 none
  if !s.lifeAdmits e then none
  else
  match e.kind with
  | .nop => some ((add e).endEntry e.queue e.pos 0 0 none)
  | .declare =>
    if (s.queue e.queue).failstop then some (refuse 7) else if s.ctrHeld e.lctr then none else some ((add e).addLevel e)
  | .data =>
    (match s.admission e with
     | (0, d) => some ((add { e with admitted := true, density := d }).fillInterval (s.schedulerOf (queueHome e.queue)))
     | (c, _) => some (refuse c))
  | .launch =>
    (match s.admission e with
     | (0, d) =>
       let die := s.schedulerOf (queueHome e.queue)
       (match s.freeCtr die, s.freeRecord die (2 * bitmapBytes e.teams.toNat) with
        | some ctr, some rec_ =>
          let y := { e with admitted := true, density := d, running := !e.barrier }
          some ((add y).addLaunch y ctr rec_)
        | _, _ => none)
     | (c, _) => some (refuse c))

end Sys2Proof.Machine
end

