-- ==== Sys2Proof/Machine/Queues.lean ====
section
/-! DEFINITION. Host-visible queues at work: doorbells and Recheck (17 R379-R381), commands (17 R387), DATA entries (17 R376, 18 R404),
BARRIER (18 R403), the end of an entry (17 R385). -/
namespace Sys2Proof.Machine

/-! ### Recheck (R381) -/

/-- The scheduler that serves the queue can act: its die is not under reset and has its state (R391, R418), the package has
booted (R421) and is not asleep (R453). -/
def State.serves (s : State) (q : QueueId) : Bool :=
  let d := s.die (s.schedulerOf (queueHome q))
  d.resetAt.isNone && !d.held && !(s.die (queueHome q)).held && s.boot == .ready && !s.asleep
/-- Slots are taken: not during a thermal emergency (R454). -/
def State.takes (s : State) (q : QueueId) : Bool := s.serves q && s.emergency == .none

def slotWordOf (hdr rest : List Byte) : SlotWord := BitVec.ofNat 1024 (natOfBytes (hdr ++ rest))

/-- Consume published slots between HEAD and TAIL, at most the given number. -/
def State.recheck : Nat → State → QueueId → State
  | 0, s, _ => s
  | n + 1, s, q =>
    let y := s.queue q
    if y.head == y.tail || !y.enabled || y.stopped || !s.takes q then s
    else
      let at_ := y.slotAt y.head
      match s.ringRead q at_ 8 with
      | .wait s1 => s1
      | .err s1 => s1.stopQueue q 6 true
      | .ok s1 hdr =>
        if !slotCurrent (BitVec.ofNat 64 (natOfBytes hdr)) y.head.toNat y.size then s1
        else
          match s1.ringRead q (at_ + 8) 120 with
          | .wait s2 => s2
          | .err s2 => s2.stopQueue q 6 true
          | .ok s2 rest =>
            let w := slotWordOf hdr rest
            let code := s2.checkSlot q w
            if code ≠ 0 then s2.stopQueue q code true
            else
              match s2.takeEntry (entryOf q ⟨y.era, y.head⟩ y.job w) with
              | none => s2
              | some s3 =>
                let s4 := (s3.modQueue q fun z => { z with head := BitVec.ofNat 32 ((y.head.toNat + 1) % y.span) }).putHead q
                State.recheck n s4 q
/-- Recheck to its end: a ring holds at most 4,096 slots. -/
def State.recheckAll (s : State) (q : QueueId) : State := s.recheck 4097 q

/-! ### Doorbells (R379, R380, R391) -/

/-- One doorbell value is applied. -/
def State.applyDoorbell (s : State) (q : QueueId) (v : W32) : State :=
  let y := s.queue q
  if !y.enabled then s
  else
    let w := y.span
    let x := v.toNat % w
    let d := (x + w - y.tail.toNat % w) % w
    let s1 :=
      if d = 0 ∨ w / 2 ≤ d then
        (s.setQueue q { y with dbcnt := setBits y.dbcnt 32 32 (satAdd (bitsN y.dbcnt 32 32) 1 32) }).putDbcnt q
      else if y.size < (x + w - y.head.toNat % w) % w then
        (((s.setQueue q { y with dbcnt := setBits y.dbcnt 0 32 (satAdd (bitsN y.dbcnt 0 32) 1 32) }).putDbcnt q).postQ q
          { Event.none with kind := 4, arg0 := BitVec.ofNat 64 x, arg1 := zext64 y.tail })
      else (s.setQueue q { y with tail := BitVec.ofNat 32 x }).putTail q
    s1.recheckAll q

/-- A value arrives: it is held where the scheduler cannot act, and behind values that are held. -/
def State.arriveDoorbell (s : State) (q : QueueId) (v : W32) : State :=
  let y := s.queue q
  if !y.enabled then s
  else if !s.serves q || !y.heldDb.isEmpty then s.setQueue q { y with heldDb := y.heldDb ++ [v] }
  else s.applyDoorbell q v

/-- `DEVICE_DOORBELL`: the oldest value on its way, from a counter's update or held at the hub, is applied; a package
that sleeps leaves its state for it (R453). -/
def execDeviceDoorbell (q : QueueId) (s : State) : Out :=
  match (s.queue q).heldDb with
  | v :: rest => .next (if s.serves q then (s.modQueue q fun y => { y with heldDb := rest }).applyDoorbell q v else s.wakePackage .active)
  | [] => .next s

/-! ### Commands (R387) -/

/-- STOPPED, CODE and FAILSTOP clear, and the slot at HEAD is read again. -/
def State.clearStop (s : State) (q : QueueId) : State :=
  ((s.modQueue q fun y => { y with status := setBits (setBits y.status 0 2 0) 16 8 0, skipping := false, waitRing := none }).putStatus
    q).recheckAll q
/-- A queue that is not stopped loses FAILSTOP only. -/
def State.clearFailstop (s : State) (q : QueueId) : State := (s.modQueue q fun y => { y with status := setBits y.status 1 1 0 }).putStatus q

def State.resumeQueue (s : State) (q : QueueId) : State := if (s.queue q).stopped then s.clearStop q else s.clearFailstop q
def execResume (q : QueueId) (s : State) : Out := .next (s.resumeQueue q)

/-- HEAD passes the skipped slot, and STOPPED clears. -/
def State.passSlot (s : State) (q : QueueId) : State :=
  let y := s.queue q
  ((s.modQueue q fun z => { z with head := BitVec.ofNat 32 ((y.head.toNat + 1) % y.span) }).putHead q).clearStop q
/-- The entry at HEAD completes as SKIPPED, and HEAD passes it; a slot that cannot be read is passed without (log entry 53), and one whose
read waits keeps the skip waiting. -/
def State.skipEntry (s : State) (q : QueueId) : State :=
  let y := s.queue q
  match s.ringRead q (y.slotAt y.head) 128 with
  | .ok s1 b =>
    let e := entryOf q ⟨y.era, y.head⟩ y.job (BitVec.ofNat 1024 (natOfBytes b))
    (if e.cdone.toNat % 8 = 0 then ({ s1 with entries := s1.entries ++ [e] } : State).endEntry q e.pos 0x20 0 none else s1).passSlot q
  | .err s1 => s1.passSlot q
  | .wait s1 => s1.modQueue q fun z => { z with skipping := true }

/-- RESUME with SKIP. -/
def State.resumeSkip (s : State) (q : QueueId) : State := if (s.queue q).stopped then s.skipEntry q else s.clearFailstop q
/-- What a queue does once memory that it waited for may answer: a waiting skip goes on, else Recheck runs. -/
def State.retryQueue (s : State) (q : QueueId) : State :=
  if (s.queue q).skipping then (if s.serves q then s.skipEntry q else s) else s.recheckAll q
/-- The read that a queue waits for fails: a waiting skip passes its slot, else the queue stops with READERR (R381, R419). -/
def State.readFails (s : State) (q : QueueId) (header : Bool) : State :=
  if (s.queue q).skipping then s.passSlot q else s.stopQueue q 6 header
def execResumeSkip (q : QueueId) (s : State) : Out := .next (s.resumeSkip q)

/-- `PERIODIC_RECHECK`: every 3,600 clk while HEAD ≠ TAIL. -/
def execPeriodicRecheck (q : QueueId) (s : State) : Out :=
  let y := s.queue q
  if y.head ≠ y.tail ∧ y.recheckAt + 3600 ≤ s.now then
    .next ((s.setQueue q { y with recheckAt := s.now }).retryQueue q)
  else .next s

/-- A queue's scheduler sends a cancel to the scheduler that owns the instance (R249, R387), or keeps it until it can (R415). -/
def State.askCancel (s : State) (q : QueueId) (lv : Level) (num job : BitVec 24) : State :=
  let die := s.schedulerOf (queueHome q)
  if s.cancelWaits die lv num job then s.modDie die fun y => { y with cancels := y.cancels ++ [(lv, num, job)] }
  else s.sendCancel die lv num job
/-- The launch of a taken position. -/
def State.launchAt (s : State) (q : QueueId) (pos : W32) : Option (BitVec 24) :=
  let p : SlotPos := ⟨(s.queue q).era, pos⟩
  if (s.entry? q p).isSome then
    (s.launches.find? fun e => e.2.entry.queue == q && e.2.entry.pos == p && !e.2.complete).map fun e => BitVec.ofNat 24 e.1
  else none
def State.cancelPosition (s : State) (q : QueueId) (pos : W32) : State :=
  match s.launchAt q pos with
  | some id => s.askCancel q .launch id (s.queue q).job
  | none => s

def execCmdCancelLaunch (q : QueueId) (arg : BitVec 32) (s : State) : Out := .next (s.cancelPosition q arg)
def execCmdCancelLevel (q : QueueId) (l : Level) (arg : BitVec 32) (s : State) : Out :=
  match l with
  | .launch => .next (s.cancelPosition q arg)
  | .graph | .phase | .job => .next (s.askCancel q l (arg.setWidth 24) (s.queue q).job)

/-! ### Entries (R403, R404, R376) -/

/-- `BARRIER_ENTRY_START`: every earlier entry of the queue has ended. -/
def execBarrierEntryStart (q : QueueId) (s : State) : Out :=
  match s.entries.filter fun e => e.queue == q with
  | e :: _ =>
    if e.barrier && e.admitted && !e.ended then
      .next (s.modEntry q e.pos fun y => { y with barrier := false, running := e.kind == .launch || e.running })
    else .next s
  | [] => .next s

/-- A copy control block (R376). -/
structure Ccb where
  form : Nat
  core : Nat
  zero : Bool
  d : W64
  a : W64
  b : W64
  f : W64
  w1 : W32
def ccbOf (w : BitVec 512) : Ccb :=
  let f := fun o n => bitsN w (8 * o) (8 * n)
  { form := f 0 1, core := f 1 1, zero := f 2 6 == 0 && f 0x2C 20 == 0, d := BitVec.ofNat 64 (f 0x08 8), a := BitVec.ofNat 64 (f 0x10 8)
    b := BitVec.ofNat 64 (f 0x18 8), f := BitVec.ofNat 64 (f 0x20 8), w1 := BitVec.ofNat 32 (f 0x28 4) }
/-- The primary of a form. -/
def Ccb.op (c : Ccb) : Nat :=
  match c.form with
  | 1 => 0xE8
  | 2 => 0xE9
  | 3 => 0xEA
  | 4 | 5 => 0xEB
  | 6 | 7 => 0xEC
  | 8 => 0xED
  | 9 => 0xEE
  | _ => 0xFA
/-- The second word that the form's command may have. -/
def Ccb.wordOk (c : Ccb) : Bool :=
  match c.form with
  | 3 => true
  | 4 | 6 => c.w1 == 0
  | 5 | 7 => c.w1 == 1
  | _ => c.w1 == 0

/-- The trap that the command's checks raise, if any; `at_` is the block's address (R376, R301, R307). -/
def State.ccbTrap (s : State) (job : BitVec 24) (c : Ccb) (at_ : W64) : Option Trap :=
  let ill := some (Trap.plain causeIllegal at_)
  if c.form = 0 ∨ 10 < c.form ∨ !c.zero ∨ !c.wordOk ∨ (c.form = 10 ∧ c.core = 0xFF) then ill
  else if c.form = 10 then
    if !s.ownsGroup job c.b then some (.plain causeProt c.b)
    else if c.a.toNat % 64 ≠ 0 then some (.plain causeAlign c.a)
    else none
  else (CopyCmd.mk c.op c.d c.a c.b c.f c.w1).check at_

/-- A core's engine may take a packet. -/
def State.packetFits (s : State) (e : Entry) (c : CoreId) : Bool :=
  let k := s.core c
  !k.disabled && k.packet.isNone && (s.die (coreDie c)).resetAt.isNone && s.emergency == .none && (e.place == 0 || e.place.getLsbD (coreDie c).val)
/-- The core that runs the command: the one named, else the lowest that fits, of those that are powered if there is one (R376, log entry
87). -/
def State.packetCore (s : State) (e : Entry) (c : Ccb) : Option CoreId :=
  if c.core = 0xFF then (allCores.find? fun d => s.packetFits e d && s.powered d).orElse fun _ => allCores.find? (s.packetFits e)
  else if s.packetFits { e with place := 0 } (coreOfNat c.core) then some (coreOfNat c.core) else none

/-- Two declared ranges meet, as addresses of the job. -/
def rangesMeet (a : W64) (n : W64) (b : W64) (m : W64) : Bool :=
  n != 0 && m != 0 && decide (a.toNat < b.toNat + m.toNat) && decide (b.toNat < a.toNat + n.toNat)
/-- A hazard of N with an older entry E (R404). -/
def Entry.hazard (n e : Entry) : Bool :=
  n.job == e.job && (rangesMeet n.rdBase n.rdLen e.wrBase e.wrLen || rangesMeet n.wrBase n.wrLen e.rdBase e.rdLen ||
    rangesMeet n.wrBase n.wrLen e.wrBase e.wrLen)

/-- The packet on a core's engine. -/
def Entry.packetFor (e : Entry) (c : Ccb) (now : Nat) : Packet :=
  let body := { Record.zero with w0 := BitVec.ofNat 32 c.op, w1 := c.w1, o0 := c.d, o1 := c.a, o2 := c.b, o3 := c.f }
  { queue := e.queue, pos := e.pos, job := e.job, collective := c.form == 10, slot := { Slot.fresh with body := body, st := .issued }
    wbud := e.wbud, used := 0, window := now / 4096, charge := 0 }

/-- A DATA entry fails: LASTFAIL and TEAMFAIL take its cause (R376). -/
def State.failData (s : State) (e : Entry) (core : Nat) (t : Trap) : State :=
  (s.postQ e.queue { Event.none with kind := 2, code := t.code.toNat, core := core, pos := e.pos.toNat, arg0 := t.addr }).endEntry
    e.queue e.pos 0x10 0 (some (0, t))

/-- `DATA_ENTRY_START`: entry `i` of the interval table, its hazards ended, reads its block and goes to a core's engine; a
cluster that is to run it leaves its power state first, as for a team (R453, log entry 102). -/
def execDataEntryStart (die : DieId) (i : Nat) (s : State) : Out :=
  let t := (s.die die).interval
  match t.drop i with
  | [] => .next s
  | (q, pos) :: _ =>
    match s.entry? q pos with
    | none => .next s
    | some e =>
      let older := (t.take i).filterMap fun x => s.entry? x.1 x.2
      if e.running || e.ended || e.barrier || !s.serves q || older.any e.hazard then .next s
      else
        match s.wordAccess e .read e.kernel 64 with
        | .wait s1 => .next s1
        | .fail s1 code _ => .next (s1.failData e 0xFF (.plain code e.kernel))
        | .ok pa =>
          let c := ccbOf (BitVec.ofNat 512 (s.readNat pa 64))
          match s.ccbTrap e.job c e.kernel with
          | some trap => .next (s.failData e (if c.core = 0xFF then 0xFF else c.core) trap)
          | none =>
            match s.packetCore e c with
            | some k =>
              if !s.powered k then .next (s.wakeFor k)
              else
              .next ((((s.walked e.job e.kernel).readThrough pa 64).modEntry q pos fun y => { y with running := true, since := none }).modCore k fun y =>
                { y with packet := some (e.packetFor c s.now) })
            | none => .next s

/-- The core that holds an entry's packet. -/
def State.packetHome (s : State) (q : QueueId) (pos : SlotPos) : Option (CoreId × Packet) :=
  s.cores.findSome? fun (i, k) => k.packet.bind fun p => if p.queue = q ∧ p.pos = pos then some (coreOfNat i, p) else none

/-- A packet's command has done all its units. -/
def Packet.finished (p : Packet) : Bool :=
  if p.collective then p.slot.prog == 1 else decide (p.slot.copyUnits ≤ p.slot.prog.toNat)

/-- The status with which a launch ends (R384). -/
def Launch.status (l : Launch) : Byte :=
  if l.severed then 0x12
  else if l.teams.any fun t => t.2 == .failed then 0x10
  else if l.teams.any (fun t => t.2 == .cancelled) || (l.cancelled && decide (l.teams.length < l.entry.teams.toNat)) then 0x11
  else 0

/-- The end condition of an entry, with its status, its count, and for FAILED the team and the trap. -/
def State.entryOutcome (s : State) (e : Entry) : Option (Byte × Nat × Option (BitVec 24 × Trap)) :=
  match e.kind with
  | .launch =>
    (match s.launches.find? fun x => x.2.entry.queue == e.queue && x.2.entry.pos == e.pos && x.2.complete && !x.2.entry.ended with
     | some (_, l) =>
       let fail := if l.status = 0x10 then l.failed.map (fun f => (f.1, f.2.1)) else none
       some (l.status, (l.teams.filter fun t => t.2 == .retired).length, fail)
     | none => none)
  | .declare =>
    (match s.levels.find? fun l => l.queue == e.queue && l.pos == e.pos && l.ended with
     | some l => some (if l.cancelled then 0x11 else if l.err then 0x10 else 0, l.done, none)
     | none => none)
  | .data | .nop => none

/-- An entry ends where its end condition holds, or goes on with its end. -/
def State.entryEnds (s : State) (e : Entry) : State :=
  if e.ended then s.finishEntry e.queue e.pos
  else
    match s.packetHome e.queue e.pos with
    | some (c, p) =>
      let s1 := (s.modCore c fun k => { k with packet := none }).modEntry e.queue e.pos fun y => { y with consumed := y.consumed + p.charge }
      (match p.slot.st, p.slot.cause with
       | .parked, some t => s1.failData e c.val t
       | _, _ => if p.finished then s1.endEntry e.queue e.pos 0 0 none else s)
    | none =>
      match s.entryOutcome e with
      | some (status, n, fail) => s.endEntry e.queue e.pos status n fail
      | none => s
/-- `ENTRY_END`: of the entry at a position, and of one that an earlier ring left running there (R373). -/
def execEntryEnd (q : QueueId) (pos : BitVec 32) (s : State) : Out :=
  .next (if s.serves q then (s.entries.filter fun e => e.queue == q && e.pos.at_ == pos).foldl State.entryEnds s else s)

end Sys2Proof.Machine
end

