-- ==== Sys2Proof/Machine/Windows.lean ====
section
/-! DEFINITION. The two windows of a PCIe function: control registers (17 R370, R371, R373, R388), the memory window (17 R369), and the
answers to page requests (17 R368). -/
namespace Sys2Proof.Machine

/-! ### Registers of a queue (R371, R373) -/

/-- WINFAIL (R390). -/
def State.winFail (s : State) (code off : Nat) : State :=
  s.post 0 { Event.none with kind := 7, code := code, arg0 := BitVec.ofNat 64 off }
/-- The window offset of a queue's configuration block. -/
def queueBlock (q : QueueId) : Nat := 0x2_0000 + 32 * q.val

/-- A write of QADDR from the PF: set, or refused with WINFAIL. -/
def State.writeQaddr (s : State) (q : QueueId) (v : W64) : State :=
  let y := s.queue q
  if bitsN v 1 6 ≠ 0 ∨ (y.enabled ∧ v ≠ y.qaddr) then s.winFail 3 (queueBlock q)
  else s.setQueue q { y with qaddr := v, fresh := true }

/-- The value of a QCFG write is refused. -/
def qcfgBad (old v : W64) : Bool :=
  bitsN v 57 6 != 0 || bitsN v 12 2 != 0 || bitsN v 4 2 != 0 || bitsN v 0 4 == 0 || decide (12 < bitsN v 0 4) ||
  decide (bitsN v 22 6 < bitsN v 16 6) || decide (16 < bitsN v 52 5) ||
  (old.getLsbD 63 && (old ^^^ v).setWidth 63 != 0)

/-- ENABLE goes from 0 to 1: a new ring's header is zeroed; else the queue resumes from its last HEAD and TAIL. -/
def State.enableQueue (s : State) (q : QueueId) : State :=
  let y := s.queue q
  if y.fresh then
    (s.setQueue q { y with
      fresh := false, head := 0, tail := 0, status := 0, dbcnt := 0, lastfail := 0, waitRing := none, skipping := false
      era := y.era + 1 }).putRing q y.base (List.replicate 128 0)
  else s
/-- A write of QCFG from the PF. -/
def State.writeQcfg (s : State) (q : QueueId) (v : W64) : State :=
  let y := s.queue q
  if qcfgBad y.qcfg v then s.winFail 3 (queueBlock q + 8)
  else
    let s1 := s.setQueue q { y with qcfg := v }
    if !y.enabled && v.getLsbD 63 then s1.enableQueue q else s1

/-- The windows answer, from boot step 7 on (R421). -/
def State.windowOpen (s : State) : Bool := s.boot == .ready
/-- A write by the PF; from a VF the configuration block ignores writes (R370). -/
def State.fromPf (s : State) (f : FuncId) (act : State → State) : State := if f = 0 then act s else s

/-! ### Event registers (R371, R388) -/

/-- A write of EVCFG; a ring that becomes enabled has its header written, with what was dropped before (log entry 23). -/
def State.writeEvcfg (s : State) (f : FuncId) (v : W64) : State :=
  let g := s.func f
  if bitsN v 4 59 ≠ 0 ∨ bitsN v 0 4 < 4 then s.winFail 3 0x3_0008
  else
    let s1 := s.setFunc f { g with evcfg := v }
    if v.getLsbD 63 && !g.evcfg.getLsbD 63 then (s1.hostPut f g.ring (bytesOfNat g.prod.toNat 4)).putOvf f else s1
/-- ACKOVF clears OVF, in the ring's header too. -/
def State.ackOvf (s : State) (f : FuncId) : State :=
  let g := s.func f
  let s1 := s.setFunc f { g with ovf := false }
  if g.evcfg.getLsbD 63 then s1.hostPut f (g.ring + 4) (bytesOfNat 0 4) else s1
def State.writeEvcons (s : State) (f : FuncId) (v : W64) : State :=
  let s1 := s.setFunc f { s.func f with evcons := zext64 (v.setWidth 32) }
  if v.getLsbD 32 then s1.ackOvf f else s1

/-! ### Any write of the control window (R370) -/

/-- A CMD write (R371, R387). -/
def State.command (s : State) (q : QueueId) (v : W64) : State :=
  let arg : W32 := bits v 32 32
  if bitsN v 4 4 = 1 then
    if v.getLsbD 3 then s.resumeSkip q else s.resumeQueue q
  else if bitsN v 4 4 = 2 then
    if bitsN v 0 2 = 0 then s.cancelPosition q arg else s.askCancel q (levelOfCode (bitsN v 0 2)) (arg.setWidth 24) (s.queue q).job
  else s

/-- The register that a byte belongs to, as its offset and size; none where the byte is reserved. -/
def registerAt (off : Nat) : Option (Nat × Nat) :=
  if off < 0x2_0000 then
    (if off % 64 / 4 = 0 ∨ off % 64 / 4 = 4 ∨ off % 64 / 4 = 5 then some (off / 4 * 4, 4)
     else if off % 64 / 8 = 1 then some (off / 8 * 8, 8)
     else none)
  else if off < 0x3_0000 then (if off % 32 < 0x18 then some (off / 8 * 8, 8) else none)
  else if off < 0x3_0018 then some (off / 8 * 8, 8)
  else none
/-- The access is naturally aligned, of 4 or 8 bytes, and either one whole register or reserved bytes alone. -/
def registerAccessOk (off size : Nat) : Bool :=
  (size == 4 || size == 8) && off % size == 0 && (List.range size).all fun i => (registerAt (off + i)).all fun r => r == (off, size)

/-- A function owns a queue's doorbell page. -/
def State.ownsPage (s : State) (f : FuncId) (q : QueueId) : Bool := (s.queue q).func == f

/-- A write at an offset of a function's control window. -/
def State.writeRegister (s : State) (f : FuncId) (off size : Nat) (v : W64) : State :=
  if !registerAccessOk off size then s.winFail 2 off
  else if off < 0x2_0000 then
    let q := queueOfNat (off / 64)
    if !s.ownsPage f q then s
    else if off % 64 = 0 then s.arriveDoorbell q (v.setWidth 32)
    else if off % 64 = 8 then s.command q v
    else s
  else if off < 0x3_0000 then
    let q := queueOfNat ((off - 0x2_0000) / 32)
    s.fromPf f fun s1 =>
      if off % 32 = 0 then s1.writeQaddr q v
      else if off % 32 = 8 then s1.writeQcfg q v
      else if off % 32 = 0x10 then s1.modQueue q fun y => { y with qdb := zext64 (v.setWidth 19) }
      else s1
  else if off = 0x3_0000 then s.setFunc f { s.func f with evbase := v &&& ~~~31 }
  else if off = 0x3_0008 then s.writeEvcfg f v
  else if off = 0x3_0010 then s.writeEvcons f v
  else s

/-- What a read of the control window gives; a misaligned one reads as zero and posts WINFAIL (R370). -/
def State.readRegister (s : State) (f : FuncId) (off size : Nat) : W64 × State :=
  if !registerAccessOk off size then (0, s.winFail 1 off)
  else if off < 0x2_0000 then
    let q := queueOfNat (off / 64)
    let y := s.queue q
    if !s.ownsPage f q then (0, s)
    else if off % 64 = 0x10 then (zext64 y.head, s)
    else if off % 64 = 0x14 then (zext64 (y.status.setWidth 32), s)
    else (0, s)
  else if off < 0x3_0000 then
    let y := s.queue (queueOfNat ((off - 0x2_0000) / 32))
    if f ≠ 0 then (0, s)
    else if off % 32 = 0 then (y.qaddr, s)
    else if off % 32 = 8 then (y.qcfg, s)
    else if off % 32 = 0x10 then (y.qdb, s)
    else (0, s)
  else if off = 0x3_0000 then ((s.func f).evbase, s)
  else if off = 0x3_0008 then ((s.func f).evcfg, s)
  else if off = 0x3_0010 then ((s.func f).evcons, s)
  else (0, s)

/-! ### The memory window (R369, R421, R453) -/

/-- Where a piece of a window access goes: to a place, nowhere (an uncorrectable error in the walk's table is then named), to a table in
the HBM of a die under reset, or to a host page that is absent. -/
inductive WindowPlace where
  | ok (pa : Nat)
  | fail (bad : Option Nat)
  | onDie (pa : Nat)
  | noPage (pa : Nat)

/-- The PF names HBM bytes; a VF names virtual addresses of its job, with the user's rights; a stereotype page is written like any
other (R78). -/
def State.windowPlace (s : State) (f : FuncId) (a : Access) (va : W64) (n : Nat) : WindowPlace :=
  if f = 0 then (if isHbm va.toNat && s.reaches va.toNat n then .ok va.toNat else .fail none)
  else
    match s.walk (s.func f).job va with
    | .fault | .prot => .fail none
    | .memerr p => .fail (some p)
    | .onDie _ p => .onDie p
    | .hit e =>
      match s.checkEntry { e with st := false } false a va with
      | .ok pa _ => if !s.reaches pa n then .fail none else if s.hostMissing f pa then .noPage pa else .ok pa
      | .miss | .trap _ => .fail none

/-- The places of all pieces, or what the first piece without one meets. -/
def State.windowPlaces (s : State) (f : FuncId) (a : Access) : List (W64 × Nat) → Except WindowPlace (List (Nat × Nat))
  | [] => .ok []
  | (va, n) :: rest =>
    match s.windowPlace f a va n with
    | .ok pa =>
      (match State.windowPlaces s f a rest with
       | .ok l => .ok ((pa, n) :: l)
       | .error e => .error e)
    | e => .error e

/-- The walks of a VF's pieces have read their tables (R410, R431). -/
def State.windowWalks (s : State) (f : FuncId) (ps : List (W64 × Nat)) : State :=
  if f = 0 then s else ps.foldl (fun s' p => s'.walked (s.func f).job p.1) s

/-- Bytes to a list of runs, with the lines that change hands. -/
def State.windowPut (s : State) (runs : List (Nat × Nat)) (data : List Byte) : State :=
  match runs with
  | [] => s
  | (pa, n) :: rest => State.windowPut ((s.writeBytes pa (data.take n)).writtenLines pa n false) rest (data.drop n)

/-! ### Host accesses in their order (R144, R368-R370) -/

/-- How a host access goes: it is done, or waits: for the package to wake, for a die that holds a table, for a page of the host. -/
inductive HostEnd where
  | done (s : State)
  | asleep
  | onDie (pa : Nat)
  | noPage (pa : Nat)

/-- The answer Unsupported Request to a read. -/
def State.answerUr (s : State) : State := { s with outbox := s.outbox ++ [.windowUr] }
/-- A host access that cannot be served: Unsupported Request or nothing written, and WINFAIL (R369). -/
def State.hostFails (s : State) (a : HostAct) : State :=
  match a with
  | .windowRead _ off _ => (s.winFail 1 off.toNat).answerUr
  | .windowWrite _ off _ => s.winFail 2 off.toNat
  | .registerRead _ _ _ | .registerWrite _ _ _ _ | .doorbell _ _ => s
/-- What a piece without a place makes of the access. -/
def State.hostStuck (s : State) (a : HostAct) : WindowPlace → HostEnd
  | .onDie pa => .onDie pa
  | .noPage pa => .noPage pa
  | .fail (some p) => .done ((s.uncorrectable p).hostFails a)
  | .fail none | .ok _ => .done (s.hostFails a)
def State.windowRead (s : State) (f : FuncId) (off : BitVec 39) (size : Nat) : HostEnd :=
  let a := HostAct.windowRead f off size
  match s.windowPlaces f .read (pieces (zext64 off) size) with
  | .error e => s.hostStuck a e
  | .ok runs =>
    match runs.findSome? fun (pa, n) => s.badAt pa n with
    | some p => .done ((s.uncorrectable p).hostFails a)
    | none =>
      let s1 := (s.windowWalks f (pieces (zext64 off) size)).readAll runs
      .done { s1 with outbox := s1.outbox ++ [.windowData (runs.flatMap fun (pa, n) => s.readBytes pa n)] }
def State.windowWrite (s : State) (f : FuncId) (off : BitVec 39) (data : List Byte) : HostEnd :=
  match s.windowPlaces f .write (pieces (zext64 off) data.length) with
  | .error e => s.hostStuck (.windowWrite f off data) e
  | .ok runs => .done ((s.windowWalks f (pieces (zext64 off) data.length)).windowPut runs data)
/-- One host access; while the package sleeps it waits for its exit (R453). -/
def State.hostAct (s : State) (a : HostAct) : HostEnd :=
  if s.asleep then .asleep
  else
  match a with
  | .windowRead f off size => s.windowRead f off size
  | .windowWrite f off data => s.windowWrite f off data
  | .registerRead f off size =>
    .done (match s.readRegister f off.toNat size with
      | (v, s1) => { s1 with outbox := s1.outbox ++ [.registerData v] })
  | .registerWrite f off size v => .done (s.writeRegister f off.toNat size v)
  | .doorbell q v => .done (s.arriveDoorbell q v)

/-- The oldest waiting access asks for its host page. -/
def State.askWindow (s : State) (pa : Nat) : State :=
  if s.pri.any fun p => p.use == .window then s
  else { s with pri := s.pri ++ [⟨pa, 0, .window⟩], outbox := s.outbox ++ [.pageRequest pa] }
/-- What a waiting access leaves behind: a table read of its walk, with the clk of its issue (R412), or a page request. -/
def HostHeld.wait (h : HostHeld) (now : Nat) : HostEnd → HostHeld
  | .onDie pa => if h.since.any fun t => t.1 == pa then h else { h with since := some (pa, now) }
  | .noPage _ | .asleep | .done _ => { h with since := none }
/-- A table read of a window access that a die under reset has held for 100 ms (R412). -/
def HostHeld.due (h : HostHeld) (now : Nat) : HostEnd → Bool
  | .onDie pa => h.since.any fun t => t.1 == pa && decide (t.2 + clk100ms ≤ now)
  | .noPage _ | .asleep | .done _ => false
/-- Waiting accesses go on in their order, up to the first that waits on. -/
def State.drainHost (s : State) : List HostHeld → State
  | [] => { s with hostHeld := [] }
  | h :: rest =>
    match s.hostAct h.act with
    | .done s1 => State.drainHost s1 rest
    | e =>
      if h.due s.now e then State.drainHost (s.hostFails h.act) rest
      else
        let s1 := { s with hostHeld := h.wait s.now e :: rest }
        match e with
        | .noPage pa => s1.askWindow pa
        | .asleep => s1.wakePackage .active
        | .onDie _ | .done _ => s1
/-- The windows do not answer (R421). -/
def State.hostRefused (s : State) (a : HostAct) : State :=
  match a with
  | .windowRead _ _ _ | .registerRead _ _ _ => s.answerUr
  | .windowWrite _ _ _ | .registerWrite _ _ _ _ | .doorbell _ _ => s
/-- A host access arrives: it is done, or waits, behind those that wait already (R144). -/
def State.hostArrive (s : State) (a : HostAct) : State :=
  if !s.windowOpen then s.hostRefused a
  else if !s.hostHeld.isEmpty then { s with hostHeld := s.hostHeld ++ [⟨a, none⟩] }
  else
    match s.hostAct a with
    | .done s1 => s1
    | .asleep | .onDie _ | .noPage _ => s.drainHost [⟨a, none⟩]

/-- `WINDOW_READ`: the data, or Unsupported Request with WINFAIL. -/
def execWindowRead (f : FuncId) (off : BitVec 39) (size : Nat) (s : State) : Out := .next (s.hostArrive (.windowRead f off size))
/-- `WINDOW_WRITE`: performed, or dropped with WINFAIL. -/
def execWindowWrite (f : FuncId) (off : BitVec 39) (data : List Byte) (s : State) : Out := .next (s.hostArrive (.windowWrite f off data))
/-- `REGISTER_WRITE`. -/
def execRegisterWrite (f : FuncId) (off : BitVec 18) (size : Nat) (v : BitVec 64) (s : State) : Out :=
  .next (s.hostArrive (.registerWrite f off size v))
/-- `DOORBELL`: a host TAIL write. -/
def execDoorbell (q : QueueId) (v : BitVec 32) (s : State) : Out := .next (s.hostArrive (.doorbell q v))
/-- A register of a queue's configuration block is written. -/
def State.blockWrite (s : State) (f : FuncId) (q : QueueId) (off : Nat) (v : W64) : State :=
  s.hostArrive (.registerWrite f (BitVec.ofNat 18 (queueBlock q + off)) 8 v)
def execQaddrWrite (f : FuncId) (q : QueueId) (v : BitVec 64) (s : State) : Out := .next (s.blockWrite f q 0 v)
def execQueueEnable (f : FuncId) (q : QueueId) (v : BitVec 64) (s : State) : Out := .next (s.blockWrite f q 8 v)
/-- What is taken runs on; nothing more is consumed, since Recheck tests ENABLE (R373, R381). -/
def execQueueDisable (f : FuncId) (q : QueueId) (v : BitVec 64) (s : State) : Out := .next (s.blockWrite f q 8 v)
def execQcfgConfigure (f : FuncId) (q : QueueId) (v : BitVec 64) (s : State) : Out := .next (s.blockWrite f q 8 v)
def execEvcfgWrite (f : FuncId) (v : BitVec 64) (s : State) : Out := .next (s.hostArrive (.registerWrite f 0x3_0008 8 v))
def execEvconsWrite (f : FuncId) (v : BitVec 64) (s : State) : Out := .next (s.hostArrive (.registerWrite f 0x3_0010 8 v))
/-- `ACKOVF`: a write of EVCONS with ACKOVF set, its CONS as it stands. -/
def execAckovf (f : FuncId) (s : State) : Out :=
  .next (s.hostArrive (.registerWrite f 0x3_0010 8 ((s.func f).evcons ||| 0x1_0000_0000)))

/-! ### Answers to page requests (R368) -/

/-- Every stream of a context that stands at an address fails. -/
def State.streamsFail (s : State) (r : CtxRef) (va : W64) : State :=
  (List.range 8).foldl (fun s' i => s'.streamFails r (BitVec.ofNat 3 i) va causeFault 0) s

/-- The access that a page request held goes on. -/
def State.priGoes (s : State) (p : Pri) : State :=
  match p.use with
  | .load r _ => s.releaseHold r p.va
  | .queue q => s.retryQueue q
  | .window => s.drainHost s.hostHeld
  | .out => s.drainOut s.hostOut
  | .engine _ _ _ | .packet _ | .word _ _ => s
/-- It fails; a write of the device that fails is lost. -/
def State.priFails (s : State) (p : Pri) : State :=
  match p.use with
  | .load r _ => (s.holdFails r p.va causeFault 0).streamsFail r p.va
  | .engine c g j => s.engineFails c g j p.va causeFault none
  | .packet c => s.packetFails c p.va causeFault none
  | .queue q => s.readFails q true
  | .word q pos =>
    (match s.entry? q pos with
     | some e => if e.ended then s.wordFails e causeFault else s.failData e 0xFF (.plain causeFault p.va)
     | none => s)
  | .window =>
    (match s.hostHeld with
     | h :: rest => (s.hostFails h.act).drainHost rest
     | [] => s)
  | .out => s.drainOut (s.hostOut.drop 1)

/-- `PRI_RESPONSE`: the access goes on, or it fails. -/
def execPriResponse (i : Nat) (success : Bool) (s : State) : Out :=
  match s.pri.drop i with
  | [] => .next s
  | p :: _ =>
    let s1 := { s with pri := s.pri.eraseIdx i }
    if success then .next (({ s1 with hostAbsent := FMap.set s1.hostAbsent false (p.addr / 4096) false } : State).priGoes p)
    else .next (s1.priFails p)

end Sys2Proof.Machine
end

