-- ==== Sys2Proof/Machine/Firmware.lean ====
section
/-! DEFINITION. Firmware's services: page tables and MAP (19 R407, R408, R413, R414, R425, 02 R69, 20 R439), the DOE objects
(19 R424-R426), writes of band tables and MKRT over the command links (18 R393, 12 R335, 19 R415), heartbeats (19 R416). -/
namespace Sys2Proof.Machine

/-! ### Writing page tables (R407, R408) -/

/-- Where firmware's tables lie, in HBM stack 0 (log entry 21). -/
def tableBase : Nat := 0x8_0000_0000
def State.newTable (s : State) : Nat × State :=
  let t := tableBase + s.tables * 0x1_0000
  (t, { s.zeroRange t 0x1_0000 with tables := s.tables + 1 })
/-- Write an entry of a table. -/
def State.putEntry (s : State) (pa e : Nat) : State := (s.writeNat pa e 8).writtenLines pa 8 false

/-- A larger leaf as a table of the next level's leaves. -/
def State.splitLeaf (s : State) (table e : Nat) (n : WalkLevel) : State :=
  (List.range (2 ^ n.width)).foldl (fun s' i => s'.putEntry (table + i * 8) (e + i * 2 ^ n.low)) s

/-- Set the 64 KiB leaf of an address, 0 to remove it, making the tables on the way. -/
def State.setLeaf (s : State) (va table leaf : Nat) : List WalkLevel → State
  | [] => s
  | l :: rest =>
    let pa := table + va / 2 ^ l.low % 2 ^ l.width * 8
    match rest with
    | [] => s.putEntry pa leaf
    | n :: _ =>
      let e := s.read64 pa
      if e.getLsbD 0 && !e.getLsbD 1 then State.setLeaf s va (entryAddr e) leaf rest
      else if !e.getLsbD 0 && leaf == 0 then s
      else
        let (t, s1) := s.newTable
        let s2 := if e.getLsbD 0 then s1.splitLeaf t e.toNat n else s1
        State.setLeaf (s2.putEntry pa (t + 1)) va t leaf rest

/-- The job's root, made on its first mapping. -/
def State.withRoot (s : State) (job : BitVec 24) : Nat × State :=
  let j := FMap.get s.jobs ⟨0, false⟩ job.toNat
  if j.present then (j.root, s)
  else
    let (t, s1) := s.newTable
    (t, { s1 with jobs := FMap.set s1.jobs ⟨0, false⟩ job.toNat ⟨t, true⟩ })
def State.setPage (s : State) (job : BitVec 24) (va leaf : Nat) : State :=
  let (root, s1) := s.withRoot job
  s1.setLeaf (va % 2 ^ 56) root leaf walkLevels

/-- The flags of a leaf. -/
structure LeafFlags where
  r : Bool
  w : Bool
  x : Bool
  u : Bool
  st : Bool
  pn : Bool
deriving DecidableEq, Repr
def leafEntry (pa : Nat) (f : LeafFlags) : Nat :=
  pa + f.pn.toNat * 128 + f.st.toNat * 64 + f.u.toNat * 32 + f.x.toNat * 16 + f.w.toNat * 8 + f.r.toNat * 4 + 3

/-! ### Ranges that are mapped (R69, R439) -/

/-- What is left of a mapping outside a range of virtual addresses. -/
def Mapping.without (m : Mapping) (va len : Nat) : List Mapping :=
  if va + len ≤ m.va ∨ m.va + m.len ≤ va then [m]
  else
    (if m.va < va then [{ m with len := va - m.va }] else []) ++
    (if va + len < m.va + m.len then
      [{ m with va := va + len, len := m.va + m.len - (va + len), pa := m.pa + (va + len - m.va) }] else [])
def State.dropMaps (s : State) (job : BitVec 24) (va len : Nat) : State :=
  { s with maps := s.maps.flatMap fun m => if m.job = job then m.without va len else [m] }
/-- A 64 KiB page is part of some mapping. -/
def State.pageMapped (s : State) (pa : Nat) : Bool := s.maps.any fun m => decide (m.pa ≤ pa) && decide (pa < m.pa + m.len)
/-- Firmware's page tables (log entry 21). -/
def isTable (pa : Nat) : Bool := decide (tableBase ≤ pa) && decide (pa < 0xA_0000_0000)
/-- Firmware's own memory beside its tables: its two pages, the launch records and their copies (log entry 21). -/
def firmwarePage (pa : Nat) : Bool :=
  decide (pa < 0x21_0000) || allDies.any fun d => decide (recordBase d ≤ pa) && decide (pa < recordBase d + 2 * recordSpace)
/-- Firmware's own memory. -/
def firmwareOwned (pa : Nat) : Bool := firmwarePage pa || isTable pa
/-- A page that a shootdown unmaps, which has not completed (R414). -/
def State.pageDraining (s : State) (pa : Nat) : Bool :=
  s.shootdowns.any fun d => d.freed.any fun r => decide (r.1 ≤ pa) && decide (pa < r.1 + r.2)
/-- A retired page, or one whose row is queued, is not given out. -/
def State.pageBarred (s : State) (pa : Nat) : Bool :=
  s.nv.retired.contains (pa / 0x1_0000) || s.nv.repairs.any fun r => (Config.pagesOf r).contains (pa / 0x1_0000)

/-- The pages of a range, by index. -/
def pageCount (len : Nat) : Nat := len / 0x1_0000

/-- Device memory or a vault (R69). -/
def isDevice (pa : Nat) : Bool :=
  match placeOf pa with
  | some (.hbm _) | some (.vault _ _) => true
  | some (.scratch _) | some .host | none => false
/-- Map a range: pages of device memory and vaults that no mapping holds read as zero (R69), but for firmware's tables. -/
def State.mapRange (s : State) (job : BitVec 24) (va len pa : Nat) (f : LeafFlags) : State :=
  let s1 := (List.range (pageCount len)).foldl (fun s' i =>
    let p := pa + i * 0x1_0000
    let s2 := if isDevice p && !isTable p && !s'.pageMapped p then s'.zeroRange p 0x1_0000 else s'
    s2.setPage job (va + i * 0x1_0000) (leafEntry p f)) s
  let s3 := s1.dropMaps job va len
  { s3 with maps := s3.maps ++ [⟨job, va, len, pa⟩] }
def State.unmapRange (s : State) (job : BitVec 24) (va len : Nat) : State :=
  ((List.range (pageCount len)).foldl (fun s' i => s'.setPage job (va + i * 0x1_0000) 0) s).dropMaps job va len
/-- Change the flags of the pages of a range that are mapped. -/
def State.reflagRange (s : State) (job : BitVec 24) (va len : Nat) (f : LeafFlags) : State :=
  (List.range (pageCount len)).foldl (fun s' i =>
    let v := va + i * 0x1_0000
    match s'.walk job (BitVec.ofNat 64 v) with
    | .hit e => s'.setPage job v (leafEntry (e.pa + (v - e.va)) f)
    | .fault | .prot | .memerr _ | .onDie _ _ => s') s

/-! ### MAP (R413, R414, R425) -/

/-- A DOE response. -/
def State.respond (s : State) (type status : Nat) (body : List Byte) : State :=
  { s with outbox := s.outbox ++ [.doe type status body] }

def mapFlags (q : MapReq) : LeafFlags := ⟨q.r, q.w, q.x, q.u, q.st, q.pn⟩
/-- A page may be given out to a job: it is populated and not firmware's, but for a table that is mapped for privileged contexts alone
(R413), not barred (R439), not unmapped by a shootdown under way (R414), not held by another job in device memory or a vault, and part of a
window of a launch of its own job in a scratchpad (R69, log entry 49). -/
def State.mayGive (s : State) (q : MapReq) (p : Nat) : Bool :=
  s.reaches p 0x1_0000 && !firmwarePage p && !(isTable p && q.u) && !s.pageBarred p && !s.pageDraining p &&
  (!isDevice p || s.maps.all fun m => m.job == q.job || decide (p + 0x1_0000 ≤ m.pa) || decide (m.pa + m.len ≤ p)) &&
  (match placeOf p with
   | some (.scratch cl) => s.windowJob cl ((p - scratchBase cl) / 0x1_0000) == some q.job
   | some (.hbm _) | some (.vault _ _) | some .host | none => true)
/-- The request is well formed, and its physical pages may be given out. -/
def State.mapOk (s : State) (q : MapReq) : Bool :=
  let va := q.va.toNat
  let len := q.len.toNat
  let last : W64 := q.va + (q.len - 1)
  q.job != 0 && q.op != 3 && q.va.toNat % 0x1_0000 == 0 && len % 0x1_0000 == 0 && len != 0 &&
  canonical q.va && canonical last && decide (va + len ≤ 2 ^ 64) && q.va.getLsbD 55 == last.getLsbD 55 && !(q.w && !q.r) &&
  (q.op != 0 ||
    (q.pa.toNat % 0x1_0000 == 0 && (List.range (pageCount len)).all fun i => s.mayGive q (q.pa.toNat + i * 0x1_0000)))

/-- Some launch of the job has not ended. -/
def State.jobBusy (s : State) (job : BitVec 24) : Bool := s.launches.any fun (_, l) => l.entry.job == job && !l.entry.ended
/-- The request removes or changes a PN leaf that stands at `v`, which firmware keeps valid and unchanged (R408, R414). -/
def mapNarrows (q : MapReq) (e : TlbEntry) (v i : Nat) : Bool :=
  e.pn && (q.op == 1 || (q.op == 0 && e.pa + (v - e.va) != q.pa.toNat + i * 0x1_0000) || mapFlags q != ⟨e.r, e.w, e.x, e.u, e.st, e.pn⟩)
def State.mapForbidden (s : State) (q : MapReq) : Bool :=
  s.jobBusy q.job && (List.range (pageCount q.len.toNat)).any fun i =>
    let v := q.va.toNat + i * 0x1_0000
    match s.walk q.job (BitVec.ofNat 64 v) with
    | .hit e => mapNarrows q e (v % 2 ^ 56) i
    | .fault | .prot | .memerr _ | .onDie _ _ => false

/-- The physical ranges behind a range of virtual addresses of a job. -/
def State.physOf (s : State) (job : BitVec 24) (va len : Nat) : List (Nat × Nat) :=
  s.maps.filterMap fun m =>
    let lo := max m.va va
    let hi := min (m.va + m.len) (va + len)
    if m.job = job ∧ lo < hi then some (m.pa + (lo - m.va), hi - lo) else none
/-- The invalidation that follows a change of tables (R414 step 2); `freed` are the physical ranges that it unmaps. -/
def State.startShootdown (s : State) (job : BitVec 24) (va len : Nat) (answer : Bool) (freed : List (Nat × Nat)) : State :=
  { s with shootdowns := s.shootdowns ++ [{ job := job, va := va % 2 ^ 56, len := len, whole := false
                                            owing := allClusters.map (fun c => c.val), answer := answer, freed := freed }] }

/-- The die whose HBM holds the tables. -/
def tableDie : DieId := 0
/-- Firmware can read and write its tables. -/
def State.tablesAnswer (s : State) : Bool := (s.die tableDie).resetAt.isNone
/-- A MAP request is carried out, or refused. -/
def State.performMap (s : State) (q : MapReq) : State :=
  if s.boot ≠ .ready ∨ !s.mapOk q then s.respond 3 1 []
  else if s.mapForbidden q then s.respond 3 2 []
  else
    let va := q.va.toNat
    let len := q.len.toNat
    let freed := if q.op = 2 then [] else s.physOf q.job va len
    let s1 :=
      if q.op = 0 then s.mapRange q.job va len q.pa.toNat (mapFlags q)
      else if q.op = 1 then s.unmapRange q.job va len
      else s.reflagRange q.job va len (mapFlags q)
    s1.startShootdown q.job va len true freed
/-- A MAP request is served; it waits for the die that holds the tables. -/
def State.serveMap (s : State) (q : MapReq) : State :=
  if s.boot == .ready && s.mapOk q && !s.tablesAnswer then { s with mapHeld := s.mapHeld ++ [q] } else s.performMap q
/-- Requests that waited for the tables go on in their order. -/
def State.drainMaps (s : State) : State := s.mapHeld.foldl State.performMap { s with mapHeld := [] }

/-! ### Links (R415) -/

/-- `PERMIT_RETURN`: both directions of the link. -/
def execPermitReturn (die : DieId) (link : Fin 12) (s : State) : Out :=
  .next (s.modDie die fun d => (d.repay link.val).repay (link.val + 12))
/-- Permits that have been owed for 256 clk come back (R415). -/
def State.repayDue (s : State) : State :=
  allDies.foldl (fun s' d =>
    let y := s'.die d
    if y.owed.isEmpty || decide (s'.now < y.owedSince + 256) then s' else s'.setDie d (y.owed.foldl (fun z e => z.repay e.1) y)) s
/-- The die whose scheduler owns the jobs and takes the requests of the security processor: die 0, or its adopter (log entry 67). -/
def State.mainDie (s : State) : DieId := s.schedulerOf 0

/-! ### Shootdowns (R414) -/

/-- The invalidation names a translation. -/
def Shootdown.hits (d : Shootdown) (e : TlbEntry) : Bool :=
  e.job == d.job && (d.whole || (decide (e.va < d.va + d.len) && decide (d.va < e.va + e.size)))

/-- The leaf of a cluster answers the first of the shootdowns that it owes. -/
def ackFirst (cl : Nat) : List Shootdown → List Shootdown
  | [] => []
  | d :: rest => if d.owing.contains cl then { d with owing := d.owing.filter fun c => c != cl } :: rest else d :: ackFirst cl rest

/-- `SHOOTDOWN_INVALIDATE`: the oldest invalidation that has not reached the leaf goes there, over the peer link of its die if need be, and
its acknowledgement comes back the same way. -/
def execShootdownInvalidate (cl : ClusterId) (s : State) : Out :=
  let die := clusterDie cl
  match s.shootdowns.find? fun d => d.owing.contains cl.val with
  | none => .next s
  | some d =>
    let own := s.mainDie
    if (s.die die).resetAt.isSome || !(s.mayPeer own die && s.mayMessage die (linkOf cl) && s.mayMessage die (linkOf cl + 12) && s.mayPeer die own)
    then .next s
    else
      let s1 := s.dropCluster cl d.hits fun w => w.job == d.job
      let s2 := (((s1.peerMessage own die).message die (linkOf cl)).message die (linkOf cl + 12)).peerMessage die own
      .next { s2 with shootdowns := ackFirst cl.val s2.shootdowns }

/-- `SHOOTDOWN_COMPLETE`: every leaf has acknowledged the oldest shootdown. -/
def execShootdownComplete (s : State) : Out :=
  match s.shootdowns with
  | d :: rest =>
    if d.owing.isEmpty then
      let s1 := { s with shootdowns := rest }
      .next (if d.answer then s1.respond 3 0 [] else s1)
    else .next s
  | [] => .next s

/-! ### Descriptor and colophon (R425, R426) -/

def lifeNum : LifeState → Nat
  | .blank => 0
  | .provisioned => 1
  | .deployed => 2
  | .returned => 3
  | .retired => 4
/-- STATE and FAILCODE. -/
def BootState.num : BootState → Nat
  | .booting => 0
  | .ready => 1
  | .bootFail _ _ => 2
  | .wiping => 3
def BootState.failcode : BootState → Nat
  | .bootFail step image => step.val * 16 + image.val
  | .booting | .ready | .wiping => 0

/-- The mask of disabled cores. -/
def State.disabledMask (s : State) : Nat := s.cores.foldl (fun m e => if e.2.disabled then m + 2 ^ (e.1 % 256) else m) 0

/-- A DESCRIPTOR request is served; the fields' places are log entry 22. -/
def State.serveDescriptor (s : State) : State :=
  s.respond 1 0
    (bytesOfNat s.boot.num 1 ++ bytesOfNat s.boot.failcode 1 ++ bytesOfNat (lifeNum s.lifecycle) 1 ++
      (List.range 8).flatMap (fun i => bytesOfNat (Config.stackBytes - FMap.get s.shrunk 0 i) 8) ++ bytesOfNat s.disabledMask 32)

/-- An image slot: digest, version, fused minimum, reserved; a slot beyond the count is zero. -/
def State.imageSlot (s : State) (i : Nat) : List Byte :=
  if i ≤ Config.imageCount.val then
    (List.range 48).map (fun j => Config.imageSlot (i * 64 + j)) ++ bytesOfNat (Config.imageVersion i).toNat 4 ++
      bytesOfNat (FMap.get s.nv.fusedMin 0 i).toNat 4 ++ List.replicate 8 0
  else List.replicate 64 0
/-- The part holds its identity keys (R424, R426). -/
def State.hasKeys (s : State) : Bool := s.lifecycle != .blank && s.lifecycle != .retired
/-- Bytes 0x0000-0x0A0F of the colophon. -/
def State.colophonBody (s : State) (nonce : BitVec 256) : List Byte :=
  bytesOfNat 0x4E4C_4F43 4 ++ bytesOfNat 1 2 ++ bytesOfNat (lifeNum s.lifecycle) 1 ++ [0] ++ bytesOfNat Config.deviceId.toNat 16 ++
    bytesOfNat nonce.toNat 32 ++ bytesOfNat s.platen.toNat 8 ++ bytesOfNat (Config.imageCount.val + 1) 4 ++ List.replicate 12 0 ++
    (List.range 8).flatMap s.imageSlot ++ (List.range 1984).map fun i => if s.hasKeys then Config.identityKey i else 0
/-- The whole record; its signatures cover the body. -/
def State.colophon (s : State) (nonce : BitVec 256) : List Byte :=
  let body := s.colophonBody nonce
  body ++ (List.range 3373).map fun i => if s.hasKeys then Config.signature i (natOfBytes body) else 0

/-- A COLOPHON request is served once it has been built (R421 step 6). -/
def State.serveColophon (s : State) (nonce : BitVec 256) : State :=
  if s.boot == .ready then s.respond 2 0 (s.colophon nonce) else s.respond 2 1 []

/-! ### CONFIG, band tables, MKRT (R425, R393, R335) -/

/-- A CONFIG request is served: the write is sent to the die's scheduler, or through it to the leaf. -/
def State.serveConfig (s : State) (r : ConfigReq) : State :=
  if s.boot ≠ .ready then s.respond 5 1 []
  else
    match r with
    | .band die b e => s.modDie die fun d => { d with bandReq := d.bandReq ++ [(b, e)] }
    | .mkrt cl v => s.modCluster cl fun c => { c with mkrtReq := c.mkrtReq ++ [v] }

/-- A band entry may stand in a die's table. -/
def Die.bandOk (d : Die) (b : Fin 64) (e : W64) : Bool :=
  decide (bandMaxBudL e ≤ 32) && decide (bandUlim e ≤ bandShare e) && decide (bandMinSlice e ≤ bandDslice e) &&
  decide (((List.range 64).foldl (fun n i => n + bandShare (if i = b.val then e else d.band i)) 0) ≤ 1024)

/-- `BAND_TABLE_WRITE`: the oldest write that has come to the die's scheduler. -/
def execBandTableWrite (die : DieId) (s : State) : Out :=
  let d := s.die die
  match d.bandReq with
  | [] => .next s
  | (b, e) :: rest =>
    if d.resetAt.isSome || !s.mayPeer s.mainDie die then .next s
    else
      let s1 := s.peerMessage s.mainDie die
      if d.bandOk b e then
        .next ((s1.modDie die fun y => { y with bandReq := rest, bands := FMap.set y.bands bandReset b.val (setBits e 0 4 0) }).respond 5 0 [])
      else .next ((s1.modDie die fun y => { y with bandReq := rest }).respond 5 1 [])

/-- MKRT's entries lie in 1-8 and do not fall. -/
def mkrtOk (v : W64) : Bool :=
  (List.range 16).all fun i =>
    let e := bitsN v (4 * i) 4
    decide (1 ≤ e) && decide (e ≤ 8) && (i == 0 || decide (bitsN v (4 * (i - 1)) 4 ≤ e))

/-- `MKRT_WRITE`: the oldest write that has come to the cluster's manager. -/
def execMkrtWrite (cl : ClusterId) (s : State) : Out :=
  let c := s.cluster cl
  let die := clusterDie cl
  match c.mkrtReq with
  | [] => .next s
  | v :: rest =>
    if (s.die die).resetAt.isSome || !(s.mayPeer s.mainDie die && s.mayMessage die (linkOf cl)) then .next s
    else
      let s1 := (s.peerMessage s.mainDie die).message die (linkOf cl)
      if mkrtOk v then .next ((s1.setCluster cl { c with mkrtReq := rest, mkrt := v }).respond 5 0 [])
      else .next ((s1.setCluster cl { c with mkrtReq := rest }).respond 5 1 [])

/-! ### Heartbeats (R416) -/

/-- The other three dies. -/
def otherDies (d : DieId) : List DieId := allDies.filter fun e => e != d
/-- `HEARTBEAT`: every 10 µs while the die's scheduler runs and reaches the others, one message on each peer link. -/
def execHeartbeat (die : DieId) (s : State) : Out :=
  let d := s.die die
  if d.alive && d.resetAt.isNone && s.boot == .ready && !s.cutOff die && decide (d.heard + 10 * Config.clkPerUs ≤ s.now) &&
      (otherDies die).all fun e => s.mayPeer die e then
    let s1 := (otherDies die).foldl (fun s' e => s'.peerMessage die e) s
    .next { s1.modDie die (fun y => { y with heard := s.now }) with outbox := s.outbox ++ [.heartbeat die] }
  else .next s

end Sys2Proof.Machine
end

