-- ==== Sys2Proof/Machine/Dies.lean ====
section
/-! DEFINITION. Resets of a die and of the package, and adoption (01 R53, R459, 19 R416-R424, 20 R439). -/
namespace Sys2Proof.Machine

/-! ### A die is reset (R53, R42) -/

/-- A team is lost with its image; what its stints had consumed is charged (R396). -/
def State.loseTeam (s : State) (launch team : BitVec 24) (charge : Nat) : State :=
  match s.launch? launch with
  | some l => ((s.setLaunch launch (l.setTeam team .lost)).dropImage launch team).chargeEntry launch charge
  | none => s
/-- A team whose image lay in the die's memory: a SAVED one, or one that was LOADING on another die, which leaves its core. -/
def State.loseSaved (s : State) (launch team : BitVec 24) (img : Core) : State :=
  match s.homeOf launch team with
  | some c => ((s.loseTeam launch team ((s.core c).team.elim 0 Resident.charge)).modCore c fun k => k.release_ s.now).dropWaits c
  | none => s.loseTeam launch team (img.team.elim 0 Resident.charge)
/-- The images that lie in a die's memory, with their launches and teams. -/
def State.imagesOn (s : State) (die : DieId) : List (BitVec 24 × BitVec 24 × Core) :=
  s.launches.flatMap fun (i, l) => l.saved.filterMap fun (t, k) =>
    if coreDie (coreOfNat (FMap.get l.savedOn 0 t)) = die then some (BitVec.ofNat 24 i, BitVec.ofNat 24 t, k) else none
/-- Teams on the die's cores, or whose image lies in its memory, are lost. -/
def State.loseTeams (s : State) (die : DieId) : State :=
  let s1 := (coresOfDie die).foldl (fun s' c =>
    match (s'.core c).team with
    | some r => s'.loseTeam r.launch r.index r.charge
    | none => s') s
  (s1.imagesOn die).foldl (fun s' (id, t, k) => s'.loseSaved id t k) s1

/-- A die that no path reaches any more takes its teams with it, and its cores do no further work (R42). -/
def State.cutDie (s : State) (die : DieId) : State :=
  (coresOfDie die).foldl (fun s' c =>
    if (s'.core c).team.isSome then (s'.modCore c fun k => k.release_ s'.now).dropWaits c else s') (s.loseTeams die)

/-- A core after a die reset: what is kept in its own record of faults, and nothing else (R440). -/
def Core.afterDieReset (k : Core) : Core :=
  { Core.fresh with disabled := k.disabled, offNext := k.offNext, proofTimes := k.proofTimes, residueTimes := k.residueTimes }
/-- A cluster after a die reset: its makeready table stands, which neither R335 nor R53 says (log entry 94); its TLB and its queues are
empty. -/
def Cluster.afterDieReset (y : Cluster) : Cluster := { y with tlb := [], upper := [], ramp := none, regionQ := [], regionAsk := none, target := none }

/-- DATA entries whose command ran on the die start again. -/
def State.restartPackets (s : State) (die : DieId) : State :=
  (coresOfDie die).foldl (fun s' c =>
    match (s'.core c).packet with
    | some p => s'.modEntry p.queue p.pos fun e => { e with running := false, consumed := e.consumed + p.charge }
    | none => s') s

/-- A page request belongs to a core of the die. -/
def PriUse.onDie (u : PriUse) (die : DieId) : Bool :=
  match u with
  | .load r _ => coreDie r.core == die
  | .engine c _ _ | .packet c => coreDie c == die
  | .queue _ | .word _ _ | .window | .out => false

/-- The scratchpads of a die lose their contents: free bytes stand there (log entry 3). -/
def State.loseScratch (s : State) (die : DieId) : State :=
  let lo := scratchBase (clusterOfNat (die.val * 8))
  let n := 8 * 0x40_0000
  let fresh := (List.range n).filterMap fun i =>
    let b : Byte := (Config.freeValue (s.draws + i)).setWidth 8
    if b = 0 then none else some (lo + i, b)
  { s with mem := s.mem.filter (fun e => e.1 < lo) ++ fresh ++ s.mem.filter fun e => lo + n ≤ e.1
           badBytes := s.badBytes.filter fun e => e.1 < lo || lo + n ≤ e.1
           draws := s.draws + n }

/-- Every open round hears of the members that it can no longer reach (R311). -/
def State.settleRounds (s : State) : State := s.groups.foldl (fun s' e => s'.settleRound (BitVec.ofNat 10 e.1)) s

/-- The die is under reset. -/
def State.resetDie (s : State) (die : DieId) : State :=
  if (s.die die).resetAt.isSome then s
  else
    let s1 := ((s.loseTeams die).restartPackets die).loseScratch die
    let s2 := (coresOfDie die).foldl (fun s' c => s'.setCore c (s'.core c).afterDieReset) s1
    let s3 := allClusters.foldl (fun s' cl => if clusterDie cl = die then s'.modCluster cl Cluster.afterDieReset else s') s2
    let s4 := s3.modDie die fun d => { d with resetAt := some s.now, walks := [], owed := [], permits := [] }
    ({ s4 with pri := s4.pri.filter fun p => !p.use.onDie die } : State).settleRounds

/-- `DIE_RESET`. -/
def execDieReset (die : DieId) (s : State) : Out := .next (s.resetDie die)

/-! ### Adoption (R416-R419) -/

/-- The silence after which a die is adopted (R416). -/
def silentClk : Nat := 50 * Config.clkPerUs
/-- A die's scheduler that runs, and has been heard. -/
def State.dieLives (s : State) (d : DieId) : Bool :=
  (s.die d).alive && (s.die d).resetAt.isNone && decide (s.now < (s.die d).heard + silentClk)
/-- The next die clockwise. -/
def clockwise (d : DieId) (n : Nat) : DieId := dieOfNat (d.val + n)
/-- The die that adopts `d`. -/
def State.adopterFor (s : State) (d : DieId) : Option DieId := [1, 2, 3].map (clockwise d) |>.find? s.dieLives

/-- The launches of a lost die's scheduler that have lost teams end severed (R419 step 3). -/
def State.severOwned (s : State) (d : DieId) : State :=
  State.settle (s.launches.foldl (fun s' (i, l) =>
    if l.owner = d ∧ l.lostTeams ∧ !l.severing ∧ !l.complete then s'.cancelLaunch (BitVec.ofNat 24 i) true else s') s)

/-- ADOPT is posted (R390, R436). -/
def State.announce (s : State) (d a : DieId) : State :=
  (s.post 0 { Event.none with kind := 9, arg0 := BitVec.ofNat 64 d.val, arg1 := BitVec.ofNat 64 a.val }).log
    { LogRec.zero with kind := 13, core := 0xFF, stack := 0xFF, addr := BitVec.ofNat 64 d.val }
/-- The adopter goes on with a lost die's work once it has its state: what was left to be done, then steps 3 and 4. -/
def State.takeOver (s : State) (d : DieId) : State :=
  let s1 := (s.modDie d fun y => { y with held := false }).resumeActs.severOwned d
  s1.queues.foldl (fun s' e => if queueHome (queueOfNat e.1) = d then s'.recheckAll (queueOfNat e.1) else s') s1

/-- The die's own part moves to its adopter. -/
def State.handOver (s : State) (d a : DieId) : State :=
  let y := s.die d
  (s.modDie a fun z => { z with interval := z.interval ++ y.interval, cancels := z.cancels ++ y.cancels }).modDie d fun z =>
    { z with interval := [], cancels := [], adopter := some a }

/-- Steps 3 to 5 for a die: its adopter takes over, and ADOPT is posted. -/
def State.completeAdoption (s : State) (d : DieId) : State :=
  match (s.die d).adopter with
  | some a => (s.takeOver d).announce d a
  | none => s
/-- Steps 1 to 5 for a die and its adopter. What the die had itself adopted goes with it; a die whose copy is lost too is held until one of the
two memories answers (R418). -/
def State.adopt (s : State) (die a : DieId) : State :=
  let s0 := s.resetDie die
  let mine := allDies.filter fun x => (s0.die x).adopter == some die
  let s1 := (die :: mine).foldl (fun s' x => s'.handOver x a) s0
  let s2 := mine.foldl (fun s' x => if (s'.die x).held then s' else s'.takeOver x) s1
  if a = clockwise die 1 then s2.completeAdoption die
  else (s2.modDie die fun y => { y with held := true }).resetDie (clockwise die 1)

/-- `ADOPTION`: no heartbeat of the die for 50 µs. A die that returned and falls silent again is reset, and its work stays with the die that
has it (R419). With no die alive none adopts another (R418). -/
def execAdoption (die : DieId) (s : State) : Out :=
  let d := s.die die
  if s.now < d.heard + silentClk then .next s
  else
    match d.adopter, s.adopterFor die with
    | some a, _ => .next (if d.resetAt.isSome then s else (s.resetDie die).announce die a)
    | none, some a => .next (s.adopt die a)
    | none, none => .next s

/-- A lost die's queues stop with READERR, their headers not written. -/
def State.stopHeld (s : State) (d : DieId) : State :=
  s.queues.foldl (fun s' e =>
    let q := queueOfNat e.1
    if queueHome q = d ∧ (s'.queue q).enabled ∧ !(s'.queue q).stopped then s'.stopQueue q 6 false else s') s
/-- Both memories that hold the die's state have been silent for 100 ms (R418 step 3). -/
def State.memoryDue (s : State) (d : DieId) : Bool :=
  (s.die d).held && [d, clockwise d 1].all fun x =>
    match (s.die x).resetAt with
    | some t => decide (t + clk100ms ≤ s.now)
    | none => false
/-- `ADOPTION_MEMORY_TIMEOUT`. -/
def execAdoptionMemoryTimeout (die : DieId) (s : State) : Out := .next (if s.memoryDue die then s.stopHeld die else s)

/-- The ring's memory has been silent for 100 ms. -/
def State.ringDue (s : State) (q : QueueId) : Bool :=
  match (s.queue q).waitRing with
  | some t => decide (t + clk100ms ≤ s.now)
  | none => false
/-- `QUEUE_RING_TIMEOUT` (R419 step 4). -/
def execQueueRingTimeout (q : QueueId) (s : State) : Out := .next (if s.ringDue q then s.readFails q false else s)

/-- `DIE_RETURN`: memories answer, its walks' holds end, and what was held for its state or its tables goes on (R459, R412, R414, R418). -/
def execDieReturn (die : DieId) (s : State) : Out :=
  if (s.die die).resetAt.isNone then .next s
  else
    let s1 := s.modDie die fun d => { d with resetAt := none, alive := true, heard := s.now, scrubAt := s.now * 256 }
    let back := fun (d : Die) => { d with walks := d.walks.map fun w =>
      { w with since := w.since.filter fun t => hbmDie t.1 != some die } }
    let s2 := allDies.foldl (fun s' d => s'.modDie d back) s1
    let s3 := allDies.foldl (fun s' d =>
      if (s'.die d).held && (d == die || clockwise d 1 == die) then s'.completeAdoption d else s') s2
    let s4 := s3.resumeActs
    .next (if s4.tablesAnswer then s4.drainMaps else s4)

/-- `DIE_RETURN_TIMEOUT`: the waits of R418 and R419 that are due end (R459). -/
def execDieReturnTimeout (die : DieId) (s : State) : Out :=
  match (s.die die).resetAt with
  | none => .next s
  | some t =>
    if s.now < t + clk100ms then .next s
    else
      let s1 := s.modDie die fun d => { d with alive := false }
      let s2 := allDies.foldl (fun s' d => if s'.memoryDue d then s'.stopHeld d else s') s1
      .next (s2.queues.foldl (fun s' e => if s'.ringDue (queueOfNat e.1) then s'.readFails (queueOfNat e.1) false else s') s2)

/-! ### Package reset (R421-R424, R439, R440, R456) -/

/-- Boot step 2: an entry that finds a spare is cleared, another is kept with STATE 2 and its pages are retired; those beyond the 4,096 that
the list holds are counted by stack, for the next boot (R439). -/
def Nv.applyRepairs (n : Nv) : Nv × List Repair :=
  let queued := n.repairs.filter fun r => bitsN r 0 4 == 0
  let failed := queued.filter fun r => !Config.hasSpare r
  let pages := (n.retired ++ failed.flatMap Config.pagesOf).eraseDups
  ({ n with
      repairs := n.repairs.filterMap fun r =>
        if bitsN r 0 4 ≠ 0 then some r else if Config.hasSpare r then none else some (Repair.withState r 2)
      retired := pages.take 4096
      excess := (pages.drop 4096).foldl (fun m p =>
        let st := p * 0x1_0000 / 2 ^ 36 % 8
        FMap.set m 0 st (FMap.get m 0 st + 0x1_0000)) n.excess }, failed)

/-- SAVESTAT from the crash journal. -/
def Nv.savestat (n : Nv) : Byte := if !n.saveBegin then 0 else if n.saveDone && n.saveBaseSet then 1 else 2

/-- The boot steps that a boot has done (R421). -/
def BootState.done : BootState → Nat
  | .ready => 7
  | .bootFail step _ => step.val - 1
  | .booting | .wiping => 0
/-- A die's band table, and a cluster's MKRT, from the configuration image, each value in its turn where it may stand (R421 step 5, R393,
R335). -/
def bootDie (d : DieId) : Die :=
  (List.range 64).foldl (fun y b =>
    match Config.bandImage d.val b with
    | some e => if y.bandOk ⟨b % 64, Nat.mod_lt _ (by decide)⟩ e then { y with bands := FMap.set y.bands bandReset b (setBits e 0 4 0) } else y
    | none => y) Die.fresh
def bootCluster (cl : ClusterId) : Cluster :=
  match Config.mkrtImage cl.val with
  | some v => if mkrtOk v then { Cluster.fresh with mkrt := v } else Cluster.fresh
  | none => Cluster.fresh
/-- What a package reset leaves: the package at its reset values, its NV storage, its fuses, and what lies outside it; the memories are wiped
(R423) if `wipe` says so or the boot came so far, and the configuration image is applied if it did. -/
def State.reboot (s : State) (boot : BootState) (wipe : Bool) : State :=
  let n := boot.done
  let (nv, failed) := if 2 ≤ n then s.nv.applyRepairs else (s.nv, [])
  let wiped := wipe || decide (4 ≤ n)
  let s1 : State := { State.reset with
    cur := s.cur, agenda := s.agenda, draws := s.draws, mem := if wiped then s.mem.filter (fun e => hostBase ≤ e.1) else s.mem
    badBytes := if wiped then s.badBytes.filter (fun e => hostBase ≤ e.1) else s.badBytes
    rawSectors := if wiped then [] else s.rawSectors, overflow := if wiped then [] else s.overflow
    packed := if wiped then [] else s.packed, soft := if wiped then [] else s.soft, latent := if wiped then [] else s.latent
    fabricId := s.fabricId, cores := s.nv.disabled.map fun (i, _) => (i, { Core.fresh with disabled := true })
    dies := if 5 ≤ n then allDies.map fun d => (d.val, bootDie d) else []
    clusters := if 5 ≤ n then allClusters.map fun c => (c.val, bootCluster c) else []
    outbox := s.outbox, eweindEntry := s.eweindEntry, boot := boot, lifecycle := s.lifecycle
    nv := { nv with saveBegin := false, saveDone := false, saveBaseSet := false }, shrunk := s.nv.excess
    pages := { Pages.reset with savestat := s.nv.savestat }, hostAbsent := s.hostAbsent }
  failed.foldl (fun s' r =>
    match Config.pagesOf r with
    | [] => s'
    | p :: _ => s'.log { LogRec.zero with kind := 10, core := 0xFF, stack := BitVec.ofNat 8 (p * 0x1_0000 / 2 ^ 36 % 8), addr := BitVec.ofNat 64 (p * 0x1_0000) })
    (s1.latent.foldl (fun s' e => s'.surface (e.1 / 4)) s1)

/-- The first image whose version is below its fused minimum (R422). -/
def Nv.tooOld (n : Nv) : Option Nat :=
  (List.range (Config.imageCount.val + 1)).find? fun i => decide ((Config.imageVersion i).toNat < (FMap.get n.fusedMin 0 i).toNat)
/-- Why step 3 refuses, if it does: the first image that it refuses. No image is accepted in the life-cycle state Retired (R424), and none
below its fused minimum version (R422). -/
def State.imagesRefused (s : State) : Option Nat := if s.lifecycle = .retired then some 0 else s.nv.tooOld
def BootState.step3 (i : Nat) : BootState := .bootFail 3 ⟨i % 8, Nat.mod_lt _ (by decide)⟩
/-- Boot's end: the first step that fails (R421). -/
def State.bootEnd (s : State) : ImageCheck → BootState
  | .accepted => s.imagesRefused.elim .ready .step3
  | .rejected step image =>
    if step.val < 3 then .bootFail step image
    else
      match s.imagesRefused with
      | some i => if step = 3 ∧ image.val < i then .bootFail step image else .step3 i
      | none => .bootFail step image

/-- A package reset is under way, before its wipe or in it; a wipe that is cut short begins again, and STATE stays WIPING until one ends
(R421, R423, R427). `PACKAGE_RESET` is its end. -/
def State.bootPhase (s : State) (wiping : Bool) : State :=
  if wiping then (if s.boot == .booting then { s with boot := .wiping } else s)
  else { s.reboot (if s.boot == .wiping then .wiping else .booting) false with nv := s.nv }

/-- `PACKAGE_RESET`. -/
def execPackageReset (cause : ResetCause) (images : ImageCheck) (s : State) : Out :=
  match cause with
  | .cold | .thermalTrip | .operator | .lifecycle => .next (s.reboot (s.bootEnd images) false)

/-! ### LIFECYCLE (R424, R425) -/

/-- The fused minimum versions, raised to what the token asks for (R422, R424). -/
def Nv.raised (n : Nv) : Nv :=
  { n with fusedMin := (List.range 8).foldl (fun m i =>
      let v := Config.tokenMinimum n.nonce i
      if (FMap.get m 0 i).toNat < v.toNat then FMap.set m 0 i v else m) n.fusedMin }
/-- The NV storage after an allowed transition; none where the transition or its signer is not. -/
def lifeMove (n : Nv) (from_ target : LifeState) (signer : Signer) : Option Nv :=
  let owner := signer == .sahnex || (signer == .owner && n.ownerFused)
  match from_, target with
  | .blank, .provisioned => if signer = .sahnex then some n else none
  | .provisioned, .deployed => if signer = .sahnex then some { n.raised with ownerFused := true } else none
  | .deployed, .returned => if owner then some { n with disabled := [] } else none
  | .returned, .provisioned => if signer = .sahnex then some { n with ownerFused := false } else none
  | .retired, _ => none
  | _, .retired =>
    if owner then some { n with ownerFused := false, saveBegin := false, saveDone := false, saveBaseSet := false }
    else none
  | _, _ => none

/-- Four fresh words as a nonce. -/
def State.freshNonce (s : State) : BitVec 256 × State :=
  let w := fun i => Config.freeValue (s.draws + i)
  (w 3 ++ w 2 ++ w 1 ++ w 0, { s with draws := s.draws + 4 })
def nonceBytes (n : BitVec 256) : List Byte := bytesOfNat n.toNat 32

/-- A LIFECYCLE request is served: BUSY while a queue is enabled; refused unless its token signs the device's nonce for an allowed transition;
else the state moves and the package is reset, with a wipe in any case (R423, R424). -/
def State.serveLifecycle (s : State) (target : LifeState) (signer : Signer) (nonce : BitVec 256) : State :=
  if s.queues.any fun e => e.2.enabled then s.respond 4 2 (nonceBytes s.nv.nonce)
  else if nonce ≠ s.nv.nonce then s.respond 4 1 (nonceBytes s.nv.nonce)
  else
    match lifeMove s.nv s.lifecycle target signer with
    | none => s.respond 4 1 (nonceBytes s.nv.nonce)
    | some nv =>
      let (n, s1) := s.freshNonce
      let s2 := ({ s1 with lifecycle := target, nv := { nv with nonce := n } } : State).respond 4 0 (nonceBytes n)
      s2.reboot (s2.bootEnd .accepted) true

/-! ### DOE requests (R425, R453) -/

def State.doeServe (s : State) : DoeReq → State
  | .map q => s.serveMap q
  | .descriptor => s.serveDescriptor
  | .colophon nonce => s.serveColophon nonce
  | .config r => s.serveConfig r
  | .lifecycle target signer nonce => s.serveLifecycle target signer nonce
/-- A request arrives; a package that sleeps leaves its state for it, and it waits. -/
def State.doe (s : State) (r : DoeReq) : State :=
  if s.asleep then ({ s with doeHeld := s.doeHeld ++ [r] } : State).wakePackage .active else s.doeServe r

/-- `MAP`. -/
def execMap (q : MapReq) (s : State) : Out := .next (s.doe (.map q))
/-- `DESCRIPTOR`. -/
def execDescriptor (s : State) : Out := .next (s.doe .descriptor)
/-- `COLOPHON`. -/
def execColophon (nonce : BitVec 256) (s : State) : Out := .next (s.doe (.colophon nonce))
/-- `CONFIG`. -/
def execConfig (r : ConfigReq) (s : State) : Out := .next (s.doe (.config r))
/-- `LIFECYCLE`. -/
def execLifecycle (target : LifeState) (signer : Signer) (nonce : BitVec 256) (s : State) : Out := .next (s.doe (.lifecycle target signer nonce))

end Sys2Proof.Machine
end

