-- ==== Sys2Proof/Machine/Reliability.lean ====
section
/-! DEFINITION. Patrol reads (20 R431, R432), the control fields of firmware's pages (20 R435, R437, 21 R452), fabric links (20 R441). -/
namespace Sys2Proof.Machine

/-! ### Patrol (R431, R432) -/

/-- `PATROL`: firmware reads a sector through the L2; where that reaches the memory, what its decoder finds is given, unless an
uncorrectable error already stands there. -/
def execPatrol (sector : BitVec 47) (r : SectorResult) (s : State) : Out :=
  let pa := sector.toNat * 32
  if s.pages.patrol = 0 ∨ !isHbm pa ∨ s.cached pa then .next s
  else
    match s.sectorBad pa, (if r = .uncorrectable ∧ s.reading pa 32 then .clean else r) with
    | true, _ => .next (s.uncorrectable pa)
    | false, .clean => .next (s.heal sector.toNat)
    | false, .corrected => .next (({ s with soft := FMap.set s.soft false sector.toNat true } : State).heal sector.toNat)
    | false, .uncorrectable =>
      .next (({ s with badBytes := FMap.setMany s.badBytes false pa (List.replicate 32 true) } : State).uncorrectable pa)

/-- What the next read of a sector in its stack meets (R431): symbols that it corrects, with no value changed, or an error that its reader
takes; under a cached line it stays hidden until the line leaves without a write (log entry 11). -/
def State.sectorError (s : State) (sector : BitVec 47) (r : SectorResult) : State :=
  let pa := sector.toNat * 32
  if !isHbm pa then s
  else
    match r with
    | .clean => s
    | .corrected => { s with soft := FMap.set s.soft false sector.toNat true }
    | .uncorrectable =>
      if s.cached pa || s.reading pa 32 then { s with latent := FMap.set s.latent false sector.toNat true }
      else { s with badBytes := FMap.setMany s.badBytes false pa (List.replicate 32 true) }

/-- Sectors of the eight stack windows (R55). -/
def sectorCount : Nat := 0x80_0000_0000 / 32
/-- The sectors that the patrol has read `t` clk after its beginning: every sector once a period, from the lowest address on (R432; the order
is log entry 86). -/
def State.patrolled (s : State) (t : Nat) : Nat :=
  let period := s.pages.patrol.toNat * 3600 * 1000000 * Config.clkPerUs
  if period = 0 then 0 else t * sectorCount / period
/-- How often sector `n` is among the first `reads` reads. -/
def readsOf (n reads : Nat) : Nat := (reads + (sectorCount - 1 - n)) / sectorCount
/-- The patrol goes on from one clk to a later one: each uncorrectable sector that it passes is logged and queued for repair. -/
def State.patrolTo (s : State) (since now : Nat) : State :=
  let lo := s.patrolled (since - s.patrolAt)
  let hi := s.patrolled (now - s.patrolAt)
  let bad := (s.badBytes.filterMap fun (pa, _) => if isHbm pa then some (pa / 32) else none).eraseDups
  bad.foldl (fun s' n => if readsOf n lo < readsOf n hi ∧ (s'.badAt (n * 32) 32).isSome then s'.uncorrectable (n * 32) else s') s

/-! ### Control fields (R435) -/

/-- A refused value: the field keeps its previous one, and a CTLREJECT record names its offset. -/
def State.rejectField (s : State) (off : Nat) : State :=
  s.log { LogRec.zero with kind := 12, core := 0xFF, stack := 0xFF, addr := BitVec.ofNat 64 off }

def scrubOk (v : Nat) : Bool := v == 0 || (decide (4 ≤ v) && decide (v ≤ 1000))
/-- The period of one die. -/
def State.pollScrub (s : State) (d : DieId) : State :=
  let p := s.pages
  let old := bitsN p.scrubp (16 * d.val) 16
  let new := bitsN p.rawScrubp (16 * d.val) 16
  if new = old then s
  else if scrubOk new then
    ({ s with pages := { p with scrubp := setBits p.scrubp (16 * d.val) 16 new, updated := s.platen } } : State).modDie d fun y =>
      { y with scrubAt := s.now * 256 }
  else ({ s with pages := { p with rawScrubp := setBits p.rawScrubp (16 * d.val) 16 old } } : State).rejectField (0x20 + 2 * d.val)
def State.pollPatrol (s : State) : State :=
  let p := s.pages
  if p.rawPatrol = p.patrol then s
  else if p.rawPatrol.toNat ≤ 168 then { s with pages := { p with patrol := p.rawPatrol, updated := s.platen }, patrolAt := s.now }
  else ({ s with pages := { p with rawPatrol := p.patrol } } : State).rejectField 0x28
/-- Rows that a lowered CETHR finds at it or above it cross it now (R436, R438). -/
def State.crossRows (s : State) (old : Nat) : State :=
  s.recentErrors.foldl (fun (acc : State × List (BitVec 56)) e =>
    let row := Config.rowOf e.sector
    if !acc.2.contains row && decide (s.pages.cethr.toNat ≤ s.rowErrors (e.sector * 32)) && decide (s.rowErrors (e.sector * 32) < old)
    then (acc.1.crossRow (e.sector * 32), row :: acc.2) else acc) (s, []) |>.1
def State.pollCethr (s : State) : State :=
  let p := s.pages
  if p.rawCethr = p.cethr then s
  else if 1 ≤ p.rawCethr.toNat ∧ p.rawCethr.toNat ≤ 255 then
    ({ s with pages := { p with cethr := p.rawCethr, updated := s.platen } } : State).crossRows p.cethr.toNat
  else ({ s with pages := { p with rawCethr := p.cethr } } : State).rejectField 0x2A
def State.pollLtol (s : State) : State :=
  let p := s.pages
  if p.rawLtol = p.ltol then s
  else if p.rawLtol.toNat ≤ 1000000 then
    ({ s with pages := { p with ltol := p.rawLtol, powerUpdated := s.platen } } : State).wakeDeeper
  else ({ s with pages := { p with rawLtol := p.ltol } } : State).rejectField 0x10
def State.pollSavebase (s : State) : State :=
  let p := s.pages
  if p.rawSavebase = p.savebase then s
  else if p.rawSavebase.toNat % 4096 = 0 then { s with pages := { p with savebase := p.rawSavebase, powerUpdated := s.platen } }
  else ({ s with pages := { p with rawSavebase := p.savebase } } : State).rejectField 0x18

/-- `CONTROL_POLL`: every 100 µs. -/
def execControlPoll (s : State) : Out :=
  if s.now < s.polledAt + 100 * Config.clkPerUs then .next s
  else .next ((((allDies.foldl (fun (s' : State) d => s'.pollScrub d) { s with polledAt := s.now }).pollPatrol.pollCethr).pollLtol).pollSavebase)

/-! ### Fabric links (R441) -/

def State.logLink (s : State) (kind : Byte) (port : Nat) : State :=
  s.log { LogRec.zero with kind := kind, unit := BitVec.ofNat 8 port, core := 0xFF, stack := 0xFF }

/-- `LINK_DEAD`: the link leaves the routes; rounds hear of members that no path reaches any more (R311). On a dead link it is one more
error. -/
def execLinkDead (port : Fin 18) (s0 : State) : Out :=
  let s := { s0 with linkErrAt := FMap.set s0.linkErrAt 0 port.val s0.now }
  if FMap.get s.deadLinks false port.val then .next s
  else
    .next (((({ s with deadLinks := FMap.set s.deadLinks false port.val true } : State).bumpPort port.val 0).logLink 8 port.val).settleRounds)

/-- `LINK_RESTORE`: a dead link is retrained after 1 s without errors. -/
def execLinkRestore (port : Fin 18) (s : State) : Out :=
  if FMap.get s.deadLinks false port.val ∧ FMap.get s.linkErrAt 0 port.val + 1000000 * Config.clkPerUs ≤ s.now then
    .next ((({ s with deadLinks := FMap.set s.deadLinks false port.val false } : State).bumpPort port.val 1).logLink 9 port.val)
  else .next s

end Sys2Proof.Machine
end

