-- ==== Sys2Proof/Machine/Power.lean ====
section
/-! DEFINITION. Power and thermal operation: coolant reports and limit tables (21 R446, R447), sensors (21 R448), pulse ratios and rails
(21 R449, R450), power states (21 R453), the thermal emergency and hard trips (21 R454-R456). -/
namespace Sys2Proof.Machine

/-- A second in clk (R6). -/
def clk1s : Nat := 1000000 * Config.clkPerUs

/-! ### Limit tables (R446, R447); temperatures in 1/16 °C -/

/-- The table that a report selects. -/
def tableOf (kind : Coolant) (inlet flow : W16) : LimitTable :=
  match kind with
  | .immersion => if 400 ≤ flow.toNat ∧ inlet.toNat ≤ 50 * 16 then .immersion else .air
  | .coldPlate => if 150 ≤ flow.toNat ∧ inlet.toNat ≤ 45 * 16 then .coldPlate else .air
  | .other => .air
def LimitTable.limitMw : LimitTable → Nat
  | .air => 1100000
  | .coldPlate => 2600000
  | .immersion => 3000000
def LimitTable.thr : LimitTable → Nat
  | .air => 95 * 16
  | .coldPlate | .immersion => 100 * 16
def LimitTable.emg (t : LimitTable) : Nat := t.thr + 160
def LimitTable.trip (t : LimitTable) : Nat := t.thr + 320

/-- `COOLANT_REPORT`: the table changes at the next sensor reading. -/
def execCoolantReport (kind : Coolant) (inlet flow : BitVec 16) (s : State) : Out :=
  .next { s with
    tableNext := tableOf kind inlet flow, reportAt := s.now
    pages := { s.pages with inlet := inlet, flow := flow, powerUpdated := s.platen } }
/-- `COOLANT_REPORT_LOSS`: no report for 1 s. -/
def execCoolantReportLoss (s : State) : Out :=
  .next (if s.reportAt + clk1s ≤ s.now then { s with tableNext := .air } else s)

/-! ### Ratios and rails (R449, R450) -/

/-- A new ratio: a fall applies at once and the rail follows; a rise waits for its rail; an unchanged ratio takes back a rise that waits. -/
def Cluster.setRatio (y : Cluster) (k now : Nat) : Cluster :=
  if k < y.k then { y.slew k now with k := k, throttle := y.throttle + (y.k - k) }
  else if y.k < k then (if y.target = some k then y else y.slew k now)
  else if y.target.any fun t => t != y.k then y.slew y.k now
  else y
/-- The ratio in force, or the one that waits for its rail. -/
def Cluster.aim (y : Cluster) : Nat := y.target.getD y.k
/-- The rail has reached the voltage of its target. -/
def Cluster.settled (y : Cluster) (now : Nat) : Cluster :=
  match y.target with
  | some t => if y.power == .active && y.railNow now == railOf t then { y with railMv := railOf t, k := t, target := none } else y
  | none => y
/-- `RAIL_SETTLED`. -/
def execRailSettled (cl : ClusterId) (s : State) : Out := .next ((s.modCluster cl fun y => y.settled s.now).notePower s)

/-- A cluster's hottest reading of a round. -/
def hottest (temps : List W16) (cl : ClusterId) : Nat := ((temps.drop (cl.val * 32)).take 32).foldl (fun m t => max m t.toNat) 0
/-- The ratio after a round: its first matching row. -/
def ratioAfter (t : LimitTable) (k h sum n : Nat) : Nat :=
  if t.thr ≤ h then max (k - 2) 4
  else if t.limitMw * n < sum then max (k - 1) 4
  else if h < t.thr - 48 ∧ sum * 100 ≤ t.limitMw * 95 * n then min (k + 1) 16
  else k
def State.setRatios (s : State) (temps : List W16) : State :=
  let sum := s.powers.foldl (fun n p => n + p.toNat) 0
  if s.emergency ≠ .none then s
  else
    allClusters.foldl (fun s' cl =>
      let y := s'.cluster cl
      if y.power == .active then s'.setCluster cl (y.setRatio (ratioAfter s.table y.aim (hottest temps cl) sum s.powers.length) s.now) else s') s

/-! ### Emergency (R454, R455) -/

/-- Steps 1 to 3: SAVEBEGIN, every cluster at k = 4, every team pre-empted. -/
def State.beginEmergency (s : State) : State :=
  if s.emergency ≠ .none then s
  else
    let s1 : State := { s with
      emergency := .saving s.now s.pages.savebase false, emgSaved := []
      nv := { s.nv with saveBegin := true, saveDone := false, saveBaseSet := s.pages.savebase != 0 } }
    let s2 := allClusters.foldl (fun s' cl =>
      s'.modCluster cl fun y => if y.power == .active then y.setRatio 4 s.now else y) s1
    s2.cores.foldl (fun s' e => s'.requestPreempt (coreOfNat e.1)) (s2.notePower s)

/-- The hottest sensor: temperature and index, ties to the lower index. -/
def hottestSensor (temps : List W16) : Nat × Nat :=
  ((List.range 1024).zip temps).foldl (fun (m : Nat × Nat) x => if m.1 < x.2.toNat then (x.2.toNat, x.1) else m) ((temps.headD 0).toNat, 0)
/-- HOTID of a round. -/
def hotidWord (temps : List W16) (seq : W16) : W64 :=
  let (t, i) := hottestSensor temps
  BitVec.ofNat 64 (t * 2 ^ 32 + seq.toNat * 2 ^ 16 + i / 4 % 256 * 2 ^ 8 + i % 4)

/-- The clk between two sensor rounds: 5 µs (R448). -/
def roundClk : Nat := 5 * Config.clkPerUs
/-- `SENSOR_ROUND`, every 5 µs: all sensors, core by core and by quadrant; the table selected takes effect, then TRIP, EMG and the ratios. -/
def execSensorRound (temps : List (BitVec 16)) (powerMw : BitVec 32) (s : State) : Out :=
  let table := s.tableNext
  let hot := (hottestSensor temps).1
  let drawsOver := decide (LimitTable.limitMw .air < powerMw.toNat)
  let fell := table == .air && s.table != .air
  let rounds := if table.emg ≤ hot then s.emgRounds + 1 else 0
  let s1 : State := { s with
    table := table, hotid := hotidWord temps (bits s.hotid 16 16 + 1), powers := (s.powers ++ [powerMw]).drop (s.powers.length - 3)
    emgRounds := rounds, coolSince := if table.thr ≤ hot then s.now else s.coolSince
    overSince := if table == .air && drawsOver then (if fell then some s.now else s.overSince) else none
    pages := { s.pages with pkgMw := powerMw, powerUpdated := s.platen }, sensedAt := s.now }
  .next (
    if s.now < s.sensedAt + roundClk then s
    else if table.trip ≤ hot then { s1 with power := false }
    else
      let s2 := s1.setRatios temps
      if 2 ≤ rounds then s2.beginEmergency else s2)

/-- `AIR_OVERPOWER`: 100 ms above 1,100 W since the table fell to air. -/
def execAirOverpower (s : State) : Out :=
  .next (match s.overSince with
    | some t => if t + clk100ms ≤ s.now then s.beginEmergency else s
    | none => s)

/-- The host copy of a core's image, page by page: its bytes have no layout that the manual gives (log entry 3). -/
def State.copyImage (s : State) (base core : Nat) : State :=
  let byte := fun (i : Nat) => (Config.freeValue (s.draws + i)).setWidth 8
  (List.range 128).foldl (fun s' p =>
    s'.hostPut 0 (hostBase + base + 4096 + 524288 * core + 4096 * p) ((List.range 4096).map fun i => byte (4096 * p + i))) { s with draws := s.draws + 524288 }
/-- The save header (R455). -/
def State.saveHeader (s : State) (since : Nat) : List Byte :=
  let entry := fun n =>
    match FMap.at? s.emgSaved n with
    | some (launch, team) => BitVec.ofNat 64 (team.toNat * 2 ^ 40 + launch.toNat * 2 ^ 16 + 1)
    | none => (0 : W64)
  bytesOfNat 0x4556_4153 4 ++ bytesOfNat s.emgSaved.length 4 ++ bytesOfNat since 8 ++
    (List.range 256).flatMap (fun n => bytesOfNat (entry n).toNat 8) ++ List.replicate 2032 0

/-- Every cluster is DARK. -/
def State.darken (s : State) : State :=
  (allClusters.foldl (fun s' cl => s'.modCluster cl fun y => { y with power := .dark, k := 0, railMv := 0, target := none, wake := none }) s).notePower s

/-- `EMERGENCY_SAVE_DONE`: no team is resident and no packet runs; first the host copies and the header, then, once they stand in host memory,
SAVEDONE and DARK, so that a trip may come between (R457). -/
def execEmergencySaveDone (s : State) : Out :=
  match s.emergency with
  | .saving since base headed =>
    if s.cores.any fun e => e.2.team.isSome || e.2.packet.any (fun p => p.slot.st == .issued) then .next s
    else if base ≠ 0 ∧ !headed then
      let s1 := s.emgSaved.foldl (fun s' e => s'.copyImage base.toNat e.1) s
      .next { s1.hostPut 0 (hostBase + base.toNat) (s.saveHeader since) with emergency := .saving since base true }
    else if base ≠ 0 ∧ !s.hostOut.isEmpty then .next s
    else .next ({ s with emergency := .dark s.now, nv := { s.nv with saveDone := true } } : State).darken
  | .none | .dark _ => .next s

/-- `EMERGENCY_END`: the hottest sensor has stayed below THR for 1 s. -/
def execEmergencyEnd (s : State) : Out :=
  match s.emergency with
  | .dark _ =>
    .next (if s.coolSince + clk1s ≤ s.now ∧ bitsN s.hotid 32 16 < s.table.thr then { s with emergency := .none, emgRounds := 0 } else s)
  | .none | .saving _ _ _ => .next s

/-! ### Power states (R453) -/

/-- A team waits that may be placed on the cluster. -/
def State.awaited (s : State) (cl : ClusterId) : Bool :=
  s.launches.any fun (_, l) =>
    s.launchReady l && !l.next.isEmpty && (l.entry.place == 0 || l.entry.place.getLsbD (clusterDie cl).val)
/-- The entry condition of GATED and DARK. -/
def State.clusterIdle (s : State) (cl : ClusterId) : Bool :=
  !s.awaited cl &&
  (coresOf cl).all (fun c =>
    let k := s.core c
    k.team.isNone && k.packet.isNone && galleys.all fun g => (k.galley g).slots.all fun e => e.2.st == .free) &&
  s.launches.all fun (_, l) => l.saved.all fun (i, k) => k.pins.isEmpty || coreCluster (coreOfNat (FMap.get l.savedOn 0 i)) != cl
/-- The entry condition of DORMANT and BANKED. -/
def State.packageIdle (s : State) : Bool :=
  allClusters.all (fun cl => (s.cluster cl).power == .dark) && s.queues.all (fun e => !e.2.enabled || e.2.head == e.2.tail) &&
  !s.entries.any Entry.admitted

/-- A unit number: a cluster, or 32 for the package. -/
def unitCluster (u : Fin 33) : Option ClusterId := if h : u.val < 32 then some ⟨u.val, h⟩ else none

/-- A cluster in a deeper state: its ratio is 0, and its rail follows to V(0); in DARK it is off. -/
def Cluster.deepen (y : Cluster) (st : PowerState) (now : Nat) : Cluster :=
  if st = .dark then { y with power := st, k := 0, target := none, railMv := 0 } else { y.slew 0 now with power := st, k := 0 }
/-- `POWER_STATE_ENTRY`: a unit that is not leaving its state enters the deepest one that LTOL allows. -/
def execPowerStateEntry (u : Fin 33) (s : State) : Out :=
  let ltol := s.pages.ltol.toNat
  match unitCluster u with
  | some cl =>
    let y := s.cluster cl
    let st := clusterState ltol
    if st.num ≤ y.power.num ∨ y.wake.isSome ∨ !s.clusterIdle cl then .next s
    else .next ((s.setCluster cl (y.deepen st s.now)).notePower s)
  | none =>
    let st := packageState ltol
    if st.num ≤ s.pages.package.num ∨ s.pages.wake.isSome ∨ !s.packageIdle then .next s
    else .next { s with pages := { s.pages with package := st, powerUpdated := s.platen } }

/-- DOE requests that waited for the package are served in their order. -/
def State.drainDoe (s : State) : State := s.doeHeld.foldl State.doeServe { s with doeHeld := [] }
/-- `POWER_STATE_EXIT`: the exit latency of a unit that leaves its state is over; a cluster waits for its package. What waited for the
package goes on. -/
def execPowerStateExit (u : Fin 33) (s : State) : Out :=
  match unitCluster u with
  | some cl =>
    let y := s.cluster cl
    match y.wake with
    | some (t, dest) =>
      if s.now < t + y.power.exitClk ∨ s.asleep then .next s
      else .next ((s.setCluster cl { y with power := dest, wake := none }).notePower s)
    | none => .next s
  | none =>
    match s.pages.wake with
    | some (t, dest) =>
      if s.now < t + s.pages.package.exitClk then .next s
      else
        let s1 : State := { s with pages := { s.pages with package := dest, wake := none, powerUpdated := s.platen } }
        .next (if s1.asleep then s1 else s1.drainDoe)
    | none => .next s

/-- `POWER_FAIL`. -/
def execPowerFail (s : State) : Out := .next { s with power := false }

end Sys2Proof.Machine
end

