-- ==== Sys2Proof/Machine/Turn.lean ====
section
/-! DEFINITION. Whose turn it is (log entry 1): the agenda orders turns, and with an empty agenda every listed
core's issue and all that the package does by itself take theirs on each clk (01 R17). -/
namespace Sys2Proof.Machine

/-- A step of an agent other than a context: it has no words of its own (07 R171); only such a step is an event that an
agenda may hold. -/
def isEvent (i : Instr) : Bool :=
  match i with
  | .illegalEncoding _ => false
  | _ => (encode i).isEmpty

/-! ### The round: what happens by itself when the agenda orders nothing

Only steps that the package takes of its own accord stand in the round: what the host, the board, the die's own logic or a
fault brings comes by the agenda. A step that is not enabled leaves the state as it is. -/

/-- The slots of a galley that are ISSUED. -/
def GalleyState.issuedIds (g : GalleyState) : List SlotId :=
  g.slots.filterMap fun (i, y) => if y.st = .issued then some ⟨i % 64, Nat.mod_lt _ (by decide)⟩ else none

/-- Steps of one galley: the Proofreader, issue, work and completion. -/
def galleyEvents (k : Core) (c : CoreId) (g : Galley) : List Instr :=
  [.proofCheck c g 0, .recordIssue c g, .markerRetire c g, .errorPropagation c g, .streamTlbPrefetch c g, .engineWatchdog c g, .engineReset c g,
   .engineResetEnd c g, .engineStop c g] ++
  (k.galley g).issuedIds.flatMap fun i => (if g = .v then [Instr.rowStep c i] else []) ++ [.commandCompletion c g i]

/-- Steps of one context: its access unit, its write lane, its waits. -/
def ctxEvents (c : CoreId) (x : CtxId) : List Instr :=
  [.loadReturn c x 0, .storeLeave c x, .storeAck c x 0, .atomicPerform c x, .chWaitSatisfied c x, .barRelease c x, .haltComplete c x,
   .wfeWake c x, .wfeTimeout c x, .stall c x, .trapEntry c x] ++ (List.range 8).map fun q => .elementLoad c x (BitVec.ofNat 3 q)

/-- Steps of one core beside those of its galleys and contexts. -/
def unitEvents (c : CoreId) : List Instr :=
  [.kStep c none, .proofStep c, .copyUnitCommit c, .agrpRegistration c, .roundJoin c, .contribution c, .verdict c, .writeBudgetWindow c,
   .folioArrival c, .folioStart c, .controlCoreReset c, .replayStart c, .cmpinjRequest c, .preemptionRequest c, .lightDrainLimit c,
   .contextSave c, .saveComplete c, .restoreComplete c, .sliceExpiry c, .budgetOverrun c, .spacerEnd c, .grantLateness c, .overdraw c]

/-- The team that the scheduler places next on the core. -/
def State.placement (s : State) (c : CoreId) : List Instr :=
  match s.bestFor c with
  | some (_, launch, team) => [.teamPlacement (BitVec.ofNat 24 launch) (BitVec.ofNat 24 team) c]
  | none => []

/-- Steps of a cluster and of a die. -/
def clusterEvents (cl : ClusterId) : List Instr := [.issueGrant cl, .regionGrant cl, .drawMeasure cl, .railSettled cl, .mkrtWrite cl, .shootdownInvalidate cl]
def State.dieEvents (s : State) (d : DieId) : List Instr :=
  [.walkStart d, .rollingScrub d, .levelCancel d, .bandTableWrite d, .heartbeat d, .adoption d, .adoptionMemoryTimeout d, .dieReturnTimeout d] ++
  ((List.range (s.die d).walks.length).flatMap fun i => [Instr.walkComplete d i, .walkDieTimeout d i]) ++
  ((List.range 12).map fun n => .permitReturn d ⟨n % 12, Nat.mod_lt _ (by decide)⟩) ++
  (List.range (s.die d).interval.length).map fun i => .dataEntryStart d i

/-- Steps of the queues, of what was taken from them, of launches and of groups. -/
def State.workEvents (s : State) : List Instr :=
  (s.queues.flatMap fun (i, _) =>
    let q := queueOfNat i
    [Instr.deviceDoorbell q, .periodicRecheck q, .barrierEntryStart q, .queueRingTimeout q]) ++
  (s.entries.map fun e => .entryEnd e.queue e.pos.at_) ++
  (s.launches.flatMap fun (i, l) =>
    let id := BitVec.ofNat 24 i
    [Instr.launchRelease id, .launchSever (s.schedulerOf l.owner) id] ++ l.teams.map fun (t, _) => .teamCancelled id (BitVec.ofNat 24 t)) ++
  s.groups.flatMap fun (i, _) => [Instr.roundTimeout (BitVec.ofNat 10 i), .verdictTimeout (BitVec.ofNat 10 i)]

/-- Steps of the package. -/
def packageEvents : List Instr :=
  [.shootdownComplete, .controlPoll, .coolantReportLoss, .airOverpower, .emergencySaveDone, .emergencyEnd]

/-- What a core, its galleys and its contexts do by themselves. -/
def State.coreEvents (s : State) (c : CoreId) : List Instr :=
  let k := s.core c
  let xs : List CtxId := [0, 1, 2, 3]
  (galleys.flatMap fun g => galleyEvents k c g) ++ (xs.flatMap fun x => ctxEvents c x) ++ unitEvents c ++ s.placement c
/-- The events of one clk: of every core that holds anything, of its cluster and die, of the queues and of the package. -/
def State.roundEvents (s : State) : List Instr :=
  let cs := s.cores.map fun (i, _) => coreOfNat i
  (cs.flatMap s.coreEvents) ++
    ((cs.map coreCluster).eraseDups.flatMap fun cl => clusterEvents cl ++
      ((s.cluster cl).granules.map Prod.snd).eraseDups.map fun id => .scratchWindowReturn cl id) ++
    ((cs.map coreDie).eraseDups.flatMap s.dieEvents) ++ s.workEvents ++ packageEvents
/-- The turns of one clk: every core issues, lower numbers first, then what comes about by itself, then the clk passes (R17). -/
def State.roundTurns (s : State) : List Turn :=
  s.cores.map (fun (i, _) => .issueNow (coreOfNat i)) ++ s.roundEvents.map .eventNow

/-- A turn that a package without power still takes: the reset that comes with it again (21 R456), and what the host does to its own
memory. -/
def Turn.powersUp : Turn → Bool
  | .event (.packageReset _ _) | .eventNow (.packageReset _ _) | .hostWrite _ _ | .hostError _ _ | .hostPage _ _ | .bootPhase _ => true
  | .event _ | .eventNow _ | .issue _ | .issueNow _ | .tick _ | .dieLink _ _ | .proofUpset _ _ | .storeRead _ _ | .storeWrite _ _ _
  | .copyRead _ _ | .registerRead _ _ _ | .function _ _ _ | .groupGrant _ _ | .sectorError _ _ => false

/-- The next turn, and the state with that turn taken off the agenda, or with the round gone on by one place. Without power nothing acts and
no clk passes. -/
def State.nextTurn (s : State) : Turn × State :=
  match s.agenda with
  | t :: rest => (if s.power || t.powersUp then t else .tick 0, { s with agenda := rest })
  | [] =>
    if !s.power then (.tick 0, s)
    else
      match s.roundTurns.drop s.roundPos with
      | t :: _ => (t, { s with roundPos := s.roundPos + 1 })
      | [] => (.tick 1, { s with roundPos := 0 })

/-! ### A word placed where the next step fetches it (log entry 15) -/

/-- The virtual address of the placed instruction. -/
def placeVa : W64 := 0x0010_0000
/-- The physical address behind it, in HBM stack 0. -/
def placePa : Nat := 0x4000_0000

/-- The translation of the code page. -/
def placeEntry : TlbEntry :=
  { job := 1, va := 0x0010_0000, size := 0x1_0000, pa := 0x4000_0000, r := true, w := false, x := true, u := true
    st := false, pn := false }

/-- A team of job 1 that runs on core 0. -/
def placeTeam : Resident :=
  { launch := 1, index := 0, job := 1, state := .running, band := 0, placedAt := 0, sliceAt := 0, charge := 0, overrun := false
    cancel := false }

/-- The team context of core 0 runs at the placed instruction, with its code page in the L1 TLB. -/
def placeCore (k : Core) : Core :=
  { (k.modCtx teamCtx fun x => { x with pc := placeVa, run := .running, role := .none, wait := none, passOver := false,
                                        loadQ := [] }) with
    team := some placeTeam, l1tlb := placeEntry :: k.l1tlb, traps := [], preempt := none, proof := .none, lastCtx := 3, issuedAt := none }

/-- Bytes put at consecutive physical addresses, with no uncorrectable error there. -/
def State.placeBytes (s : State) (pa : Nat) : List Byte → State
  | [] => s
  | b :: rest => State.placeBytes (s.setByte pa b) (pa + 1) rest

end Sys2Proof.Machine
end

