-- ==== Sys2Proof/Machine/Pass.lean ====
section
/-! DEFINITION. What the passing of Platen clk does by itself: local time (01 R33), charges (18 R396), stall counts (12 R325), the write
budget (02 R71, R72), the watchdog's count (01 R49), the draw of the arrays (12 R329); and what comes about on an exact clk: a stamped
record's issue (01 R34), issue grants (14 R336-R338), a spacer's end (14 R337), a product's steps (11 R285), an engine reset's beginning and end (01 R50), OVERDRAW, an armed injection (01 R52), a budget's overrun (18 R398), a round's timeout (11 R311). Also the acts of the outside world that are no row of the table of operations (log entry 75). -/
namespace Sys2Proof.Machine

/-! ### Clk that pass -/

/-- The engine of a galley is held on this clk by an agent outside itself (R49): a walk, a page request, what it says it waits for, a
product its grant, a signal its counter's home, a collective the home's acknowledgement or verdict. -/
def State.engineHeld (s : State) (c : CoreId) (g : Galley) : Bool :=
  let k := s.core c
  let y := k.galley g
  (s.walksOf c).any (fun w => match w.unit with
    | .engine h _ => h == g
    | .fetch _ | .data _ | .stream _ _ | .packet | .prefetch _ => false) ||
  s.pri.any (fun p => match p.use with
    | .engine d h _ => d == c && h == g
    | .load _ _ | .packet _ | .queue _ | .word _ _ | .window | .out => false) ||
  (match y.waits with
   | none => false
   | some .budget => !k.laneOpen
   | some (.pin pa n) => s.pinned pa n
   | some .answer => true) ||
  (g == .m && k.product?.isSome && !(k.grant && k.spacerFrom.isNone)) ||
  y.issuedSlots.any fun z => s.signalHeld z ||
    (g == .k && z.op != 0xFA &&
      (z.prog == 1 ||
        (match (s.group z.group).memberOf c, (s.group z.group).opened with
         | some (i, _), some r => (FMap.get r.joined none i).isSome
         | _, _ => false)))

/-- The watchdog counts clk without progress while a record is ISSUED and the engine not held (R49). -/
def GalleyState.aged (g : GalleyState) (dt : Nat) (held : Bool) : GalleyState :=
  if !held && !g.issuedSlots.isEmpty then { g with noProgress := g.noProgress + dt } else g

/-- An ISSUED product runs while its array has its grant and no reset holds it (R285, R336): `n` sixteenths of a cycle. -/
def GalleyState.run (g : GalleyState) (n : Nat) (runs : Bool) : GalleyState :=
  if runs then { g with slots := g.slots.map fun (i, y) => (i, if y.st = .issued ∧ y.isMma then { y with ran := y.ran + n } else y) } else g

/-- One core's share of `dt` clk. -/
def State.agedCore (s : State) (c : CoreId) (dt : Nat) (k : Core) : Core :=
  let k1 : Core := k.drawFor (k.drawNow s.now) dt
  let k2 : Core := { k1 with
    ctxs := k.ctxs.map fun (i, x) => (i, s.agedCtx c dt x)
    team := k.team.map fun r => { r with charge := r.charge + dt }
    budg := match k.team with
      | some r => setBits k.budg 0 32 (min ((r.charge + dt) / 64) (2 ^ 32 - 1))
      | none => k.budg
    packet := k.packet.map fun p => if p.slot.st = .issued then { p with charge := p.charge + dt } else p
    stoff := if k.team.isSome && s.held c then k.stoff + BitVec.ofNat 64 dt else k.stoff
    wuse := if s.budgetHolds c then setBits k.wuse 32 32 (satAdd (bitsN k.wuse 32 32) dt 32) else k.wuse
    galM := (k.galM.aged dt (s.engineHeld c .m)).run (dt * s.pulse c) (k.grant && k.spacerFrom.isNone && !k.galM.stalled)
    galV := k.galV.aged dt (s.engineHeld c .v)
    galX := k.galX.aged dt (s.engineHeld c .x)
    galK := k.galK.aged dt (s.engineHeld c .k) }
  k2.rollWindow (s.now + dt)

/-- `dt` Platen clk pass. -/
def State.tick (s : State) (dt : Nat) : State :=
  { s with platen := s.platen + BitVec.ofNat 64 dt
           cores := s.cores.map fun (i, k) => (i, s.agedCore (coreOfNat i) dt k) }

/-! ### What comes about on a clk -/

/-- The Proofreader reaches the oldest APPENDED record 8 clk after its append (R22, R361). -/
def GalleyState.proofBy (g : GalleyState) (now : Nat) : Bool :=
  match g.oldestAppended with
  | some q => decide ((g.slot (slotOf q).val).appendedAt + 8 ≤ now)
  | none => false
/-- Every such record of a galley; `n` bounds them. -/
def State.proofClk (s : State) (c : CoreId) (g : Galley) : Nat → State
  | 0 => s
  | n + 1 => if ((s.core c).galley g).proofBy s.now && !(s.core c).resetting then State.proofClk (s.proofCheck c g 0) c g n else s
/-- What a reset of an engine does on a clk: one that is over ends, one that was asked for is taken (R50, R332). -/
def State.resetClk (s : State) (c : CoreId) (g : Galley) : State :=
  let y := (s.core c).galley g
  (if y.resetting ∧ y.resetBy < s.now then s.engineResetEnd c g else s).engineReset c g
/-- Records of a galley that may, issue: markers retire and errors propagate as they reach the head, and a record that is ready issues or asks
for its grant (R22, R30, R34, R137); `n` bounds them. -/
def State.headClk (s : State) (c : CoreId) (g : Galley) : Nat → State
  | 0 => s
  | n + 1 =>
    let s1 := ((s.markerRetire c g).errorEnds c g).recordIssue c g
    if ((s1.core c).galley g).headRecord = ((s.core c).galley g).headRecord ∧ ((s1.core c).galley g).slots = ((s.core c).galley g).slots then s1
    else State.headClk s1 c g n
/-- The steps of a product whose cycles are over, K-steps, proof steps and its completion (R285); `n` bounds them. -/
def State.productClk (s : State) (c : CoreId) : Nat → State
  | 0 => s
  | n + 1 =>
    match (s.core c).product? with
    | none => s
    | some (i, y) =>
      match y.shape with
      | none => s
      | some sh =>
        let behind := decide (16 * (y.owed + sh.t / sh.nk) ≤ y.ran)
        match (if y.step < sh.nk ∧ behind then execKStep c none s else .next s) with
        | .next s1 =>
          (match execProofStep c s1 with
           | .next s2 =>
             let z := (s2.core c).slot .m i.val
             if z.step = sh.nk ∧ z.st = .issued ∧ !s2.signalHeld z then s2.completeM c i z
             else if z.step = y.step ∧ z.prog = y.prog then s2 else State.productClk s2 c n
           | .fault _ | .refused _ => s1)
        | .fault _ | .refused _ => s

/-- A core's own part of a clk: spacers, budgets, the draw, then its engines' resets, records and products. Traps of one clk stand in the
order of R321 (`Core.pendTrap`); an injection that falls due asks for its reset after the work of its clk (R27, R333). -/
def State.coreClk (s : State) (c : CoreId) : State :=
  let s1 := ((((s.spacerEnd c).budgetOverrun c).modCore c Core.measure).overdraw c).modCore c Core.drainBacks
  let s2 := galleys.foldl (fun s' g => ((s'.resetClk c g).proofClk c g 64).headClk c g 64) s1
  (s2.productClk c 64).cmpinj c

/-- The clusters in which a request waits for its grant. -/
def State.asking (s : State) : List ClusterId :=
  (s.cores.filterMap fun (i, k) => if k.wantGrant.isSome then some (coreCluster (coreOfNat i)) else none).eraseDups

/-- What the package does by itself on the clk that has come: every core's part, then the grants, rounds whose time is over (R311), then host
accesses that waited (R144), and link permits that are due (R415). -/
def State.onClk (s : State) : State :=
  let s1 := s.cores.foldl (fun s' (i, _) => s'.coreClk (coreOfNat i)) s
  let s2 := (s1.asking.foldl (fun s' cl => s'.grants cl) s1).roundTimeouts
  (if s2.hostHeld.isEmpty then s2 else s2.drainHost s2.hostHeld).repayDue
/-- `n` clk pass at once; the patrol reads on (R432). -/
def State.leap (s : State) (n : Nat) : State := ((s.tick n).patrolTo s.now (s.now + n)).onClk

/-- Something of an engine may come about on one of the next `n` clk: a reset, the Proofreader, its head, its product. -/
def State.engineWatched (s : State) (c : CoreId) (g : Galley) (n : Nat) : Bool :=
  let y := (s.core c).galley g
  y.asked.isSome || (y.resetting && decide (y.resetBy ≤ s.now + n)) || y.proofBy (s.now + n) || (s.issuable c g).isSome ||
  (match y.headRecord with
   | some q =>
     let z := y.slot (slotOf q).val
     z.st == .checked && (z.isMarker || s.waitError z)
   | none => false)
/-- Something of a core may come about on one of the next `n` clk. -/
def State.coreWatched (s : State) (c : CoreId) (n : Nat) : Bool :=
  let k := s.core c
  k.spacerFrom.isSome || k.wantGrant.isSome || k.armed.isSome || !k.wbq.isEmpty || s.budgetHolds c || k.product?.isSome ||
  decide (k.grantedLevel = 0 ∧ 0 < k.drawNow s.now) ||
  k.team.any (fun r => !r.overrun && decide (bitsN k.budg 32 32 * 64 < r.charge + n)) || k.packet.isSome ||
  galleys.any fun g => s.engineWatched c g n
/-- Something may come about on one of the next `n` clk. -/
def State.watched (s : State) (n : Nat) : Bool :=
  s.cores.any (fun (i, _) => s.coreWatched (coreOfNat i) n) ||
  s.groups.any fun (_, g) => g.opened.any fun r => decide (r.openedAt + g.timeout * Config.clkPerUs ≤ s.now + n)

/-- `n` clk pass, one by one where something may come about on one of them. -/
def State.pass (s : State) : Nat → State
  | 0 => s
  | n + 1 => if s.watched (n + 1) then State.pass (s.leap 1) n else s.leap (n + 1)

/-! ### Acts of the outside world -/

/-- Bytes that the host writes to its own memory (R122, R144). -/
def State.hostWrite (s : State) (addr : Nat) (data : List Byte) : State :=
  data.zipIdx.foldl (fun s' (b, i) => match placeOf (addr + i) with
    | some .host => s'.setByte (addr + i) b
    | some (.hbm _) | some (.vault _ _) | some (.scratch _) | none => s') s

/-- The root complex answers a read of a host byte with an error, or no longer (R84, R240, R381). -/
def State.hostError (s : State) (addr : Nat) (bad : Bool) : State :=
  match placeOf addr with
  | some .host => if bad && s.reading addr 1 then s else { s with badBytes := FMap.set s.badBytes false addr bad }
  | some (.hbm _) | some (.vault _ _) | some (.scratch _) | none => s

/-- A die-to-die link fails or is restored: a die that no path reaches any more loses its teams, and rounds that count on it end
(R42, R341). -/
def State.dieLink (s : State) (n : Fin 8) (dead : Bool) : State :=
  let s1 := { s with dieLinks := FMap.set s.dieLinks false n.val dead }
  (([0, 1, 2, 3] : List DieId).foldl (fun s' d => if s'.cutOff d && !s.cutOff d then s'.cutDie d else s') s1).settleRounds

/-- A PCIe function is configured: ATS enabled or not, and the job that a VF is bound to (R368, R369). -/
def State.setFunction (s : State) (f : FuncId) (ats : Bool) (job : BitVec 24) : State := s.setFunc f { s.func f with ats := ats, job := job }

/-- The host takes a page of its memory away, or gives it back; an access that asks for it comes back by `PRI_RESPONSE` (R368). -/
def State.hostPage (s : State) (page : Nat) (absent : Bool) : State := { s with hostAbsent := FMap.set s.hostAbsent false page absent }

/-- The scheduler grants a free group to a job that it has admitted work of, or, for job 0, ends the grant of a job that has none left; its
registrations end with it (R305, R307). -/
def State.grantGroup (s : State) (n : BitVec 10) (job : BitVec 24) : State :=
  let held : BitVec 24 := FMap.get s.groupGrant 0 n.toNat
  if job ≠ 0 then
    (if held = 0 ∧ s.jobBusy job then { s with groupGrant := FMap.set s.groupGrant 0 n.toNat job } else s)
  else if s.jobBusy held then s
  else { s with groupGrant := FMap.set s.groupGrant 0 n.toNat 0, groups := FMap.erase s.groups n.toNat }

end Sys2Proof.Machine
end

