-- ==== Sys2Proof/Machine/Image.lean ====
section
/-! DEFINITION. A Thizil object as bytes (15 R343-R346): its container, tables and relocations, and the loader's checks of
R347 steps 1 to 4. -/
namespace Sys2Proof.Machine

/-- A little-endian field of an image. -/
def fieldOf (b : List Byte) (off n : Nat) : Nat := natOfBytes ((b.drop off).take n)
/-- A field of at most 64 bits, one bit range of it. -/
def partOf (v lo len : Nat) : Nat := v / 2 ^ lo % 2 ^ len

/-- A refusal (R353); a field that the rule gives no value is `none`. Which value fails a check of a table, a graph or a claim is log entry 62. -/
structure LoadFail where
  code : Nat
  kernel : Option Nat
  start : Option Nat
  stop : Option Nat
  bound : Option Nat
  limit : Option Nat
deriving DecidableEq, Repr

/-- One check: whether it holds, and how its failure reads. -/
abbrev Check := Bool × LoadFail
/-- The failure of the first check that does not hold. -/
def firstFail (cs : List Check) : Option LoadFail := (cs.find? fun c => !c.1).map Prod.snd

/-! ### The container (R343, R344) -/

structure Section where
  kind : Nat
  align : Nat
  off : Nat
  size : Nat
deriving DecidableEq, Repr

/-- The offset of entry `i` of the section table. -/
def entryAt (b : List Byte) (i : Nat) : Nat := fieldOf b 0x10 8 + 32 * i
def sectionsOf (b : List Byte) : List Section :=
  (List.range (fieldOf b 0x08 4)).map fun i =>
    let e := entryAt b i
    ⟨fieldOf b e 4, fieldOf b (e + 4) 4, fieldOf b (e + 8) 8, fieldOf b (e + 0x10) 8⟩
/-- A section's contents; empty where the object has none of the kind. -/
def sectionOf (b : List Byte) (kind : Nat) : List Byte :=
  match (sectionsOf b).find? fun s => s.kind == kind with
  | some s => (b.drop s.off).take s.size
  | none => []
def hasSection (b : List Byte) (kind : Nat) : Bool := (sectionsOf b).any fun s => s.kind == kind

/-- A check of a field: the failing offset and value are reported. -/
def formatCheck (ok : Bool) (off value : Nat) : Check := (ok, ⟨1, none, some off, none, some value, none⟩)
/-- The same, with the limit that the rule states. -/
def limitCheck (ok : Bool) (off value limit : Nat) : Check := (ok, ⟨1, none, some off, none, some value, some limit⟩)
/-- A field from `lo` to `hi`; the bound that it passes is the limit applied. -/
def rangeCheck (lo hi off value : Nat) : Check :=
  limitCheck (decide (lo ≤ value) && decide (value ≤ hi)) off value (if value < lo then lo else hi)
def zeroCheck (b : List Byte) (base off n : Nat) : Check := formatCheck (fieldOf b off n == 0) (base + off) (fieldOf b off n)

def headerChecks (b : List Byte) : List Check :=
  let n := fieldOf b 0x08 4
  let t := fieldOf b 0x10 8
  [limitCheck (decide (64 ≤ b.length)) 0 b.length 64,
   formatCheck (fieldOf b 0 4 == 0x315A_4854) 0 (fieldOf b 0 4),
   formatCheck (fieldOf b 4 2 == 1) 4 (fieldOf b 4 2),
   formatCheck (decide (fieldOf b 6 2 < 4)) 6 (fieldOf b 6 2),
   rangeCheck 1 64 8 n,
   zeroCheck b 0 0x0C 4,
   formatCheck (t % 8 == 0) 0x10 t, limitCheck (decide (t + 32 * n ≤ b.length)) 0x10 t b.length,
   zeroCheck b 0 0x18 40]

/-- A power of two from 1 to 4,096. -/
def isPowerOfTwo (n : Nat) : Bool := (List.range 13).any fun k => n == 2 ^ k
/-- Two sections overlap; one of size 0 does where it lies strictly inside the other, which R343 does not say (log entry 96). -/
def Section.meets (s t : Section) : Bool := decide (s.off < t.off + t.size) && decide (t.off < s.off + s.size)
def sectionChecks (b : List Byte) : List Check :=
  let ss := sectionsOf b
  (ss.zipIdx.flatMap fun (s, i) =>
    let e := entryAt b i
    [rangeCheck 1 0x0D e s.kind, formatCheck (!(ss.take i).any fun t => t.kind == s.kind) e s.kind,
     rangeCheck 1 4096 (e + 4) s.align, formatCheck (isPowerOfTwo s.align) (e + 4) s.align,
     limitCheck (decide (s.off + s.size ≤ b.length)) (e + 8) s.off b.length,
     formatCheck (!(ss.take i).any fun t => s.meets t) (e + 8) s.off,
     zeroCheck b 0 (e + 0x18) 8]) ++
  [formatCheck (hasSection b 0x01) 0x10 0x01, formatCheck (hasSection b 0x0A) 0x10 0x0A]

/-! ### The tables (R344-R346, R348) -/

structure KernEntry where
  name : Nat
  off : Nat
  size : Nat
  caseSize : Nat
  yieldMax : Nat
  yldt : Nat
  nclaim : Nat
deriving DecidableEq, Repr
def entriesOf (bs : List Byte) (n : Nat) : List (List Byte) := (List.range (bs.length / n)).map fun i => (bs.drop (n * i)).take n
def kernOf (e : List Byte) : KernEntry :=
  ⟨fieldOf e 0 4, fieldOf e 4 4, fieldOf e 8 4, fieldOf e 0x0C 2, fieldOf e 0x10 4, fieldOf e 0x14 4, fieldOf e 0x18 4⟩
def kernels (b : List Byte) : List KernEntry := (entriesOf (sectionOf b 0x0A) 32).map kernOf
/-- A kernel's tile word; no ring where the object has none for it. -/
def tileWord (b : List Byte) (k : Nat) : Nat := fieldOf (sectionOf b 0x05) (8 * k) 8
def ringFirst (w : Nat) : Nat := partOf w 24 5
def ringSize (w : Nat) : Nat := partOf w 29 4

/-- A claim (R348). -/
structure Claim where
  back : Nat
  init : Nat
  trips : Nat
deriving DecidableEq, Repr
def claimOf (e : List Byte) : Claim := ⟨fieldOf e 0 4, fieldOf e 4 4, fieldOf e 8 4⟩
def claimsOf (b : List Byte) (k : KernEntry) : List Claim :=
  (((entriesOf (sectionOf b 0x09) 16).drop k.yldt).take k.nclaim).map claimOf

structure Sym where
  sec : Nat
  bind : Nat
  value : Nat
deriving DecidableEq, Repr
def symOf (e : List Byte) : Sym := ⟨fieldOf e 4 1, fieldOf e 5 1, fieldOf e 8 8⟩
def symsOf (b : List Byte) : List Sym := (entriesOf (sectionOf b 0x0B) 24).map symOf

structure Rel where
  place : Nat
  sec : Nat
  type : Nat
  sym : Nat
  addend : Int
deriving DecidableEq, Repr
def relOf (e : List Byte) : Rel :=
  ⟨fieldOf e 0 8, fieldOf e 8 1, fieldOf e 9 1, fieldOf e 0x0C 4, (BitVec.ofNat 64 (fieldOf e 0x10 8)).toInt⟩
def relsOf (b : List Byte) : List Rel := (entriesOf (sectionOf b 0x0C) 24).map relOf
/-- A part of the object that has an address at load. -/
def isLoaded (sec : Nat) : Bool := decide (1 ≤ sec) && decide (sec ≤ 3)

/-- The image offset of a section. -/
def offOf (b : List Byte) (kind : Nat) : Nat :=
  match (sectionsOf b).find? fun s => s.kind == kind with
  | some s => s.off
  | none => 0
/-- A section that holds a table is a whole number of entries. -/
def wholeCheck (b : List Byte) (kind n : Nat) : Check :=
  formatCheck ((sectionOf b kind).length % n == 0) (offOf b kind) (sectionOf b kind).length
/-- The checks of each entry of a table, given the image offset of the entry. -/
def tableChecks (b : List Byte) (kind n : Nat) (f : List Byte → Nat → List Check) : List Check :=
  (entriesOf (sectionOf b kind) n).zipIdx.flatMap fun (e, i) => f e (offOf b kind + n * i)

/-- The same, for a table with an entry for each kernel: a failure names the kernel (R353). -/
def kernelChecks (b : List Byte) (kind n : Nat) (f : List Byte → Nat → List Check) : List Check :=
  (entriesOf (sectionOf b kind) n).zipIdx.flatMap fun (e, i) =>
    (f e (offOf b kind + n * i)).map fun c => (c.1, { c.2 with kernel := some i })

def kernChecks (b : List Byte) (e : List Byte) (at_ : Nat) : List Check :=
  let k := kernOf e
  let names := (sectionOf b 0x0D).length
  [limitCheck (names == 0 || decide (k.name < names)) at_ k.name names,
   formatCheck (k.off % 64 == 0) (at_ + 4) k.off,
   limitCheck (decide (k.off + k.size ≤ (sectionOf b 0x01).length)) (at_ + 4) k.off (sectionOf b 0x01).length,
   formatCheck (k.size % 4 == 0) (at_ + 8) k.size,
   zeroCheck e at_ 0x0E 2, zeroCheck e at_ 0x1C 4,
   limitCheck (k.nclaim == 0 || decide (k.yldt + k.nclaim ≤ (sectionOf b 0x09).length / 16)) (at_ + 0x14) k.yldt
     ((sectionOf b 0x09).length / 16)]
def relChecks (b : List Byte) (e : List Byte) (at_ : Nat) : List Check :=
  let r := relOf e
  let bytes := if r.type = 1 then 8 else 4
  [formatCheck (isLoaded r.sec) (at_ + 8) r.sec,
   limitCheck (decide (r.place + bytes ≤ (sectionOf b r.sec).length)) at_ r.place (sectionOf b r.sec).length,
   rangeCheck 1 5 (at_ + 9) r.type,
   zeroCheck e at_ 0x0A 2,
   formatCheck (match (symsOf b)[r.sym]? with
     | some y => isLoaded y.sec
     | none => false) (at_ + 0x0C) r.sym]
/-- Step 1 of R347: the first check of the container that fails. NAME, VALUE and SIZE of a symbol are not checked, since R346 gives them no
limit (log entry 97). -/
def containerFail (b : List Byte) : Option LoadFail :=
  let n := (kernels b).length
  firstFail (headerChecks b ++ sectionChecks b ++
    [wholeCheck b 0x0A 32, wholeCheck b 0x05 8, wholeCheck b 0x06 8, wholeCheck b 0x07 8, wholeCheck b 0x08 4,
     wholeCheck b 0x09 16, wholeCheck b 0x0B 24, wholeCheck b 0x0C 24,
     limitCheck (!hasSection b 0x05 || (sectionOf b 0x05).length == 8 * n) (offOf b 0x05) (sectionOf b 0x05).length (8 * n)] ++
    kernelChecks b 0x0A 32 (kernChecks b) ++
    kernelChecks b 0x05 8 (fun e at_ =>
      [formatCheck (decide (fieldOf e 0 8 < 2 ^ 33)) at_ (fieldOf e 0 8), rangeCheck 0 8 at_ (ringSize (fieldOf e 0 8))]) ++
    tableChecks b 0x08 4 (fun e at_ => [formatCheck (decide (fieldOf e 0 4 < 2 ^ 20)) at_ (fieldOf e 0 4)]) ++
    tableChecks b 0x09 16 (fun e at_ => [zeroCheck e at_ 0x0C 4]) ++
    tableChecks b 0x0B 24 (fun e at_ =>
      [rangeCheck 1 0x0D (at_ + 4) (fieldOf e 4 1), rangeCheck 0 1 (at_ + 5) (fieldOf e 5 1), zeroCheck e at_ 6 2]) ++
    tableChecks b 0x0C 24 (relChecks b))

/-! ### Instructions of a text -/

def wordAt (text : List Byte) (off : Nat) : W32 := BitVec.ofNat 32 (fieldOf text off 4)
/-- The length of the instruction at an offset, by its primary alone (R171). -/
def sizeAt (text : List Byte) (off : Nat) : Nat :=
  let op := (opOf (wordAt text off)).toNat
  if 0xC0 ≤ op ∧ op ≤ 0xFE then 8 else 4
/-- The instruction at an offset; words that are none raise ILLEGAL when they are reached (R192). -/
def instrAt (text : List Byte) (off : Nat) : Instr :=
  match decode (wordAt text off) (if sizeAt text off = 8 then wordAt text (off + 4) else 0) with
  | .ok i => i
  | .error _ => .illegalEncoding (wordAt text off)
/-- The instruction starts of a frame, read one after another from `off` up to `stop`. -/
def startsFrom (text : List Byte) (stop : Nat) : Nat → Nat → List Nat
  | 0, _ => []
  | n + 1, off => if off + 4 ≤ stop then off :: startsFrom text stop n (off + sizeAt text off) else []
def KernEntry.starts (k : KernEntry) (text : List Byte) : List Nat := startsFrom text (k.off + k.size) (k.size / 4) k.off
/-- The second words of a frame's long forms. -/
def KernEntry.seconds (k : KernEntry) (text : List Byte) : List Nat :=
  (k.starts text).filterMap fun o => if sizeAt text o = 8 then some (o + 4) else none

/-! ### Step 2 of R347 -/

def ligChecks (b : List Byte) : List Check :=
  (entriesOf (sectionOf b 0x06) 8).map fun e =>
    let off := fieldOf e 0 4
    let c := 2 ^ partOf (fieldOf e 0 8) 32 2
    let sec := if partOf (fieldOf e 0 8) 34 1 = 1 then 0x03 else 0x02
    (ligValid c (((sectionOf b sec).drop off).take (c * c + 2)), ⟨5, none, some off, none, some (fieldOf e 0 8), none⟩)
def fmtwChecks (b : List Byte) : List Check :=
  (entriesOf (sectionOf b 0x07) 8).zipIdx.map fun (e, i) =>
    let w := fieldOf e 0 8
    (decide (w < 2 ^ 32) && fmtLegal (BitVec.ofNat 32 w), ⟨6, none, some (8 * i), none, some w, none⟩)
def caseChecks (b : List Byte) : List Check :=
  (kernels b).zipIdx.map fun (k, i) =>
    (decide (k.caseSize ≤ 16384), ⟨7, some i, some k.off, none, some k.caseSize, some 16384⟩)
/-- Every `LOOP` of a kernel names its ring. -/
def ringChecks (b : List Byte) : List Check :=
  let text := sectionOf b 0x01
  (kernels b).zipIdx.flatMap fun (k, i) =>
    let t := tileWord b i
    ((k.starts text).filter fun o => opOf (wordAt text o) == 0xC3).map fun o =>
      let w := (wordAt text (o + 4)).toNat
      (ringSize t != 0 && partOf w 0 5 == ringFirst t && decide (partOf w 5 4 ≤ ringSize t), ⟨8, some i, some o, none, some w, some (ringSize t)⟩)
def contentsFail (b : List Byte) : Option LoadFail := firstFail (ligChecks b ++ fmtwChecks b ++ caseChecks b ++ ringChecks b)

/-! ### Step 3 of R347 -/

def chasOf (b : List Byte) : List (BitVec 18) := (entriesOf (sectionOf b 0x08) 4).map fun e => BitVec.ofNat 18 (fieldOf e 0 4)
/-- A counter that the scheduler may grant to the job: no other job's, and none that is reserved to firmware (R347, R405). -/
def State.mayGrant (s : State) (job : BitVec 24) (c : BitVec 18) : Bool :=
  (FMap.get s.chaseGrant 0 c.toNat == 0 || FMap.get s.chaseGrant 0 c.toNat == job) && !allDies.any fun d => (firmwareCtrs d).contains c
def State.grantFail (s : State) (job : BitVec 24) (b : List Byte) : Option LoadFail :=
  firstFail ((chasOf b).zipIdx.map fun (c, i) => (s.mayGrant job c, ⟨9, none, some (4 * i), none, some c.toNat, none⟩))
/-- The counters are granted; one that the job held already keeps its last updater (R326). -/
def State.grantChas (s : State) (job : BitVec 24) (b : List Byte) : State :=
  { s with chaseGrant := (chasOf b).foldl (fun m c => FMap.set m 0 c.toNat job) s.chaseGrant
           chaseLast := (chasOf b).foldl (fun m c =>
             if FMap.get s.chaseGrant 0 c.toNat = job then m else FMap.set m none c.toNat none) s.chaseLast }

/-! ### Relocations (R162, R346) -/

/-- The three loaded sections' contents, or their addresses, by kind. -/
structure Loaded (α : Type) where
  text : α
  data : α
  const : α
deriving DecidableEq, Repr
def Loaded.at {α : Type} (x : Loaded α) (sec : Nat) : α := if sec = 1 then x.text else if sec = 2 then x.data else x.const
def Loaded.set {α : Type} (x : Loaded α) (sec : Nat) (v : α) : Loaded α :=
  if sec = 1 then { x with text := v } else if sec = 2 then { x with data := v } else { x with const := v }

/-- Overwrite bytes. -/
def patch (bs : List Byte) (off : Nat) (new : List Byte) : List Byte := bs.take off ++ new ++ bs.drop (off + new.length)
/-- LD_RELOC; a place in a kernel's text names the kernel (R353). -/
def relocFail (b : List Byte) (r : Rel) (value : Int) (limit : Option Int) : LoadFail :=
  let word := fun (v : Int) => (v % 2 ^ 64).toNat
  let inside := fun (k : KernEntry) => r.sec == 1 && decide (k.off ≤ r.place) && decide (r.place < k.off + k.size)
  ⟨2, (kernels b).findIdx? inside, some r.place, none, some (word value), limit.map word⟩
/-- Apply one relocation; `seconds` are the second words of the text's long forms. S + A is unbounded (R159), and a field takes its low bits
(log entry 83). -/
def relocate (b : List Byte) (seconds : List Nat) (va : Loaded W64) (r : Rel) (x : Loaded (List Byte)) : Except LoadFail (Loaded (List Byte)) :=
  let s := match (symsOf b)[r.sym]? with
    | some y => (va.at y.sec).toNat + y.value
    | none => 0
  let v : Int := (s : Int) + r.addend
  let low := fun (n : Int) => (n % 2 ^ 32).toNat
  let put := fun (off n v : Nat) => Except.ok (x.set r.sec (patch (x.at r.sec) off (bytesOfNat v n)))
  let second := r.sec == 1 && seconds.contains r.place
  if r.type = 1 then put r.place 8 (v % 2 ^ 64).toNat
  else if r.type = 2 then (if v < 2 ^ 32 then put r.place 4 (low v) else .error (relocFail b r v (some (2 ^ 32))))
  else if r.type = 3 then (if second then put r.place 4 (low v) else .error (relocFail b r v none))
  else if r.type = 4 then (if second then put r.place 4 (low (v / 2 ^ 32)) else .error (relocFail b r v none))
  else
    let at_ := r.place / 4 * 4
    let words : Int := (v - ((va.at r.sec).toNat + at_ : Nat)) / 4
    if -(2 ^ 23 : Int) ≤ words ∧ words < 2 ^ 23 then
      put at_ 4 (fieldOf (x.at r.sec) at_ 1 + (words % 2 ^ 24).toNat * 256)
    else .error (relocFail b r words (some (if words < 0 then -(2 ^ 23) else 2 ^ 23 - 1)))
def relocateAll (b : List Byte) (seconds : List Nat) (va : Loaded W64) : List Rel → Loaded (List Byte) → Except LoadFail (Loaded (List Byte))
  | [], x => .ok x
  | r :: rest, x =>
    match relocate b seconds va r x with
    | .ok y => relocateAll b seconds va rest y
    | .error e => .error e
/-- Step 4 of R347: the sections with every relocation applied. -/
def relocated (b : List Byte) (va : Loaded W64) : Except LoadFail (Loaded (List Byte)) :=
  let text := sectionOf b 0x01
  relocateAll b ((kernels b).flatMap fun k => k.seconds text) va (relsOf b) ⟨text, sectionOf b 0x02, sectionOf b 0x03⟩

end Sys2Proof.Machine
end

