-- ==== Sys2Proof/Machine/Yields.lean ====
section
/-! DEFINITION. The yield analysis (15 R348-R351): a kernel's control-flow graph with its calls inlined, the claims on its
cycles, and the largest cost of a path between yield checks. -/
namespace Sys2Proof.Machine

/-- What is reached from the nodes of a list; the first argument bounds the search. -/
def reach {α : Type} [DecidableEq α] (succ : α → List α) : Nat → List α → List α → List α
  | 0, _, seen => seen
  | _ + 1, [], seen => seen
  | n + 1, x :: rest, seen =>
    if x ∈ seen then reach succ n rest seen else reach succ n (succ x ++ rest) (seen ++ [x])

/-! ### Costs (R349, R223, R253) -/

/-- The cost of an instruction in clk; `taken` is whether a `BC` or `LEND` branches. -/
def costOf (wchg : Nat) (taken : Bool) : Instr → Nat
  | .yield => 3 + 24
  | .halt => 3 + 2
  | .chWait _ _ _ => 3 + 40
  | .fence _ _ | .fenceDone _ _ => 3 + 2
  | .bar _ _ lw | .dlv _ _ _ _ lw => 3 + 1 + lwClk lw
  | .ldB _ _ _ | .ldH _ _ _ | .ldW _ _ _ | .ldD _ _ _ | .ldBU _ _ _ | .ldHU _ _ _ | .ldWU _ _ _ | .ldAcq _ _ _ _ _
  | .stB _ _ _ _ | .stH _ _ _ _ | .stW _ _ _ _ | .stD _ _ _ _ | .stRel _ _ _ _ _
  | .atmAdd _ | .atmMin _ | .atmMax _ | .atmAnd _ | .atmOr _ | .atmXor _ | .atmXchg _ | .atmCas _
  | .chSet _ _ | .chAdd _ _ | .align _ | .cancel _ _ | .fmt _ | .ldq _ _ _ _ _
  | .vadd _ | .vsub _ | .vmul _ | .vfma _ | .vmin _ | .vmax _ | .vabs _ | .vneg _ | .vand _ | .vor _ | .vxor _ | .vshl _
  | .vshr _ | .viadd _ | .vimul _ | .vcmp _ | .vsel _ | .vshuf _ | .vbcast _ | .vmovs _ | .vred _ | .vexp2 _ | .vlog2 _
  | .vrcp _ | .vrsq _ | .vcvt _ | .vqnt _ | .vdqnt _ | .vamul _ _ | .vconj _ _ | .vnorm _ _ | .vld _ | .vst _
  | .mma _ | .mmaz _ | .amov _ _ | .amovT _ | .azero _ | .ald _ | .ast _ | .tld _ | .tst _ | .lig _ _ _
  | .cpy _ _ _ | .cpy2d _ _ _ _ | .cpy3d _ _ _ _ _ _ | .gath _ _ _ _ _ | .scat _ _ _ _ _ | .fill _ _ _ | .zero _ _
  | .stgRel _ _ | .agrp _ _ | .mclr _ | .mcst _ _ => 3 + 1 + wchg
  | .mul _ _ _ => 3 + 3
  | .mulh _ _ _ | .mulhu _ _ _ => 3 + 4
  | .div _ _ _ | .divu _ _ _ | .rem _ _ _ | .remu _ _ _ => 3 + 36
  | .fmin _ _ _ | .fmax _ _ _ | .fcmp _ _ _ | .fclass _ _ => 3 + 2
  | .fcvt _ _ _ _ _ => 3 + 3
  | .fadd _ _ _ _ | .fsub _ _ _ _ | .fmul _ _ _ _ => 3 + 4
  | .fma _ _ _ _ _ => 3 + 5
  | .fdiv _ _ _ _ => 3 + 14
  | .fsqrt _ _ _ => 3 + 16
  | .b _ | .bl _ | .ret _ => 3 + 3
  | .bc _ _ _ => if taken then 3 + 3 else 3 + 1
  | .lend _ => if taken then 3 + 1 else 3 + 3
  | .loop _ _ _ => 3 + 2
  | .csrr _ _ => 3 + 2
  | .csrw _ _ | .csrx _ _ _ => 3 + 3
  | .tlbInvPage _ | .tlbInvSpace | .tlbInvCluster => 3 + 48
  | _ => 3 + 1

/-- The scalar register that an instruction writes; a write of s0 is none. -/
def destOf : Instr → Option Reg
  | .add d _ _ | .sub d _ _ | .mul d _ _ | .mulh d _ _ | .mulhu d _ _ | .div d _ _ | .divu d _ _ | .rem d _ _ | .remu d _ _
  | .and d _ _ | .or d _ _ | .xor d _ _ | .shl d _ _ | .shr d _ _ | .sra d _ _ | .rotl d _ _ | .min d _ _ | .minu d _ _
  | .max d _ _ | .maxu d _ _ | .slt d _ _ | .sltu d _ _ | .seq d _ _ | .clz d _ | .ctz d _ | .popc d _ | .mov d _
  | .sel d _ _ _ | .fadd _ d _ _ | .fsub _ d _ _ | .fmul _ d _ _ | .fdiv _ d _ _ | .fsqrt _ d _ | .fmin d _ _ | .fmax d _ _
  | .fcmp d _ _ | .fcvt _ _ _ d _ | .fclass d _ | .fma _ d _ _ _ | .addi d _ _ | .andi d _ _ | .ori d _ _ | .xori d _ _
  | .shli d _ _ | .shri d _ _ | .srai d _ _ | .bfx d _ _ _ | .bfi d _ _ _ | .ldi d _ | .ldhi d _ | .wfe d _ | .csrr d _
  | .csrx d _ _ | .ldB d _ _ | .ldH d _ _ | .ldW d _ _ | .ldD d _ _ | .ldBU d _ _ | .ldHU d _ _ | .ldWU d _ _
  | .ldAcq _ _ d _ _ | .ldc _ d _ | .popq d _ _ | .chWait _ d _ => if d = 0 then none else some d
  | .atmAdd m | .atmMin m | .atmMax m | .atmAnd m | .atmOr m | .atmXor m | .atmXchg m | .atmCas m =>
    if m.d = 0 then none else some m.d
  | .bl _ => some 63
  | _ => none

/-! ### The graph -/

/-- A call under way: the callee's first instruction, and what its `RET` resumes: frame and offset. -/
structure Call where
  target : Nat
  frame : Nat
  ret : Nat
deriving DecidableEq, Repr
/-- A node: an instruction of a frame under its calls. -/
structure Node where
  frame : Nat
  pc : Nat
  stack : List Call
deriving DecidableEq, Repr

/-- What the analysis of an object reads: its relocated text, its frames, and the wait charge. -/
structure Program where
  text : List Byte
  frames : List KernEntry
  wchg : Nat
deriving DecidableEq, Repr

def Program.instr (p : Program) (n : Node) : Instr := instrAt p.text n.pc
def Program.starts (p : Program) (frame : Nat) : List Nat :=
  match p.frames[frame]? with
  | some k => k.starts p.text
  | none => []
/-- The frame that a target lies in, the given one first. -/
def Program.frameOf (p : Program) (cur target : Nat) : Option Nat :=
  let inside := fun (k : KernEntry) => decide (k.off ≤ target) && decide (target < k.off + k.size)
  if (p.frames[cur]?).any inside then some cur else p.frames.findIdx? inside
/-- The target of a branch; none where it is no instruction of the text. -/
def targetOf {n : Nat} (pc : Nat) (off : BitVec n) : Option Nat :=
  let t : Int := (pc : Int) + 4 * off.toInt
  if t < 0 then none else some t.toNat

/-- The calls from the activation of `target` that returns to `ret`, where one is under way: a cycle through a `BL`. -/
def activation (target ret : Nat) : List Call → Option (List Call)
  | [] => none
  | c :: rest => if c.target = target ∧ c.ret = ret then some (c :: rest) else activation target ret rest

/-- The ways on from a node with their costs, a taken branch first; none where R349 refuses the node. A `RET` of a path that no call has
entered leads nowhere (log entry 62). -/
def Program.edges (p : Program) (n : Node) : Option (List (Nat × Node)) :=
  let i := p.instr n
  let cost := costOf p.wchg false i
  let at_ := fun (pc : Nat) => if (p.starts n.frame).contains pc then some { n with pc := pc } else none
  let next := at_ (n.pc + sizeAt p.text n.pc)
  let branch := fun (t : Option Nat) => t.bind at_
  match i with
  | .halt => some []
  | .b off => (branch (targetOf n.pc off)).map fun m => [(cost, m)]
  | .bc _ _ off | .lend off =>
    match branch (targetOf n.pc off), next with
    | some m, some rest => some [(costOf p.wchg true i, m), (cost, rest)]
    | _, _ => none
  | .bl off =>
    match targetOf n.pc off with
    | none => none
    | some t =>
      match p.frameOf n.frame t with
      | some f =>
        if (p.starts f).contains t then
          some [(cost, ⟨f, t, (activation t (n.pc + 4) n.stack).getD (⟨t, n.frame, n.pc + 4⟩ :: n.stack)⟩)]
        else none
      | none => none
  | .ret a =>
    if a ≠ 63 then none
    else
      match n.stack with
      | [] => some []
      | c :: rest => if (p.starts c.frame).contains c.ret then some [(cost, ⟨c.frame, c.ret, rest⟩)] else none
  | _ => next.map fun m => [(cost, m)]

/-! ### What a callee does with s63 (R349) -/

/-- On a path: whether s63 holds the link of the call under way, the Case offset that holds it, and those of the callers. -/
structure LinkState where
  link : Bool
  saved : Option Nat
  outer : List (Option Nat)
deriving DecidableEq, Repr
/-- A store to Case memory ends what is saved in the bytes it writes. -/
def keeps (off n : Nat) (saved : Option Nat) : Option Nat := saved.filter fun o => decide (o + 8 ≤ off) || decide (off + n ≤ o)
/-- What an instruction on the way from `n` to `m` does to it; none where a callee writes s63 other than by restoring it, or returns
without it. -/
def Program.link (p : Program) (n m : Node) (k : LinkState) : Option LinkState :=
  let i := p.instr n
  match i with
  | .bl _ =>
    some ⟨true, none, if m.stack.length = n.stack.length + 1 then k.saved :: k.outer else k.outer.drop (n.stack.length - m.stack.length)⟩
  | .ret _ =>
    (match k.link, k.outer with
     | true, saved :: rest => some ⟨false, saved, rest⟩
     | _, _ => none)
  | .stc z d off =>
    some { k with saved := if k.link ∧ d = 63 ∧ z = .double then some off.toNat else keeps off.toNat z.bytes k.saved
                  outer := k.outer.map (keeps off.toNat z.bytes) }
  | .ldc z d off =>
    if d = 63 ∧ n.stack ≠ [] then (if z = .double ∧ k.saved = some off.toNat then some { k with link := true } else none) else some k
  | _ => if destOf i = some 63 ∧ n.stack ≠ [] then none else some k
/-- A node that R349 refuses, by where it leads or by what it does to s63 on a path that reaches it. -/
def Program.refuses (p : Program) (x : Node × LinkState) : Bool :=
  match p.edges x.1 with
  | none => true
  | some es => es.any fun e => (p.link x.1 e.2 x.2).isNone
def Program.onPaths (p : Program) (x : Node × LinkState) : List (Node × LinkState) :=
  ((p.edges x.1).getD []).filterMap fun e => (p.link x.1 e.2 x.2).map fun k => (e.2, k)

/-- A kernel's graph: its nodes, the entry first. -/
structure Graph where
  prog : Program
  nodes : List Node
  entry : Node
deriving DecidableEq, Repr

/-- More steps than a search of the text's nodes takes. -/
def Program.fuel (p : Program) : Nat := 4 * (2 ^ 16 * (p.text.length + 1) ^ 2) ^ (p.text.length / 4 + 2)
def Graph.edges (g : Graph) (n : Node) : List (Nat × Node) := (g.prog.edges n).getD []
def Graph.instr (g : Graph) (n : Node) : Instr := g.prog.instr n
def Graph.succs (g : Graph) (n : Node) : List Node := (g.edges n).map Prod.snd
def Graph.preds (g : Graph) (n : Node) : List Node := g.nodes.filter fun m => (g.succs m).contains n
/-- The ways on that stay on a path: none from a `YIELD`. -/
def Graph.onward (g : Graph) (n : Node) : List Node := if g.instr n = .yield then [] else g.succs n
def Graph.backward (g : Graph) (n : Node) : List Node := g.nodes.filter fun m => (g.onward m).contains n
def Graph.search (g : Graph) (succ : Node → List Node) (ns : List Node) : List Node := reach succ g.prog.fuel ns []

def Program.graph (p : Program) (kernel : Nat) : Graph :=
  let entry : Node := ⟨kernel, ((p.frames[kernel]?).map KernEntry.off).getD 0, []⟩
  { prog := p, entry := entry, nodes := reach (fun n => ((p.edges n).getD []).map Prod.snd) p.fuel [entry] [] }
/-- The first node that R349 refuses. -/
def Graph.bad (g : Graph) : Option Node :=
  if (g.prog.starts g.entry.frame).contains g.entry.pc then
    ((reach g.prog.onPaths g.prog.fuel [(g.entry, ⟨false, none, []⟩)] []).find? g.prog.refuses).map Prod.fst
  else some g.entry

/-! ### Claims (R348) -/

/-- A claimed back edge in the graph: its claim, its branch, and the branch's target. -/
structure Back where
  claim : Claim
  branch : Node
  head : Node
deriving DecidableEq, Repr
def Graph.backsOf (g : Graph) (c : Claim) : List Back :=
  (g.nodes.filter fun n => n.pc == c.back).filterMap fun n => (g.succs n).head?.map fun h => ⟨c, n, h⟩
/-- The nodes on the ways from the target to the branch, given the ways back from a node. -/
def Back.body (g : Graph) (y : Back) (back : Node → List Node) : List Node :=
  g.search (fun n => if n = y.head then [] else back n) [y.branch]

def Graph.writes (g : Graph) (r : Reg) (n : Node) : Bool := destOf (g.instr n) == some r
/-- On every path into the given nodes the last write of `r` is the `LDI` at `init`. -/
def Graph.setBy (g : Graph) (r : Reg) (init : Nat) (ns : List Node) : Bool :=
  let found := g.search (fun n => if g.writes r n then [] else g.preds n) ns
  let sets := found.filter fun n => g.writes r n
  !sets.isEmpty && sets.all (fun n => n.pc == init) && (g.writes r g.entry || !found.contains g.entry)
/-- The value of the `LDI` at an offset, and its register. -/
def Program.ldiAt (p : Program) (off : Nat) : Option (Reg × Nat) :=
  match instrAt p.text off with
  | .ldi d imm => some (d, (sext64 imm).toNat)
  | _ => none

/-- The hardware loop of R348: the `LOOP` stands before the body. -/
def Graph.loopClaim (g : Graph) (y : Back) : Bool :=
  match g.prog.ldiAt y.claim.init with
  | none => false
  | some (r, v) =>
    let loops := g.nodes.filter fun n => n.pc + 8 == y.head.pc && n.frame == y.head.frame && n.stack == y.head.stack
    !loops.isEmpty && y.claim.trips == max v 1 && decide (v < 2 ^ 31) &&
      loops.all fun n => match g.instr n with
        | .loop a _ _ => a == r && g.setBy r y.claim.init (g.preds n)
        | _ => false
/-- The counted branch of R348. -/
def Graph.branchClaim (g : Graph) (y : Back) (r : Reg) : Bool :=
  match g.prog.ldiAt y.claim.init with
  | none => false
  | some (d, v) =>
    let body := y.body g g.preds
    let sets := body.filter fun n => g.writes r n
    let inside := fun n => (g.succs n).filter fun m => body.contains m && !(n == y.branch && m == y.head)
    d == r && y.claim.trips == v && decide (1 ≤ v) && decide (v < 2 ^ 31) &&
    (y.head == g.entry || !body.contains g.entry) &&
    (body.filter fun n => (g.succs n).contains y.head) == [y.branch] &&
    sets.all (fun n => g.instr n == .addi r r (BitVec.ofInt 12 (-1))) &&
    !(g.search (fun n => if sets.contains n then [] else inside n) [y.head]).contains y.branch &&
    sets.all (fun n => (g.search inside (inside n)).all fun m => !sets.contains m) &&
    y.head != g.entry && g.setBy r y.claim.init ((g.preds y.head).filter fun n => !body.contains n)
def Graph.confirmed (g : Graph) (y : Back) : Bool :=
  match g.instr y.branch with
  | .lend _ => g.loopClaim y
  | .bc .nez r _ => g.branchClaim y r
  | _ => false
/-- A claim is confirmed: it names a branch of the kernel, and each place of it in the graph meets the conditions. -/
def Graph.claimOk (g : Graph) (c : Claim) : Bool := !(g.backsOf c).isEmpty && (g.backsOf c).all g.confirmed

/-! ### Cycles and the bound (R349) -/

/-- The claimed back edges that close a cycle with no `YIELD`. -/
def Graph.claimed (g : Graph) (cs : List Claim) : List Back :=
  (cs.flatMap g.backsOf).filter fun y => (y.body g g.backward).contains y.head
/-- The ways on without the claimed back edges. -/
def Graph.forward (g : Graph) (ys : List Back) (n : Node) : List (Nat × Node) :=
  if g.instr n = .yield then [] else (g.edges n).filter fun e => !ys.any fun y => y.branch == n && y.head == e.2
/-- The back edge of a cycle that no claim covers. -/
def Graph.unbounded (g : Graph) (ys : List Back) : Option Node :=
  let succ := fun n => (g.forward ys n).map Prod.snd
  g.nodes.zipIdx.findSome? fun (n, i) =>
    if (succ n).any fun m => (g.nodes.take (i + 1)).contains m && (g.search succ [m]).contains n then some n else none

/-- The largest cost of a path from each node, with the offset where it ends; `extra` is charged on entering a node. The
ways on close no cycle, so that as many rounds as there are nodes suffice. -/
def longest {α : Type} [DecidableEq α] (nodes : List α) (edges : α → List (Nat × α)) (stop : α → Option (Nat × Nat))
    (extra : α → Nat) : Nat → List (α × Option (Nat × Nat))
  | 0 => nodes.map fun n => (n, (stop n).map fun e => (e.1 + extra n, e.2))
  | k + 1 =>
    let vals := longest nodes edges stop extra k
    nodes.map fun n =>
      let ways := (edges n).filterMap fun e => ((vals.lookup e.2).getD none).map fun v => (e.1 + v.1, v.2)
      let best := (ways ++ (stop n).toList).foldl (fun acc w => match acc with
        | some a => if a.1 < w.1 then some w else some a
        | none => some w) (none : Option (Nat × Nat))
      (n, best.map fun w => (w.1 + extra n, w.2))
def pathFrom {α : Type} [DecidableEq α] (nodes : List α) (edges : α → List (Nat × α)) (stop : α → Option (Nat × Nat))
    (extra : α → Nat) (n : α) : Option (Nat × Nat) :=
  ((longest nodes edges stop extra nodes.length).lookup n).getD none

/-- What a claimed cycle costs beyond one pass, given the same of the cycles within it. -/
def Graph.passes (g : Graph) (ys : List Back) (extra : Node → Nat) (y : Back) : Nat :=
  let body := y.body g g.backward
  let stop := fun n => if n = y.branch then some (costOf g.prog.wchg true (g.instr n), n.pc) else none
  let edges := fun n => if n = y.branch then [] else (g.forward ys n).filter fun e => body.contains e.2
  ((pathFrom body edges stop extra y.head).map fun v => (y.claim.trips - 1) * v.1).getD 0
/-- The passes of every claimed cycle, by its first node, the innermost first. -/
def Graph.extras (g : Graph) (ys : List Back) : Node → Nat :=
  let sorted := ys.mergeSort fun a b => decide ((a.body g g.backward).length ≤ (b.body g g.backward).length)
  let table := sorted.foldl (fun (t : List (Node × Nat)) y =>
    (y.head, g.passes ys (fun n => ((t.filter fun e => e.1 == n).map Prod.snd).sum) y) :: t) []
  fun n => ((table.filter fun e => e.1 == n).map Prod.snd).sum

/-- A path's place: a node, and the claimed back edges that a path begun within their cycle may still take. -/
abbrev Place2 := Node × List Back
def Graph.placed (ys : List Back) (n : Node) : Place2 := (n, ys.filter fun y => y.head != n)
def Graph.ways (g : Graph) (ys : List Back) (x : Place2) : List (Nat × Place2) :=
  (g.forward ys x.1).map (fun e => (e.1, Graph.placed x.2 e.2)) ++
    (x.2.filter fun y => y.branch == x.1).map fun y => (costOf g.prog.wchg true (g.instr x.1), Graph.placed x.2 y.head)
/-- The cost and the end of the dearest path from a node. -/
def Graph.boundFrom (g : Graph) (ys : List Back) (n : Node) : Option (Nat × Nat) :=
  let start := Graph.placed (ys.filter fun y => (y.body g g.backward).contains n) n
  let places := reach (fun x => (g.ways ys x).map Prod.snd) g.prog.fuel [start] []
  let stop := fun (x : Place2) => match g.instr x.1 with
    | .yield => some (3 + 24, x.1.pc)
    | .halt => some (3 + 2, x.1.pc)
    | _ => none
  pathFrom places (g.ways ys) stop (fun x => g.extras ys x.1) start
/-- Where paths begin: the entry, and after each `YIELD`. -/
def Graph.begins (g : Graph) : List Node := g.entry :: (g.nodes.filter fun n => g.instr n == .yield).flatMap g.succs
/-- B of a kernel, with the offsets where the path begins and ends. -/
def Graph.bound (g : Graph) (ys : List Back) : Nat × Nat × Nat :=
  g.begins.foldl (fun acc n => match g.boundFrom ys n with
    | some (v, stop) => if acc.1 < v then (v, n.pc, stop) else acc
    | none => acc) (0, g.entry.pc, g.entry.pc)

/-- The limit of a kernel (R351). -/
def limitOf (ymax : W64) (k : KernEntry) : Nat :=
  if k.yieldMax = 0 then bitsN ymax 0 32 else min (bitsN ymax 0 32) k.yieldMax
/-- The analysis of kernel `i` with its claims: its bound, or the refusal. -/
def Program.analyse (p : Program) (i : Nat) (k : KernEntry) (claims : List Claim) (ymax : W64) : Except LoadFail Nat :=
  let g := p.graph i
  match g.bad with
  | some n => .error ⟨3, some i, some n.pc, none, some (wordAt p.text n.pc).toNat, none⟩
  | none =>
    match claims.find? fun c => !g.claimOk c with
    | some c => .error ⟨4, some i, some c.back, some c.back, some (wordAt p.text c.back).toNat, none⟩
    | none =>
      let ys := g.claimed claims
      match g.unbounded ys with
      | some n => .error ⟨4, some i, some n.pc, some n.pc, some (wordAt p.text n.pc).toNat, none⟩
      | none =>
        let (v, start, stop) := g.bound ys
        if v ≤ limitOf ymax k then .ok v else .error ⟨10, some i, some start, some stop, some v, some (limitOf ymax k)⟩

end Sys2Proof.Machine
end

