-- ==== Sys2Proof/Machine/Loader.lean ====
section
/-! DEFINITION. The loader (15 R347-R353): loading an object into a job, its report, and unloading. -/
namespace Sys2Proof.Machine

/-! ### Reports (R353) -/

/-- The report of a refusal or a success; a field that the rule gives no value is a free value (log entry 3). -/
def State.reportLoad (s : State) (f : LoadFail) : State :=
  let free := fun (i : Nat) (v : Option Nat) => match v with
    | some n => n
    | none => (Config.freeValue (s.draws + i)).toNat
  { s with
    draws := s.draws + 4
    outbox := s.outbox ++ [.report (BitVec.ofNat 32 f.code) (BitVec.ofNat 32 (f.kernel.getD 0xFFFF_FFFF))
      (BitVec.ofNat 32 (free 0 f.start)) (BitVec.ofNat 32 (free 1 f.stop)) (BitVec.ofNat 64 (free 2 f.bound))
      (BitVec.ofNat 64 (free 3 f.limit))] }
def loadOk : LoadFail := ⟨0, none, none, none, none, none⟩

/-! ### Places -/

/-- The 64 KiB pages that hold a number of bytes, in bytes. -/
def pagesLen (n : Nat) : Nat := (n + 0xFFFF) / 0x1_0000 * 0x1_0000
/-- A range of device memory that firmware may give out. -/
def State.freeRange (s : State) (pa len : Nat) : Bool :=
  (List.range (pageCount len)).all fun i =>
    let p := pa + i * 0x1_0000
    isHbm p && isHbm (p + 0xFFFF) && !firmwareOwned p && !s.pageBarred p && !s.pageMapped p && !s.pageDraining p
/-- The first free range: at the start of the memory given out, or after something that stands there. -/
def State.allocate (s : State) (len : Nat) : Option Nat :=
  let after := s.maps.map (fun m => pagesLen (m.pa + m.len)) ++ (s.nv.retired.map fun p => (p + 1) * 0x1_0000)
  (0x1000_0000 :: after).find? fun p => s.freeRange p len

/-- A virtual range of the job is whole 64 KiB pages of one half of the space and holds no mapping. -/
def State.freeVa (s : State) (job : BitVec 24) (va : W64) (len : Nat) : Bool :=
  va.toNat % 0x1_0000 == 0 && canonical va && (len == 0 || canonical (va + BitVec.ofNat 64 (len - 1))) &&
  decide (va.toNat % 2 ^ 56 + len ≤ 2 ^ 56) &&
  s.maps.all fun m => m.job != job || decide (va.toNat % 2 ^ 56 + len ≤ m.va % 2 ^ 56) || decide (m.va % 2 ^ 56 + m.len ≤ va.toNat % 2 ^ 56)
def disjointVa (a : W64) (n : Nat) (b : W64) (m : Nat) : Bool := decide (a.toNat + n ≤ b.toNat) || decide (b.toNat + m ≤ a.toNat)
/-- The ranges that the loader chose for the object. -/
def State.rangesOk (s : State) (job : BitVec 24) (va : Loaded W64) (x : Loaded (List Byte)) : Bool :=
  let n := fun (l : List Byte) => pagesLen l.length
  s.freeVa job va.text (n x.text) && s.freeVa job va.data (n x.data) && s.freeVa job va.const (n x.const) &&
  disjointVa va.text (n x.text) va.data (n x.data) && disjointVa va.text (n x.text) va.const (n x.const) &&
  disjointVa va.data (n x.data) va.const (n x.const)

/-! ### Loading (R347) -/

/-- Map one section and write its bytes; none where no memory is free. -/
def State.loadSection (s : State) (job : BitVec 24) (va : W64) (bytes : List Byte) (f : LeafFlags) : Option State :=
  if bytes.isEmpty then some s
  else
    let len := pagesLen bytes.length
    match s.allocate len with
    | none => none
    | some pa =>
      let s1 := ((s.mapRange job va.toNat len pa f).writeBytes pa bytes).writtenLines pa bytes.length false
      some (s1.startShootdown job va.toNat len false [])
/-- Step 6 of R347: the flags of the three sections. -/
def textFlags : LeafFlags := ⟨true, false, true, true, false, true⟩
def dataFlags (flags : Nat) : LeafFlags := ⟨true, true, false, true, false, partOf flags 1 1 == 1⟩
def constFlags (flags : Nat) : LeafFlags := ⟨true, false, false, true, partOf flags 0 1 == 0, false⟩

/-- Step 5: the bound of every kernel, or the first refusal. A kernel's own claims alone count, also for the cycles of a callee that it
inlines, which R349 does not say (log entry 98). -/
def boundsOf (p : Program) (b : List Byte) (ymax : W64) : List (KernEntry × Nat) → Except LoadFail (List Nat)
  | [] => .ok []
  | (k, i) :: rest =>
    match p.analyse i k (claimsOf b k) ymax with
    | .error e => .error e
    | .ok v =>
      match boundsOf p b ymax rest with
      | .error e => .error e
      | .ok vs => .ok (v :: vs)

/-- Steps 1 to 5: the relocated sections and the kernels with their bounds, or the first refusal. -/
def State.checkObject (s : State) (job : BitVec 24) (b : List Byte) (va : Loaded W64) : Except LoadFail (Loaded (List Byte) × List Kernel) :=
  match containerFail b, contentsFail b, s.grantFail job b with
  | some e, _, _ => .error e
  | none, some e, _ => .error e
  | none, none, some e => .error e
  | none, none, none =>
    match relocated b va with
    | .error e => .error e
    | .ok x =>
      let wchg := bitsN s.ymax 32 32
      let ks := kernels b
      match boundsOf ⟨x.text, ks, wchg⟩ b s.ymax ks.zipIdx with
      | .error e => .error e
      | .ok vs => .ok (x, (ks.zip vs).map fun (k, v) => Kernel.mk (va.text + BitVec.ofNat 64 k.off) v wchg)

/-- `OBJECT_LOAD`: an object that fails a check maps nothing and reserves nothing; ranges that the loader would not choose,
or no free memory, leave the state as it is (log entry 61). -/
def execObjectLoad (job : BitVec 24) (image : List Byte) (text data const : BitVec 64) (s : State) : Out :=
  let va : Loaded W64 := ⟨text, data, const⟩
  if s.boot ≠ .ready ∨ !s.tablesAnswer ∨ job = 0 ∨ !s.rangesOk job va ⟨sectionOf image 0x01, sectionOf image 0x02, sectionOf image 0x03⟩ then .next s
  else
    match s.checkObject job image va with
    | .error e => .next (s.reportLoad e)
    | .ok (x, ks) =>
      let flags := fieldOf image 6 2
      let loaded := (((s.grantChas job image).loadSection job text x.text textFlags).bind fun s1 =>
        s1.loadSection job data x.data (dataFlags flags)).bind fun s2 => s2.loadSection job const x.const (constFlags flags)
      match loaded with
      | none => .next s
      | some s3 =>
        let o : Object := ⟨job, text, x.text.length, data, x.data.length, const, x.const.length, ks⟩
        .next (State.reportLoad { s3 with objects := s3.objects ++ [o] } loadOk)

/-! ### Unloading (R347) -/

/-- A launch that names the object has not ended. -/
def State.objectInUse (s : State) (o : Object) : Bool :=
  s.launches.any fun (_, l) => l.entry.job == o.job && !l.complete && o.kernels.any fun k => k.entry == l.entry.kernel
def State.unloadSection (s : State) (job : BitVec 24) (va : W64) (n : Nat) : State :=
  if n = 0 then s
  else (s.unmapRange job va.toNat (pagesLen n)).startShootdown job va.toNat (pagesLen n) false (s.physOf job va.toNat (pagesLen n))

/-- `OBJECT_UNLOAD` of the job's object `i`; it waits while a launch that names the object has not ended, and, the text
being pinned, while any launch of the job has not (R407). -/
def execObjectUnload (job : BitVec 24) (i : Nat) (s : State) : Out :=
  match (s.objects.filter fun o => o.job == job)[i]? with
  | none => .next s
  | some o =>
    if s.objectInUse o ∨ s.jobBusy job ∨ !s.tablesAnswer then .next s
    else
      let s1 := ((s.unloadSection job o.text o.textLen).unloadSection job o.data o.dataLen).unloadSection job o.const o.constLen
      .next { s1 with objects := s1.objects.erase o }

end Sys2Proof.Machine
end

