-- ==== Sys2Proof/Machine/Dispatch.lean ====
section
/-! DEFINITION. One arm per constructor of `Instr`. -/
namespace Sys2Proof.Machine

def exec (i : Instr) (s : State) : Host.Outcome State Fault Refusal :=
  match i with
  | .add d a b => Sys2Proof.Machine.execAdd d a b s
  | .sub d a b => Sys2Proof.Machine.execSub d a b s
  | .mul d a b => Sys2Proof.Machine.execMul d a b s
  | .mulh d a b => Sys2Proof.Machine.execMulh d a b s
  | .mulhu d a b => Sys2Proof.Machine.execMulhu d a b s
  | .div d a b => Sys2Proof.Machine.execDiv d a b s
  | .divu d a b => Sys2Proof.Machine.execDivu d a b s
  | .rem d a b => Sys2Proof.Machine.execRem d a b s
  | .remu d a b => Sys2Proof.Machine.execRemu d a b s
  | .and d a b => Sys2Proof.Machine.execAnd d a b s
  | .or d a b => Sys2Proof.Machine.execOr d a b s
  | .xor d a b => Sys2Proof.Machine.execXor d a b s
  | .shl d a b => Sys2Proof.Machine.execShl d a b s
  | .shr d a b => Sys2Proof.Machine.execShr d a b s
  | .sra d a b => Sys2Proof.Machine.execSra d a b s
  | .rotl d a b => Sys2Proof.Machine.execRotl d a b s
  | .min d a b => Sys2Proof.Machine.execMin d a b s
  | .minu d a b => Sys2Proof.Machine.execMinu d a b s
  | .max d a b => Sys2Proof.Machine.execMax d a b s
  | .maxu d a b => Sys2Proof.Machine.execMaxu d a b s
  | .slt d a b => Sys2Proof.Machine.execSlt d a b s
  | .sltu d a b => Sys2Proof.Machine.execSltu d a b s
  | .seq d a b => Sys2Proof.Machine.execSeq d a b s
  | .clz d a => Sys2Proof.Machine.execClz d a s
  | .ctz d a => Sys2Proof.Machine.execCtz d a s
  | .popc d a => Sys2Proof.Machine.execPopc d a s
  | .mov d a => Sys2Proof.Machine.execMov d a s
  | .sel d a b c => Sys2Proof.Machine.execSel d a b c s
  | .fadd m d a b => Sys2Proof.Machine.execFadd m d a b s
  | .fsub m d a b => Sys2Proof.Machine.execFsub m d a b s
  | .fmul m d a b => Sys2Proof.Machine.execFmul m d a b s
  | .fdiv m d a b => Sys2Proof.Machine.execFdiv m d a b s
  | .fsqrt m d a => Sys2Proof.Machine.execFsqrt m d a s
  | .fmin d a b => Sys2Proof.Machine.execFmin d a b s
  | .fmax d a b => Sys2Proof.Machine.execFmax d a b s
  | .fcmp d a b => Sys2Proof.Machine.execFcmp d a b s
  | .fcvt m src dst d a => Sys2Proof.Machine.execFcvt m src dst d a s
  | .fclass d a => Sys2Proof.Machine.execFclass d a s
  | .fma m d a b c => Sys2Proof.Machine.execFma m d a b c s
  | .addi d a imm => Sys2Proof.Machine.execAddi d a imm s
  | .andi d a imm => Sys2Proof.Machine.execAndi d a imm s
  | .ori d a imm => Sys2Proof.Machine.execOri d a imm s
  | .xori d a imm => Sys2Proof.Machine.execXori d a imm s
  | .shli d a n => Sys2Proof.Machine.execShli d a n s
  | .shri d a n => Sys2Proof.Machine.execShri d a n s
  | .srai d a n => Sys2Proof.Machine.execSrai d a n s
  | .bfx d a pos wm1 => Sys2Proof.Machine.execBfx d a pos wm1 s
  | .bfi d a pos wm1 => Sys2Proof.Machine.execBfi d a pos wm1 s
  | .ldi d imm => Sys2Proof.Machine.execLdi d imm s
  | .ldhi d imm => Sys2Proof.Machine.execLdhi d imm s
  | .b off => Sys2Proof.Machine.execB off s
  | .bl off => Sys2Proof.Machine.execBl off s
  | .bc c a off => Sys2Proof.Machine.execBc c a off s
  | .ret a => Sys2Proof.Machine.execRet a s
  | .nop => Sys2Proof.Machine.execNop s
  | .yield => Sys2Proof.Machine.execYield s
  | .halt => Sys2Proof.Machine.execHalt s
  | .eret => Sys2Proof.Machine.execEret s
  | .wfe d a => Sys2Proof.Machine.execWfe d a s
  | .lend off => Sys2Proof.Machine.execLend off s
  | .loop a wbase ring => Sys2Proof.Machine.execLoop a wbase ring s
  | .trap code => Sys2Proof.Machine.execTrap code s
  | .csrr d n => Sys2Proof.Machine.execCsrr d n s
  | .csrw a n => Sys2Proof.Machine.execCsrw a n s
  | .csrx d a n => Sys2Proof.Machine.execCsrx d a n s
  | .tlbInvPage a => Sys2Proof.Machine.execTlbInvPage a s
  | .tlbInvSpace => Sys2Proof.Machine.execTlbInvSpace s
  | .tlbInvCluster => Sys2Proof.Machine.execTlbInvCluster s
  | .ldB d a off => Sys2Proof.Machine.execLdB d a off s
  | .ldH d a off => Sys2Proof.Machine.execLdH d a off s
  | .ldW d a off => Sys2Proof.Machine.execLdW d a off s
  | .ldD d a off => Sys2Proof.Machine.execLdD d a off s
  | .ldBU d a off => Sys2Proof.Machine.execLdBU d a off s
  | .ldHU d a off => Sys2Proof.Machine.execLdHU d a off s
  | .ldWU d a off => Sys2Proof.Machine.execLdWU d a off s
  | .pref l2 a off => Sys2Proof.Machine.execPref l2 a off s
  | .stB sc d a off => Sys2Proof.Machine.execStB sc d a off s
  | .stH sc d a off => Sys2Proof.Machine.execStH sc d a off s
  | .stW sc d a off => Sys2Proof.Machine.execStW sc d a off s
  | .stD sc d a off => Sys2Proof.Machine.execStD sc d a off s
  | .ldAcq sc z d a off => Sys2Proof.Machine.execLdAcq sc z d a off s
  | .stRel sc z d a off => Sys2Proof.Machine.execStRel sc z d a off s
  | .ldc z d off => Sys2Proof.Machine.execLdc z d off s
  | .stc z d off => Sys2Proof.Machine.execStc z d off s
  | .chSet ctr a => Sys2Proof.Machine.execChSet ctr a s
  | .chAdd ctr a => Sys2Proof.Machine.execChAdd ctr a s
  | .stampClr => Sys2Proof.Machine.execStampClr s
  | .stampAbs a quoin => Sys2Proof.Machine.execStampAbs a quoin s
  | .stampOff a quoin => Sys2Proof.Machine.execStampOff a quoin s
  | .cancel l a => Sys2Proof.Machine.execCancel l a s
  | .pwrRel => Sys2Proof.Machine.execPwrRel s
  | .align sc => Sys2Proof.Machine.execAlign sc s
  | .fmt a => Sys2Proof.Machine.execFmt a s
  | .ldq z q a b f => Sys2Proof.Machine.execLdq z q a b f s
  | .popq d q lw => Sys2Proof.Machine.execPopq d q lw s
  | .fence mask lw => Sys2Proof.Machine.execFence mask lw s
  | .fenceDone mask lw => Sys2Proof.Machine.execFenceDone mask lw s
  | .atmAdd m => Sys2Proof.Machine.execAtmAdd m s
  | .atmMin m => Sys2Proof.Machine.execAtmMin m s
  | .atmMax m => Sys2Proof.Machine.execAtmMax m s
  | .atmAnd m => Sys2Proof.Machine.execAtmAnd m s
  | .atmOr m => Sys2Proof.Machine.execAtmOr m s
  | .atmXor m => Sys2Proof.Machine.execAtmXor m s
  | .atmXchg m => Sys2Proof.Machine.execAtmXchg m s
  | .atmCas m => Sys2Proof.Machine.execAtmCas m s
  | .chWait ctr a lw => Sys2Proof.Machine.execChWait ctr a lw s
  | .bar ctr a lw => Sys2Proof.Machine.execBar ctr a lw s
  | .dlv d a b f lw => Sys2Proof.Machine.execDlv d a b f lw s
  | .tok t => Sys2Proof.Machine.execTok t s
  | .pwrAcq lvl lw => Sys2Proof.Machine.execPwrAcq lvl lw s
  | .vadd v => Sys2Proof.Machine.execVadd v s
  | .vsub v => Sys2Proof.Machine.execVsub v s
  | .vmul v => Sys2Proof.Machine.execVmul v s
  | .vfma v => Sys2Proof.Machine.execVfma v s
  | .vmin v => Sys2Proof.Machine.execVmin v s
  | .vmax v => Sys2Proof.Machine.execVmax v s
  | .vabs v => Sys2Proof.Machine.execVabs v s
  | .vneg v => Sys2Proof.Machine.execVneg v s
  | .vand v => Sys2Proof.Machine.execVand v s
  | .vor v => Sys2Proof.Machine.execVor v s
  | .vxor v => Sys2Proof.Machine.execVxor v s
  | .vshl v => Sys2Proof.Machine.execVshl v s
  | .vshr v => Sys2Proof.Machine.execVshr v s
  | .viadd v => Sys2Proof.Machine.execViadd v s
  | .vimul v => Sys2Proof.Machine.execVimul v s
  | .vcmp v => Sys2Proof.Machine.execVcmp v s
  | .vsel v => Sys2Proof.Machine.execVsel v s
  | .vshuf v => Sys2Proof.Machine.execVshuf v s
  | .vbcast v => Sys2Proof.Machine.execVbcast v s
  | .vmovs v => Sys2Proof.Machine.execVmovs v s
  | .vred v => Sys2Proof.Machine.execVred v s
  | .vexp2 v => Sys2Proof.Machine.execVexp2 v s
  | .vlog2 v => Sys2Proof.Machine.execVlog2 v s
  | .vrcp v => Sys2Proof.Machine.execVrcp v s
  | .vrsq v => Sys2Proof.Machine.execVrsq v s
  | .vcvt v => Sys2Proof.Machine.execVcvt v s
  | .vqnt v => Sys2Proof.Machine.execVqnt v s
  | .vdqnt v => Sys2Proof.Machine.execVdqnt v s
  | .vamul v slot => Sys2Proof.Machine.execVamul v slot s
  | .vconj v slot => Sys2Proof.Machine.execVconj v slot s
  | .vnorm v slot => Sys2Proof.Machine.execVnorm v slot s
  | .vld v => Sys2Proof.Machine.execVld v s
  | .vst v => Sys2Proof.Machine.execVst v s
  | .mma m => Sys2Proof.Machine.execMma m s
  | .mmaz m => Sys2Proof.Machine.execMmaz m s
  | .amov d a => Sys2Proof.Machine.execAmov d a s
  | .amovT m => Sys2Proof.Machine.execAmovT m s
  | .azero d => Sys2Proof.Machine.execAzero d s
  | .ald m => Sys2Proof.Machine.execAld m s
  | .ast m => Sys2Proof.Machine.execAst m s
  | .tld m => Sys2Proof.Machine.execTld m s
  | .tst m => Sys2Proof.Machine.execTst m s
  | .lig k a c => Sys2Proof.Machine.execLig k a c s
  | .cpy d a b => Sys2Proof.Machine.execCpy d a b s
  | .cpy2d d a b f => Sys2Proof.Machine.execCpy2d d a b f s
  | .cpy3d d a b f dps sps => Sys2Proof.Machine.execCpy3d d a b f dps sps s
  | .gath ix64 d a b f => Sys2Proof.Machine.execGath ix64 d a b f s
  | .scat ix64 d a b f => Sys2Proof.Machine.execScat ix64 d a b f s
  | .fill d b f => Sys2Proof.Machine.execFill d b f s
  | .zero d b => Sys2Proof.Machine.execZero d b s
  | .stgRel a b => Sys2Proof.Machine.execStgRel a b s
  | .agrp a b => Sys2Proof.Machine.execAgrp a b s
  | .mclr a => Sys2Proof.Machine.execMclr a s
  | .mcst a b => Sys2Proof.Machine.execMcst a b s
  | .illegalEncoding w => Sys2Proof.Machine.execIllegalEncoding w s
  | .proofCheck c g flip => Sys2Proof.Machine.execProofCheck c g flip s
  | .recordIssue c g => Sys2Proof.Machine.execRecordIssue c g s
  | .errorPropagation c g => Sys2Proof.Machine.execErrorPropagation c g s
  | .markerRetire c g => Sys2Proof.Machine.execMarkerRetire c g s
  | .kStep c fault => Sys2Proof.Machine.execKStep c fault s
  | .proofStep c => Sys2Proof.Machine.execProofStep c s
  | .rowStep c slot => Sys2Proof.Machine.execRowStep c slot s
  | .copyUnitCommit c => Sys2Proof.Machine.execCopyUnitCommit c s
  | .contribution c => Sys2Proof.Machine.execContribution c s
  | .verdict c => Sys2Proof.Machine.execVerdict c s
  | .commandCompletion c g slot => Sys2Proof.Machine.execCommandCompletion c g slot s
  | .streamTlbPrefetch c g => Sys2Proof.Machine.execStreamTlbPrefetch c g s
  | .walkStart die => Sys2Proof.Machine.execWalkStart die s
  | .walkComplete die ix => Sys2Proof.Machine.execWalkComplete die ix s
  | .walkDieTimeout die ix => Sys2Proof.Machine.execWalkDieTimeout die ix s
  | .loadReturn c x ix => Sys2Proof.Machine.execLoadReturn c x ix s
  | .elementLoad c x q => Sys2Proof.Machine.execElementLoad c x q s
  | .storeLeave c x => Sys2Proof.Machine.execStoreLeave c x s
  | .storeAck c x ix => Sys2Proof.Machine.execStoreAck c x ix s
  | .atomicPerform c x => Sys2Proof.Machine.execAtomicPerform c x s
  | .writeBudgetWindow c => Sys2Proof.Machine.execWriteBudgetWindow c s
  | .l1Writeback c line => Sys2Proof.Machine.execL1Writeback c line s
  | .chWaitSatisfied c x => Sys2Proof.Machine.execChWaitSatisfied c x s
  | .barRelease c x => Sys2Proof.Machine.execBarRelease c x s
  | .haltComplete c x => Sys2Proof.Machine.execHaltComplete c x s
  | .wfeWake c x => Sys2Proof.Machine.execWfeWake c x s
  | .wfeTimeout c x => Sys2Proof.Machine.execWfeTimeout c x s
  | .stall c x => Sys2Proof.Machine.execStall c x s
  | .trapEntry c x => Sys2Proof.Machine.execTrapEntry c x s
  | .folioArrival c => Sys2Proof.Machine.execFolioArrival c s
  | .folioStart c => Sys2Proof.Machine.execFolioStart c s
  | .controlCoreReset c => Sys2Proof.Machine.execControlCoreReset c s
  | .replayStart c => Sys2Proof.Machine.execReplayStart c s
  | .engineWatchdog c g => Sys2Proof.Machine.execEngineWatchdog c g s
  | .engineAlarm c g protocol => Sys2Proof.Machine.execEngineAlarm c g protocol s
  | .controlCoreAlarm c => Sys2Proof.Machine.execControlCoreAlarm c s
  | .operatorRequest c => Sys2Proof.Machine.execOperatorRequest c s
  | .cmpinjRequest c => Sys2Proof.Machine.execCmpinjRequest c s
  | .rollingScrub die => Sys2Proof.Machine.execRollingScrub die s
  | .engineReset c g => Sys2Proof.Machine.execEngineReset c g s
  | .engineResetEnd c g => Sys2Proof.Machine.execEngineResetEnd c g s
  | .preemptionRequest c => Sys2Proof.Machine.execPreemptionRequest c s
  | .lightDrainLimit c => Sys2Proof.Machine.execLightDrainLimit c s
  | .engineStop c g => Sys2Proof.Machine.execEngineStop c g s
  | .contextSave c => Sys2Proof.Machine.execContextSave c s
  | .saveComplete c => Sys2Proof.Machine.execSaveComplete c s
  | .teamPlacement launch team c => Sys2Proof.Machine.execTeamPlacement launch team c s
  | .restoreComplete c => Sys2Proof.Machine.execRestoreComplete c s
  | .sliceExpiry c => Sys2Proof.Machine.execSliceExpiry c s
  | .budgetOverrun c => Sys2Proof.Machine.execBudgetOverrun c s
  | .levelCancel die => Sys2Proof.Machine.execLevelCancel die s
  | .teamCancelled launch team => Sys2Proof.Machine.execTeamCancelled launch team s
  | .launchSever die launch => Sys2Proof.Machine.execLaunchSever die launch s
  | .launchRelease launch => Sys2Proof.Machine.execLaunchRelease launch s
  | .scratchWindowReturn cl launch => Sys2Proof.Machine.execScratchWindowReturn cl launch s
  | .issueGrant cl => Sys2Proof.Machine.execIssueGrant cl s
  | .spacerEnd c => Sys2Proof.Machine.execSpacerEnd c s
  | .grantLateness c => Sys2Proof.Machine.execGrantLateness c s
  | .regionGrant cl => Sys2Proof.Machine.execRegionGrant cl s
  | .drawMeasure cl => Sys2Proof.Machine.execDrawMeasure cl s
  | .overdraw c => Sys2Proof.Machine.execOverdraw c s
  | .agrpRegistration c => Sys2Proof.Machine.execAgrpRegistration c s
  | .roundJoin c => Sys2Proof.Machine.execRoundJoin c s
  | .roundTimeout group => Sys2Proof.Machine.execRoundTimeout group s
  | .verdictTimeout group => Sys2Proof.Machine.execVerdictTimeout group s
  | .objectLoad job image text data const => Sys2Proof.Machine.execObjectLoad job image text data const s
  | .objectUnload job ix => Sys2Proof.Machine.execObjectUnload job ix s
  | .doorbell q v => Sys2Proof.Machine.execDoorbell q v s
  | .deviceDoorbell q => Sys2Proof.Machine.execDeviceDoorbell q s
  | .periodicRecheck q => Sys2Proof.Machine.execPeriodicRecheck q s
  | .dataEntryStart die ix => Sys2Proof.Machine.execDataEntryStart die ix s
  | .barrierEntryStart q => Sys2Proof.Machine.execBarrierEntryStart q s
  | .entryEnd q pos => Sys2Proof.Machine.execEntryEnd q pos s
  | .resume q => Sys2Proof.Machine.execResume q s
  | .resumeSkip q => Sys2Proof.Machine.execResumeSkip q s
  | .cmdCancelLaunch q arg => Sys2Proof.Machine.execCmdCancelLaunch q arg s
  | .cmdCancelLevel q l arg => Sys2Proof.Machine.execCmdCancelLevel q l arg s
  | .qaddrWrite f q v => Sys2Proof.Machine.execQaddrWrite f q v s
  | .queueEnable f q v => Sys2Proof.Machine.execQueueEnable f q v s
  | .queueDisable f q v => Sys2Proof.Machine.execQueueDisable f q v s
  | .qcfgConfigure f q v => Sys2Proof.Machine.execQcfgConfigure f q v s
  | .evcfgWrite f v => Sys2Proof.Machine.execEvcfgWrite f v s
  | .evconsWrite f v => Sys2Proof.Machine.execEvconsWrite f v s
  | .ackovf f => Sys2Proof.Machine.execAckovf f s
  | .registerWrite f off size v => Sys2Proof.Machine.execRegisterWrite f off size v s
  | .windowRead f off size => Sys2Proof.Machine.execWindowRead f off size s
  | .windowWrite f off data => Sys2Proof.Machine.execWindowWrite f off data s
  | .priResponse ix success => Sys2Proof.Machine.execPriResponse ix success s
  | .descriptor => Sys2Proof.Machine.execDescriptor s
  | .colophon nonce => Sys2Proof.Machine.execColophon nonce s
  | .map r => Sys2Proof.Machine.execMap r s
  | .shootdownInvalidate cl => Sys2Proof.Machine.execShootdownInvalidate cl s
  | .shootdownComplete => Sys2Proof.Machine.execShootdownComplete s
  | .lifecycle target signer nonce => Sys2Proof.Machine.execLifecycle target signer nonce s
  | .config r => Sys2Proof.Machine.execConfig r s
  | .bandTableWrite die => Sys2Proof.Machine.execBandTableWrite die s
  | .mkrtWrite cl => Sys2Proof.Machine.execMkrtWrite cl s
  | .permitReturn die link => Sys2Proof.Machine.execPermitReturn die link s
  | .heartbeat die => Sys2Proof.Machine.execHeartbeat die s
  | .adoption die => Sys2Proof.Machine.execAdoption die s
  | .adoptionMemoryTimeout die => Sys2Proof.Machine.execAdoptionMemoryTimeout die s
  | .queueRingTimeout q => Sys2Proof.Machine.execQueueRingTimeout q s
  | .dieReset die => Sys2Proof.Machine.execDieReset die s
  | .dieReturn die => Sys2Proof.Machine.execDieReturn die s
  | .dieReturnTimeout die => Sys2Proof.Machine.execDieReturnTimeout die s
  | .packageReset cause images => Sys2Proof.Machine.execPackageReset cause images s
  | .patrol sector r => Sys2Proof.Machine.execPatrol sector r s
  | .controlPoll => Sys2Proof.Machine.execControlPoll s
  | .linkDead port => Sys2Proof.Machine.execLinkDead port s
  | .linkRestore port => Sys2Proof.Machine.execLinkRestore port s
  | .coolantReport kind inlet flow => Sys2Proof.Machine.execCoolantReport kind inlet flow s
  | .coolantReportLoss => Sys2Proof.Machine.execCoolantReportLoss s
  | .sensorRound temps powerMw => Sys2Proof.Machine.execSensorRound temps powerMw s
  | .railSettled cl => Sys2Proof.Machine.execRailSettled cl s
  | .powerStateEntry unit => Sys2Proof.Machine.execPowerStateEntry unit s
  | .powerStateExit unit => Sys2Proof.Machine.execPowerStateExit unit s
  | .airOverpower => Sys2Proof.Machine.execAirOverpower s
  | .emergencySaveDone => Sys2Proof.Machine.execEmergencySaveDone s
  | .emergencyEnd => Sys2Proof.Machine.execEmergencyEnd s
  | .powerFail => Sys2Proof.Machine.execPowerFail s
  | .l2Writeback line => Sys2Proof.Machine.execL2Writeback line s

end Sys2Proof.Machine
end

