-- ==== Sys2Proof/Machine/Proof.lean ====
section
/-! DEFINITION. The control core's issue: which context issues on a clk (01 R17), one issue turn, and the Proofreader's own run of the team
context's instruction (01 R15). -/
namespace Sys2Proof.Machine

/-! ### One issue (R17) -/

/-- What a context's issue does: the instruction at its pc, then the stop of a pending pre-emption. -/
def State.issued (s : State) (r : CtxRef) : Host.Outcome State Fault Refusal :=
  match s.fetch r with
  | .hold s1 => .next s1
  | .run i s1 =>
    match exec i s1 with
    | .next t => .next (t.settleStop r)
    | .fault f => .fault f
    | .refused f => .refused f

/-- A context is ready to issue (R17): it may issue, and, where it waits, an issue would not leave it in the same wait. -/
def State.isReady (s : State) (r : CtxRef) : Bool :=
  !(s.core r.core).resetting && (s.ctx r).mayIssue &&
  (match (s.ctx r).wait with
   | none => true
   | some w =>
     match s.issued r with
     | .next t => (t.ctx r).run != .running || (t.ctx r).wait.all fun v => v.kind != w.kind
     | .fault _ | .refused _ => true)

/-- The first of the contexts that does not pass its turn over (R212); one that does has passed it. -/
def State.chooseOf (s : State) (c : CoreId) : List CtxId → Option CtxId × State
  | [] => (none, s)
  | x :: rest =>
    if (s.ctx ⟨c, x⟩).passOver then State.chooseOf (s.modCtx ⟨c, x⟩ fun y => { y with passOver := false }) c rest
    else (some x, s.modCore c fun k => { k with lastCtx := x, issuedAt := some s.now })
/-- The context that a core issues from on this clk: round-robin among those that are ready, none where the core has issued on it already
(R17). A core whose cluster has taken a power request of a higher core on this clk would come before it (R445), and has no turn after it. -/
def State.chooses (s : State) (c : CoreId) : Option CtxId × State :=
  let late := (s.cluster (coreCluster c)).regionAsk.any fun e => e.1 == s.now && decide (c < e.2)
  if (s.core c).issuedAt = some s.now ∨ late then (none, s)
  else
    let l := (s.core c).lastCtx
    s.chooseOf c (([l + 1, l + 2, l + 3, l] : List CtxId).filter fun x => s.isReady ⟨c, x⟩)

/-! ### The Proofreader's run (R15) -/

/-- The hash that the Proofreader has for a record that the control core appended: that of the record it appended itself, if it did. -/
def Core.proofHashes (k u : Core) (now : Nat) : Core :=
  galleys.foldl (fun k' g => k'.modGalley g fun y => { y with slots := y.slots.map fun (i, z) =>
    let w := u.slot g i
    (i, if z.st = .appended ∧ z.appendedAt = now then
          { z with proofHash := if w.seq = z.seq ∧ w.st = .appended then w.hash else ~~~z.hash }
        else z) }) k
/-- The Proofreader runs the team context's instruction on its own copy of the scalar state, where that differs: what comes to differ, and
the hashes of the records that it appends, are its own. -/
def State.proofread (s : State) (r : CtxRef) (t : State) : State :=
  let k := s.core r.core
  if r.ctx ≠ teamCtx ∨ k.proof = .none ∨ (t.ctx r).pc = (s.ctx r).pc then t
  else
    match (s.setCore r.core k.proofView).issued r with
    | .next u =>
      t.modCore r.core fun y => { y.proofHashes (u.core r.core) s.now with proof := y.proofDiff (u.core r.core) }
    | .fault _ | .refused _ => t

end Sys2Proof.Machine
end

