-- ==== Sys2Proof/Machine/Step.lean ====
section
/-! DEFINITION. The step function: one turn of the package, and the Platen clk that it takes (log entries 1 and 2). -/
namespace Sys2Proof.Machine

/-- The clk that pass after an event. -/
def afterEvent (n : Nat) (o : Host.Outcome State Fault Refusal) : Host.Outcome State Fault Refusal :=
  match o with
  | .next s => .next (s.pass n)
  | .fault f => .fault f
  | .refused f => .refused f

/-- What an issue turn does after its instruction: the stop of a pending pre-emption, the Proofreader's run from `s0`, and `n` clk. -/
def afterIssue (s0 : State) (r : CtxRef) (n : Nat) (o : Host.Outcome State Fault Refusal) : Host.Outcome State Fault Refusal :=
  match o with
  | .next t => .next ((s0.proofread r (t.settleStop r)).pass n)
  | .fault f => .fault f
  | .refused f => .refused f
/-- An issue turn of a context, and `n` clk. -/
def issueTurn (s : State) (r : CtxRef) (n : Nat) : Host.Outcome State Fault Refusal :=
  match s.fetch r with
  | .hold s1 => .next (s1.pass n)
  | .run i s1 => afterIssue s r n (exec i s1)
/-- An issue turn of a core: of the context that it chooses, if any. -/
def coreTurn (s : State) (c : CoreId) (n : Nat) : Host.Outcome State Fault Refusal :=
  match s.chooses c with
  | (some x, s1) => issueTurn s1 ⟨c, x⟩ n
  | (none, s1) => .next (s1.pass n)

/-- An event's turn, and `n` clk. -/
def eventTurn (s : State) (i : Instr) (n : Nat) : Host.Outcome State Fault Refusal :=
  if isEvent i then afterEvent n (exec i s) else .next (s.pass n)

/-- One step of the package. -/
def step (s : State) : Host.Outcome State Fault Refusal :=
  match s.nextTurn with
  | (.tick dt, s1) => .next (s1.pass dt)
  | (.event i, s1) => eventTurn s1 i 1
  | (.eventNow i, s1) => eventTurn s1 i 0
  | (.issue c, s1) => coreTurn s1 c 1
  | (.issueNow c, s1) => coreTurn s1 c 0
  | (.hostWrite addr data, s1) => .next (s1.hostWrite addr data)
  | (.hostError addr bad, s1) => .next (s1.hostError addr bad)
  | (.dieLink n dead, s1) => .next (s1.dieLink n dead)
  | (.registerRead f off size, s1) => .next (s1.hostArrive (.registerRead f off size))
  | (.function f ats job, s1) => .next (s1.setFunction f ats job)
  | (.hostPage page absent, s1) => .next (s1.hostPage page absent)
  | (.groupGrant n job, s1) => .next (s1.grantGroup n job)
  | (.sectorError sector r, s1) => .next (s1.sectorError sector r)
  | (.bootPhase wiping, s1) => .next (s1.bootPhase wiping)
  | (.proofUpset c d, s1) => .next (s1.modCore c fun k => { k with proof := d })
  | (.storeRead c off, s1) => .next (s1.storeRead c off)
  | (.storeWrite c off b, s1) => .next (s1.storeWrite c off b)
  | (.copyRead c n, s1) => .next (s1.copyRead c n)

/-- The state with an instruction's bits stored where the next step fetches (log entry 15): a team of job 1 runs on core 0,
its code page is in the L1 TLB, the first word's bytes come first, and its turn is next. -/
def State.withFetchWord (s : State) (nbits w : Nat) : State :=
  let v := w % 2 ^ nbits
  { ((s.placeBytes placePa (bytesOfWord (BitVec.ofNat 32 v) ++ bytesOfWord (BitVec.ofNat 32 (v >>> 32)))).modCore 0 placeCore).modCluster 0
        fun y => { y with regionAsk := none }
      with agenda := [.issue 0] }

end Sys2Proof.Machine
end

