-- ==== Sys2Proof/Safety.lean ====
section
/-! DEFINITION. What a safe run is, in the terms claims use: the package never stops, and its stores keep their form. -/
namespace Sys2Proof.Machine

/-- The step goes on. -/
def State.goesOn (s : State) : Prop := ∃ t, step s = .next t

/-- Memory is in its canonical form (02 R69: an unlisted byte reads zero). -/
abbrev Memory.wf (s : State) : Prop := FMap.wf s.mem 0 = true

end Sys2Proof.Machine
end

