-- ==== Sys2Proof/Certificates/Slice0/Obligations.lean ====
section
/-! DEFINITION. The statements for the provers: what the manual's numbered rules say that each instruction and each agent's
step does. -/

/-! ### How a statement says what an instruction does -/
namespace Sys2Proof.Machine

/-- `t` is `s` but for the current context's register `d`, its pc and its wait, and that no older load or atomic of the context
still in flight will write `d` again. -/
def OnlyReg (s t : State) (d : Reg) : Prop :=
  (∃ regs pc, t = s.modCx fun x => { x.claim d with regs := regs, pc := pc, wait := none }) ∧ ∀ a, t.byte a = s.byte a

/-- The same, and FPX. -/
def OnlyRegFpx (s t : State) (d : Reg) : Prop :=
  (∃ regs pc fpx, t = s.modCx fun x => { x.claim d with regs := regs, pc := pc, fpx := fpx, wait := none }) ∧ ∀ a, t.byte a = s.byte a

/-- `t` is `s` but for the current context's scalar registers, its pc and its wait. -/
def OnlyRegs (s t : State) : Prop :=
  (∃ regs pc, t = s.modCx fun x => { x with regs := regs, pc := pc, wait := none }) ∧ ∀ a, t.byte a = s.byte a

/-- Register `d` holds `v` in `t` unless it is s0, and every other register is as it was. -/
def RegWritten (s t : State) (d : Reg) (v : W64) : Prop := ∀ r, t.reg r = if r = d ∧ d ≠ 0 then v else s.reg r

/-- The next instruction in order. -/
def Follows (i : Instr) (s t : State) : Prop := t.cx.pc = s.cx.pc + BitVec.ofNat 64 i.bytes

/-- `i` writes `v` to `d`, goes on to the next instruction, and changes nothing else. -/
def Writes (i : Instr) (s : State) (d : Reg) (v : W64) : Prop :=
  ∃ t, exec i s = .next t ∧ RegWritten s t d v ∧ Follows i s t ∧ OnlyReg s t d

/-- `i` writes `v` to `d`, ORs `f` into FPX, goes on to the next instruction, and changes nothing else. -/
def WritesFp (i : Instr) (s : State) (d : Reg) (v : W64) (f : Flags) : Prop :=
  ∃ t, exec i s = .next t ∧ RegWritten s t d v ∧ t.cx.fpx = (s.cx.fpx ||| f.setWidth 64) ∧ Follows i s t ∧ OnlyRegFpx s t d

/-- `i` continues at `pc`, and changes nothing else but s63 where `link` gives it a value. -/
def Goes (i : Instr) (s : State) (pc : W64) (link : Option W64) : Prop :=
  ∃ t, exec i s = .next t ∧ t.cx.pc = pc ∧ (∀ r, t.reg r = if r = 63 then link.getD (s.reg 63) else s.reg r) ∧
    if link.isSome then OnlyReg s t 63 else OnlyRegs s t

/-- `i` raises a trap of class I at its own address, with a cause and an address for TADDR. -/
def Traps (i : Instr) (s : State) (code : BitVec 8) (addr : W64) : Prop := exec i s = .next (s.trapHere code addr)

end Sys2Proof.Machine

open Sys2Proof Sys2Proof.Machine

/-! ### 08: integer and immediate instructions -/

/-- R196: sums, products, minima, maxima and comparisons of the INT group, for a destination other than s0. -/
def Obligations.IntegerArithmetic : Prop := ∀ (s : State) (d a b : Reg), d ≠ 0 →
  Writes (.add d a b) s d (BitVec.ofInt 64 ((s.reg a).toInt + (s.reg b).toInt)) ∧
  Writes (.sub d a b) s d (BitVec.ofInt 64 ((s.reg a).toInt - (s.reg b).toInt)) ∧
  Writes (.mul d a b) s d (BitVec.ofInt 64 ((s.reg a).toInt * (s.reg b).toInt)) ∧
  Writes (.mulh d a b) s d (BitVec.ofInt 64 ((s.reg a).toInt * (s.reg b).toInt / 2 ^ 64)) ∧
  Writes (.mulhu d a b) s d (BitVec.ofNat 64 ((s.reg a).toNat * (s.reg b).toNat / 2 ^ 64)) ∧
  Writes (.min d a b) s d (BitVec.ofInt 64 (min (s.reg a).toInt (s.reg b).toInt)) ∧
  Writes (.minu d a b) s d (BitVec.ofNat 64 (min (s.reg a).toNat (s.reg b).toNat)) ∧
  Writes (.max d a b) s d (BitVec.ofInt 64 (max (s.reg a).toInt (s.reg b).toInt)) ∧
  Writes (.maxu d a b) s d (BitVec.ofNat 64 (max (s.reg a).toNat (s.reg b).toNat)) ∧
  Writes (.slt d a b) s d (if (s.reg a).toInt < (s.reg b).toInt then 1 else 0) ∧
  Writes (.sltu d a b) s d (if (s.reg a).toNat < (s.reg b).toNat then 1 else 0) ∧
  Writes (.seq d a b) s d (if s.reg a = s.reg b then 1 else 0) ∧
  Writes (.mov d a) s d (s.reg a)

/-- R197: signed and unsigned division, with the borderline cases of its table, for a destination other than s0. -/
def Obligations.IntegerDivision : Prop := ∀ (s : State) (d a b : Reg), d ≠ 0 →
  let x := s.reg a
  let y := s.reg b
  (y ≠ 0 → ¬(x.toInt = -2 ^ 63 ∧ y.toInt = -1) →
    Writes (.div d a b) s d (BitVec.ofInt 64 (x.toInt.tdiv y.toInt)) ∧ Writes (.rem d a b) s d (BitVec.ofInt 64 (x.toInt.tmod y.toInt))) ∧
  (x.toInt = -2 ^ 63 → y.toInt = -1 → Writes (.div d a b) s d (BitVec.ofInt 64 (2 ^ 63 - 1)) ∧ Writes (.rem d a b) s d 0) ∧
  (y = 0 → Writes (.rem d a b) s d 0 ∧ Writes (.remu d a b) s d 0) ∧
  (y = 0 → x = 0 → Writes (.div d a b) s d 0 ∧ Writes (.divu d a b) s d 0) ∧
  (y = 0 → 0 < x.toInt → Writes (.div d a b) s d (BitVec.ofInt 64 (2 ^ 63 - 1)) ∧ Writes (.divu d a b) s d (BitVec.ofNat 64 (2 ^ 64 - 1))) ∧
  (y = 0 → x.toInt < 0 → Writes (.div d a b) s d (BitVec.ofInt 64 (-2 ^ 63)) ∧ Writes (.divu d a b) s d (BitVec.ofNat 64 (2 ^ 64 - 1))) ∧
  (y ≠ 0 → Writes (.divu d a b) s d (BitVec.ofNat 64 (x.toNat / y.toNat)) ∧ Writes (.remu d a b) s d (BitVec.ofNat 64 (x.toNat % y.toNat)))

/-- R196: bitwise operations, and shifts and the rotate by bits [5:0] of the second source.
R196: counts of leading, trailing and one bits; a count of zero bits is 64 for a zero source.
R198: the immediate forms. -/
def Obligations.IntegerBitsAndImmediates : Prop :=
  (∀ (s : State) (d a b : Reg), d ≠ 0 →
  let n := (s.reg b).toNat % 64
  Writes (.and d a b) s d (s.reg a &&& s.reg b) ∧ Writes (.or d a b) s d (s.reg a ||| s.reg b) ∧
  Writes (.xor d a b) s d (s.reg a ^^^ s.reg b) ∧
  Writes (.shl d a b) s d (BitVec.ofNat 64 ((s.reg a).toNat * 2 ^ n)) ∧
  Writes (.shr d a b) s d (BitVec.ofNat 64 ((s.reg a).toNat / 2 ^ n)) ∧
  Writes (.sra d a b) s d (BitVec.ofInt 64 ((s.reg a).toInt / 2 ^ n)) ∧
  Writes (.rotl d a b) s d (BitVec.ofNat 64 ((s.reg a).toNat * 2 ^ n % 2 ^ 64 + (s.reg a).toNat / 2 ^ (64 - n)))) ∧
  (∀ (s : State) (d a : Reg), d ≠ 0 →
  (∃ n : Nat, Writes (.clz d a) s d (BitVec.ofNat 64 n) ∧ n ≤ 64 ∧ (s.reg a).toNat < 2 ^ (64 - n) ∧
    (s.reg a = 0 → n = 64) ∧ (s.reg a ≠ 0 → 2 ^ (63 - n) ≤ (s.reg a).toNat)) ∧
  (∃ n : Nat, Writes (.ctz d a) s d (BitVec.ofNat 64 n) ∧ n ≤ 64 ∧ 2 ^ n ∣ (s.reg a).toNat ∧
    (s.reg a = 0 → n = 64) ∧ (s.reg a ≠ 0 → (s.reg a).getLsbD n = true)) ∧
  Writes (.popc d a) s d (BitVec.ofNat 64 ((List.range 64).filter fun i => (s.reg a).getLsbD i).length)) ∧
  (∀ (s : State) (d a : Reg) (imm : BitVec 12) (n : BitVec 6), d ≠ 0 →
  Writes (.addi d a imm) s d (BitVec.ofInt 64 ((s.reg a).toInt + imm.toInt)) ∧
  Writes (.andi d a imm) s d (s.reg a &&& BitVec.ofNat 64 imm.toNat) ∧
  Writes (.ori d a imm) s d (s.reg a ||| BitVec.ofNat 64 imm.toNat) ∧
  Writes (.xori d a imm) s d (s.reg a ^^^ BitVec.ofNat 64 imm.toNat) ∧
  Writes (.shli d a n) s d (BitVec.ofNat 64 ((s.reg a).toNat * 2 ^ n.toNat)) ∧
  Writes (.shri d a n) s d (BitVec.ofNat 64 ((s.reg a).toNat / 2 ^ n.toNat)) ∧
  Writes (.srai d a n) s d (BitVec.ofInt 64 ((s.reg a).toInt / 2 ^ n.toNat)))

/-- R199, R200: bit fields bit by bit, the select, and the constants of `LDI` and `LDHI`; a field past bit 63 is ILLEGAL. -/
def Obligations.FieldsSelectConstants : Prop := ∀ (s : State) (d a b c : Reg) (pos wm1 : BitVec 6) (imm : BitVec 32),
  (64 < pos.toNat + wm1.toNat + 1 →
    Traps (.bfx d a pos wm1) s 1 s.cx.pc ∧ Traps (.bfi d a pos wm1) s 1 s.cx.pc) ∧
  (d ≠ 0 → pos.toNat + wm1.toNat + 1 ≤ 64 →
    (∃ v, Writes (.bfx d a pos wm1) s d v ∧
      ∀ i, i < 64 → v.getLsbD i = (decide (i ≤ wm1.toNat) && (s.reg a).getLsbD (pos.toNat + i))) ∧
    (∃ v, Writes (.bfi d a pos wm1) s d v ∧
      ∀ i, i < 64 → v.getLsbD i =
        if pos.toNat ≤ i ∧ i ≤ pos.toNat + wm1.toNat then (s.reg a).getLsbD (i - pos.toNat) else (s.reg d).getLsbD i)) ∧
  (d ≠ 0 →
    Writes (.sel d a b c) s d (if s.reg c = 0 then s.reg b else s.reg a) ∧
    Writes (.ldi d imm) s d (BitVec.ofInt 64 imm.toInt) ∧
    Writes (.ldhi d imm) s d (BitVec.ofNat 64 (imm.toNat * 2 ^ 32 + (s.reg d).toNat % 2 ^ 32)))

/-! ### 08: scalar floating point -/

/-- A float result `o`: written with its flags; where a NaN was produced, NV and the default NaN under NANOFF, else the
trap NAN, which writes nothing (R94, R95, R201). -/
def Sys2Proof.Machine.FloatResult (i : Instr) (s : State) (d : Reg) (o : FOut) : Prop :=
  (o.produced = false → WritesFp i s d (BitVec.ofNat 64 o.bits) o.flags) ∧
  (o.produced = true → s.cx.fpx.getLsbD 8 = true → WritesFp i s d 0x7FC0_0000 8) ∧
  (o.produced = true → s.cx.fpx.getLsbD 8 = false → Traps i s 8 0)

/-- R202, R203: the arithmetic members round one exact result, of the FP32 values in bits [31:0] of their sources. -/
def Obligations.ScalarFloatArithmetic : Prop := ∀ (s : State) (m : Rnd) (d a b c : Reg),
  let v := fun (r : Reg) => fp32.value ((s.reg r).toNat % 2 ^ 32)
  FloatResult (.fadd m d a b) s d (fp32.out m (fvAdd m (v a) (v b))) ∧
  FloatResult (.fsub m d a b) s d (fp32.out m (fvAdd m (v a) (v b).flip)) ∧
  FloatResult (.fmul m d a b) s d (fp32.out m (fvMul (v a) (v b))) ∧
  FloatResult (.fdiv m d a b) s d (fp32.div m (v a) (v b)) ∧
  FloatResult (.fsqrt m d a) s d (fp32.sqrt m (v a)) ∧
  FloatResult (.fma m d a b c) s d (fp32.out m (fvFma m (v a) (v b) (v c)))

/-- R202, R203, R95: which operations produce a NaN, and that a NaN operand never does. -/
def Obligations.ProducedNans : Prop := ∀ (m : Rnd) (x y z : FVal),
  ((fp32.out m (fvAdd m x y)).produced = true ↔ ∃ n, x = .inf n ∧ y = .inf (!n)) ∧
  ((fp32.out m (fvMul x y)).produced = true ↔ (x.isZero = true ∧ y.isInf = true) ∨ (x.isInf = true ∧ y.isZero = true)) ∧
  ((fp32.div m x y).produced = true ↔ (x.isZero = true ∧ y.isZero = true) ∨ (x.isInf = true ∧ y.isInf = true)) ∧
  ((fp32.sqrt m x).produced = true ↔ x.isNan = false ∧ x.isZero = false ∧ x.neg = true) ∧
  ((fp32.out m (fvFma m x y z)).produced = true ↔ z.isNan = false ∧
    ((x.isZero = true ∧ y.isInf = true) ∨ (x.isInf = true ∧ y.isZero = true) ∨
      (x.isNan = false ∧ y.isNan = false ∧ (x.isInf = true ∨ y.isInf = true) ∧ z = .inf (!(x.neg != y.neg))))) ∧
  (x.isNan = true ∨ y.isNan = true → (fp32.out m (fvAdd m x y)).bits = 0x7FC0_0000 ∧ (fp32.out m (fvMul x y)).bits = 0x7FC0_0000 ∧
    (fp32.div m x y).bits = 0x7FC0_0000)

/-- R92: rounding toward zero never leaves the exact magnitude behind it, and misses it by less than one unit of the
position it rounds to.
R92: rounding to nearest is never further than half a unit away, and an exact tie goes to the even multiple. -/
def Obligations.Rounding : Prop :=
  (∀ (neg : Bool) (m : Nat) (e q : Int), q ≥ e →
  let r := (roundTo .rz neg m e false q).1
  r * 2 ^ (q - e).toNat ≤ m ∧ m < (r + 1) * 2 ^ (q - e).toNat ∧
  ((roundTo .rz neg m e false q).2 = true ↔ r * 2 ^ (q - e).toNat ≠ m)) ∧
  (∀ (neg : Bool) (m : Nat) (e q : Int), q > e →
  let u := 2 ^ (q - e).toNat
  let r := (roundTo .rne neg m e false q).1
  2 * m ≤ 2 * (r * u) + u ∧ 2 * (r * u) ≤ 2 * m + u ∧
  (2 * m = 2 * (r * u) + u ∨ 2 * (r * u) = 2 * m + u → r % 2 = 0))

/-- R204, R205: the comparisons, the class, and conversions; none of them traps. -/
def Obligations.FloatCompareConvert : Prop := ∀ (s : State) (m : Rnd) (src dst : CvtTy) (d a b : Reg),
  let v := fun (r : Reg) => fp32.value ((s.reg r).toNat % 2 ^ 32)
  let x := (s.reg a).toNat % 2 ^ 32
  ((v a).isNan = true ∨ (v b).isNan = true →
    Writes (.fcmp d a b) s d 2 ∧ WritesFp (.fmin d a b) s d 0x7FC0_0000 0 ∧ WritesFp (.fmax d a b) s d 0x7FC0_0000 0) ∧
  ((v a).isNan = false → (v b).isNan = false →
    Writes (.fcmp d a b) s d (if fvLt (v a) (v b) then BitVec.ofInt 64 (-1) else if fvLt (v b) (v a) then 1 else 0)) ∧
  (fvLt (v a) (v b) = true →
    WritesFp (.fmin d a b) s d (BitVec.ofNat 64 (fp32.pack .rne (v a)).1) 0 ∧
    WritesFp (.fmax d a b) s d (BitVec.ofNat 64 (fp32.pack .rne (v b)).1) 0) ∧
  (fvLt (v b) (v a) = true →
    WritesFp (.fmin d a b) s d (BitVec.ofNat 64 (fp32.pack .rne (v b)).1) 0 ∧
    WritesFp (.fmax d a b) s d (BitVec.ofNat 64 (fp32.pack .rne (v a)).1) 0) ∧
  ((v a).isNan = false → v a = v b →
    WritesFp (.fmin d a b) s d (BitVec.ofNat 64 (fp32.pack .rne (v a)).1) 0 ∧
    WritesFp (.fmax d a b) s d (BitVec.ofNat 64 (fp32.pack .rne (v a)).1) 0) ∧
  ((v a).isZero = true → (v b).isZero = true → (v a).neg ≠ (v b).neg →
    WritesFp (.fmin d a b) s d 0x8000_0000 0 ∧ WritesFp (.fmax d a b) s d 0 0) ∧
  Writes (.fclass d a) s d (BitVec.ofNat 64 ((if x % 2 ^ 31 = 0 then 0 else if x % 2 ^ 31 < 2 ^ 23 then 1
    else if x % 2 ^ 31 < 255 * 2 ^ 23 then 2 else if x % 2 ^ 31 = 255 * 2 ^ 23 then 3 else 4) + x / 2 ^ 31 * 8)) ∧
  WritesFp (.fcvt m src dst d a) s d (cvtResult m dst (cvtSource src (s.reg a))).1 (cvtResult m dst (cvtSource src (s.reg a))).2

/-! ### 08: control -/

/-- R206, R207: branches, the link of `BL`, `RET` and its alignment, and `NOP`. -/
def Obligations.Branches : Prop := ∀ (s : State) (j : BitVec 24) (off : BitVec 12) (a : Reg),
  let there := fun (o : Int) => s.cx.pc + BitVec.ofInt 64 (4 * o)
  let x := (s.reg a).toInt
  Goes (.b j) s (there j.toInt) none ∧ Goes (.bl j) s (there j.toInt) (some (s.cx.pc + 4)) ∧ Goes .nop s (s.cx.pc + 4) none ∧
  Goes (.bc .eqz a off) s (if x = 0 then there off.toInt else s.cx.pc + 4) none ∧
  Goes (.bc .nez a off) s (if x ≠ 0 then there off.toInt else s.cx.pc + 4) none ∧
  Goes (.bc .ltz a off) s (if x < 0 then there off.toInt else s.cx.pc + 4) none ∧
  Goes (.bc .gez a off) s (if 0 ≤ x then there off.toInt else s.cx.pc + 4) none ∧
  Goes (.bc .gtz a off) s (if 0 < x then there off.toInt else s.cx.pc + 4) none ∧
  Goes (.bc .lez a off) s (if x ≤ 0 then there off.toInt else s.cx.pc + 4) none ∧
  ((s.reg a).toNat % 4 = 0 → Goes (.ret a) s (s.reg a) none) ∧
  ((s.reg a).toNat % 4 ≠ 0 → Traps (.ret a) s 3 (s.reg a))

/-- R208-R211: `LOOP` and `LEND` of the team context; without a loop, and in a light context, `LEND` is ILLEGAL. -/
def Obligations.HardwareLoops : Prop := ∀ (s : State) (a : Reg) (w : BitVec 5) (ring : BitVec 4) (off : BitVec 12),
  let only := fun (t : State) => ∃ lc lb lr pc, t = (s.modCc fun k => { k with lcnt := lc, lbase := lb, lring := lr }).modCx
    fun x => { x with pc := pc, wait := none }
  let rg := s.cc.lring.toNat % 16
  (s.cur.ctx = 0 → ∃ t, exec (.loop a w ring) s = .next t ∧ t.cc.lcnt = s.reg a ∧ t.cc.lbase = 0 ∧
    t.cc.lring = BitVec.ofNat 64 (w.toNat * 256 + ring.toNat) ∧ Follows (.loop a w ring) s t ∧ only t) ∧
  (s.cur.ctx ≠ 0 → ∃ t, exec (.loop a w ring) s = .next t ∧ (∀ r, t.reg r = s.reg r) ∧ Follows (.loop a w ring) s t ∧ OnlyRegs s t) ∧
  (s.cur.ctx = 0 → off.toInt < 0 → rg ≠ 0 → 1 < s.cc.lcnt.toNat → ∃ t, exec (.lend off) s = .next t ∧
    t.cc.lcnt = BitVec.ofNat 64 (s.cc.lcnt.toNat - 1) ∧ t.cc.lbase = BitVec.ofNat 64 ((s.cc.lbase.toNat + 1) % rg) ∧
    t.cx.pc = s.cx.pc + BitVec.ofInt 64 (4 * off.toInt) ∧ only t) ∧
  (s.cur.ctx = 0 → off.toInt < 0 → rg ≠ 0 → s.cc.lcnt.toNat ≤ 1 → ∃ t, exec (.lend off) s = .next t ∧
    t.cc.lcnt = 0 ∧ t.cc.lbase = BitVec.ofNat 64 ((s.cc.lbase.toNat + 1) % rg) ∧ Follows (.lend off) s t ∧ only t) ∧
  (0 ≤ off.toInt ∨ s.cur.ctx ≠ 0 ∨ rg = 0 → Traps (.lend off) s 1 s.cx.pc)

/-- R46, R212: `YIELD` of the team context writes the checkpoint that was not current and begins a new span; a pending
pre-emption stops the team there; while the Proofreader has a record still to check, or the control core's reset is asked for, it
waits (that every appended record counts is the model's reading, log entry 27); where the Proofreader's CRC over its own state differs
the copy is written, the current one stays and the reset is asked for. In a light context it passes over one turn.
R213: `HALT` waits and changes nothing; when its stores are acknowledged, every record DONE and every load returned (the loads are the
model's reading, log entry 31), the team is RETIRED; a folio handler's context, and one that serves nothing, sleeps; a trap handler's
ends the team FAILED with the trap it served. -/
def Obligations.YieldAndHalt : Prop :=
  (∀ (s : State), let agrees := s.cc.proof = .none ∨ s.cc.proofCrc = crc32c (s.cc.checkpoint (s.cx.pc + 4)).bytes
  (s.cur.ctx = 0 → s.cc.proofRead = true → s.cc.resetAsked = false → agrees → s.cc.preempt = none →
    ∃ t, exec .yield s = .next t ∧ Follows .yield s t ∧ (∀ r, t.reg r = s.reg r) ∧
    t.cc.ckIsB = !s.cc.ckIsB ∧ t.cc.irrevocable = false ∧ t.cc.rlog = [] ∧ t.cc.current.pc = s.cx.pc + 4 ∧
    t.cc.current.regs = s.cx.regs ∧ t.cc.current.lcnt = s.cc.lcnt ∧ t.cc.current.fmtPush = s.cc.fmtPush ∧ t.cx.run = s.cx.run) ∧
  (s.cur.ctx = 0 → s.cc.proofRead = true → s.cc.resetAsked = false → agrees → ∀ p, s.cc.preempt = some p →
    p.stopped = false → ∃ t, exec .yield s = .next t ∧
    t.cx.run = .stopped ∧ t.cx.pc = s.cx.pc + 4 ∧ t.cc.current.pc = s.cx.pc + 4 ∧ t.cc.preempt = some { p with stopped := true }) ∧
  (s.cur.ctx = 0 → s.cc.proofRead = false ∨ s.cc.resetAsked = true → exec .yield s = .next s) ∧
  (s.cur.ctx = 0 → s.cc.proofRead = true → s.cc.resetAsked = false → ¬agrees → ∃ t, exec .yield s = .next t ∧
    t.cc.resetAsked = true ∧ t.cc.ckIsB = s.cc.ckIsB ∧ t.cc.current = s.cc.current ∧ t.cx.pc = s.cx.pc ∧ (∀ r, t.reg r = s.reg r) ∧
    (if s.cc.ckIsB then t.cc.ckA else t.cc.ckB) = (s.cc.checkpoint (s.cx.pc + 4)).sealed) ∧
  (s.cur.ctx ≠ 0 → ∃ t, exec .yield s = .next t ∧ Follows .yield s t ∧ t.cx.passOver = true ∧ (∀ r, t.reg r = s.reg r))) ∧
  (∀ (s : State) (c : CoreId),
  (∃ t, exec .halt s = .next t ∧ (∃ w, t.cx.wait = some w ∧ w.kind = .halt ∧ w.limit = s.cc.waitMax) ∧ t.cx.pc = s.cx.pc ∧
    (∀ r, t.reg r = s.reg r) ∧ t.cx.dq = s.cx.dq ∧ t.cc.pending = s.cc.pending ∧ ∀ a, t.byte a = s.byte a) ∧
  (∀ w, (s.core c).team ≠ none → ((s.core c).ctx 0).run = .running → ((s.core c).ctx 0).wait = some w → w.kind = .halt →
    (s.core c).haltReady 0 = true → exec (.haltComplete c 0) s = .next (s.endTeam c .retired)) ∧
  (((s.core c).ctx 0).storeQ ≠ [] → exec (.haltComplete c 0) s = .next s) ∧
  (∀ (x : CtxId) w, x ≠ 0 → ((s.core c).ctx x).run = .running → ((s.core c).ctx x).wait = some w → w.kind = .halt →
    ((s.core c).ctx x).storesDone = true →
    (∀ of, ((s.core c).ctx x).role = .trap of → exec (.haltComplete c x) s =
      .next ((s.folioEnds c x).failTeam c ((s.core c).ctx of).trapOf ((s.core c).ctx of).tepc)) ∧
    ((∀ of, ((s.core c).ctx x).role ≠ .trap of) → exec (.haltComplete c x) s = .next (s.modCore c fun k => k.modCtx x Ctx.sleep))))

/-- R214, R215, R320: `TRAP` saves the address of the next instruction; `ERET` of a handler puts its context to sleep and
resumes the trapped one at TEPC; it is PRIV in user mode and ILLEGAL where no trap is served. -/
def Obligations.TrapAndReturn : Prop := ∀ (s : State) (code : BitVec 12) (x of : CtxId) (c : CoreId),
  exec (.trap code) s = .next (s.raise s.cur ⟨0x16, 0, BitVec.ofNat 64 code.toNat, 0, none⟩ (s.cx.pc + 4)) ∧
  (s.cx.priv = false → Traps .eret s 2 s.cx.pc) ∧
  (s.cx.priv = true → s.cx.role = .none → Traps .eret s 1 s.cx.pc) ∧
  (s.cx.priv = true → s.cur = ⟨c, x⟩ → x ≠ of → s.cx.role = .trap of → s.cc.preempt = none → ∃ t, exec .eret s = .next t ∧
    (t.core c).ctx x = (((s.core c).ctx x).sleep) ∧ ((t.core c).ctx of).run = .running ∧
    ((t.core c).ctx of).pc = ((s.core c).ctx of).tepc ∧ ((t.core c).ctx of).regs = ((s.core c).ctx of).regs)

/-- R319: a trap of a context that serves none: CAUSE, TADDR, TINFO and TEPC of the context are written, the first dormant
light context starts, privileged, at the trap entry address with the cause, the address and the context's number in s1 to
s3, and no other register of it. -/
def Obligations.TakingATrap : Prop := ∀ (s : State) (c : CoreId) (x : CtxId) (t : Trap) (tepc : W64) (h : CtxId) (rest : List CtxId),
  ((s.core c).ctx x).role = .none → x ≠ h → (s.core c).dormantLights = h :: rest → ((s.core c).ctx x).run = .running →
  t.code ≠ 7 →
  let u := s.raise ⟨c, x⟩ t tepc
  let y := (u.core c).ctx x
  let z := (u.core c).ctx h
  y.run = .trapped ∧ y.cause = causeWord t (decide (x = 0) && !(s.core c).traps.isEmpty) ∧ y.taddr = t.addr ∧ y.tinfo = t.info ∧
  y.tepc = (tepc &&& ~~~3) ∧ y.regs = ((s.core c).ctx x).regs ∧ y.pc = ((s.core c).ctx x).pc ∧
  z.run = .running ∧ z.priv = true ∧ z.pc = (s.core c).trapEntry ∧ z.role = .trap x ∧ z.reg 1 = y.cause ∧ z.reg 2 = t.addr ∧
  z.reg 3 = BitVec.ofNat 64 x.val ∧ (∀ r, r ≠ 1 → r ≠ 2 → r ≠ 3 → z.reg r = 0) ∧ (∀ a, u.byte a = s.byte a)

/-- R216: a `WFE` that finds a reason ends at once, gives the reasons and clears EVL; else it waits. A waiting one ends by
its wake or, at WAITMAX, by its timeout. -/
def Obligations.WaitForEvent : Prop := ∀ (s : State) (d a : Reg),
  let why := s.wfeWhy s.cur a
  (why ≠ 0 → ∃ t, exec (.wfe d a) s = .next t ∧ RegWritten s t d why ∧ t.cx.evl = 0 ∧ Follows (.wfe d a) s t) ∧
  (why = 0 → ∃ t w, exec (.wfe d a) s = .next t ∧ t.cx.wait = some w ∧ w.kind = .wfe d a ∧ w.limit = s.cc.waitMax ∧
    t.cx.pc = s.cx.pc ∧ ∀ r, t.reg r = s.reg r) ∧
  (∀ c x, (s.ctx ⟨c, x⟩).wfeWaits = some (d, a) →
    (s.wfeWhy ⟨c, x⟩ a &&& 0xF ≠ 0 → ∃ t, exec (.wfeWake c x) s = .next t ∧ (t.ctx ⟨c, x⟩).evl = 0 ∧
      (t.ctx ⟨c, x⟩).wait = none ∧ (t.ctx ⟨c, x⟩).pc = (s.ctx ⟨c, x⟩).pc + 4 ∧
      (d ≠ 0 → (t.ctx ⟨c, x⟩).reg d = s.wfeWhy ⟨c, x⟩ a)) ∧
    ((s.wfeWhy ⟨c, x⟩ a).getLsbD 4 = true → ∃ t, exec (.wfeTimeout c x) s = .next t ∧ (t.ctx ⟨c, x⟩).wait = none ∧
      (t.ctx ⟨c, x⟩).pc = (s.ctx ⟨c, x⟩).pc + 4 ∧ (d ≠ 0 → ((t.ctx ⟨c, x⟩).reg d).getLsbD 4 = true)))

/-! ### 08: CSRs -/

/-- R218, R220: a number outside the catalogue is ILLEGAL and a privileged register is PRIV in user mode, for each of the
three instructions; `CSRX` naming CMPINJ is ILLEGAL.
R218, R220-R222: outside a replay, `CSRR` gives the register's value; a register of the team context alone reads zero in
a light context. -/
def Obligations.CsrReadAndRefusals : Prop :=
  (∀ (s : State) (d a : Reg) (n : BitVec 12),
  (csrOf n = none → Traps (.csrr d n) s 1 s.cx.pc ∧ Traps (.csrw a n) s 1 s.cx.pc ∧ Traps (.csrx d a n) s 1 s.cx.pc) ∧
  (∀ r, csrOf n = some r → r.privOnly = true → s.cx.priv = false →
    Traps (.csrr d n) s 2 s.cx.pc ∧ Traps (.csrw a n) s 2 s.cx.pc ∧ (r ≠ .cmpinj → Traps (.csrx d a n) s 2 s.cx.pc)) ∧
  (csrOf n = some .cmpinj → Traps (.csrx d a n) s 1 s.cx.pc)) ∧
  (∀ (s : State) (d : Reg) (n : BitVec 12) (r : CsrName),
  csrOf n = some r → (r.privOnly = true → s.cx.priv = true) → s.cc.replayValue = none →
  (∃ t, exec (.csrr d n) s = .next t ∧ RegWritten s t d (s.readCsr s.cur r) ∧ Follows (.csrr d n) s t ∧
    (∀ q, t.readCsr s.cur q = s.readCsr s.cur q) ∧ ∀ a, t.byte a = s.byte a) ∧
  (r.teamOnly = true → s.cur.ctx ≠ 0 → s.readCsr s.cur r = 0) ∧
  (r = .platen → s.readCsr s.cur r = s.platen) ∧ (r = .ymax → s.readCsr s.cur r = s.ymax) ∧
  (r = .ltime → s.cur.ctx = 0 → s.readCsr s.cur r = s.platen - s.cc.stoff))

/-- R93, R209-R211, R216, R255, R352, R402: what a `CSRW` leaves in the registers that software writes, in the team context.
R316, R317, R458, R52: what a privileged one leaves in the trap registers, in TFPX and in CMPINJ, of the context that it reaches.
R218: `CSRX` gives the old value and leaves what `CSRW` leaves; a value that the register's rule refuses is ILLEGAL for both. -/
def Obligations.CsrWriteAndExchange : Prop :=
  (∀ (s : State) (a : Reg), s.cur.ctx = 0 →
  let v := s.reg a
  let after := fun (n : BitVec 12) (r : CsrName) (w : W64) =>
    ∃ t, exec (.csrw a n) s = .next t ∧ t.readCsr s.cur r = w ∧ Follows (.csrw a n) s t ∧ (∀ q, t.reg q = s.reg q) ∧ ∀ b, t.byte b = s.byte b
  after 0x010 .fpx ((v &&& 0x100) ||| (s.cx.fpx &&& 0x3F &&& ~~~v)) ∧
  after 0x020 .lcnt v ∧ after 0x003 .slip (v &&& ~~~0xF) ∧ after 0x041 .evl (s.cx.evl &&& ~~~v) ∧
  (v.toNat % 16 ≤ 8 → v.toNat / 256 % 32 + v.toNat % 16 ≤ 24 → v.toNat / 256 % 32 < 24 → after 0x022 .lring (v &&& 0x1F0F)) ∧
  (v.toNat % 256 ≤ 128 → v.toNat / 4096 % 16 ≤ 8 → v.toNat / 4096 % 16 ≠ 1 → after 0x011 .vw (v &&& 0xF1FF)) ∧
  (128 < v.toNat % 256 → Traps (.csrw a 0x011) s 1 s.cx.pc) ∧
  after 0x000 .platen s.platen ∧ after 0x040 .ctxid (s.ctxid s.cur) ∧
  (s.cx.priv = true → v.toNat % 2 ^ 32 = 0 → Traps (.csrw a 0x110) s 1 s.cx.pc) ∧
  (s.cx.priv = true → s.objects = [] → v.toNat % 2 ^ 32 ≠ 0 → v.toNat / 2 ^ 32 ≠ 0 → after 0x110 .ymax v) ∧
  (s.cc.lring.toNat % 16 = 0 → after 0x021 .lbase 0) ∧
  (s.cc.lring.toNat % 16 ≠ 0 → after 0x021 .lbase (BitVec.ofNat 64 (v.toNat % (s.cc.lring.toNat % 16)))) ∧
  (s.cx.priv = true →
    let bound := s.cc.slice.toNat / 65536 % 65536 + 64
    let len := if v.toNat % 65536 = 0 then s.dsliceOf s.cur.core else v.toNat % 65536
    ∃ t w, exec (.csrw a 0x052) s = .next t ∧ t.readCsr s.cur .slice = w ∧ Follows (.csrw a 0x052) s t ∧ (∀ q, t.reg q = s.reg q) ∧
      w.toNat % 65536 = min (max len bound) 65535 ∧ w.toNat / 65536 % 65536 = s.cc.slice.toNat / 65536 % 65536 ∧
      (w.getLsbD 32 = true ↔ len < bound) ∧ ∀ b, t.byte b = s.byte b)) ∧
  (∀ (s : State) (a : Reg), s.cx.priv = true →
  let v := s.reg a
  let after := fun (n : BitVec 12) (r : CsrName) (w : W64) =>
    ∃ t, exec (.csrw a n) s = .next t ∧ t.readCsr s.cur r = w ∧ Follows (.csrw a n) s t ∧ (∀ q, t.reg q = s.reg q) ∧
      (∀ q, q ≠ r → t.readCsr s.cur q = s.readCsr s.cur q) ∧ ∀ b, t.byte b = s.byte b
  after 0x100 .cause (v &&& 0xF1FF) ∧ after 0x101 .taddr v ∧ after 0x102 .tepc (v &&& ~~~3) ∧
  (v.toNat % 16 = 1 → after 0x103 .tinfo (v &&& 0xFFFF_FFFF_0000_000F)) ∧
  (v.toNat % 16 = 2 → after 0x103 .tinfo (v &&& 0xFFFF_FFFF_FFFF_FF0F)) ∧
  (v.toNat % 16 = 3 → after 0x103 .tinfo (v &&& 0xFFFF_FFFF_FF00_00FF)) ∧
  (v.toNat % 16 = 4 → after 0x103 .tinfo (v &&& 0x00FF_FFFF_FFFF_FFFF)) ∧
  (v.toNat % 16 = 0 ∨ 4 < v.toNat % 16 → after 0x103 .tinfo 0) ∧
  (∀ of, s.cx.role = .trap of → of ≠ s.cur.ctx →
    after 0x106 .tfpx ((v &&& 0x100) ||| (((s.core s.cur.core).ctx of).fpx &&& 0x3F &&& ~~~v))) ∧
  ((∀ of, s.cx.role ≠ .trap of) → after 0x106 .tfpx 0) ∧
  after 0x120 .cmpinj (v &&& 0xFFFF_FFFF_0000_000B) ∧
  (v.getLsbD 7 = true → ∃ t, exec (.csrw a 0x120) s = .next t ∧
    t.cc.armed = some ⟨s.now + v.toNat / 2 ^ 32, v.getLsbD 3, BitVec.ofNat 2 v.toNat⟩)) ∧
  (∀ (s : State) (d a : Reg) (n : BitVec 12) (r : CsrName), csrOf n = some r → r ≠ .cmpinj → (r.privOnly = true → s.cx.priv = true) →
  (s.cur.ctx = 0 → s.cc.replayValue = none) →
  (s.writeCsr s.cur r (s.reg a) = none → Traps (.csrw a n) s 1 s.cx.pc ∧ Traps (.csrx d a n) s 1 s.cx.pc) ∧
  ∀ u, s.writeCsr s.cur r (s.reg a) = some u → ∃ t, exec (.csrx d a n) s = .next t ∧ exec (.csrw a n) s = .next (u.advance 4) ∧
    RegWritten s t d (s.readCsr s.cur r) ∧ (∀ q, t.readCsr s.cur q = u.readCsr s.cur q) ∧ Follows (.csrx d a n) s t ∧
    ∀ b, t.byte b = s.byte b)

/-- R219, R411: with its loads returned and its stores acknowledged, a `TLB.INV` drops the translations it names from the TLBs of every
core of its cluster and of the cluster, keeps those of other address spaces, starts the walks it names again, changes no register
and no byte and goes on; before that it waits, for a stream's unread elements too (R139 makes them loads; the model's reading, log entry 72). The cluster form drops every translation, and is PRIV in user mode. -/
def Obligations.TlbInvalidate : Prop := ∀ (s : State) (a : Reg),
  let cl := coreCluster s.cur.core
  let va := (s.reg a).toNat % 2 ^ 56
  let drops := fun (i : Instr) (gone : TlbEntry → Prop) (again : Walk → Prop) => ∃ t, exec i s = .next t ∧ Follows i s t ∧
    (∀ e, e ∈ (t.cluster cl).tlb ↔ e ∈ (s.cluster cl).tlb ∧ ¬ gone e) ∧
    (∀ c ∈ coresOf cl, (∀ e, e ∈ (t.core c).l1tlb ↔ e ∈ (s.core c).l1tlb ∧ ¬ gone e) ∧
      ∀ g, ∀ e, e ∈ (t.core c).tlb g ↔ e ∈ (s.core c).tlb g ∧ ¬ gone e) ∧
    (∀ c, c ∉ coresOf cl → (t.core c).l1tlb = (s.core c).l1tlb ∧ ∀ g, (t.core c).tlb g = (s.core c).tlb g) ∧
    (∀ m, m ≠ cl → (t.cluster m).tlb = (s.cluster m).tlb) ∧
    (∀ w ∈ (t.die (clusterDie cl)).walks, coreCluster w.core = cl → again w → w.running = false ∧ w.since = none) ∧
    (∀ r, t.reg r = s.reg r) ∧ ∀ p, t.byte p = s.byte p
  (s.cx.aligned = true → s.cx.priv = true → drops .tlbInvCluster (fun _ => True) (fun _ => True)) ∧
  (s.cx.aligned = true → drops .tlbInvSpace (fun e => e.job = s.cc.job) (fun w => w.job = s.cc.job)) ∧
  (s.cx.aligned = true → drops (.tlbInvPage a) (fun e => e.job = s.cc.job ∧ e.va ≤ va ∧ va < e.va + e.size)
    (fun w => w.job = s.cc.job ∧ w.va.toNat % 2 ^ 56 / 65536 = va / 65536)) ∧
  (s.cx.aligned = false → exec .tlbInvSpace s = .next (s.hold (.align .clu) s.cc.waitMax) ∧
    exec (.tlbInvPage a) s = .next (s.hold (.align .clu) s.cc.waitMax) ∧
    (s.cx.priv = true → exec .tlbInvCluster s = .next (s.hold (.align .clu) s.cc.waitMax))) ∧
  (s.cx.priv = false → Traps .tlbInvCluster s 2 s.cx.pc)

/-- R177: of these instructions, one whose destination is s0 raises ILLEGAL at its own address.
R192: an encoding that is no instruction raises ILLEGAL at its own address. -/
def Obligations.DiscardedDestinationAndNoInstruction : Prop :=
  (∀ (s : State) (a b c : Reg) (imm : BitVec 12) (n m : BitVec 6) (w : BitVec 32),
  ∀ i ∈ [Instr.add 0 a b, .sub 0 a b, .mul 0 a b, .mulh 0 a b, .mulhu 0 a b, .div 0 a b, .divu 0 a b, .rem 0 a b, .remu 0 a b,
    .and 0 a b, .or 0 a b, .xor 0 a b, .shl 0 a b, .shr 0 a b, .sra 0 a b, .rotl 0 a b, .min 0 a b, .minu 0 a b, .max 0 a b,
    .maxu 0 a b, .slt 0 a b, .sltu 0 a b, .seq 0 a b, .clz 0 a, .ctz 0 a, .popc 0 a, .mov 0 a, .sel 0 a b c, .addi 0 a imm,
    .andi 0 a imm, .ori 0 a imm, .xori 0 a imm, .shli 0 a n, .shri 0 a n, .srai 0 a n, .bfx 0 a n m, .bfi 0 a n m, .ldi 0 w,
    .ldhi 0 w], Traps i s 1 s.cx.pc) ∧
  (∀ (s : State) (w : BitVec 32), Traps (.illegalEncoding w) s 1 s.cx.pc)

/-! ### 09: loads, stores and the Case -/

/-- What a step of a context leaves alone: its registers, every CSR and every byte. -/
def Sys2Proof.Machine.KeepsAll (s t : State) : Prop :=
  (∀ r, t.reg r = s.reg r) ∧ (∀ q, t.readCsr s.cur q = s.readCsr s.cur q) ∧ ∀ a, t.byte a = s.byte a

/-- Load `i` of `n` bytes at `va` enters the load queue behind the context's other loads. -/
def Sys2Proof.Machine.LoadEnters (i : Instr) (s : State) (d : Reg) (va : W64) (n : Nat) (signed acquire : Bool) : Prop :=
  ∀ pa e, s.checkLoad s.cur va n = .ok pa e → (s.cur.ctx = 0 → s.cc.replayValue = none) →
    ∃ t l, exec i s = .next t ∧ t.cx.loadQ = s.cx.loadQ ++ [l] ∧ l.dest = d ∧ l.va = va ∧ l.pa = pa ∧ l.n = n ∧
      l.signed = signed ∧ l.acquire = acquire ∧ l.got = none ∧ l.live = true ∧ Follows i s t ∧ KeepsAll s t ∧
      (acquire = false → t.cx.wait = none) ∧ (acquire = true → ∃ w, t.cx.wait = some w ∧ w.kind = .acquire va l.pos)

/-- R124, R125, R147: a load that may read, with no uncorrectable error in its bytes, takes the extended value of its bytes, the
context's own earlier stores over memory. The oldest load of the queue writes its value, or the one it took before, to its
register unless a later instruction has written that (the model's reading, log entry 28: R147 is silent there), and leaves the queue; a
later load keeps its value until then. No register but that one and no byte changes, and the pc stays. -/
def Obligations.LoadReturnsItsValue : Prop := ∀ (s : State) (c : CoreId) (x : CtxId) (l : LoadEntry) (rest : List LoadEntry),
  let y := s.ctx ⟨c, x⟩
  let value := fun (m : LoadEntry) => extendN m.signed m.n (natOfBytes (s.loadBytes y m.pos m.pa m.n))
  let keeps := fun (t : State) => (t.ctx ⟨c, x⟩).pc = y.pc ∧ ∀ a, pagesEnd ≤ a → t.byte a = s.byte a
  let gives := fun (v : W64) => ∃ t, exec (.loadReturn c x 0) s = .next t ∧ (t.ctx ⟨c, x⟩).loadQ = rest ∧ keeps t ∧
    (l.live = true → l.dest ≠ 0 → (t.ctx ⟨c, x⟩).reg l.dest = v) ∧ (∀ r, r ≠ l.dest ∨ l.live = false → (t.ctx ⟨c, x⟩).reg r = y.reg r)
  (y.loadQ = l :: rest → l.got = none → s.mayRead ⟨c, x⟩ l.pos l.va l.pa l.n = true → s.loadBad y l.pos l.pa l.n = none → gives (value l) ∧
    (y.storeQ = [] → y.unacked = [] → l.n = 8 → gives (s.read64 l.pa)) ∧
    (y.storeQ = [] → y.unacked = [] → l.n = 1 → l.signed = true → gives ((s.byte l.pa).signExtend 64))) ∧
  (∀ v, y.loadQ = l :: rest → l.got = some v → gives v) ∧
  (∀ i m more, i ≠ 0 → y.loadQ.drop i = m :: more → m.got = none → s.mayRead ⟨c, x⟩ m.pos m.va m.pa m.n = true → s.loadBad y m.pos m.pa m.n = none →
    ∃ t, exec (.loadReturn c x i) s = .next t ∧ (t.ctx ⟨c, x⟩).loadQ = y.loadQ.set i { m with got := some (value m) } ∧ keeps t ∧
      ∀ r, (t.ctx ⟨c, x⟩).reg r = y.reg r)

/-- R225: the checks of every load, store and atomic in their order: an address that is no canonical one raises PROT, a misaligned one
ALIGN, one without a translation waits for its walk (which raises FAULT where the page is absent, R409), one whose page does not permit the
access, or whose physical address does not exist, PROT, a write to a stereotype page STEREO, and a read that meets an uncorrectable error
MEMERR with the physical address. Each comes whatever the later ones would say; TADDR is the address.
R240: an atomic that PCIe does not know, on host memory, raises PROT. -/
def Obligations.AccessChecks : Prop := ∀ (s : State) (sc : Scope) (z : Size) (d a : Reg) (off : BitVec 12) (o9 : BitVec 9) (o7 : BitVec 7)
    (m : AtmForm), (s.cur.ctx = 0 → s.cc.replayValue = none) →
  let va := s.reg a + BitVec.ofInt 64 off.toInt
  let vs := s.reg a + BitVec.ofInt 64 o9.toInt
  let vr := s.reg a + BitVec.ofInt 64 o7.toInt
  let vm := s.reg m.a + BitVec.ofInt 64 m.off.toInt
  let nm := if m.dbl then 8 else 4
  let loads := [(Instr.ldB d a off, va, 1), (.ldBU d a off, va, 1), (.ldH d a off, va, 2), (.ldHU d a off, va, 2), (.ldW d a off, va, 4),
    (.ldWU d a off, va, 4), (.ldD d a off, va, 8), (.ldAcq sc z d a o7, vr, z.bytes)]
  let stores := [(Instr.stB sc d a o9, vs, 1), (.stH sc d a o9, vs, 2), (.stW sc d a o9, vs, 4), (.stD sc d a o9, vs, 8),
    (.stRel sc z d a o7, vr, z.bytes)]
  let pcie := [(Instr.atmAdd m, vm, nm), (.atmXchg m, vm, nm), (.atmCas m, vm, nm)]
  let others := [(Instr.atmMin m, vm, nm), (.atmMax m, vm, nm), (.atmAnd m, vm, nm), (.atmOr m, vm, nm), (.atmXor m, vm, nm)]
  let memerr := fun (i : Instr) (v : W64) (p : Nat) => exec i s = .next (s.raise s.cur ⟨0x07, 0, v, infoPhys p, none⟩ s.cx.pc)
  (∀ x ∈ loads ++ stores ++ pcie ++ others, canonical x.2.1 = false → Traps x.1 s 5 x.2.1) ∧
  (∀ x ∈ loads ++ stores ++ pcie ++ others, canonical x.2.1 = true → x.2.1.toNat % x.2.2 ≠ 0 → Traps x.1 s 3 x.2.1) ∧
  (∀ x ∈ loads ++ stores ++ pcie ++ others, canonical x.2.1 = true → x.2.1.toNat % x.2.2 = 0 →
    (s.lookup s.cur.core x.2.1 = none → exec x.1 s = .next (s.holdWalk x.2.1)) ∧
    ∀ e, s.lookup s.cur.core x.2.1 = some e →
      let pa := e.pa + (x.2.1.toNat % 2 ^ 56 - e.va)
      let mine := s.cx.priv = true ∨ e.u = true
      let here := (s.place pa).isSome = true
      let present := s.hostMissing (s.jobFunc s.cc.job) pa = false
      (¬mine ∨ ¬here → Traps x.1 s 5 x.2.1) ∧
      (x ∈ loads ++ pcie ++ others → e.r = false → Traps x.1 s 5 x.2.1) ∧
      (x ∈ loads → mine → e.r = true → here → present → ∀ p, s.badAt pa x.2.2 = some p → memerr x.1 x.2.1 p) ∧
      (x ∈ stores → e.w = false → Traps x.1 s 5 x.2.1) ∧
      (x ∈ stores → mine → e.w = true → here → e.st = true → Traps x.1 s 6 x.2.1) ∧
      (x ∈ others → mine → e.r = true → here → present → isHost pa = true → Traps x.1 s 5 x.2.1) ∧
      (x ∈ pcie ++ others → mine → e.r = true → here → present → (x ∈ others → isHost pa = false) →
        (e.w = false → Traps x.1 s 5 x.2.1) ∧
        (e.w = true → e.st = true → Traps x.1 s 6 x.2.1) ∧
        (e.w = true → e.st = false → ∀ p, s.badAt pa x.2.2 = some p → memerr x.1 x.2.1 p)))

/-- Store `i` of the low `n` bytes of a register at `va` enters the store queue behind the context's other entries. -/
def Sys2Proof.Machine.StoreEnters (i : Instr) (s : State) (kind : StoreKind) (sc : Scope) (d : Reg) (va : W64) (n : Nat) : Prop :=
  ∀ pa e, s.checkAccess s.cur .write va n = .ok pa e → s.cx.storeQ.length < 64 →
    ∃ t y, exec i s = .next t ∧ t.cx.storeQ = s.cx.storeQ ++ [y] ∧ y.kind = kind ∧ y.va = va ∧ y.pa = pa ∧ y.n = n ∧
      y.data = BitVec.ofNat 64 ((s.reg d).toNat % 2 ^ (8 * n)) ∧ y.scope = sc ∧ Follows i s t ∧ KeepsAll s t

/-- R224, R226, R230, R147: each load, with the signedness its mnemonic gives it, where its checks pass.
R228-R230, R70, R73, R47: each store, where its checks pass and the queue has room; no byte changes yet. A store that
finds the queue full waits, and a release store makes the team's span irrevocable. -/
def Obligations.AccessesEnterTheQueues : Prop :=
  (∀ (s : State) (sc : Scope) (z : Size) (d a : Reg) (off : BitVec 12) (o7 : BitVec 7),
  let va := s.reg a + BitVec.ofInt 64 off.toInt
  LoadEnters (.ldB d a off) s d va 1 true false ∧ LoadEnters (.ldBU d a off) s d va 1 false false ∧
  LoadEnters (.ldH d a off) s d va 2 true false ∧ LoadEnters (.ldHU d a off) s d va 2 false false ∧
  LoadEnters (.ldW d a off) s d va 4 true false ∧ LoadEnters (.ldWU d a off) s d va 4 false false ∧
  LoadEnters (.ldD d a off) s d va 8 false false ∧
  LoadEnters (.ldAcq sc z d a o7) s d (s.reg a + BitVec.ofInt 64 o7.toInt) z.bytes false true) ∧
  (∀ (s : State) (sc : Scope) (z : Size) (d a : Reg) (o9 : BitVec 9) (o7 : BitVec 7),
  let va := s.reg a + BitVec.ofInt 64 o9.toInt
  let vr := s.reg a + BitVec.ofInt 64 o7.toInt
  StoreEnters (.stB sc d a o9) s .plain sc d va 1 ∧ StoreEnters (.stH sc d a o9) s .plain sc d va 2 ∧
  StoreEnters (.stW sc d a o9) s .plain sc d va 4 ∧ StoreEnters (.stD sc d a o9) s .plain sc d va 8 ∧
  StoreEnters (.stRel sc z d a o7) s .release sc d vr z.bytes ∧
  (∀ pa e, s.checkAccess s.cur .write vr z.bytes = .ok pa e → s.cx.storeQ.length < 64 → s.cur.ctx = 0 →
    ∃ t, exec (.stRel sc z d a o7) s = .next t ∧ t.cc.irrevocable = true) ∧
  (∀ st ∈ [(Instr.stB sc d a o9, va, 1), (.stH sc d a o9, va, 2), (.stW sc d a o9, va, 4), (.stD sc d a o9, va, 8),
      (.stRel sc z d a o7, vr, z.bytes)], ∀ pa e, s.checkAccess s.cur .write st.2.1 st.2.2 = .ok pa e → 64 ≤ s.cx.storeQ.length →
    exec st.1 s = .next (s.hold (.storeFull st.2.1) s.cc.waitMax)))

/-- R70, R71, R74, R131, R132: a store at the head of its queue that may leave, the budget allowing it, is charged and goes on its way; no
byte changes yet. On its way, with no older store to one of its bytes before it there, it writes its bytes at its address and no
other byte, and is acknowledged; outside firmware's pages its bytes read as written. An older one on one of its bytes holds it. -/
def Obligations.StoreLeavesToMemory : Prop := ∀ (s : State) (c : CoreId) (x : CtxId) (e : StoreEntry) (rest : List StoreEntry) (i : Nat),
  let k := (s.core c).rollWindow s.now
  let y := s.ctx ⟨c, x⟩
  (e.kind = .plain ∨ e.kind = .release →
    (y.storeQ = e :: rest → s.mayLeave ⟨c, x⟩ e = true → k.budgetAllows x = true → ∃ t, exec (.storeLeave c x) s = .next t ∧
      (t.ctx ⟨c, x⟩).storeQ = rest ∧ (t.ctx ⟨c, x⟩).unacked = y.unacked ++ [e] ∧ (t.core c).wuse = (k.charge e.n).wuse ∧
      (∀ r, (t.ctx ⟨c, x⟩).reg r = y.reg r) ∧ t.chase = s.chase ∧ ∀ a, t.byte a = s.byte a) ∧
    (y.unacked.drop i = e :: rest → ((y.unacked.take i).any fun o => o.meets e) = false → ∃ t, exec (.storeAck c x i) s = .next t ∧
      (t.ctx ⟨c, x⟩).unacked = y.unacked.eraseIdx i ∧ (t.ctx ⟨c, x⟩).storeQ = y.storeQ ∧
      (∀ a, pagesEnd ≤ a → a < e.pa ∨ e.pa + e.n ≤ a → t.byte a = s.byte a) ∧
      (pagesEnd ≤ e.pa → ∀ n, n < e.n → t.byte (e.pa + n) = BitVec.ofNat 8 (e.data.toNat / 256 ^ n)) ∧
      (∀ r, (t.ctx ⟨c, x⟩).reg r = y.reg r) ∧ t.chase = s.chase)) ∧
  (y.unacked.drop i = e :: rest → ((y.unacked.take i).any fun o => o.meets e) = true → exec (.storeAck c x i) s = .next s)

/-- R231: `STC` writes the low bytes of its register to the Case and no other byte of it; `LDC`, outside a replay, gives the
zero-extended bytes; what `STC` wrote, an `LDC` of the same size and offset reads. -/
def Obligations.CaseMemory : Prop := ∀ (s : State) (z : Size) (d f : Reg) (off : BitVec 14),
  (s.cur.ctx = 0 → s.cc.replayValue = none) →
  (∃ t, exec (.ldc z d off) s = .next t ∧ RegWritten s t d (s.cx.caseRead off.toNat z.bytes) ∧ Follows (.ldc z d off) s t ∧
    t.cx.caseMem = s.cx.caseMem ∧ ∀ a, t.byte a = s.byte a) ∧
  (∃ t, exec (.stc z d off) s = .next t ∧ Follows (.stc z d off) s t ∧ KeepsAll s t ∧
    (∀ i, i < off.toNat ∨ off.toNat + z.bytes ≤ i → FMap.get t.cx.caseMem 0 i = FMap.get s.cx.caseMem 0 i) ∧
    (∀ i, i < z.bytes → FMap.get t.cx.caseMem 0 (off.toNat + i) = BitVec.ofNat 8 ((s.reg d).toNat / 256 ^ i)) ∧
    ∀ u, exec (.ldc z f off) t = .next u → f ≠ 0 → u.reg f = BitVec.ofNat 64 ((s.reg d).toNat % 2 ^ (8 * z.bytes)))

/-- R236, R132: with every load's value taken, every element of its streams read, and every store and atomic acknowledged, `ALIGN` goes on;
before that it waits (that a stream's elements count as loads, R139, is the model's reading, log entry 72).
R227: `PREF` goes on and changes no register, no byte of memory and, but for the charge of a line that it displaces, no CSR. -/
def Obligations.OrderingAndHints : Prop :=
  (∀ (s : State) (sc : Scope),
  ((∀ l ∈ s.cx.loadQ, l.got ≠ none) → (∀ u ∈ s.cx.streamsBefore s.cx.pos, u.halted ≠ none) → s.cx.storeQ = [] → s.cx.unacked = [] → ∃ t, exec (.align sc) s = .next t ∧ Follows (.align sc) s t ∧
    OnlyRegs s t ∧ ∀ r, t.reg r = s.reg r) ∧
  (s.cx.storeQ ≠ [] ∨ s.cx.unacked ≠ [] ∨ (∃ l ∈ s.cx.loadQ, l.got = none) ∨
      (∃ u ∈ s.cx.streamsBefore s.cx.pos, u.halted = none) → ∃ t w, exec (.align sc) s = .next t ∧ t.cx.wait = some w ∧
    w.kind = .align sc ∧ w.limit = s.cc.waitMax ∧ t.cx.pc = s.cx.pc ∧ KeepsAll s t)) ∧
  (∀ (s : State) (l2 : Bool) (a : Reg) (off : BitVec 12),
  ∃ t, exec (.pref l2 a off) s = .next t ∧ Follows (.pref l2 a off) s t ∧ (∀ r, t.reg r = s.reg r) ∧
    (∀ q, q ≠ .wuse → t.readCsr s.cur q = s.readCsr s.cur q) ∧ ∀ p, pagesEnd ≤ p → t.byte p = s.byte p)

/-! ### 09: atomics -/

/-- An atomic whose checks pass enters the store queue with its operation and waits for its old value, and makes the team's
span irrevocable. -/
def Sys2Proof.Machine.AtomicEnters (i : Instr) (s : State) (op : BitVec 3) (m : AtmForm) : Prop :=
  let n := if m.dbl then 8 else 4
  let va := s.reg m.a + BitVec.ofInt 64 m.off.toInt
  ∀ pa e, s.checkAtomic s.cur op va n = .ok pa e → s.cx.storeQ.length < 64 →
    ∃ t y w, exec i s = .next t ∧ t.cx.storeQ = (s.cx.claim m.d).storeQ ++ [y] ∧ t.cx.loadQ = (s.cx.claim m.d).loadQ ∧ y.kind = .atomic op (s.reg m.f) m.d m.ord ∧ y.pa = pa ∧ y.n = n ∧
      y.data = s.reg m.b ∧ y.scope = m.scope ∧ t.cx.wait = some w ∧ w.kind = .atomic va y.pos ∧ Follows i s t ∧ KeepsAll s t ∧
      (s.cur.ctx = 0 → t.cc.irrevocable = true)

/-- R238, R239, R47: each atomic whose checks pass enters the store queue with its operation and waits for its old value, and
makes the team's span irrevocable. -/
def Obligations.AtomicsEnterTheQueue : Prop := ∀ (s : State) (m : AtmForm),
  AtomicEnters (.atmAdd m) s 0 m ∧ AtomicEnters (.atmMin m) s 1 m ∧ AtomicEnters (.atmMax m) s 2 m ∧ AtomicEnters (.atmAnd m) s 3 m ∧
  AtomicEnters (.atmOr m) s 4 m ∧ AtomicEnters (.atmXor m) s 5 m ∧ AtomicEnters (.atmXchg m) s 6 m ∧ AtomicEnters (.atmCas m) s 7 m

/-- R238: the new value of an atomic's location, in words of `n` bytes; a `CAS` that does not match writes nothing.
R131, R238: an atomic at the head of its queue that may be performed reads its location, writes the new value there and
nowhere else, gives the old value, sign-extended, to its destination and leaves the queue. -/
def Obligations.AtomicsPerformed : Prop :=
  (∀ (n old b f : Nat), n = 4 ∨ n = 8 → old < 2 ^ (8 * n) → b < 2 ^ (8 * n) →
  let w := fun (v : Nat) => (BitVec.ofNat (8 * n) v).toInt
  atomicNew 0 n old b f = some ((old + b) % 2 ^ (8 * n)) ∧
  (∃ v, atomicNew 1 n old b f = some v ∧ w v = min (w old) (w b)) ∧
  (∃ v, atomicNew 2 n old b f = some v ∧ w v = max (w old) (w b)) ∧
  atomicNew 3 n old b f = some (old &&& b) ∧ atomicNew 4 n old b f = some (old ||| b) ∧ atomicNew 5 n old b f = some (old ^^^ b) ∧
  atomicNew 6 n old b f = some b ∧
  (old = f → atomicNew 7 n old b f = some b) ∧ (old ≠ f → atomicNew 7 n old b f = none)) ∧
  (∀ (s : State) (c : CoreId) (x : CtxId) (e : StoreEntry) (rest : List StoreEntry)
    (op : BitVec 3) (f : W64) (d : Reg) (o : AtmOrd),
  let k := (s.core c).rollWindow s.now
  let y := k.ctx x
  y.storeQ = e :: rest → e.kind = .atomic op f d o → s.mayLeave ⟨c, x⟩ e = true → k.budgetAllows x = true → pagesEnd ≤ e.pa →
  s.badAt e.pa e.n = none →
  let old := s.readNat e.pa e.n
  ∃ t, exec (.atomicPerform c x) s = .next t ∧ (t.ctx ⟨c, x⟩).storeQ = rest ∧
    (d ≠ 0 → (t.ctx ⟨c, x⟩).reg d = extendN true e.n old) ∧ (∀ r, r ≠ d → (t.ctx ⟨c, x⟩).reg r = y.reg r) ∧
    (∀ a, pagesEnd ≤ a → a < e.pa ∨ e.pa + e.n ≤ a → t.byte a = s.byte a) ∧
    (atomicNew op e.n old (e.data.toNat % 2 ^ (8 * e.n)) (f.toNat % 2 ^ (8 * e.n)) = none → ∀ a, pagesEnd ≤ a → t.byte a = s.byte a) ∧
    (∀ v, atomicNew op e.n old (e.data.toNat % 2 ^ (8 * e.n)) (f.toNat % 2 ^ (8 * e.n)) = some v →
      ∀ i, i < e.n → t.byte (e.pa + i) = BitVec.ofNat 8 (v / 256 ^ i)))

/-! ### 09: Chase counters -/

/-- R241, R242: `CH.SET` and `CH.ADD` of a counter that the context may update enter the store queue; any other counter
raises PROT naming it. Performed, `CH.SET` gives the counter its value, and `CH.ADD` adds the count modulo 2^63 and ORs the
error flag.
R126, R241, R243: `CH.WAIT` of a counter that has reached its threshold gives the counter's value and goes on, no earlier acquire being in
flight; else it waits for it, and ends with the value at the satisfaction.
R244: `BAR` of a multiple outside 1 to 2^40 − 1 is ILLEGAL; an aligned one counts its arrival and waits for the end of the
round that it belongs to; it ends when the counter reaches that. That a stream's unread elements hold it back (R139) is the model's reading,
log entry 72. -/
def Obligations.ChaseCounters : Prop :=
  (∀ (s : State) (n : BitVec 18) (a : Reg),
  (s.mayUpdate s.cx.priv s.cc.job n = false →
    Traps (.chSet n a) s 5 (BitVec.ofNat 64 n.toNat) ∧ Traps (.chAdd n a) s 5 (BitVec.ofNat 64 n.toNat)) ∧
  (s.mayUpdate s.cx.priv s.cc.job n = true → s.cx.storeQ.length < 64 →
    (∃ t y, exec (.chSet n a) s = .next t ∧ t.cx.storeQ = s.cx.storeQ ++ [y] ∧ y.kind = .chSet n ∧ y.data = s.reg a ∧
      Follows (.chSet n a) s t ∧ KeepsAll s t ∧ t.chase = s.chase) ∧
    (∃ t y, exec (.chAdd n a) s = .next t ∧ t.cx.storeQ = s.cx.storeQ ++ [y] ∧ y.kind = .chAdd n ∧ y.data = s.reg a ∧
      Follows (.chAdd n a) s t ∧ KeepsAll s t ∧ t.chase = s.chase)) ∧
  (∀ (c : CoreId) (x : CtxId) (e : StoreEntry) (rest : List StoreEntry),
    (s.ctx ⟨c, x⟩).storeQ = e :: rest → s.mayLeave ⟨c, x⟩ e = true → ((s.core c).rollWindow s.now).budgetAllows x = true →
    s.ctrHeld n = false →
    (e.kind = .chSet n → ∃ t, exec (.storeLeave c x) s = .next t ∧ t.ctr n = e.data ∧ (∀ m, m ≠ n → t.ctr m = s.ctr m) ∧
      (t.ctx ⟨c, x⟩).storeQ = rest) ∧
    (e.kind = .chAdd n → ∃ t, exec (.storeLeave c x) s = .next t ∧
      ctrCount (t.ctr n) = (ctrCount (s.ctr n) + ctrCount e.data) % 2 ^ 63 ∧
      ctrError (t.ctr n) = (ctrError (s.ctr n) || ctrError e.data) ∧ (∀ m, m ≠ n → t.ctr m = s.ctr m) ∧ (t.ctx ⟨c, x⟩).storeQ = rest))) ∧
  (∀ (s : State) (n : BitVec 18) (a : Reg) (lw : LongWait),
  (s.cur.ctx = 0 → s.cc.replayValue = none) →
  (s.mayWait s.cx.priv s.cc.job n = false → Traps (.chWait n a lw) s 5 (BitVec.ofNat 64 n.toNat)) ∧
  (s.mayWait s.cx.priv s.cc.job n = true → s.ctrHeld n = false → ctrSatisfied (s.ctr n) (s.reg a).toNat = true →
    s.cx.acquiring s.cx.pos = false → ∃ t, exec (.chWait n a lw) s = .next t ∧ RegWritten s t a (s.ctr n) ∧ Follows (.chWait n a lw) s t ∧ ∀ b, t.byte b = s.byte b) ∧
  (s.mayWait s.cx.priv s.cc.job n = true → ctrSatisfied (s.ctr n) (s.reg a).toNat = false ∨ s.cx.acquiring s.cx.pos = true →
    ∃ t w, exec (.chWait n a lw) s = .next t ∧ t.cx.wait = some w ∧ w.kind = .chWait n (s.reg a) a ∧ w.limit = lwClk lw ∧
      t.cx.pc = s.cx.pc ∧ KeepsAll s t) ∧
  (∀ c x thr, (s.ctx ⟨c, x⟩).chWaits = some (n, thr, a) → s.ctrHeld n = false → ctrSatisfied (s.ctr n) thr.toNat = true →
    (s.ctx ⟨c, x⟩).acquiring (s.ctx ⟨c, x⟩).pos = false → ∃ t, exec (.chWaitSatisfied c x) s = .next t ∧ (a ≠ 0 → (t.ctx ⟨c, x⟩).reg a = s.ctr n) ∧
      (t.ctx ⟨c, x⟩).pc = (s.ctx ⟨c, x⟩).pc + 8 ∧ (t.ctx ⟨c, x⟩).wait = none ∧ t.chase = s.chase)) ∧
  (∀ (s : State) (n : BitVec 18) (a : Reg) (lw : LongWait),
  let m := (s.reg a).toNat
  (m = 0 ∨ 2 ^ 40 ≤ m → Traps (.bar n a lw) s 1 s.cx.pc) ∧
  (0 < m → m < 2 ^ 40 → s.mayUpdate s.cx.priv s.cc.job n = false → Traps (.bar n a lw) s 5 (BitVec.ofNat 64 n.toNat)) ∧
  (0 < m → m < 2 ^ 40 → s.mayUpdate s.cx.priv s.cc.job n = true → s.cx.aligned = true → s.ctrHeld n = false →
    ∃ t w target, exec (.bar n a lw) s = .next t ∧ ctrCount (t.ctr n) = (ctrCount (s.ctr n) + 1) % 2 ^ 63 ∧
      t.cx.wait = some w ∧ w.kind = .bar n target ∧ w.limit = lwClk lw ∧ target % m = 0 ∧ ctrCount (s.ctr n) < target ∧
      target ≤ ctrCount (s.ctr n) + m ∧ t.cx.pc = s.cx.pc ∧ (∀ r, t.reg r = s.reg r) ∧ ∀ b, t.byte b = s.byte b) ∧
  (∀ c x target, (s.ctx ⟨c, x⟩).barWaits = some (n, target) → s.ctrHeld n = false → ctrSatisfied (s.ctr n) target = true →
    ∃ t, exec (.barRelease c x) s = .next t ∧ (t.ctx ⟨c, x⟩).pc = (s.ctx ⟨c, x⟩).pc + 8 ∧ (t.ctx ⟨c, x⟩).wait = none ∧ t.chase = s.chase))

/-! ### 09: data queues -/

/-- R232: `LDQ` of a count of 0 does nothing; else, outside a replay, it appends a stream where there are fewer than four.
R234, R235, outside a replay: `POPQ` takes the oldest element; with the next element halted it raises that trap; with no
element and no stream, STALL at once, with the queue in TADDR (the model's reading, log entry 76: R234 says TINFO); else it waits.
R233, R139, R358: the access unit loads the next element of the oldest stream of the queue in turn, zero-extended, from the stream's
address, and the stream ends with its last element; a check that fails, or an uncorrectable error, halts the stream there, with CAUSE.UNIT 1
(log entry 13). -/
def Obligations.DataQueues : Prop :=
  (∀ (s : State) (z : Size) (q : BitVec 3) (a b f : Reg), (s.cur.ctx = 0 → s.cc.replay = none) →
  let d := s.cx.queue q
  ((s.reg b).toNat % 2 ^ 32 = 0 → ∃ t, exec (.ldq z q a b f) s = .next t ∧ Follows (.ldq z q a b f) s t ∧ KeepsAll s t ∧
    t.cx.queue q = d) ∧
  ((s.reg b).toNat % 2 ^ 32 ≠ 0 → d.streams.length < 4 → ∃ t y, exec (.ldq z q a b f) s = .next t ∧ Follows (.ldq z q a b f) s t ∧
    KeepsAll s t ∧ (t.cx.queue q).streams = d.streams ++ [y] ∧ y.base = s.reg a ∧ y.count = (s.reg b).toNat % 2 ^ 32 ∧ y.stride = s.reg f ∧
    y.size = z ∧ y.next = 0 ∧ (t.cx.queue q).elems = d.elems ∧ (∀ p, p ≠ q → t.cx.queue p = s.cx.queue p)) ∧
  ((s.reg b).toNat % 2 ^ 32 ≠ 0 → 4 ≤ d.streams.length → exec (.ldq z q a b f) s = .next (s.hold .ldq s.cc.waitMax))) ∧
  (∀ (s : State) (d : Reg) (q : BitVec 3) (lw : LongWait),
  (s.cur.ctx = 0 → s.cc.replayValue = none) →
  let y := s.cx.queue q
  (∀ e rest, y.elems = e :: rest → ∃ t, exec (.popq d q lw) s = .next t ∧ RegWritten s t d e ∧ (t.cx.queue q).elems = rest ∧
    (t.cx.queue q).streams = y.streams ∧ Follows (.popq d q lw) s t ∧ ∀ b, t.byte b = s.byte b) ∧
  (∀ u rest k, y.elems = [] → y.streams = u :: rest → u.halted = some k → exec (.popq d q lw) s = .next (s.raiseNoted s.cur k s.cx.pc)) ∧
  (y.elems = [] → y.streams = [] →
    exec (.popq d q lw) s = .next (s.raise s.cur ⟨0x0C, 0, BitVec.ofNat 64 q.toNat, 3, none⟩ s.cx.pc)) ∧
  (∀ u rest, y.elems = [] → y.streams = u :: rest → u.halted = none → exec (.popq d q lw) s = .next (s.hold (.popq q) (lwClk lw)))) ∧
  (∀ (s : State) (c : CoreId) (x : CtxId) (q : BitVec 3) (u : Stream) (rest : List Stream),
  let y := s.ctx ⟨c, x⟩
  let d := y.queue q
  let va := u.base + BitVec.ofNat 64 u.next * u.stride
  d.streams = u :: rest → s.servesStream c x q = true →
  (∀ pa e, s.checkAccess ⟨c, x⟩ .read va u.size.bytes = .ok pa e → s.loadBad y u.pos pa u.size.bytes = none →
    ∃ t v, exec (.elementLoad c x q) s = .next t ∧ ((t.ctx ⟨c, x⟩).queue q).elems = d.elems ++ [v] ∧
      v = extendN false u.size.bytes (natOfBytes (s.loadBytes y u.pos pa u.size.bytes)) ∧
      (y.storeQ = [] → y.unacked = [] → v = BitVec.ofNat 64 (s.readNat pa u.size.bytes)) ∧
      (u.next + 1 < u.count → ((t.ctx ⟨c, x⟩).queue q).streams = { u with next := u.next + 1 } :: rest) ∧
      (u.count ≤ u.next + 1 → ((t.ctx ⟨c, x⟩).queue q).streams = rest) ∧ (∀ r, (t.ctx ⟨c, x⟩).reg r = y.reg r) ∧
      (t.ctx ⟨c, x⟩).pc = y.pc ∧ ∀ a, pagesEnd ≤ a → t.byte a = s.byte a) ∧
  (∀ pa e p, s.checkAccess ⟨c, x⟩ .read va u.size.bytes = .ok pa e → s.loadBad y u.pos pa u.size.bytes = some p →
    ∃ t, exec (.elementLoad c x q) s = .next t ∧ ((t.ctx ⟨c, x⟩).queue q).elems = d.elems ∧ (t.ctx ⟨c, x⟩).pc = y.pc ∧
      ((t.ctx ⟨c, x⟩).queue q).streams = { u with halted := some ⟨0x07, 1, va, infoPhys p, none⟩ } :: rest) ∧
  (∀ k, s.checkAccess ⟨c, x⟩ .read va u.size.bytes = .trap k → ∃ t, exec (.elementLoad c x q) s = .next t ∧
    ((t.ctx ⟨c, x⟩).queue q).streams = { u with halted := some { k with unit := 1 } } :: rest ∧
    ((t.ctx ⟨c, x⟩).queue q).elems = d.elems ∧ (t.ctx ⟨c, x⟩).pc = y.pc))

/-! ### 02: the write lane and the caches -/

/-- R71: USED falls by BUDGET, not below 0, for each multiple of 4,096 clk that has passed since it last fell. R65, R66, R71: a dirty L1 line that the
budget allows is written back, with none waiting before it, charged, and stays clean; a dirty L2 line becomes clean, and each of its sectors
without an uncorrectable error is raw where it is of class X (R429, R430). No byte of memory changes. -/
def Obligations.WriteLane : Prop := ∀ (s : State) (c : CoreId) (line : BitVec 52),
  (∃ t, exec (.writeBudgetWindow c) s = .next t ∧ (t.core c).window = max (s.core c).window (s.now / 4096) ∧
    bitsN (t.core c).wuse 0 32 = bitsN (s.core c).wuse 0 32 - (s.now / 4096 - (s.core c).window) * bitsN (s.core c).wbud 0 32 ∧ ∀ a, t.byte a = s.byte a) ∧
  (∀ g, ((s.core c).rollWindow s.now).l1.find? (fun e => e.1 == line.toNat) = some (line.toNat, g) → g.dirty = true →
    ((s.core c).rollWindow s.now).budgetAllows 0 = true → (s.core c).wbq = [] → ∃ t, exec (.l1Writeback c line) s = .next t ∧
      FMap.at? (t.core c).l1 line.toNat = some { g with dirty := false } ∧ FMap.at? t.l2 line.toNat = some ⟨true, g.zero, false⟩ ∧
      (t.core c).wuse = (((s.core c).rollWindow s.now).charge (if g.zero then 8 else 128)).wuse ∧ t.mem = s.mem) ∧
  (∀ g, (line.toNat, g) ∈ s.l2 → g.dirty = true → ∃ t, exec (.l2Writeback line) s = .next t ∧
    (∀ e ∈ t.l2, e.1 = line.toNat → e.2.dirty = false) ∧ (pagesEnd ≤ line.toNat * 128 → isHbm (line.toNat * 128) = true → ∀ i, i < 4 → s.sectorBad (line.toNat * 128 + 32 * i) = false →
      FMap.get t.rawSectors false (line.toNat * 4 + i) = (sectorClass (s.readBytes (line.toNat * 128 + 32 * i) 32) == .x)) ∧ t.mem = s.mem)

/-! ### 01, 09: records, the format queue, tokens and stamps, fences, folios -/

/-- With the team context, no replay and a free slot, `i` appends the record of `c` under the pending tokens and stamp, in
state APPENDED with its hash; the tokens and the stamp are cleared, and a signal or a collective makes the span irrevocable
(R19, R20, R32, R47). -/
def Sys2Proof.Machine.Appends (i : Instr) (s : State) (c : Command) (fmt : Option W32) (gen : W16) : Prop :=
  let k := s.cc.retire c.g
  let q := (k.galley c.g).tail
  let p := s.cc.pending
  s.cur.ctx = 0 → s.cc.replay = none → (k.galley c.g).live < 64 →
  ∃ t, exec i s = .next t ∧ (t.cc.galley c.g).tail = q + 1 ∧ (t.cc.slot c.g (slotOf q).val).st = .appended ∧
    (t.cc.slot c.g (slotOf q).val).seq = q ∧ (t.cc.slot c.g (slotOf q).val).fmt = fmt ∧
    (t.cc.slot c.g (slotOf q).val).body = ⟨c.w0, c.w1, c.o0, c.o1, c.o2, c.o3, waitField p.wait, sigField p.signal,
      schedField gen p.stamp, stampField (s.localTime s.cur.core) p.stamp⟩ ∧
    (t.cc.slot c.g (slotOf q).val).hash = (t.cc.slot c.g (slotOf q).val).body.hash ∧
    t.cc.pending = .none ∧ (p.signal.isSome = true ∨ c.g = .k → t.cc.irrevocable = true) ∧ Follows i s t ∧ KeepsAll s t

/-- A vector command whose tile slots resolve and whose checks pass appends its record; where a slot does not resolve, or in a
light context, it is ILLEGAL. -/
def Sys2Proof.Machine.VAppends (i : Instr) (s : State) (fn : VFn) (f : Reg) (op : BitVec 8) (v : VForm) (o0 o1 : W64) : Prop :=
  (s.cur.ctx ≠ 0 → Traps i s 1 s.cx.pc) ∧ (s.cur.ctx = 0 → s.cc.resolveV fn v = none → Traps i s 1 s.cx.pc) ∧
  ∀ r, s.cc.resolveV fn v = some r → (VCmd.mk fn r (f.toNat / 8) o0 o1 s.cc.vw).legal = true →
    (fn.isMem = true → o0.toNat % 128 = 0 ∧ o1.toNat % 128 = 0) →
    Appends i s ⟨.v, packD f r.b r.a r.d op, packV r, o0, o1, 0, s.cc.vw⟩ none 0

/-- R185, R186, R259, R260: every vector command, with its primary, its function code and the operand values it captures. Its stage
generation 0 is the model's reading (log entry 33: R19 gives the field to every record). -/
def Obligations.VectorAppends : Prop := ∀ (s : State) (v : VForm) (slot : BitVec 3),
  let x := s.reg v.a
  let y := s.reg v.b
  VAppends (.vadd v) s .add 0 0xE0 v 0 0 ∧ VAppends (.vsub v) s .sub 1 0xE0 v 0 0 ∧ VAppends (.vmul v) s .mul 2 0xE0 v 0 0 ∧
  VAppends (.vfma v) s .fma 3 0xE0 v 0 0 ∧ VAppends (.vmin v) s .min 4 0xE0 v 0 0 ∧ VAppends (.vmax v) s .max 5 0xE0 v 0 0 ∧
  VAppends (.vabs v) s .abs 6 0xE0 v 0 0 ∧ VAppends (.vneg v) s .neg 7 0xE0 v 0 0 ∧ VAppends (.vand v) s .and 8 0xE0 v 0 0 ∧
  VAppends (.vor v) s .or 9 0xE0 v 0 0 ∧ VAppends (.vxor v) s .xor 10 0xE0 v 0 0 ∧ VAppends (.vshl v) s .shl 11 0xE0 v 0 y ∧
  VAppends (.vshr v) s .shr 12 0xE0 v 0 y ∧ VAppends (.viadd v) s .iadd 13 0xE0 v 0 0 ∧ VAppends (.vimul v) s .imul 14 0xE0 v 0 0 ∧
  VAppends (.vcmp v) s .cmp 15 0xE0 v 0 0 ∧ VAppends (.vsel v) s .sel 16 0xE0 v 0 0 ∧ VAppends (.vshuf v) s .shuf 17 0xE0 v 0 0 ∧
  VAppends (.vbcast v) s .bcast 18 0xE0 v 0 y ∧ VAppends (.vmovs v) s .movs 19 0xE0 v x 0 ∧ VAppends (.vred v) s .red 20 0xE0 v 0 0 ∧
  VAppends (.vexp2 v) s .exp2 21 0xE0 v 0 0 ∧ VAppends (.vlog2 v) s .log2 22 0xE0 v 0 0 ∧ VAppends (.vrcp v) s .rcp 23 0xE0 v 0 0 ∧
  VAppends (.vrsq v) s .rsq 24 0xE0 v 0 0 ∧ VAppends (.vcvt v) s .cvt 25 0xE0 v 0 0 ∧ VAppends (.vqnt v) s .qnt 26 0xE0 v 0 0 ∧
  VAppends (.vdqnt v) s .dqnt 27 0xE0 v 0 0 ∧ VAppends (.vamul v slot) s .amul (slot ++ (0 : BitVec 3)) 0xE1 v 0 0 ∧
  VAppends (.vconj v slot) s .conj (slot ++ (1 : BitVec 3)) 0xE1 v 0 0 ∧ VAppends (.vnorm v slot) s .norm (slot ++ (2 : BitVec 3)) 0xE1 v 0 0 ∧
  VAppends (.vld v) s .ld 0 0xE2 v x y ∧ VAppends (.vst v) s .st 0 0xE3 v x y

/-- R191, R282, R286, R289, R292: the commands of the M galley. A product claims the oldest unclaimed format word, and raises
FMTQ without one. -/
def Obligations.MatrixAppends : Prop := ∀ (s : State) (m r : MmaForm) (v : MvForm) (d a slot : BitVec 3) (ra t : Reg) (code : BitVec 2) (w : W32),
  let g := s.cc.sgen
  let val := fun (src : Bool) (n : Reg) => if src then s.reg n else 0
  let x := s.reg v.a
  let y := s.reg v.b
  let hi := if v.pair then s.reg (v.a + 1) else y
  (s.cc.resolveM m = some r → s.cc.checkMma s.cx.pc r (val m.srca m.a) (val m.srca (m.a + 1)) (val m.srcb m.b) (val m.srcb (m.b + 1)) = .ok w →
    Appends (.mma m) s ⟨.m, packD 0 r.b r.a 0 0xF0, packM r, val m.srca m.a, val m.srca (m.a + 1), val m.srcb m.b, val m.srcb (m.b + 1)⟩ (some w) g ∧
    Appends (.mmaz m) s ⟨.m, packD 0 r.b r.a 0 0xF1, packM r, val m.srca m.a, val m.srca (m.a + 1), val m.srcb m.b, val m.srcb (m.b + 1)⟩ (some w) g) ∧
  (s.cur.ctx = 0 → s.cc.replay = none → s.cc.resolveM m = some r → s.cc.unclaimed? = none →
    Traps (.mma m) s 0x10 0 ∧ Traps (.mmaz m) s 0x10 0) ∧
  Appends (.amov d a) s ⟨.m, packD 0 0 (six a) (six d) 0xF2, 0, 0, 0, 0, 0⟩ none g ∧
  Appends (.azero d) s ⟨.m, packD 0 0 0 (six d) 0xF3, 0, 0, 0, 0, 0⟩ none g ∧
  (s.cc.resolveTile v.a = some t → Appends (.amovT v) s (mvCommand 1 0xF2 { v with a := t } 0 0) none g) ∧
  (x.toNat % 128 = 0 → y.toNat % 128 = 0 →
    Appends (.ald v) s (mvCommand 0 0xF4 v x y) none g ∧ Appends (.ast v) s (mvCommand 0 0xF5 v x y) none g) ∧
  (s.cc.resolveTile v.d = some t → (v.pair = true → s.cc.checkPair s.cx.pc x hi false v.n = none) →
    (v.pair = false → x.toNat % 128 = 0 ∧ y.toNat % 128 = 0) → Appends (.tld v) s (mvCommand 0 0xF6 { v with d := t } x hi) none g) ∧
  (s.cc.resolveTile v.d = some t → (v.pair = true → s.cc.checkPair s.cx.pc x hi true v.n = none) →
    (v.pair = false → x.toNat % 128 = 0 ∧ y.toNat % 128 = 0) → Appends (.tst v) s (mvCommand 0 0xF7 { v with d := t } x hi) none g) ∧
  ((s.reg ra).toNat % 64 = 0 → Appends (.lig slot ra code) s ⟨.m, packD 0 0 ra (six slot) 0xF8, (0 : BitVec 30) ++ code, s.reg ra, 0, 0, 0⟩ none g) ∧
  (s.cur.ctx ≠ 0 → ∀ i ∈ [Instr.mma m, .mmaz m, .amov d a, .amovT v, .azero d, .ald v, .ast v, .tld v, .tst v, .lig slot ra code],
    Traps i s 1 s.cx.pc)

/-- R300, R301, R296: the commands of the X galley whose checks pass; `STG.REL` also takes the next stage generation.
R305, R307: the commands of the K galley for a group of the job's grant; another group number raises PROT naming it. The stage generation 0
of both is the model's reading (log entry 33). -/
def Obligations.CopyAndCollectiveAppends : Prop :=
  (∀ (s : State) (d a b f : Reg) (dps sps : BitVec 16) (ix : Bool),
  let D := s.reg d
  let A := s.reg a
  let B := s.reg b
  let F := s.reg f
  let w := (0 : BitVec 31) ++ BitVec.ofBool ix
  let ok := fun (op : Nat) (a b f : W64) (w1 : W32) => (CopyCmd.mk op D a b f w1).check s.cx.pc = none
  (ok 0xE8 A B 0 0 → Appends (.cpy d a b) s ⟨.x, packD 0 b a d 0xE8, 0, D, A, B, 0⟩ none 0) ∧
  (ok 0xE9 A B F 0 → Appends (.cpy2d d a b f) s ⟨.x, packD f b a d 0xE9, 0, D, A, B, F⟩ none 0) ∧
  (ok 0xEA A B F (dps ++ sps) → Appends (.cpy3d d a b f dps sps) s ⟨.x, packD f b a d 0xEA, dps ++ sps, D, A, B, F⟩ none 0) ∧
  (ok 0xEB A B F w → Appends (.gath ix d a b f) s ⟨.x, packD f b a d 0xEB, w, D, A, B, F⟩ none 0) ∧
  (ok 0xEC A B F w → Appends (.scat ix d a b f) s ⟨.x, packD f b a d 0xEC, w, D, A, B, F⟩ none 0) ∧
  (ok 0xED 0 B F 0 → Appends (.fill d b f) s ⟨.x, packD f b 0 d 0xED, 0, D, 0, B, F⟩ none 0) ∧
  (ok 0xEE 0 B 0 0 → Appends (.zero d b) s ⟨.x, packD 0 b 0 d 0xEE, 0, D, 0, B, 0⟩ none 0) ∧
  (A.toNat % 0x1_0000 = 0 → B.toNat % 0x1_0000 = 0 → B ≠ 0 → A.toNat + B.toNat ≤ s.cc.windowBytes →
    (s.cc.retire .m).wrapGuard (s.cc.sgen + 1) = false →
    Appends (.stgRel a b) s ⟨.x, packD 0 b a 0 0xEF, 0, A, B, 0, 0⟩ none (s.cc.sgen + 1) ∧
    (s.cur.ctx = 0 → s.cc.replay = none → ((s.cc.retire .x).galley .x).live < 64 →
      ∃ t, exec (.stgRel a b) s = .next t ∧ t.cc.sgen = s.cc.sgen + 1)) ∧
  (s.cur.ctx = 0 → A.toNat % 0x1_0000 ≠ 0 → Traps (.stgRel a b) s 3 A) ∧
  (s.cur.ctx ≠ 0 → ∀ i ∈ [Instr.cpy d a b, .cpy2d d a b f, .cpy3d d a b f dps sps, .gath ix d a b f, .scat ix d a b f, .fill d b f,
    .zero d b, .stgRel a b], Traps i s 1 s.cx.pc)) ∧
  (∀ (s : State) (a b : Reg),
  let A := s.reg a
  let B := s.reg b
  (s.ownsGroup s.cc.job B = true → A.toNat % 64 = 0 → Appends (.agrp a b) s ⟨.k, packD 0 b a 0 0xFA, 0, A, B, 0, 0⟩ none 0) ∧
  (s.ownsGroup s.cc.job A = true →
    Appends (.mclr a) s ⟨.k, packD 0 0 a 0 0xFB, 0, A, 0, 0, 0⟩ none 0 ∧
    Appends (.mcst a b) s ⟨.k, packD 0 b a 0 0xFC, 0, A, B, 0, 0⟩ none 0) ∧
  (s.cur.ctx = 0 → s.ownsGroup s.cc.job B = false → Traps (.agrp a b) s 5 B) ∧
  (s.cur.ctx = 0 → s.ownsGroup s.cc.job B = true → A.toNat % 64 ≠ 0 → Traps (.agrp a b) s 3 A) ∧
  (s.cur.ctx = 0 → s.ownsGroup s.cc.job A = false → Traps (.mclr a) s 5 A ∧ Traps (.mcst a b) s 5 A) ∧
  (s.cur.ctx ≠ 0 → ∀ i ∈ [Instr.agrp a b, .mclr a, .mcst a b], Traps i s 1 s.cx.pc))

/-- R101, R290, R245, R246: outside a replay, `FMT` pushes a legal word behind the others; `TOK` sets both pending tokens where
their counters may be used, and `STAMP` the pending stamp.
R19, R137, R237: a fence, outside a replay, puts a marker with its own words into each galley that it names and waits; it goes
on when every marker has reached its galley's head (`FENCE`), or every record before it is DONE (`FENCE.DONE`), and the context's
loads and stores are settled, the elements of its streams with them (R139 makes them loads; the model's reading, log entry 72). -/
def Obligations.FormatTokenStampAndFences : Prop :=
  (∀ (s : State) (a : Reg) (x : TokForm) (quoin : BitVec 12),
  let w : W32 := (s.reg a).setWidth 32
  let q := (s.cc.retire .m).fmtQ
  let thr := s.reg x.a
  (s.cur.ctx = 0 → fmtLegal w = true → s.cc.replay = none →
    (q.length < 16 → ∃ t, exec (.fmt a) s = .next t ∧ t.cc.fmtQ = q ++ [⟨w, s.cc.fmtPush, false⟩] ∧ t.cc.fmtPush = s.cc.fmtPush + 1 ∧
      Follows (.fmt a) s t ∧ KeepsAll s t) ∧
    (16 ≤ q.length → ∃ t y, exec (.fmt a) s = .next t ∧ t.cx.wait = some y ∧ y.kind = .fmt ∧ t.cx.pc = s.cx.pc ∧ KeepsAll s t)) ∧
  (fmtLegal w = false ∨ s.cur.ctx ≠ 0 → Traps (.fmt a) s 1 s.cx.pc) ∧
  (s.cur.ctx = 0 → (x.wv = true → thr.toNat < 2 ^ 40 ∧ s.mayWait s.cx.priv s.cc.job x.wctr = true) →
    (x.sv = true → s.mayUpdate s.cx.priv s.cc.job x.sctr = true) →
    ∃ t, exec (.tok x) s = .next t ∧ t.cc.pending = ⟨if x.wv then some (x.wctr, thr.setWidth 40) else none,
      if x.sv then some (x.sctr, x.inc) else none, s.cc.pending.stamp⟩ ∧ Follows (.tok x) s t ∧ KeepsAll s t) ∧
  (s.cur.ctx = 0 → x.wv = true → thr.toNat < 2 ^ 40 → s.mayWait s.cx.priv s.cc.job x.wctr = false →
    Traps (.tok x) s 5 (BitVec.ofNat 64 x.wctr.toNat)) ∧
  (s.cur.ctx = 0 →
    (∃ t, exec .stampClr s = .next t ∧ t.cc.pending = { s.cc.pending with stamp := none } ∧ Follows .stampClr s t ∧ KeepsAll s t) ∧
    (∃ t, exec (.stampAbs a quoin) s = .next t ∧ t.cc.pending = { s.cc.pending with stamp := some ⟨false, s.reg a, quoin⟩ } ∧
      Follows (.stampAbs a quoin) s t ∧ KeepsAll s t) ∧
    (∃ t, exec (.stampOff a quoin) s = .next t ∧ t.cc.pending = { s.cc.pending with stamp := some ⟨true, s.reg a, quoin⟩ } ∧
      Follows (.stampOff a quoin) s t ∧ KeepsAll s t)) ∧
  (s.cur.ctx ≠ 0 → ∀ i ∈ [Instr.tok x, .stampClr, .stampAbs a quoin, .stampOff a quoin], Traps i s 1 s.cx.pc)) ∧
  (∀ (s : State) (mask : BitVec 4) (lw : LongWait) (done : Bool),
  let i : Instr := if done then .fenceDone mask lw else .fence mask lw
  let rec_ := markerRecord (packD 0 0 0 ((0 : BitVec 2) ++ mask) (if done then 0xCB else 0xCA)) (packLW lw)
  (s.cx.wait = none → mask = 0 → s.cx.aligned = true → ∃ t, exec i s = .next t ∧ Follows i s t ∧ KeepsAll s t) ∧
  (s.cur.ctx ≠ 0 → mask ≠ 0 → Traps i s 1 s.cx.pc) ∧
  (s.cur.ctx = 0 → s.cx.wait = none → s.cc.replay = none → mask ≠ 0 →
    (∀ g, maskHas mask g = true → ((s.cc.retire g).galley g).live < 64) →
    ∃ t, exec i s = .next t ∧ KeepsAll s t ∧ (done = false → t.cx.pc = s.cx.pc ∧ ∃ w, t.cx.wait = some w ∧ w.limit = lwClk lw) ∧
      (∀ g, maskHas mask g = true → (t.cc.galley g).tail = (s.cc.galley g).tail + 1 ∧
        (t.cc.slot g (slotOf (s.cc.galley g).tail).val).body = rec_ ∧ (t.cc.slot g (slotOf (s.cc.galley g).tail).val).st = .appended) ∧
      (∀ g, maskHas mask g = false → t.cc.galley g = s.cc.galley g)) ∧
  (∀ w b m v x k, s.cur.ctx = 0 → s.cx.wait = some w → w.kind = .fence b m v x k → s.cx.aligned = true →
    (∀ q, m = some q → (if done then s.cc.galM.doneBefore q else s.cc.galM.reached q) = true) →
    (∀ q, v = some q → (if done then s.cc.galV.doneBefore q else s.cc.galV.reached q) = true) →
    (∀ q, x = some q → (if done then s.cc.galX.doneBefore q else s.cc.galX.reached q) = true) →
    (∀ q, k = some q → (if done then s.cc.galK.doneBefore q else s.cc.galK.reached q) = true) →
    ∃ t, exec i s = .next t ∧ Follows i s t ∧ KeepsAll s t))

/-- R247, R248, R36: a `DLV` whose checks pass waits for its target with the payload it read; the checks' first failures trap. The
target takes it or refuses it with FOLIO: the payload is written to its places and nowhere else, the sender goes on, and the
handler starts in a dormant light context, in user mode, with the payload's address and length and the sender in s1 to s3; a target in a
power state first leaves it (R453). That the wait for earlier loads takes in a stream's elements (R139) is the model's reading, log entry
72. -/
def Obligations.FolioDelivery : Prop := ∀ (s : State) (d a b f : Reg) (lw : LongWait),
  let n := (s.reg b).toNat
  let h := s.reg f
  let who := (s.reg (d + 1)).toNat
  let target := coreOfNat (who % 256)
  (n = 0 ∨ 4096 < n → Traps (.dlv d a b f lw) s 1 s.cx.pc) ∧
  (0 < n → n ≤ 4096 → h.toNat % 4 ≠ 0 → Traps (.dlv d a b f lw) s 3 h) ∧
  (0 < n → n ≤ 4096 → h.toNat % 4 = 0 → 256 ≤ who ∨ (s.core target).disabled = true → Traps (.dlv d a b f lw) s 0x15 2) ∧
  (∀ src runs, 0 < n → n ≤ 4096 → h.toNat % 4 = 0 → who < 256 → (s.core target).disabled = false →
    s.checkSource s.cur (s.reg a) n = .ok src → s.checkTarget s.cur target (s.reg d) n = .ok runs → s.cx.aligned = true →
    ∃ t w, exec (.dlv d a b f lw) s = .next t ∧ t.cx.wait = some w ∧
      w.kind = .dlv target ⟨s.reg d, n, h, s.cur.core, s.cc.job⟩ (s.readRuns src) runs s.now ∧ w.limit = lwClk lw ∧ t.cx.pc = s.cx.pc ∧
      (∀ r, t.reg r = s.reg r) ∧ ∀ i, pagesEnd ≤ i → t.byte i = s.byte i) ∧
  (∀ (c : CoreId) (r : CtxRef) (rest : List CtxRef) (fo : Folio) (data : List Byte) (runs : List (Nat × Nat)),
    (s.senders c).filter (s.folioPasses c) = r :: rest → (s.ctx r).delivers c = some (fo, data, runs) →
    (s.powered c = false → exec (.folioArrival c) s = .next (s.wakeFor c)) ∧
    (s.powered c = true → (s.core c).takesFolio fo.job = false →
      exec (.folioArrival c) s = .next (s.raise r ⟨0x15, 0, 1, 0, none⟩ (s.ctx r).pc)) ∧
    (∀ x xs, s.powered c = true → (s.core c).takesFolio fo.job = true → (s.core c).folioLights = x :: xs → (s.core c).folioQ = [] →
      ∃ t, exec (.folioArrival c) s = .next t ∧ (t.ctx r).pc = (s.ctx r).pc + 8 ∧ (t.ctx r).wait = none ∧
        (t.ctx ⟨c, x⟩).run = .running ∧ (t.ctx ⟨c, x⟩).priv = false ∧ (t.ctx ⟨c, x⟩).pc = fo.handler ∧ (t.ctx ⟨c, x⟩).role = .folio fo ∧
        (t.ctx ⟨c, x⟩).reg 1 = fo.addr ∧ (t.ctx ⟨c, x⟩).reg 2 = BitVec.ofNat 64 fo.len ∧
        (t.ctx ⟨c, x⟩).reg 3 = BitVec.ofNat 64 fo.sender.val ∧ (∀ q, q ≠ 1 → q ≠ 2 → q ≠ 3 → (t.ctx ⟨c, x⟩).reg q = 0) ∧
        (∀ i, (∀ p ∈ runs, i < p.1 ∨ p.1 + p.2 ≤ i) → t.byte i = s.byte i) ∧
        (∀ pa, runs = [(pa, data.length)] → pagesEnd ≤ pa → t.readBytes pa data.length = data))) ∧
  (∀ (c : CoreId) (fo : Folio) (rest : List Folio) (x : CtxId) (xs : List CtxId), (s.core c).folioQ = fo :: rest →
    (s.core c).folioLights = x :: xs → ∃ t, exec (.folioStart c) s = .next t ∧ (t.core c).folioQ = rest ∧
      (t.ctx ⟨c, x⟩).run = .running ∧ (t.ctx ⟨c, x⟩).pc = fo.handler ∧ (t.ctx ⟨c, x⟩).role = .folio fo ∧
      (t.ctx ⟨c, x⟩).reg 1 = fo.addr ∧ ∀ i, t.byte i = s.byte i)

/-- R249, R250, R251, R445, R415: an aligned `CANCEL` of an instance of the job goes to the scheduler that owns it, which takes it as the
links have permits; until then it waits (that it has no longest wait, and what aligned counts, are the model's reading, log entry 59 and
log entry 72). `PWR.ACQ` of a level that fits opens the region at once, another waits; `PWR.REL` closes it; the manager grants the oldest
request that fits.
R325-R327, R73: a context that serves no trap and whose wait has passed its longest wait is trapped: STALL naming the queue,
the counter, the galleys' mask or the address; WLANE where a store found its queue full. TEPC is the waiting instruction, or, of a
`BAR`, the next one. That a wait on a pending load's register reports the load's address is the model's reading (log entry 17). A wait that
has not passed its limit goes on. -/
def Obligations.CancelPowerAndStalls : Prop :=
  (∀ (s : State) (l : Level) (a : Reg) (lvl : BitVec 4) (lw : LongWait),
  let cl := coreCluster s.cur.core
  let named : BitVec 24 := (s.reg a).setWidth 24
  let num := if named = 0 then s.ownInstance l else named
  let mayHave := s.cc.regionOpen = true ∧ lvl.toNat ≤ s.cc.regionLevel ∨
    (s.cluster cl).regionQ = [] ∧ s.regionSum cl s.cur.core + lvl.toNat ≤ s.table.cap
  (s.foreign l num s.cc.job = true → Traps (.cancel l a) s 5 (s.reg a)) ∧
  (s.foreign l num s.cc.job = false → s.cx.aligned = true →
    (∀ d, s.cancelOwner l num s.cc.job = some d → s.mayRequest s.cur.core d = true → ∃ t, exec (.cancel l a) s = .next t ∧
      Follows (.cancel l a) s t ∧ KeepsAll s t ∧ (t.die d).cancels = (s.die d).cancels ++ [(l, num, s.cc.job)]) ∧
    (∀ d, s.cancelOwner l num s.cc.job = some d → s.mayRequest s.cur.core d = false → ∃ t, exec (.cancel l a) s = .next t ∧
      t.cx.pc = s.cx.pc ∧ t.cx.wait = none ∧ t.dies = s.dies ∧ KeepsAll s t) ∧
    (s.cancelOwner l num s.cc.job = none → ∃ t, exec (.cancel l a) s = .next t ∧ Follows (.cancel l a) s t ∧ KeepsAll s t ∧
      t.dies = s.dies)) ∧
  (s.cur.ctx = 0 →
    (mayHave → ∃ t, exec (.pwrAcq lvl lw) s = .next t ∧ t.cc.pwrl = BitVec.ofNat 64 (16 + lvl.toNat) ∧ Follows (.pwrAcq lvl lw) s t ∧
      (∀ r, t.reg r = s.reg r) ∧ ∀ i, t.byte i = s.byte i) ∧
    (¬ mayHave → ∃ t w, exec (.pwrAcq lvl lw) s = .next t ∧ t.cx.wait = some w ∧ w.kind = .pwr lvl ∧ w.limit = lwClk lw ∧
      t.cx.pc = s.cx.pc ∧ (t.cluster cl).regionQ.any (fun e => e.1 == s.cur.core) = true ∧ KeepsAll s t) ∧
    (∃ t, exec .pwrRel s = .next t ∧ t.cc.pwrl = 0 ∧ Follows .pwrRel s t ∧ (∀ r, t.reg r = s.reg r) ∧ ∀ i, t.byte i = s.byte i)) ∧
  (s.cur.ctx ≠ 0 → Traps (.pwrAcq lvl lw) s 1 s.cx.pc ∧ Traps .pwrRel s 1 s.cx.pc) ∧
  (∀ (m : ClusterId) (c : CoreId) (v : BitVec 4) (rest : List (CoreId × BitVec 4)) (r : Resident),
    (s.cluster m).regionQ.filter s.regionAsked = (c, v) :: rest → s.regionFits c v.toNat = true → (s.core c).team = some r →
    r.state ≠ .loading → ∃ t, exec (.regionGrant m) s = .next t ∧ (t.core c).pwrl = BitVec.ofNat 64 (16 + v.toNat) ∧
      (t.cluster m).regionQ = rest ∧ (t.ctx ⟨c, 0⟩).pc = (s.ctx ⟨c, 0⟩).pc + 8 ∧ (t.ctx ⟨c, 0⟩).wait = none)) ∧
  (∀ (s : State) (c : CoreId) (x : CtxId) (w : Wait),
  let y := s.ctx ⟨c, x⟩
  let ends := fun (code : Nat) (name tepc : W64) =>
    ∃ t, exec (.stall c x) s = .next t ∧ (t.ctx ⟨c, x⟩).run = .trapped ∧ (t.ctx ⟨c, x⟩).cause.toNat % 256 = code ∧
      (t.ctx ⟨c, x⟩).taddr = name ∧ (t.ctx ⟨c, x⟩).tepc = tepc &&& ~~~3 ∧ ∀ r, (t.ctx ⟨c, x⟩).reg r = y.reg r
  y.wait = some w → y.run = .running → y.role = .none →
  (w.count ≤ w.limit * 16 → exec (.stall c x) s = .next s) ∧
  (w.limit * 16 < w.count →
    (∀ q, w.kind = .popq q → ends 0x0C (BitVec.ofNat 64 q.toNat) y.pc) ∧
    (∀ n thr d, w.kind = .chWait n thr d → ends 0x0C (BitVec.ofNat 64 n.toNat) y.pc) ∧
    (∀ n target, w.kind = .bar n target → ends 0x0C (BitVec.ofNat 64 n.toNat) (y.pc + 8)) ∧
    (∀ va p, w.kind = .reg va ∨ w.kind = .atomic va p ∨ w.kind = .acquire va p → ends 0x0C va y.pc) ∧
    (∀ sc, w.kind = .align sc → ends 0x0C y.oldestStore y.pc) ∧
    (∀ target f p r sent, w.kind = .dlv target f p r sent → ends 0x0C (BitVec.ofNat 64 target.val) y.pc) ∧
    (∀ lvl, w.kind = .pwr lvl → ends 0x0C 0 y.pc) ∧ (w.kind = .fmt ∨ w.kind = .ldq ∨ w.kind = .stgRel → ends 0x0C 0 y.pc) ∧
    (∀ g, w.kind = .galley g → ends 0x0C (BitVec.ofNat 64 (2 ^ (galleyCode g).toNat)) y.pc) ∧
    (∀ va, w.kind = .storeFull va → ends 0x0F va y.pc)))

/-! ### 10, 11: rows, K-steps, units -/

/-- R254, R255, R261-R263, R266: the integer lanes of a vector command, as numbers of the lane's width; where the command acts lane
by lane, lanes beyond the active ones keep what the destination row held.
R24, R94-R96, R270-R272: one row of an ISSUED vector command. A row that produces no NaN, or any row under NANOFF, is written to
its destination and to no other row, with the mark; else the record parks with NAN at the row and byte column (its trap stands last where
no other has been raised on this clk, R321). `VLD` writes the
bytes at the row's address, `VST` stores them there and nowhere else. -/
def Obligations.VectorWork : Prop :=
  (∀ (c : VCmd) (k : Core) (t : LigTable) (j i : Nat),
  let n := laneBytes c.v.ty
  let M := 2 ^ (8 * n)
  let a := laneOf (k.tile c.v.a.toNat (c.arow j 0)) n i
  let b := laneOf (k.tile c.v.b.toNat (c.brow j)) n i
  let d := laneOf (k.tile c.v.d.toNat (c.drow j)) n i
  let z := fun (x : Nat) => (BitVec.ofNat (8 * n) x).toInt
  let gives := fun (x : Nat) => (c.lane k j i) = ⟨x, 0, false⟩
  (c.fn = .and → gives (a &&& b)) ∧ (c.fn = .or → gives (a ||| b)) ∧ (c.fn = .xor → gives (a ^^^ b)) ∧
  (c.fn = .sel → gives (if M / 2 ≤ d then a else b)) ∧
  (c.v.ty = .i8 ∨ c.v.ty = .i32 →
    (c.fn = .iadd → gives ((a + b) % M)) ∧ (c.fn = .imul → gives (a * b % M)) ∧
    (c.fn = .min → gives (if z a < z b then a else b)) ∧ (c.fn = .max → gives (if z a < z b then b else a)) ∧
    (c.fn = .neg → gives ((M - a) % M)) ∧ (c.fn = .shl → gives (a * 2 ^ c.o1.toNat % M)) ∧
    (c.fn = .cmp → c.v.mode = 0 → gives (if a = b then M - 1 else 0)) ∧
    (c.fn = .cmp → c.v.mode = 1 → gives (if z a < z b then M - 1 else 0)) ∧
    (c.fn = .cmp → c.v.mode = 2 → gives (if z a ≤ z b then M - 1 else 0)) ∧
    (c.fn = .cmp → c.v.mode = 3 → gives (if a = b then 0 else M - 1))) ∧
  (c.fn ≠ .red → c.fn ≠ .qnt → c.fn ≠ .dqnt → c.fn.isAlg = false → i < lanesOf c.v.ty →
    laneOf (c.step k t j).row n i = if i < c.active then (c.lane k j i).bits % M else d)) ∧
  (∀ (s : State) (c : CoreId) (i : SlotId) (y : Slot) (cmd : VCmd),
  let k := s.core c
  let j := y.prog.toNat
  let r := cmd.step k (y.lig.getD ligReal) j
  let off := (k.ctx 0).fpx.getLsbD 8
  let key := cmd.v.d.toNat * 64 + cmd.drow j
  let marked := fun (t : State) => ((t.core c).slot .v i.val).prog.toNat = j + 1 ∧ ((t.core c).slot .v i.val).markValid = true ∧
    ((t.core c).slot .v i.val).st = .issued ∧ (∀ x q, (t.ctx ⟨c, x⟩).reg q = (s.ctx ⟨c, x⟩).reg q) ∧ (t.ctx ⟨c, 0⟩).fpx = (s.ctx ⟨c, 0⟩).fpx
  k.issued? .v i = some y → y.vcmd = some cmd → j < cmd.v.n → k.trapClk ≠ s.now →
  (cmd.fn.isMem = false → cmd.oneUnit = false →
    (r.scale = none → r.nan = none ∨ off = true → ∃ t, exec (.rowStep c i) s = .next t ∧ (t.core c).tile cmd.v.d.toNat (cmd.drow j) = r.row ∧
      (∀ a b, a * 64 + b ≠ key → (t.core c).tile a b = k.tile a b) ∧ marked t ∧
      ((t.core c).slot .v i.val).sealedFlags = (y.sealedFlags ||| r.flags) ∧ ∀ p, t.byte p = s.byte p) ∧
    (∀ n, r.nan = some n → off = false → ∃ t, exec (.rowStep c i) s = .next t ∧ ((t.core c).slot .v i.val).st = .parked ∧
      ((t.core c).slot .v i.val).prog = y.prog ∧ (t.core c).traps = k.traps ++ [y.trapAt .v 8 0 n (cmd.drow j) 0] ∧
      (∀ a b, (t.core c).tile a b = k.tile a b) ∧ ∀ p, t.byte p = s.byte p)) ∧
  (cmd.fn = .ld → ∀ pa e, s.engineCheck c .v i .read (rowAddr cmd.o0 cmd.o1 j) 128 = .ok pa e →
    ∃ t, exec (.rowStep c i) s = .next t ∧ (t.core c).tile cmd.v.d.toNat (cmd.drow j) = BitVec.ofNat 1024 (natOfBytes (s.readBytes pa 128)) ∧
      (∀ a b, a * 64 + b ≠ key → (t.core c).tile a b = k.tile a b) ∧ marked t ∧ ∀ p, pagesEnd ≤ p → t.byte p = s.byte p) ∧
  (cmd.fn = .st → ∀ pa e, s.engineCheck c .v i .write (rowAddr cmd.o0 cmd.o1 j) 128 = .ok pa e →
    (s.modCore c fun x => x.rollWindow s.now).pinned pa 128 = false → (k.rollWindow s.now).laneOpen = true →
    ∃ t, exec (.rowStep c i) s = .next t ∧ marked t ∧ (∀ a b, (t.core c).tile a b = k.tile a b) ∧
      (∀ p, pagesEnd ≤ p → p < pa ∨ pa + 128 ≤ p → t.byte p = s.byte p) ∧
      (pagesEnd ≤ pa → ∀ n, n < 128 → t.byte (pa + n) = BitVec.ofNat 8 ((k.tile cmd.v.d.toNat (cmd.drow j)).toNat / 256 ^ n))))

/-- R25, R95, R102, R103, R106, R283: a K-step adds each output element's group to its working column, or parks with NAN at the lowest row; it
changes no visible and no proof row. A K-step whose residue check fails asks for the engine's reset, and at its second failure parks with
RESIDUE; the group is not added. A proof step copies the working rows to the proof bank and sets the mark.
R102, R103: an output element's group is the products of its K-step, each real one a product of two operand elements; its sum is
added once to the working value, each term truncated toward zero at 40 bits below the largest, whatever the order of the terms.
R105: an error in the tree's sum or in the rounding adder's that is no multiple of 127 is found.
R296, R300, R303: a unit of a copy command, of the X galley or of a DATA packet, whose checks pass, and which budget and pins let
through, writes the bytes that it reads, or read ahead, or a fill's pattern, at its places and nowhere else, and sets the mark; that of
`STG.REL` releases its stages. -/
def Obligations.MatrixAndCopySteps : Prop := (∀ (s : State) (c : CoreId) (i : SlotId) (y : Slot) (w : W32) (t0 : LigTable) (sh : Shape),
  let k := s.core c
  let acc := y.accWritten.getD 0
  let off := (k.ctx 0).fpx.getLsbD 8
  let slot := fun (t : State) => (t.core c).slot .m i.val
  let parks := fun (i' : Instr) (code row col : Nat) => ∃ t, exec i' s = .next t ∧ (slot t).st = .parked ∧ (slot t).prog = y.prog ∧
    (t.core c).traps = k.traps ++ [y.trapAt .m (BitVec.ofNat 8 code) y.step col row acc] ∧ (t.core c).accW = k.accW
  (k.product? = some (i, y) → y.shape = some sh → y.reachedStep = true → k.trapClk ≠ s.now →
    (y.fmt = some w → y.lig = some t0 → k.grant = true → k.spacerFrom = none → y.step < sh.nk → y.proofDue sh.nk s.now = false →
      (y.resumed = true → k.stageLost y = none) →
      (firstNan (s.kResults c y w t0 sh y.step) = none ∨ off = true →
        ∃ t, exec (.kStep c none) s = .next t ∧ (slot t).step = y.step + 1 ∧ (slot t).prog = y.prog ∧ (slot t).resumed = false ∧
          (t.core c).accV = k.accV ∧ (t.core c).accP = k.accP ∧
          (∀ r, r < sh.m → ∀ e ∈ s.stepRow c y w t0 sh y.step r,
            accCol ((t.core c).workRow acc r) (e.1 * countOf t0.code + e.2.1) = e.2.2.bits % 2 ^ 32) ∧ ∀ p, t.byte p = s.byte p) ∧
      (∀ r j, firstNan (s.kResults c y w t0 sh y.step) = some (r, j) → off = false → parks (.kStep c none) 8 r j) ∧
      (∀ f, f.row < sh.m → f.col < sh.n * countOf t0.code → s.faultyResults c y w t0 sh f = none →
        (y.step ∉ y.residue → ∃ t, exec (.kStep c (some f)) s = .next t ∧ (t.core c).galM.asked = some .full ∧
          (slot t).st = .issued ∧ (slot t).step = y.step ∧ y.step ∈ (slot t).residue ∧ (t.core c).accW = k.accW ∧ (t.core c).traps = k.traps) ∧
        (y.step ∈ y.residue → parks (.kStep c (some f)) 9 f.row f.col))) ∧
    (y.proofDue sh.nk s.now = true → ∃ t, exec (.proofStep c) s = .next t ∧
      (∀ r, r < 64 → FMap.get (t.core c).accP 0 (acc * 64 + r) = k.workRow acc r) ∧ (t.core c).accW = k.accW ∧ (t.core c).accV = k.accV ∧
      (slot t).prog = BitVec.ofNat 32 y.step ∧ (slot t).flags = 0 ∧ (slot t).sealedFlags = (y.sealedFlags ||| y.flags) ∧
      ∀ p, t.byte p = s.byte p)) ∧
  (∀ x, k.copyAt = some (x, y) → y.prog.toNat < y.copyUnits →
    let cmd := y.copy
    let first := y.prog.toNat * 128
    let len := min 128 (cmd.total - first)
    let els := if cmd.isIndexed then cmd.elems first len else []
    let early := FMap.at? y.early y.prog.toNat
    let marked := fun (t : State) (n : BitVec 32) => ∃ z, (t.core c).copySlot x = some z ∧ z.prog = n ∧ z.markValid = true ∧ z.markSeq = y.seq
    (y.op = 0xEF → ∃ t, exec (.copyUnitCommit c) s = .next t ∧ marked t 1 ∧ (∀ p, t.byte p = s.byte p) ∧ ∀ n,
      n < y.body.o1.toNat / 0x1_0000 → FMap.get (t.core c).pins false (y.body.o0.toNat / 0x1_0000 + n) = false ∧
        FMap.get (t.core c).release 0 (y.body.o0.toNat / 0x1_0000 + n) = (y.body.sched >>> 16).setWidth 16) ∧
    (∀ at_ ix reads writes s1, y.op ≠ 0xEF → s.copyIndices c x cmd els = (.ok at_, ix) → els.any (cmd.elemBad ix) = false →
      s.copyRuns c x .read (if cmd.isFill || early.isSome then [] else runsOf (cmd.src ix) first len) = .ok reads →
      (∀ d, early = some d → d.length = len) →
      s.copyRuns c x .write (runsOf (cmd.dst ix) first len) = .ok writes →
      s.copyMayWrite c x (((runsOf (cmd.dst ix) first len).zip writes).foldl (fun n (v, p) =>
        n + (List.range v.2).foldl (fun q b => q + cmd.byteCharge (isHbm p.1) (v.1 + BitVec.ofNat 64 b)) 0) 0) writes = some s1 →
      ∃ t, exec (.copyUnitCommit c) s = .next t ∧ marked t (y.prog + 1) ∧
        (∀ p, pagesEnd ≤ p → (∀ r ∈ writes, p < r.1 ∨ r.1 + r.2 ≤ p) → t.byte p = s.byte p) ∧
        ∀ dst, writes = [(dst, len)] → pagesEnd ≤ dst → t.readBytes dst len =
          if cmd.isFill then (List.range len).map fun n => cmd.fillByte (cmd.dst ix (first + n)) else early.getD (s.readRuns reads)))) ∧
  (∀ (s : State) (c : CoreId) (y : Slot) (w : W32) (t0 : LigTable) (sh : Shape) (st i : Nat),
  (∀ e ∈ s.stepRow c y w t0 sh st i, ∃ ps, (s.prodGroups c y w t0 sh st i e.1)[e.2.1]? = some ps ∧
    e.2.2 = addGroup (accCol ((s.core c).workRow (y.accWritten.getD 0) i) (e.1 * countOf t0.code + e.2.1)) ps) ∧
  ∀ j, s.prodGroups c y w ligReal sh st i j = [(List.range sh.ks).map fun q =>
    productOf ((s.readA c y w ligReal i (st * sh.ks + q)).headD .nan) ((s.readB c y w ligReal (st * sh.ks + q) j).headD .nan)]) ∧
  (∀ (w : Nat) (ps qs : List Product),
  let v := fp32.value w
  let xs := ps.map Product.value
  (qs.Perm ps → addGroup w qs = addGroup w ps) ∧
  (v.isNan = true ∨ Product.nanFactor ∈ ps → addGroup w ps = ⟨0x7FC0_0000, 0, false⟩) ∧
  (v.isNan = false → Product.nanFactor ∉ ps →
    (Product.invalid ∈ ps ∨ (FVal.inf false ∈ xs ∧ FVal.inf true ∈ xs) ∨ (∃ n, v = .inf n ∧ FVal.inf (!n) ∈ xs) →
      addGroup w ps = ⟨0x7FC0_0000, 0, true⟩) ∧
    (Product.invalid ∉ ps → ∀ n, v = .inf n → FVal.inf (!n) ∉ xs → addGroup w ps = ⟨w, 0, false⟩) ∧
    (Product.invalid ∉ ps → v.isInf = false → ∀ n, FVal.inf n ∈ xs → FVal.inf (!n) ∉ xs →
      addGroup w ps = ⟨if n then 0xFF80_0000 else 0x7F80_0000, 0, false⟩)) ∧
  (v.isNan = false → v.isInf = false → (∀ p ∈ ps, ∃ n m e a b, p = .val (.fin n m e) a b) →
    ((∀ x ∈ xs, x.isZero = true) → addGroup w ps = fp32.out .rne (fvAdd .rne v (.fin (xs.all FVal.neg) 0 0))) ∧
    ∀ top : Int, (∃ x ∈ xs, x.log = some top) → (∀ x ∈ xs, ∀ l, x.log = some l → l ≤ top) →
      let q := top - 40
      let term : FVal → Int := fun x => match x with
        | .fin n m e => (if n then -1 else 1) * (if q ≤ e then (m : Int) * 2 ^ (e - q).toNat else (m : Int) / 2 ^ (q - e).toNat)
        | .nan | .inf _ => 0
      let cut : FVal → Bool := fun x => match x with
        | .fin _ m e => decide (e < q ∧ m % 2 ^ (q - e).toNat ≠ 0)
        | .nan | .inf _ => false
      let sum : Int := (xs.map term).sum
      let o := fp32.out .rne (fvAdd .rne v (.fin (decide (sum < 0)) sum.natAbs q))
      addGroup w ps = { o with flags := if xs.any cut then o.flags ||| flagNX else o.flags })) ∧
  (∀ (w : Nat) (ps : List Product) (f : GroupFault) (top : Int), (fp32.value w).isNan = false → (fp32.value w).isInf = false →
    (∀ p ∈ ps, ∃ n m e a b, p = .val (.fin n m e) a b) → largest ((ps.map Product.value).filterMap FVal.log) = some top →
    f.delta % 127 ≠ 0 → f.stage = .tree ∨ f.stage = .adder → addGroupChecked w ps f = none)

/-! ### 01: the life of a record -/

/-- R22, R27, R30, R31, R34, R94, R137: the Proofreader's match makes the oldest APPENDED record CHECKED, a mismatch (`flip`: what an upset turns) frees it and asks for
the control core's reset; a record that may issue does so with its stamp, misses it, or, a product without a grant, asks for one, which it
has at once where the ramp has room (R336); a marker whose turn has come is DONE; a command whose token is satisfied by an error signals the error; a command that has done its
units is DONE, its flags reach FPX, its signal is counted, and a product's accumulator becomes visible. -/
def Obligations.RecordLife : Prop := ∀ (s : State) (c : CoreId) (g : Galley) (q : BitVec 24) (i : SlotId) (y : Slot) (flip : BitVec 32),
  let k := s.core c
  let cl := coreCluster c
  let alone := ∀ d ∈ coresOf cl, d ≠ c → (s.core d).wantGrant = none ∧ (s.core d).product? = none ∧ s.issuable d .m = none
  let at_ := fun (t : State) (n : SlotId) => (t.core c).slot g n.val
  let signalled := fun (t : State) (err : Bool) => y.body.sig.getLsbD 18 = true → let n : BitVec 18 := y.body.sig.setWidth 18
    ctrCount (t.ctr n) = (ctrCount (s.ctr n) + bitsN y.body.sig 20 12) % 2 ^ 63 ∧ ctrError (t.ctr n) = (ctrError (s.ctr n) || err)
  ((k.galley g).oldestAppended = some q → k.resetting = false → y = k.slot g (slotOf q).val →
    (y.proofHash ^^^ flip = y.hash → ∃ t, exec (.proofCheck c g flip) s = .next t ∧ at_ t (slotOf q) = { y with st := .checked } ∧
      (t.core c).traps = k.traps ∧ ∀ p, t.byte p = s.byte p) ∧
    (y.proofHash ^^^ flip ≠ y.hash → ∃ t, exec (.proofCheck c g flip) s = .next t ∧ (t.core c).resetAsked = true ∧ ((t.core c).galley g).tail = q ∧
      (at_ t (slotOf q)).st = .free)) ∧
  (s.issuable c g = some i → y = k.slot g i.val →
    (∀ l, s.due c y = .unstamped ∨ s.due c y = .late l → g ≠ .m → y.isMma = false → ∃ t, exec (.recordIssue c g) s = .next t ∧
      (at_ t i).st = .issued ∧ (at_ t i).markValid = true ∧ (at_ t i).markSeq = y.seq ∧
      (at_ t i).prog = (if y.markValid = true ∧ y.markSeq = y.seq then y.prog else 0) ∧ (at_ t i).body = y.body) ∧
    (∀ l, s.due c y = .unstamped ∨ s.due c y = .late l → g = .m → y.isMma = true → k.grant = false → k.product? = none →
      (k.withheld = true → ∃ t, exec (.recordIssue c g) s = .next t ∧ (t.core c).wantGrant.isSome = true ∧ at_ t i = y) ∧
      (k.withheld = false → k.wantGrant = none → alone → s.activeCount cl = 0 → (s.cluster cl).ramp = none →
        0 < (s.cluster cl).mkrt.toNat % 16 → k.stageLost y = none → ∃ t, exec (.recordIssue c g) s = .next t ∧ (t.core c).grant = true ∧
          (t.core c).wantGrant = none ∧ (t.cluster cl).ramp = some s.now ∧ (at_ t i).st = .issued)) ∧
    (s.due c y = .early → g ≠ .m ∨ (k.product? = none ∧ k.wantGrant = none) → exec (.recordIssue c g) s = .next s) ∧
    (∀ l, s.due c y = .missed l → g ≠ .m ∨ (k.product? = none ∧ k.wantGrant = none) → k.trapClk ≠ s.now → ∃ t, exec (.recordIssue c g) s = .next t ∧ (at_ t i).st = .checked ∧
      (t.core c).traps = k.traps ++ [y.trap g 0x0B (BitVec.ofNat 64 l)])) ∧
  ((k.galley g).seqs.find? (fun p => (k.slot g (slotOf p).val).st == .appended || (k.slot g (slotOf p).val).st == .checked) = some q →
    y = k.slot g (slotOf q).val → y.st = .checked → y.isMarker = true →
    ∃ t, exec (.markerRetire c g) s = .next t ∧ (at_ t (slotOf q)).st = .done ∧ (t.ctx ⟨c, 0⟩).evl.getLsbD 0 = true) ∧
  ((k.galley g).headRecord = some q → y = k.slot g (slotOf q).val → y.st = .checked → y.isMarker = false → s.waitError y = true →
    k.isOldest g (slotOf q) = true → s.signalHeld y = false → ∃ t, exec (.errorPropagation c g) s = .next t ∧
      (at_ t (slotOf q)).st = .done ∧ signalled t true ∧ (t.ctx ⟨c, 0⟩).fpx = (s.ctx ⟨c, 0⟩).fpx ∧ ∀ p, t.byte p = s.byte p) ∧
  (k.issued? g i = some y → s.signalHeld y = false → k.isOldest g i = true →
    (g = .v ∧ (∃ cmd, y.vcmd = some cmd ∧ cmd.v.n ≤ y.prog.toNat)) ∨ (g = .x ∧ y.copyUnits ≤ y.prog.toNat) ∨
      (g = .k ∧ y.op = 0xFA ∧ y.prog = 1) ∨
      (g = .m ∧ y.resumed = false ∧ k.stageLost y = none ∧ y.isMma = true ∧ ∃ sh, y.shape = some sh ∧ y.step = sh.nk ∧
        y.proofDue sh.nk s.now = false ∧ y.reachedStep = true) →
    ∃ t, exec (.commandCompletion c g i) s = .next t ∧ (at_ t i).st = .done ∧ signalled t false ∧
      (t.ctx ⟨c, 0⟩).fpx = ((s.ctx ⟨c, 0⟩).fpx ||| (y.sealedFlags ||| y.flags).setWidth 64) ∧ (t.ctx ⟨c, 0⟩).evl.getLsbD 0 = true ∧
      (g = .m → ∀ a r, y.accWritten = some a → r < 64 → (t.core c).accRow a r = k.workRow a r ∧ (t.core c).workRow a r = k.accRow a r) ∧
      ∀ p, t.byte p = s.byte p) ∧
  (∀ va, ((k.galley g).issuedSlots.flatMap fun z => (s.streamAhead c z g).filter fun v => (tlbFind z.held k.job v).isNone).find? (fun v => canonical v && (tlbFind (k.tlb g) k.job v).isNone) = some va →
    ∃ t, exec (.streamTlbPrefetch c g) s = .next t ∧ (∃ x ∈ (t.die (coreDie c)).walks, x.core = c ∧ x.unit = .prefetch g) ∧
      t.cores = s.cores ∧ ∀ p, t.byte p = s.byte p)

/-! ### 11: collectives -/

/-- R307-R311, R341: a registration that the home accepts is done and the core takes the group's round count; a join opens a round, which
ends at once as absent where a member cannot be reached, and with the last member's join the fold, element by element in member order, is
written to every member's destination; unit 1 commits once the home holds the join; a verdict completes the
member's record, with GROUPABSENT where a member was absent and the group is not quiet; the timeouts end a round as absent. (Which
member is named is the model's, log entry 74.) -/
def Obligations.Collectives : Prop := ∀ (s : State) (c : CoreId) (i : SlotId) (y : Slot),
  let k := s.core c
  let g := s.group y.group
  let n := FMap.get k.rounds 0 y.group.toNat + 1
  let slot := fun (t : State) => (t.core c).slot .k i.val
  let absent := fun (low : Nat) => (⟨.absent low, 0, [], []⟩ : RoundEnd)
  let paid := ∀ x ∈ g.ends, ∀ e, x.2 = some e → e.owing = []
  (k.collective? = some (i, y) → k.trapClk ≠ s.now →
    (∀ u, y.op = 0xFA → y.prog = 0 → s.agrpUnit c y.body.o1 y.body.o0 (fun va m => s.engineCheck c .k i .read va m)
        (fun a va => s.engineAt c .k i a va 1) = .inl (.accepted u) → ∃ t, exec (.agrpRegistration c) s = .next t ∧ (slot t).prog = 1 ∧ t.groups = u.groups ∧
        (t.core c).rounds = (u.core c).rounds) ∧
    (y.op = 0xFA → y.prog = 0 → s.agrpUnit c y.body.o1 y.body.o0 (fun va m => s.engineCheck c .k i .read va m)
        (fun a va => s.engineAt c .k i a va 1) = .inl .refused → ∃ t, exec (.agrpRegistration c) s = .next t ∧ (slot t).st = .parked ∧ (t.core c).traps = k.traps ++ [y.trap .k 1 y.body.o0]) ∧
    (y.op ≠ 0xFA → y.prog = 0 → g.memberOf c = none → ∃ t, exec (.roundJoin c) s = .next t ∧ (slot t).st = .parked ∧
      (t.core c).traps = k.traps ++ [y.trap .k 1 y.body.o0]) ∧
    (∀ idx m data later, y.op = 0xFB → y.prog = 0 → g.memberOf c = some (idx, m) → g.rounds < n → g.opened = none →
      s.memberSource m = .ok data → later < g.members → later ≠ idx →
      (paid → (∀ x, s.unreachable g x = false) → ∃ t, exec (.roundJoin c) s = .next t ∧
        (t.group y.group).opened = some ⟨s.now, none, FMap.set [] none idx (some data)⟩ ∧ (t.group y.group).rounds = g.rounds ∧
        ∀ p, pagesEnd ≤ p → t.byte p = s.byte p) ∧
      (∀ low, leastOf ((List.range g.members).filter (s.unreachable g)) = some low → ∃ t, exec (.roundJoin c) s = .next t ∧
        (t.group y.group).opened = none ∧ (t.group y.group).rounds = g.rounds + 1 ∧
        FMap.get (t.group y.group).ends none (g.base + g.rounds + 1) = some (absent low) ∧
        ∀ p, pagesEnd ≤ p → t.byte p = s.byte p)) ∧
    (∀ r idx m data, y.op = 0xFB → y.prog = 0 → g.memberOf c = some (idx, m) → g.rounds < n → g.opened = some r → r.root = none →
      s.now < r.openedAt + g.timeout * Config.clkPerUs → FMap.get r.joined none idx = none → s.memberSource m = .ok data →
      (∀ j, j < g.members → j ≠ idx → (FMap.get r.joined none j).isSome = true) → (∀ x, s.unreachable g x = false) → paid →
      let all := g.regs.filterMap Prod.snd
      let from_ := (List.range g.members).map fun j => (FMap.get (FMap.set r.joined none idx (some data)) none j).getD []
      (∀ d ∈ all, s.memberPinned d = false) →
      all.Pairwise (fun a b => ∀ u ∈ a.dst, ∀ v ∈ b.dst, u.1 + u.2 ≤ v.1 ∨ v.1 + v.2 ≤ u.1) →
      ∃ t, exec (.roundJoin c) s = .next t ∧ (t.group y.group).opened = none ∧ (t.group y.group).rounds = g.rounds + 1 ∧
        (∃ e, FMap.get (t.group y.group).ends none (g.base + g.rounds + 1) = some e ∧ e.verdict = .ok ∧ e.owing = [] ∧
          e.flags = (g.result from_).2) ∧
        (∀ d ∈ all, ∀ pa, d.dst = [(pa, (g.result from_).1.length)] → pagesEnd ≤ pa →
          t.readBytes pa (g.result from_).1.length = (g.result from_).1) ∧
        ∀ p, pagesEnd ≤ p → (∀ d ∈ all, ∀ u ∈ d.dst, p < u.1 ∨ u.1 + u.2 ≤ p) → t.byte p = s.byte p) ∧
    (∀ r idx m, y.op ≠ 0xFA → y.prog = 0 → g.opened = some r → g.memberOf c = some (idx, m) → (FMap.get r.joined none idx).isSome = true →
      ∃ t, exec (.contribution c) s = .next t ∧ (slot t).prog = 1 ∧ (slot t).round = g.base + n ∧ (slot t).markValid = true ∧
        t.groups = s.groups) ∧
    (∀ e, y.op ≠ 0xFA → y.prog = 1 → k.isOldest .k i = true → s.signalHeld y = false → g.opened = none → paid →
      FMap.get g.ends none y.round = some e → ∃ t, exec (.verdict c) s = .next t ∧ (slot t).st = .done ∧
        FMap.get (t.core c).rounds 0 y.group.toNat = n ∧
        (e.verdict = .ok → (t.core c).traps = k.traps ∧
          (t.ctx ⟨c, 0⟩).fpx = ((s.ctx ⟨c, 0⟩).fpx ||| (y.sealedFlags ||| (y.flags ||| e.flags)).setWidth 64)) ∧
        (∀ low, e.verdict = .absent low → g.quiet = false → ∃ x, (t.core c).traps = k.traps ++ [x] ∧ x.code = 0x12 ∧
          x.addr = BitVec.ofNat 64 (low * 65536 + y.group.toNat)))) ∧
  (∀ (grp : BitVec 10) r low, (s.group grp).opened = some r → leastOf ((s.group grp).missing r) = some low →
    r.openedAt + (s.group grp).timeout * Config.clkPerUs ≤ s.now → ∃ t, exec (.roundTimeout grp) s = .next t ∧
      (t.group grp).opened = none ∧ (t.group grp).rounds = (s.group grp).rounds + 1 ∧
      FMap.get (t.group grp).ends none ((s.group grp).base + (s.group grp).rounds + 1) = some (absent low)) ∧
  (∀ (grp : BitVec 10) r idx m, (s.group grp).opened = some r → (s.group grp).regs = [(idx, some m)] →
    r.openedAt + 2 * (s.group grp).timeout * Config.clkPerUs ≤ s.now → m.core = c → k.collective? = some (i, y) → y.op ≠ 0xFA → y.group = grp →
    y.prog = 1 → y.round = (s.group grp).base + (s.group grp).rounds + 1 → ∃ t, exec (.verdictTimeout grp) s = .next t ∧ (slot t).st = .done ∧
      (t.group grp).opened = none) ∧
  (∀ (h : Group) (srcs : List (List Byte)) (e : Nat), e < h.count →
    let x := fun (b : List Byte) => elemVal h.itype.toNat b e
    let width := codeBytes h.otype.toNat
    let out := natOfBytes (((h.result srcs).1.drop (e * width)).take width)
    let folded := fun (f : FVal → FVal → FVal) => ∀ b rest, srcs = b :: rest →
      out = ((codeFmt h.otype.toNat).pack .rne (rest.foldl (fun v d => f v (x d)) (fp32.value (fp32.pack .rne (x b)).1))).1
    let kept := fun (v : FVal) => fp32.value (fp32.pack .rne v).1
    (h.op = 0 → folded fun v w => fp32.value (fp32.out .rne (fvAdd .rne v w)).bits) ∧
    (h.op = 1 → folded fun v w => kept (fvMin v w)) ∧ (h.op = 2 → folded fun v w => kept (fvMax v w)))

/-! ### 12, 14: issue grants and the measured draw -/

/-- R336-R338: a waiting request is granted where the ramp allows another active engine, and its record issues on that clk with the grant; 12
clk after its spacer's start the grant ends, and with the cluster's last one the ramp; a record that waits past its quoin misses its
stamp. R339: a product that was parked has its grant too and goes on.
R329: the manager takes each core's window of 4 clk, and counts for how long the draw has been above the granted level; above it for
more than 64 clk grants are withheld, and OVERDRAW is raised, again only after 64 clk at or below it. (Its TADDR names the granted level and a measured level of 1, the model's
reading, log entry 46.) -/
def Obligations.CurrentManagers : Prop := ∀ (s : State) (cl : ClusterId) (c : CoreId) (i : SlotId),
  let k := s.core c
  let y := k.slot .m i.val
  (∀ t0, s.grantOrder cl = [c] → coreCluster c = cl → (s.cluster cl).ramp = some t0 → k.withheld = false →
    s.activeCount cl < bitsN (s.cluster cl).mkrt (4 * min ((s.now - t0) / 4) 15) 4 → k.product? = none →
    s.issuable c .m = some i → y.isMma = true → s.due c y = .unstamped → k.stageLost (y.issue (k.ligOf y.ligSlot) s.now) = none →
    ∃ t, exec (.issueGrant cl) s = .next t ∧ (t.core c).grant = true ∧ (t.core c).wantGrant = none ∧ (t.core c).spacerFrom = none ∧
      ((t.core c).slot .m i.val).st = .issued ∧ ∀ p, t.byte p = s.byte p) ∧
  (∀ t0, s.grantOrder cl = [c] → coreCluster c = cl → (s.cluster cl).ramp = some t0 → k.withheld = false →
    s.activeCount cl < bitsN (s.cluster cl).mkrt (4 * min ((s.now - t0) / 4) 15) 4 → k.product?.isSome = true →
    ∃ t, exec (.issueGrant cl) s = .next t ∧ (t.core c).grant = true ∧ (t.core c).wantGrant = none ∧ (t.core c).spacerFrom = none ∧
      (t.core c).galM = k.galM) ∧
  (∀ t0, s.grantOrder cl = [c] → (s.cluster cl).ramp = some t0 → k.withheld = true → exec (.issueGrant cl) s = .next s) ∧
  (∀ t0, k.spacerFrom = some t0 → t0 + 12 ≤ s.now → ∃ t, exec (.spacerEnd c) s = .next t ∧ (t.core c).grant = false ∧
    (t.core c).spacerFrom = none ∧ ((∀ d ∈ coresOf (coreCluster c), d ≠ c → (s.core d).grant = false) → (t.cluster (coreCluster c)).ramp = none)) ∧
  (∀ t0, k.spacerFrom = some t0 → s.now < t0 + 12 → exec (.spacerEnd c) s = .next s) ∧
  (∀ l, k.wantGrant.isSome = true → s.issuable c .m = some i → s.due c y = .missed l → k.trapClk ≠ s.now → ∃ t, exec (.grantLateness c) s = .next t ∧
    (t.core c).wantGrant = none ∧ ((t.core c).slot .m i.val).missed = true ∧ (t.core c).traps = k.traps ++ [y.trap .m 0x0B (BitVec.ofNat 64 l)]) ∧
  (c ∈ coresOf cl → ∃ t, exec (.drawMeasure cl) s = .next t ∧
    (k.drawClk < 4 → t.core c = k) ∧
    (4 ≤ k.drawClk → (t.core c).draw = 0 ∧ (t.core c).drawClk = 0 ∧
      (k.grantedLevel * 16 < k.draw → (t.core c).overFor = k.overFor + 4 ∧ (t.core c).withheld = k.withheld) ∧
      (k.draw ≤ k.grantedLevel * 16 → (t.core c).overFor = 0 ∧ (t.core c).calmFor = k.calmFor + 4 ∧ (t.core c).withheld = false))) ∧
  (64 < k.overFor → k.team.isSome = true → ∃ t, exec (.overdraw c) s = .next t ∧ (t.core c).withheld = true ∧
    (k.calmFor < 64 → (t.core c).traps = k.traps) ∧
    (64 ≤ k.calmFor → k.trapClk ≠ s.now → ∃ x, (t.core c).traps = k.traps ++ [x] ∧ x.code = 0x0E ∧ x.addr = BitVec.ofNat 64 (k.grantedLevel * 16 + 1))) ∧
  (k.overFor ≤ 64 → exec (.overdraw c) s = .next s)

/-! ### 01, 12: traps that wait, and the resets of a core's parts -/

/-- R48-R52, R319, R321, R437: a handler starts once a light context is dormant; the oldest pending trap is taken at the team context's
boundary; each cause of a reset asks for it and is counted; an engine reset takes its ISSUED records back to their marks, empties the
TLB of an engine with a record ISSUED (which engine that is, and that a reset is counted where it is asked for, are the model's readings,
log entries 37 and 35), and ends with its records resumed; one asked for by a scrub waits for a parked record; a control-core reset frees the APPENDED records and empties the L1, and its replay starts at the checkpoint. -/
def Obligations.Resets : Prop := ∀ (s : State) (c : CoreId) (g : Galley) (x : CtxId) (die : DieId),
  let k := s.core c
  let y := k.galley g
  let count := fun (u : State) (n : Nat) => FMap.get u.pages.dieCnt 0 ((coreDie c).val * 16 + n)
  (∀ h rest, (k.ctx x).run = .trapped → k.handlerOf x = none → (∀ r, k.team = some r → r.cancel = false) → k.dormantLights = h :: rest → ∃ t, exec (.trapEntry c x) s = .next t ∧
    (t.ctx ⟨c, h⟩).run = .running ∧ (t.ctx ⟨c, h⟩).priv = true ∧ (t.ctx ⟨c, h⟩).pc = k.trapEntry ∧ (t.ctx ⟨c, h⟩).role = .trap x ∧
    (t.ctx ⟨c, h⟩).reg 1 = (k.ctx x).cause ∧ (t.ctx ⟨c, h⟩).reg 2 = (k.ctx x).taddr ∧ (t.ctx ⟨c, h⟩).reg 3 = BitVec.ofNat 64 x.val) ∧
  (∀ u rest, (k.ctx 0).run = .running → (k.ctx 0).wait = none → (k.ctx 0).role = .none → k.resetting = false → k.preempt = none → k.replay = none →
    k.traps = u :: rest → ∃ t, exec (.trapEntry c 0) s = .next t ∧ (t.core c).traps = rest ∧ (t.ctx ⟨c, 0⟩).run = .trapped ∧
      (t.ctx ⟨c, 0⟩).cause = causeWord u (!rest.isEmpty) ∧ (t.ctx ⟨c, 0⟩).taddr = u.addr ∧ (t.ctx ⟨c, 0⟩).tepc = (k.ctx 0).pc &&& ~~~3) ∧
  (8192 ≤ y.noProgress → y.asked = none → y.resetting = false → y.issuedSlots ≠ [] → ∃ t, exec (.engineWatchdog c g) s = .next t ∧
    ((t.core c).galley g).asked = some .full ∧ count t 0 = count s 0 + 1 ∧ t.pages.logprod = s.pages.logprod + 1) ∧
  (y.noProgress < 8192 → exec (.engineWatchdog c g) s = .next s) ∧
  (∀ b : Bool, ∃ t, exec (.engineAlarm c g b) s = .next t ∧ ((t.core c).galley g).asked = some .full ∧
    count t (if b then 2 else 1) = count s (if b then 2 else 1) + 1) ∧
  (∃ t, exec (.controlCoreAlarm c) s = .next t ∧ (t.core c).resetAsked = true ∧ (k.resetAsked = false → count t 6 = count s 6 + 1)) ∧
  (∃ t, exec (.operatorRequest c) s = .next t ∧ (t.core c).resetAsked = true) ∧
  (∀ a, k.armed = some a → a.due ≤ s.now → ∃ t, exec (.cmpinjRequest c) s = .next t ∧ (t.core c).armed = none ∧
    (a.core = true → (t.core c).resetAsked = true) ∧ (a.core = false → ((t.core c).galley (engOf a.eng)).asked = some .full)) ∧
  (∀ a, k.armed = some a → s.now < a.due → exec (.cmpinjRequest c) s = .next s) ∧
  (s.pages.scrubStep die ≠ 0 → (s.die die).resetAt = none → (s.die die).scrubAt + s.pages.scrubStep die ≤ s.now * 256 →
    ∃ t, exec (.rollingScrub die) s = .next t ∧ (t.die die).scrubNext = ((s.die die).scrubNext + 1) % 256 ∧
      ((t.core (coreOfNat (die.val * 64 + (s.die die).scrubNext / 4 % 64))).galley (engOf (BitVec.ofNat 2 ((s.die die).scrubNext % 4)))).asked.isSome = true) ∧
  (∀ ask, y.asked = some ask → y.resetting = false → (ask = .full ∨ y.hasParked = false) → (ask = .scrub → g = .m → y.midProof = false) →
    ∃ t, exec (.engineReset c g) s = .next t ∧
    ((t.core c).galley g).resetting = true ∧ ((t.core c).galley g).asked = none ∧
    (t.core c).tlb g = (if ask = .step1 ∨ y.issuedSlots = [] then k.tlb g else []) ∧
    (∀ n, (t.core c).slot g n = (k.slot g n).backToMark) ∧ (t.core c).tiles = k.tiles ∧ (t.core c).accV = k.accV ∧ (t.core c).accP = k.accP ∧
    (∀ z a r, g = .m → z ∈ y.issuedSlots → z.accWritten = some a → r < 64 → (t.core c).workRow a r = FMap.get k.accP 0 (a * 64 + r)) ∧
    (g = .v → (t.core c).latchA = none ∧ (t.core c).latchB = none ∧ (t.core c).latchC = none) ∧ ∀ p, t.byte p = s.byte p) ∧
  (∀ ask, y.asked = some ask → ask ≠ .full → y.hasParked = true → exec (.engineReset c g) s = .next s) ∧
  (y.asked = none → exec (.engineReset c g) s = .next s) ∧
  (y.resetting = true → ∃ t, exec (.engineResetEnd c g) s = .next t ∧ ((t.core c).galley g).resetting = false ∧
    ∀ n, (k.slot g n).st = .issued → ((t.core c).slot g n).st = .issued ∧ ((t.core c).slot g n).resumed = true ∧ ((t.core c).slot g n).prog = (k.slot g n).prog) ∧
  (k.resetAsked = true → k.resetting = false → (∀ p, k.preempt = some p → p.saving = false) → k.team.isSome = true → ∃ t, exec (.controlCoreReset c) s = .next t ∧
    (t.core c).resetting = true ∧ (t.core c).resetAsked = false ∧ (t.core c).l1 = [] ∧ (t.core c).rlog = k.rlog ∧ (t.core c).current = k.current ∧
    (∀ h, ∀ q ∈ ((t.core c).galley h).seqs, ((t.core c).slot h (slotOf q).val).st ≠ .appended) ∧
    (t.core c).traps = k.trapsAfterReset ∧ ∀ p, pagesEnd ≤ p → t.byte p = s.byte p) ∧
  (k.resetting = true → (k.ctx 0).loadQ = [] → k.irrevocable = false → ∃ t, exec (.replayStart c) s = .next t ∧ (t.core c).resetting = false ∧
    (t.ctx ⟨c, 0⟩).regs = k.current.regs ∧ (t.ctx ⟨c, 0⟩).pc = k.current.pc ∧ (t.ctx ⟨c, 0⟩).run = .running ∧ (t.core c).lcnt = k.current.lcnt ∧ (t.core c).proof = .none ∧
    (∃ p, (t.core c).replay = some p ∧ p.log = k.rlog.filterMap Prod.snd ∧ p.seqM = k.current.tailM ∧ p.fmtPush = k.current.fmtPush) ∧ ∀ p, t.byte p = s.byte p) ∧
  (k.resetting = true → (k.ctx 0).loadQ ≠ [] → exec (.replayStart c) s = .next s)

/-! ### 12, 15, 18: pre-emption, placement, budgets -/

/-- R43, R44, R330, R354, R398, R400, R460: a request waits for the team's stop; after 4,096 clk the folio handlers end; a stopped team's
ISSUED records return to their marks; the save drains its stores, but for those that an unread element of a stream holds (R139; log entry
72), and makes it SAVED; a new team starts at its kernel with its arguments in s1 to s3, in a cluster that has left its power state (R453;
that it is RUNNING at once is the model's reading, log entry 34); a restored one goes on with its image; a team past its budget takes its
entry's action. -/
def Obligations.PreemptionAndPlacement : Prop := ∀ (s : State) (c : CoreId) (g : Galley),
  let k := s.core c
  let asked := fun (i : Instr) => ∃ t p, exec i s = .next t ∧ (t.core c).preempt = some p ∧ p.since = s.now ∧ p.saving = false ∧ p.trapped = !k.traps.isEmpty ∧
    (p.stopped = true ↔ (k.ctx 0).run = .running ∧ ∃ w, (k.ctx 0).wait = some w ∧ w.kind.isStop = true)
  (k.team.isSome = true → k.preempt = none → s.preempted c = true → asked (.preemptionRequest c)) ∧
  (s.emergency = .none → s.preempted c = false → exec (.preemptionRequest c) s = .next s) ∧
  (∀ r, k.team = some r → k.preempt = none → k.sliceOver r s.now = true → s.preempted c = true → asked (.sliceExpiry c)) ∧
  (∀ p, k.preempt = some p → p.saving = false → p.since + 4096 ≤ s.now → k.servedTrap = none → ∃ t, exec (.lightDrainLimit c) s = .next t ∧
    (t.core c).folioQ = [] ∧ (∀ x, x ≠ 0 → (t.ctx ⟨c, x⟩).run = .dormant) ∧ (t.core c).team = k.team) ∧
  (∀ p, k.preempt = some p → s.now < p.since + 4096 → exec (.lightDrainLimit c) s = .next s) ∧
  (∀ p, k.preempt = some p → p.stopped = true → ∃ t, exec (.engineStop c g) s = .next t ∧
    (∀ n, (t.core c).slot g n = (k.slot g n).halt) ∧ (t.core c).accV = k.accV ∧ (t.core c).accP = k.accP ∧ (t.core c).tiles = k.tiles ∧
    (∀ z, (k.galley g).issuedSlots.getLast? = some z → (t.core c).pidx = pidxOf g z) ∧
    (g = .v → (t.core c).latchA = none ∧ (t.core c).latchB = none ∧ (t.core c).latchC = none) ∧ ∀ a, t.byte a = s.byte a) ∧
  (∀ p r, k.preempt = some p → k.team = some r → p.stopped = true → p.saving = false → r.cancel = false → k.enginesStopped = true → k.folioQ = [] →
    k.resetAsked = false → (∀ x ∈ lightCtxs, (k.ctx x).run = .dormant) → (k.ctx 0).loadQ = [] → ∃ t, exec (.contextSave c) s = .next t ∧
      (t.core c).preempt = some ⟨s.now, true, true, p.trapped⟩ ∧ (t.ctx ⟨c, 0⟩).unacked = [] ∧
      ((∀ e ∈ (k.ctx 0).storeQ, e.kind = .plain) → (k.ctx 0).dq = [] → (t.ctx ⟨c, 0⟩).storeQ = [])) ∧
  (∀ p r l, k.preempt = some p → k.team = some r → p.saving = true → s.launch? r.launch = some l → ∃ t u, exec (.saveComplete c) s = .next t ∧
    (t.core c).team = none ∧ t.launch? r.launch = some u ∧ FMap.get u.teams .waiting r.index.toNat = .saved ∧
    FMap.at? u.saved r.index.toNat = some (k.image (s.now - p.since)) ∧ (t.core c).pwrl = 0 ∧ ∀ a, t.byte a = s.byte a) ∧
  (∀ launch team l rank, s.launch? launch = some l → k.isFree = true → s.bestFor c = some (rank, launch.toNat, team.toNat) →
    (s.powered c = false → exec (.teamPlacement launch team c) s = .next (s.wakeFor c)) ∧ (s.powered c = true → FMap.at? l.saved team.toNat = none → ∃ t r u, exec (.teamPlacement launch team c) s = .next t ∧ (t.core c).team = some r ∧ r.launch = launch ∧
      r.index = team ∧ r.job = l.entry.job ∧ r.state = .running ∧ r.band = l.entry.band ∧ r.sliceAt = s.now ∧ (t.ctx ⟨c, 0⟩).pc = l.entry.kernel ∧
      (t.ctx ⟨c, 0⟩).priv = l.entry.priv ∧ (t.ctx ⟨c, 0⟩).run = .running ∧ (t.ctx ⟨c, 0⟩).reg 1 = l.entry.args ∧
      (t.ctx ⟨c, 0⟩).reg 2 = BitVec.ofNat 64 l.entry.arglen.toNat ∧ (t.ctx ⟨c, 0⟩).reg 3 = BitVec.ofNat 64 l.ctr.toNat ∧
      (∀ q, q ≠ 1 → q ≠ 2 → q ≠ 3 → (t.ctx ⟨c, 0⟩).reg q = 0) ∧ (t.core c).tiles = [] ∧ (t.core c).accV = [] ∧ (t.core c).stoff = 0 ∧
      (t.core c).dln = l.entry.deadline ∧ (t.core c).current.pc = l.entry.kernel ∧
      t.launch? launch = some u ∧ FMap.get u.teams .waiting team.toNat = .running)) ∧
  (∀ r l img, k.team = some r → r.state = .loading → r.cancel = false → s.launch? r.launch = some l → FMap.at? l.saved r.index.toNat = some img →
    img.regionOpen = false → ∃ t, exec (.restoreComplete c) s = .next t ∧ (t.ctx ⟨c, 0⟩).run = .running ∧ (t.ctx ⟨c, 0⟩).pc = (img.ctx 0).pc ∧
      (t.ctx ⟨c, 0⟩).regs = (img.ctx 0).regs ∧ (t.core c).tiles = img.tiles ∧ (t.core c).accV = img.accV ∧ (t.core c).accP = img.accP ∧
      (t.core c).galM = img.galM ∧ (t.core c).pins = img.pins ∧ bitsN (t.core c).wuse 0 32 = 0 ∧
      bitsN (t.core c).budg 0 32 = min (r.charge / 64) (2 ^ 32 - 1) ∧ (t.core c).team = some { r with state := .running }) ∧
  (∀ r l, k.team = some r → s.launch? r.launch = some l → r.overrun = false → bitsN k.budg 32 32 * 64 < r.charge → k.packet = none →
    (l.entry.ovr = 0 → k.trapClk ≠ s.now → ∃ t, exec (.budgetOverrun c) s = .next t ∧ (t.core c).team = some { r with overrun := true } ∧
      (t.core c).traps = k.traps ++ [⟨0x0D, 6, BitVec.ofNat 64 (r.charge / 64), 0, none⟩]) ∧
    (l.entry.ovr = 1 → r.band ≠ 0 → ∃ t, exec (.budgetOverrun c) s = .next t ∧
      (t.core c).team = some { r with overrun := true, band := r.band - 1 } ∧ (t.core c).traps = k.traps))

/-! ### 01, 18: cancels, severed launches, what is given back -/

/-- R38, R41, R42, R405, R418, R60: a scheduler that can act carries out its oldest cancel, or sends it on to another; what it cannot do yet
is left: the launch and its resident teams stop; a stopped or SAVED team
becomes CANCELLED; a launch that lost teams is severed; a finished launch's record is released; a launch that is over returns its
scratchpad windows. -/
def Obligations.Levels : Prop := ∀ (s : State) (die : DieId) (id team : BitVec 24) (cl : ClusterId) (l : Launch), s.launch? id = some l →
  (∀ job, (s.die die).resetAt = none → (s.die die).cancels = [(.launch, id, job)] → s.acts l.owner l.ctr = false →
    exec (.levelCancel die) s = .next s) ∧
  (∀ job rest e, (s.die die).resetAt = none → (s.die die).cancels = (.launch, id, job) :: rest → l.complete = false →
    s.acts l.owner l.ctr = true → s.schedulerOf l.owner = e → e ≠ die → s.mayPeer die e = true → ∃ t, exec (.levelCancel die) s = .next t ∧
      (t.die die).cancels = rest ∧ (t.die e).cancels = (s.die e).cancels ++ [(.launch, id, job)] ∧ t.launches = s.launches) ∧
  (∀ job rest, (s.die die).resetAt = none → (s.die die).cancels = (.launch, id, job) :: rest → l.complete = false →
    s.acts l.owner l.ctr = true → s.schedulerOf l.owner = die → ∃ t u, exec (.levelCancel die) s = .next t ∧ (t.die die).cancels = rest ∧ t.launch? id = some u ∧ u.cancelled = true ∧ u.stopping = true) ∧
  (s.homeOf id team = none → l.stopping = true → FMap.get l.teams .waiting team.toNat = .saved → ∃ t u,
    exec (.teamCancelled id team) s = .next t ∧ t.launch? id = some u ∧ FMap.get u.teams .waiting team.toNat = .cancelled ∧
    FMap.at? u.saved team.toNat = none ∧
    (s.acts l.owner l.ctr = false → t.chase = s.chase ∧ t.deferred = s.deferred ++ [.final id team .cancelled])) ∧
  (∀ c r, s.homeOf id team = some c → (s.core c).team = some r → r.cancel = true → (s.core c).teamStopped = true → (s.core c).enginesStopped = true →
    ∃ t, exec (.teamCancelled id team) s = .next t ∧ (t.core c).team = none) ∧
  (s.schedulerOf l.owner = die → s.acts l.owner l.ctr = true → s.cutOff die = false → l.lostTeams = true → l.severing = false → l.complete = false →
    ∃ t u, exec (.launchSever die id) s = .next t ∧ t.launch? id = some u ∧ u.severing = true ∧ u.stopping = true) ∧
  (l.complete = true → l.quiet = true → l.entry.ended = true → s.acts l.owner l.ctr = true → ∃ t, exec (.launchRelease id) s = .next t ∧ t.launch? id = none ∧
    t.keptRecords = s.keptRecords ++ (if l.severed = true then [l.record] else []) ∧
    (∀ j, j ≠ id → t.launch? j = s.launch? j) ∧ ∀ p, t.byte p = s.byte p) ∧
  (l.complete = false → exec (.launchRelease id) s = .next s) ∧
  (l.complete = true → s.launchPins cl id = false → ∃ t, exec (.scratchWindowReturn cl id) s = .next t ∧ (t.cluster cl).windowOf id = [] ∧
    (∀ j, j ≠ id → (t.cluster cl).windowOf j = (s.cluster cl).windowOf j) ∧ ∀ p, t.byte p = s.byte p)

/-! ### 17, 18: queues at work, the host's windows -/

/-- R379, R380, R381, R391: a doorbell value in order and within SIZE of HEAD becomes TAIL; one that goes back is counted; while the
scheduler cannot act a value waits behind those held; every 3,600 clk a queue that is not empty is looked at again, and a slot of no
kind stops it at HEAD with BADKIND. R381, R382: a slot that CheckSlot accepts is taken, and HEAD passes it: a NOP completes with OK, a
DECLARE is recorded, an entry that admission refuses completes with its code, one that it accepts joins its band with its density, a
launch with its identifier and counter. R394, R395: what admission answers. R387: RESUME and SKIP, which waits where its slot's host page
is absent; a cancel goes to the scheduler that owns the instance, or is kept until the peer link takes it. (The doorbell clauses leave out
what Recheck takes in the same step: the queue is stopped, empty, or slots are not taken; and a doorbell is stated where no host access
waits before it.) The model's choices: a skip that waits on an absent page is log entry 53, that held values stand behind held ones and
that commands act at any time are log entries 54 and 55. -/
def Obligations.Doorbells : Prop := ∀ (s : State) (q : QueueId) (v arg : BitVec 32) (lv : Level),
  let y := s.queue q
  let w := y.span
  let x := v.toNat % w
  let d := (x + w - y.tail.toNat % w) % w
  let quiet := y.stopped = true ∨ s.emergency ≠ .none
  let idle := quiet ∨ y.head = y.tail
  let applies := fun (i : Instr) (held : List W32) =>
    (d ≠ 0 → d < w / 2 → (x + w - y.head.toNat % w) % w ≤ y.size → quiet → ∃ t, exec i s = .next t ∧
      (t.queue q).tail = BitVec.ofNat 32 x ∧ (t.queue q).heldDb = held ∧ (t.queue q).head = y.head) ∧
    (d = 0 ∨ w / 2 ≤ d → idle → ∃ t, exec i s = .next t ∧ (t.queue q).tail = y.tail ∧ (t.queue q).heldDb = held ∧
      (t.queue q).dbcnt = setBits y.dbcnt 32 32 (min (bitsN y.dbcnt 32 32 + 1) (2 ^ 32 - 1)))
  (s.hostHeld = [] → y.enabled = true → s.serves q = true → y.heldDb = [] → applies (.doorbell q v) []) ∧
  (∀ rest, y.enabled = true → s.serves q = true → y.heldDb = v :: rest → applies (.deviceDoorbell q) rest) ∧
  (y.heldDb ≠ [] → s.serves q = false → exec (.deviceDoorbell q) s = .next (s.wakePackage .active)) ∧
  (s.boot = .ready → s.hostHeld = [] → s.asleep = false → y.enabled = true → (s.serves q = false ∨ y.heldDb ≠ []) →
    ∃ t, exec (.doorbell q v) s = .next t ∧ (t.queue q).heldDb = y.heldDb ++ [v] ∧ (t.queue q).tail = y.tail) ∧
  (s.boot = .ready → s.hostHeld = [] → s.asleep = true →
    exec (.doorbell q v) s = .next (({ s with hostHeld := [⟨.doorbell q v, none⟩] } : State).wakePackage .active)) ∧
  (s.boot ≠ .ready ∨ (s.hostHeld = [] ∧ s.asleep = false ∧ y.enabled = false) → exec (.doorbell q v) s = .next s) ∧
  (y.head ≠ y.tail → y.recheckAt + 3600 ≤ s.now → y.skipping = false → quiet → exec (.periodicRecheck q) s = .next (s.setQueue q { y with recheckAt := s.now })) ∧
  (y.head = y.tail ∨ s.now < y.recheckAt + 3600 → exec (.periodicRecheck q) s = .next s) ∧
  (let at_ := y.slotAt y.head
   y.head ≠ y.tail → y.recheckAt + 3600 ≤ s.now → y.enabled = true → y.stopped = false → y.skipping = false → s.takes q = true →
    s.place at_ = some .host → s.place (at_ + 8) = some .host → s.hostMissing (s.ringFunc q) at_ = false →
    s.hostMissing (s.ringFunc q) (at_ + 8) = false → s.badAt at_ 8 = none → s.badAt (at_ + 8) 120 = none →
    slotCurrent (BitVec.ofNat 64 (natOfBytes (s.readBytes at_ 8))) y.head.toNat y.size = true →
    let w := slotWordOf (s.readBytes at_ 8) (s.readBytes (at_ + 8) 120)
    let e := entryOf q ⟨y.era, y.head⟩ y.job w
    let u := s.setQueue q { y with recheckAt := s.now }
    let next := (y.head.toNat + 1) % y.span
    let taken := fun (t : State) => exec (.periodicRecheck q) s = .next t ∧ (t.queue q).head = BitVec.ofNat 32 next ∧ (t.queue q).stopped = false
    (5 ≤ slotKind w → ∃ t, exec (.periodicRecheck q) s = .next t ∧
      (t.queue q).status = statusWord y.head 1 y.failstop true ∧ (t.queue q).head = y.head ∧ (t.queue q).tail = y.tail) ∧
    (s.checkSlot q w = 0 → y.tail = BitVec.ofNat 32 next → s.lifeAdmits e = true → s.entry? q e.pos = none →
      (e.kind = .nop → e.cdone = 0 → e.csigValid = false → ∃ t, taken t ∧ t.entry? q e.pos = none ∧ (t.queue q).failstop = y.failstop) ∧
      (e.kind = .declare → e.declLevel = 1 → e.parent = 0 → y.failstop = false → s.ctrHeld e.lctr = false → ∃ t l, taken t ∧
        t.entry? q e.pos = some e ∧ t.level? .graph e.level e.job = some l ∧ l.members = e.teams.toNat ∧ l.joined = 0 ∧ l.opened = true ∧
        l.ctr = e.lctr ∧ ctrCount (t.ctr e.lctr) = 0 ∧ ctrError (t.ctr e.lctr) = false) ∧
      (e.kind = .declare → y.failstop = true → e.cdone = 0 → e.csigValid = false → ∃ t, taken t ∧ t.entry? q e.pos = none ∧
        ∀ l n j, t.level? l n j = s.level? l n j) ∧
      (e.kind = .launch ∨ e.kind = .data → (u.admission e).1 ≠ 0 → e.cdone = 0 → e.csigValid = false → ∃ t, taken t ∧ t.entry? q e.pos = none ∧
        (t.queue q).failstop = (y.failstop || (e.kind == .launch && y.qcfg.getLsbD 14))) ∧
      (∀ d, e.kind = .data → u.admission e = (0, d) → ∃ t, taken t ∧ t.entry? q e.pos = some { e with admitted := true, density := d }) ∧
      (∀ d ctr rec_, let die := s.schedulerOf (queueHome q)
        e.kind = .launch → e.level = 0 → u.admission e = (0, d) → u.freeCtr die = some ctr → u.freeRecord die (2 * bitmapBytes e.teams.toNat) = some rec_ →
          ∃ t l, taken t ∧ t.entry? q e.pos = some { e with admitted := true, density := d, running := !e.barrier } ∧
            t.launch? (u.nextLaunch die (s.launches.length + 1) (s.die die).launchCount).1 = some l ∧ l.ctr = ctr ∧ l.recordAt = rec_ ∧
            l.teams = [] ∧ l.complete = false ∧ l.entry = { e with admitted := true, density := d, running := !e.barrier } ∧
            ctrCount (t.ctr ctr) = 0))) ∧
  (∀ e : Entry, let z := s.queue e.queue
    let T := (s.die (s.schedulerOf (queueHome e.queue))).band e.band.toNat
    let fs := s.inBand (queueHome e.queue) e.band
    let dl := e.deadline.toNat
    let density := (e.budget.toNat * 1024 + (dl - s.now) - 1) / (dl - s.now)
    let closed := e.band.toNat < bitsN z.qcfg 16 6 ∨ bitsN z.qcfg 22 6 < e.band.toNat ∨ bitsN T 20 11 = 0
    let overBudget := e.budget = 0 ∨ 2 ^ bitsN T 58 6 < e.budget.toNat ∨
      (e.kind = .launch ∧ (e.tbudget = 0 ∨ e.budget.toNat < e.teams.toNat * e.tbudget.toNat))
    let thin := e.slice ≠ 0 ∧ e.slice.toNat < bitsN T 42 16
    let full := bitsN T 31 11 < (fs.map Entry.density).sum + density
    let short := ∃ x, (x = dl ∨ (dl < x ∧ ∃ f ∈ fs, f.deadline.toNat = x)) ∧
      bitsN T 20 11 * (x - s.now) / 1024 < e.budget.toNat + ((fs.filter fun f => decide (f.deadline.toNat ≤ x)).map s.remaining).sum
    let answer := (s.admission e).1
    (z.failstop = true → answer = 7) ∧ (z.failstop = false →
      (closed → answer = 5) ∧ (¬closed →
        (dl ≤ s.now → answer = 3) ∧ (s.now < dl →
          (overBudget → answer = 4) ∧ (¬overBudget → (thin → answer = 6) ∧ (¬thin → (full → answer = 1) ∧ (¬full →
            (short → answer = 2) ∧ (¬short → s.admission e = (0, density))))))))) ∧
  (y.stopped = false → ∀ i ∈ [Instr.resume q, .resumeSkip q], ∃ t, exec i s = .next t ∧ (t.queue q).status = setBits y.status 1 1 0 ∧
    (t.queue q).head = y.head) ∧
  (y.stopped = true → s.emergency ≠ .none ∨ y.head = y.tail → ∃ t, exec (.resume q) s = .next t ∧
    (t.queue q).status = setBits (setBits y.status 0 2 0) 16 8 0 ∧ (t.queue q).head = y.head) ∧
  (let e := entryOf q ⟨y.era, y.head⟩ y.job (BitVec.ofNat 1024 (natOfBytes (s.readBytes (y.slotAt y.head) 128)))
   y.stopped = true → s.emergency ≠ .none → s.place (y.slotAt y.head) = some .host → s.hostMissing (s.ringFunc q) (y.slotAt y.head) = false →
    s.badAt (y.slotAt y.head) 128 = none → s.entry? q e.pos = none → e.cdone = 0 → e.csigValid = false → ∃ t, exec (.resumeSkip q) s = .next t ∧
      (t.queue q).head = BitVec.ofNat 32 ((y.head.toNat + 1) % y.span) ∧ (t.queue q).stopped = false ∧ t.entry? q e.pos = none) ∧
  (y.stopped = true → s.place (y.slotAt y.head) = some .host → s.hostMissing (s.ringFunc q) (y.slotAt y.head) = true → ∃ t,
    exec (.resumeSkip q) s = .next t ∧ (t.queue q).head = y.head ∧ (t.queue q).stopped = true ∧ (t.queue q).skipping = true) ∧
  (let die := s.schedulerOf (queueHome q)
   let asked := fun (i : Instr) (l : Level) (num : BitVec 24) => ∀ own, s.cancelOwner l num y.job = some own →
    (own = die ∨ (s.mayPeer die own = true ∧ (s.die own).resetAt = none) → ∃ t, exec i s = .next t ∧
      (t.die own).cancels = (s.die own).cancels ++ [(l, num, y.job)]) ∧
    (own ≠ die → s.mayPeer die own = false ∨ (s.die own).resetAt ≠ none → ∃ t, exec i s = .next t ∧
      (t.die die).cancels = (s.die die).cancels ++ [(l, num, y.job)] ∧ (t.die own).cancels = (s.die own).cancels)
   (∀ id, s.launchAt q arg = some id → asked (.cmdCancelLaunch q arg) .launch id ∧ asked (.cmdCancelLevel q .launch arg) .launch id) ∧
   (s.launchAt q arg = none → exec (.cmdCancelLaunch q arg) s = .next s) ∧
   (lv ≠ .launch → asked (.cmdCancelLevel q lv arg) lv (arg.setWidth 24)))

/-- R376, R384, R385, R403, R404: a DATA entry whose block passes the command's checks, with no hazard on an older one, becomes a packet
on the core its block names or the lowest that fits, once that core is powered (R453); a hazard holds it. A BARRIER entry that is the
oldest of its queue starts. The end of an entry of no severed launch writes its completion word, and the scheduler forgets it. The model's
choices: that the block's CORE fixes the core (log entry 56), which of the cores that fit, and the wait for its power (log entry 102), the
rights of the block's read and of the completion word's write (log entry 52). -/
def Obligations.EntriesRunAndEnd : Prop := ∀ (s : State) (die : DieId) (i : Nat) (q : QueueId) (pos : SlotPos) (e : Entry),
  let unsevered := ∀ x ∈ s.launches, x.2.entry.queue = q → x.2.entry.pos = pos → x.2.severed = false
  let only := (s.entries.filter fun x => x.queue == q && x.pos.at_ == pos.at_) = [e] ∧ e.queue = q ∧ e.pos = pos
  (∀ pa k rest, (s.die die).interval.drop i = (q, pos) :: rest → s.entry? q pos = some e → e.running = false → e.ended = false → e.barrier = false →
    s.serves q = true → ((((s.die die).interval.take i).filterMap fun x => s.entry? x.1 x.2).any e.hazard) = false →
    s.wordAccess e .read e.kernel 64 = .ok pa → s.ccbTrap e.job (ccbOf (BitVec.ofNat 512 (s.readNat pa 64))) e.kernel = none →
    s.packetCore e (ccbOf (BitVec.ofNat 512 (s.readNat pa 64))) = some k →
    (s.powered k = false → exec (.dataEntryStart die i) s = .next (s.wakeFor k)) ∧
    (s.powered k = true → ∃ t p, exec (.dataEntryStart die i) s = .next t ∧
      (t.core k).packet = some p ∧ p.queue = q ∧ p.pos = pos ∧ p.job = e.job ∧ p.slot.st = .issued ∧ p.slot.prog = 0 ∧ p.wbud = e.wbud ∧
      p.slot.body.o0 = (ccbOf (BitVec.ofNat 512 (s.readNat pa 64))).d ∧ (∀ u, t.entry? q pos = some u → u.running = true) ∧
      ∀ a, pagesEnd ≤ a → t.byte a = s.byte a)) ∧
  (∀ rest, (s.die die).interval.drop i = (q, pos) :: rest → s.entry? q pos = some e →
    ((((s.die die).interval.take i).filterMap fun x => s.entry? x.1 x.2).any e.hazard) = true → exec (.dataEntryStart die i) s = .next s) ∧
  (∀ rest, (s.entries.filter fun x => x.queue == q) = e :: rest → e.queue = q → e.barrier = true → e.admitted = true → e.ended = false →
    ∃ t, exec (.barrierEntryStart q) s = .next t ∧
      t.entry? q e.pos = some { e with barrier := false, running := e.kind == .launch || e.running } ∧ ∀ a, t.byte a = s.byte a) ∧
  (∀ n, only → s.serves q = true → e.ended = false → s.packetHome q pos = none → s.entryOutcome e = some (0, n, none) →
    unsevered → e.cdone = 0 → e.csigValid = false → e.irq = false → ∃ t, exec (.entryEnd q pos.at_) s = .next t ∧ t.entry? q pos = none ∧
      t.outbox = s.outbox ∧ ∀ a, pagesEnd ≤ a → t.byte a = s.byte a) ∧
  (∀ pa, only → s.serves q = true → e.ended = true → unsevered → e.cdone ≠ 0 → e.csigValid = false → e.irq = false →
    s.wordAccess e .write e.cdone 8 = .ok pa → pagesEnd ≤ pa → ∃ t, exec (.entryEnd q pos.at_) s = .next t ∧ t.entry? q pos = none ∧
      t.readNat pa 8 = 2 ^ 63 + e.status.toNat * 2 ^ 48 + e.retired.toNat ∧ ∀ a, pagesEnd ≤ a → (a < pa ∨ pa + 8 ≤ a) → t.byte a = s.byte a)

/-- R368, R369, R370, R371, R373, R388: the PF's writes of a queue's configuration; a refused value leaves it; enabling a new ring starts it
at position 0; the event registers; the memory window's reads and writes reach the bytes its translation names; an access waits while the
package sleeps, and behind an access that waits; an answer to a page request lets its access go on. The model's choices: that later host
accesses wait behind a held one is log entries 55 and 68, and the event ring's header written at the enable is log entry 23. -/
def Obligations.HostWindows : Prop := ∀ (s : State) (f : FuncId) (q : QueueId) (v : BitVec 64) (off : BitVec 39) (data : List Byte) (size : Nat),
  let y := s.queue q
  let g := s.func f
  s.boot = .ready →
  (s.hostHeld ≠ [] → exec (.windowWrite f off data) s = .next { s with hostHeld := s.hostHeld ++ [⟨.windowWrite f off data, none⟩] }) ∧
  (s.hostHeld = [] → s.asleep = true → exec (.windowWrite f off data) s =
    .next (({ s with hostHeld := [⟨.windowWrite f off data, none⟩] } : State).wakePackage .active)) ∧
  (s.hostHeld = [] → s.asleep = false →
  (bitsN v 1 6 = 0 → y.enabled = false ∨ v = y.qaddr → exec (.qaddrWrite 0 q v) s = .next (s.setQueue q { y with qaddr := v, fresh := true })) ∧
  (bitsN v 1 6 ≠ 0 ∨ (y.enabled = true ∧ v ≠ y.qaddr) → ∃ t, exec (.qaddrWrite 0 q v) s = .next t ∧ t.queues = s.queues) ∧
  (f ≠ 0 → ∀ i ∈ [Instr.qaddrWrite f q v, .queueEnable f q v, .queueDisable f q v, .qcfgConfigure f q v], exec i s = .next s) ∧
  (y.enabled = false → qcfgBad y.qcfg v = false → v.getLsbD 63 = true → y.fresh = true → ∃ t, exec (.queueEnable 0 q v) s = .next t ∧
    (t.queue q).qcfg = v ∧ (t.queue q).head = 0 ∧ (t.queue q).tail = 0 ∧ (t.queue q).status = 0 ∧ (t.queue q).dbcnt = 0 ∧
    (t.queue q).lastfail = 0 ∧ (t.queue q).fresh = false ∧ (t.queue q).era = y.era + 1 ∧
    (s.place y.base = some .host → s.hostOut = [] → s.hostMissing y.func y.base = false → t.readBytes y.base 128 = List.replicate 128 0) ∧
    (s.place y.base = some .host → s.hostOut = [] → s.hostMissing y.func y.base = true → t.hostOut = [⟨y.func, y.base, List.replicate 128 0⟩] ∧
      ∀ p, t.byte p = s.byte p)) ∧
  (y.enabled = false → qcfgBad y.qcfg v = false → v.getLsbD 63 = true → y.fresh = false →
    exec (.queueEnable 0 q v) s = .next (s.setQueue q { y with qcfg := v })) ∧
  (y.enabled = true → qcfgBad y.qcfg v = false → v.getLsbD 63 = false → exec (.queueDisable 0 q v) s = .next (s.setQueue q { y with qcfg := v })) ∧
  (qcfgBad y.qcfg v = false → v.getLsbD 63 = false → exec (.qcfgConfigure 0 q v) s = .next (s.setQueue q { y with qcfg := v })) ∧
  (qcfgBad y.qcfg v = true → ∃ t, exec (.qcfgConfigure 0 q v) s = .next t ∧ t.queues = s.queues) ∧
  (bitsN v 4 59 = 0 → 4 ≤ bitsN v 0 4 → v.getLsbD 63 = false ∨ g.evcfg.getLsbD 63 = true → exec (.evcfgWrite f v) s = .next (s.setFunc f { g with evcfg := v })) ∧
  (bitsN v 4 59 = 0 → 4 ≤ bitsN v 0 4 → v.getLsbD 63 = true → g.evcfg.getLsbD 63 = false → ∃ t, exec (.evcfgWrite f v) s = .next t ∧
    (t.func f).evcfg = v ∧ (s.hostOut = [] → s.hostMissing f g.ring = false → t.readNat g.ring 4 = g.prod.toNat)) ∧
  (bitsN v 4 59 ≠ 0 ∨ bitsN v 0 4 < 4 → ∃ t, exec (.evcfgWrite f v) s = .next t ∧ (t.func f).evcfg = g.evcfg) ∧
  (v.getLsbD 32 = false → exec (.evconsWrite f v) s = .next (s.setFunc f { g with evcons := zext64 (v.setWidth 32) })) ∧
  (∃ t, exec (.ackovf f) s = .next t ∧ (t.func f).ovf = false ∧ (t.func f).prod = g.prod ∧ (t.func f).dropped = g.dropped) ∧
  (∀ o : BitVec 18, o.toNat = 0x2_0010 + 32 * q.val → exec (.registerWrite 0 o 8 v) s =
    .next (s.setQueue q { y with qdb := zext64 (v.setWidth 19) })) ∧
  (exec (.registerWrite f 0x3_0000 8 v) s = .next (s.setFunc f { g with evbase := v &&& ~~~31 })) ∧
  (∀ o : BitVec 18, registerAccessOk o.toNat size = false → ∃ t, exec (.registerWrite f o size v) s = .next t ∧ t.queues = s.queues) ∧
  (∀ runs, s.windowPlaces f .read (pieces (zext64 off) size) = .ok runs →
    (runs.findSome? fun r => s.badAt r.1 r.2) = none → ∃ t, exec (.windowRead f off size) s = .next t ∧
      t.outbox = ((s.windowWalks f (pieces (zext64 off) size)).readAll runs).outbox ++ [.windowData (runs.flatMap fun r => s.readBytes r.1 r.2)] ∧
      (∀ c, t.core c = s.core c) ∧ ∀ a, pagesEnd ≤ a → t.byte a = s.byte a) ∧
  (∀ pa, s.windowPlaces f .write (pieces (zext64 off) data.length) = .ok [(pa, data.length)] → pagesEnd ≤ pa →
    ∃ t, exec (.windowWrite f off data) s = .next t ∧ t.readBytes pa data.length = data ∧
      ∀ a, pagesEnd ≤ a → (a < pa ∨ pa + data.length ≤ a) → t.byte a = s.byte a) ∧
  (∀ j p rest c h n, s.pri.drop j = p :: rest → p.use = .engine c h n →
    exec (.priResponse j true) s = .next { s with pri := s.pri.eraseIdx j, hostAbsent := FMap.set s.hostAbsent false (p.addr / 4096) false } ∧
    (((s.core c).slot h n.val).st = .issued → ∃ t, exec (.priResponse j false) s = .next t ∧ ((t.core c).slot h n.val).st = .parked ∧
      t.pri = s.pri.eraseIdx j)))

/-! ### 15, 19: translation, firmware's services, the loader -/

/-- R80, R81, R410, R411, R412, R414: the oldest walk that fits starts; a walk that ends fills the TLBs of the unit that asked and ends its
hold; one that finds no valid entry raises FAULT at the instruction, and one whose table no die answers for 100 ms raises MEMERR; a walk
begins at the root of its job where the cluster holds no upper-level entry; a shootdown's invalidation removes its translations and the
entries above them from every TLB of a cluster and spends a permit of the command link each way, and its answer comes when every leaf has
acknowledged. The model's choice: which links' permits an invalidation spends, both ways at once, is log entry 59. -/
def Obligations.TranslationAndShootdown : Prop := ∀ (s : State) (die : DieId) (i : Nat) (cl : ClusterId) (w : Walk) (rest : List Walk) (x : CtxId),
  let d := s.die die
  let outcome := s.clusterWalk (coreCluster w.core) w.job w.va
  let walked := s.clusterWalked (coreCluster w.core) w.job w.va
  (∀ job va, (s.cluster cl).upper = [] → s.clusterWalk cl job va = s.walk job va) ∧
  (d.walks = w :: rest → d.walkFits w = true → ∃ t, exec (.walkStart die) s = .next t ∧ (t.die die).walks = { w with running := true } :: rest ∧
    ∀ a, t.byte a = s.byte a) ∧
  ((∀ v ∈ d.walks, d.walkFits v = false) → ∃ t, exec (.walkStart die) s = .next t ∧ (t.die die).walks = d.walks) ∧
  (d.walks.drop i = w :: rest → w.running = true → w.unit = .data x →
    (∀ e, outcome = .hit e → ∃ t, exec (.walkComplete die i) s = .next t ∧ (t.die die).walks = d.walks.eraseIdx i ∧
      e ∈ (t.core w.core).l1tlb ∧
      { e with pn := e.pn && decide (((s.cluster (coreCluster w.core)).tlb.filter fun y => y.pn).length < 512) } ∈
        (t.cluster (coreCluster w.core)).tlb ∧
      ((s.ctx ⟨w.core, x⟩).holdsOn w.va = true → (t.ctx ⟨w.core, x⟩).wait = none ∧ (t.ctx ⟨w.core, x⟩).pc = (s.ctx ⟨w.core, x⟩).pc) ∧
      ∀ a, pagesEnd ≤ a → t.byte a = s.byte a) ∧
    (outcome = .fault → (s.ctx ⟨w.core, x⟩).holdsOn w.va = true → exec (.walkComplete die i) s =
      .next ((walked.dropWalk die i).raise ⟨w.core, x⟩ ⟨0x04, 0, w.va, 0, none⟩ (s.ctx ⟨w.core, x⟩).pc)) ∧
    (outcome = .prot → (s.ctx ⟨w.core, x⟩).holdsOn w.va = true → exec (.walkComplete die i) s =
      .next ((walked.dropWalk die i).raise ⟨w.core, x⟩ ⟨0x05, 0, w.va, 0, none⟩ (s.ctx ⟨w.core, x⟩).pc)) ∧
    (∀ pa t0 h, outcome = .onDie h pa → w.since = some (pa, t0) → (s.ctx ⟨w.core, x⟩).holdsOn w.va = true →
      exec (.walkComplete die i) s = .next s ∧
      (t0 + 360000000 ≤ s.now → exec (.walkDieTimeout die i) s =
        .next ((s.dropWalk die i).raise ⟨w.core, x⟩ ⟨0x07, 0, w.va, infoPhys pa, none⟩ (s.ctx ⟨w.core, x⟩).pc)) ∧
      (s.now < t0 + 360000000 → exec (.walkDieTimeout die i) s = .next s))) ∧
  (∀ h, (s.shootdowns.find? fun d => d.owing.contains cl.val) = some h → (s.die (clusterDie cl)).resetAt = none →
    s.mayPeer s.mainDie (clusterDie cl) = true → s.mayPeer (clusterDie cl) s.mainDie = true →
    (s.die (clusterDie cl)).permitsLeft (linkOf cl) ≠ 0 → (s.die (clusterDie cl)).permitsLeft (linkOf cl + 12) ≠ 0 → ∃ t, exec (.shootdownInvalidate cl) s = .next t ∧
      t.shootdowns = ackFirst cl.val s.shootdowns ∧
      (t.die (clusterDie cl)).permitsLeft (linkOf cl) = (s.die (clusterDie cl)).permitsLeft (linkOf cl) - 1 ∧
      (t.die (clusterDie cl)).permitsLeft (linkOf cl + 12) = (s.die (clusterDie cl)).permitsLeft (linkOf cl + 12) - 1 ∧
      (∀ e ∈ (t.cluster cl).tlb, h.hits e = false) ∧ (∀ e ∈ (t.cluster cl).upper, h.hits e = false) ∧ (∀ c ∈ coresOf cl, ∀ e ∈ (t.core c).l1tlb, h.hits e = false) ∧
      (∀ c ∈ coresOf cl, ∀ g, ∀ e ∈ (t.core c).tlb g, h.hits e = false)) ∧
  ((s.die (clusterDie cl)).permitsLeft (linkOf cl) = 0 ∨ (s.die (clusterDie cl)).permitsLeft (linkOf cl + 12) = 0 → exec (.shootdownInvalidate cl) s = .next s) ∧
  (∀ h more, s.shootdowns = h :: more →
    (h.owing = [] → exec .shootdownComplete s = .next { s with
      shootdowns := more, outbox := if h.answer then s.outbox ++ [.doe 3 0 []] else s.outbox }) ∧
    (h.owing ≠ [] → exec .shootdownComplete s = .next s))

/-- R335, R393, R413, R415, R416, R425, R426: what each service answers. A MAP that may be done is entered among the job's mappings, or
taken out of them, and its shootdown begins; it waits while the die that holds the tables is under reset; a write of a band entry or of
MKRT that may stand is taken from its message; permits return up to the link's full number; a heartbeat is sent every 10 µs. While the
package sleeps every request waits for its exit (R453). The model's choices: the 99 bytes of DESCRIPTOR are log entry 22, STATUS 1 and the
MAP that waits log entry 58, the links whose permits are spent log entry 59. -/
def Obligations.FirmwareServices : Prop := ∀ (s : State) (nonce : BitVec 256) (q : MapReq) (r : ConfigReq) (die : DieId) (cl : ClusterId) (link : Fin 12),
  let d := s.die die
  let c := s.cluster cl
  let answer := fun (type status : Nat) (body : List Byte) => ({ s with outbox := s.outbox ++ [.doe type status body] } : State)
  let held := fun (y : DoeReq) => (({ s with doeHeld := s.doeHeld ++ [y] } : State).wakePackage .active)
  (s.asleep = true → exec .descriptor s = .next (held .descriptor) ∧ exec (.colophon nonce) s = .next (held (.colophon nonce)) ∧
    exec (.map q) s = .next (held (.map q)) ∧ exec (.config r) s = .next (held (.config r))) ∧
  (s.asleep = false →
  (∃ body, exec .descriptor s = .next (answer 1 0 body) ∧ body.length = 99 ∧ body.head? = some (BitVec.ofNat 8 s.boot.num)) ∧
  (s.boot = .ready → ∃ body, exec (.colophon nonce) s = .next (answer 2 0 body) ∧ body.length = 5949 ∧
    body.take 4 = [0x43, 0x4F, 0x4C, 0x4E]) ∧
  (s.boot ≠ .ready → exec (.colophon nonce) s = .next (answer 2 1 []) ∧ exec (.map q) s = .next (answer 3 1 []) ∧
    exec (.config r) s = .next (answer 5 1 [])) ∧
  (s.boot = .ready → s.mapOk q = false → exec (.map q) s = .next (answer 3 1 [])) ∧
  (s.boot = .ready → s.mapOk q = true → s.tablesAnswer = true → s.mapForbidden q = true → exec (.map q) s = .next (answer 3 2 [])) ∧
  (s.boot = .ready → s.mapOk q = true → s.tablesAnswer = false → exec (.map q) s = .next { s with mapHeld := s.mapHeld ++ [q] }) ∧
  (s.boot = .ready → s.mapOk q = true → s.tablesAnswer = true → s.mapForbidden q = false → ∃ t, exec (.map q) s = .next t ∧ t.outbox = s.outbox ∧
    t.shootdowns = s.shootdowns ++ [⟨q.job, q.va.toNat % 2 ^ 56, q.len.toNat, false, allClusters.map (fun c => c.val), true,
      if q.op = 2 then [] else s.physOf q.job q.va.toNat q.len.toNat⟩] ∧
    (q.op = 0 → ⟨q.job, q.va.toNat, q.len.toNat, q.pa.toNat⟩ ∈ t.maps) ∧
    (q.op = 1 → ∀ m ∈ t.maps, m.job = q.job → m.va + m.len ≤ q.va.toNat ∨ q.va.toNat + q.len.toNat ≤ m.va)) ∧
  (∀ b e, s.boot = .ready → ∃ t, exec (.config (.band die b e)) s = .next t ∧ (t.die die).bandReq = d.bandReq ++ [(b, e)]) ∧
  (∀ v, s.boot = .ready → ∃ t, exec (.config (.mkrt cl v)) s = .next t ∧ (t.cluster cl).mkrtReq = c.mkrtReq ++ [v])) ∧
  (∀ b e rest, d.bandReq = (b, e) :: rest → d.resetAt = none → s.mayPeer s.mainDie die = true → ∃ t, exec (.bandTableWrite die) s = .next t ∧
    (t.die die).bandReq = rest ∧ (s.mainDie ≠ die → (t.die s.mainDie).permitsLeft (peerLink s.mainDie die) =
      (s.die s.mainDie).permitsLeft (peerLink s.mainDie die) - 1) ∧
    t.outbox = s.outbox ++ [.doe 5 (if d.bandOk b e then 0 else 1) []] ∧
    (d.bandOk b e = true → (t.die die).band b = setBits e 0 4 0) ∧ (d.bandOk b e = false → (t.die die).bands = d.bands)) ∧
  (∀ v rest, c.mkrtReq = v :: rest → (s.die (clusterDie cl)).resetAt = none → s.mayPeer s.mainDie (clusterDie cl) = true →
    (s.die (clusterDie cl)).permitsLeft (linkOf cl) ≠ 0 → ∃ t, exec (.mkrtWrite cl) s = .next t ∧ (t.cluster cl).mkrtReq = rest ∧ (t.cluster cl).mkrt = (if mkrtOk v then v else c.mkrt) ∧
      t.outbox = s.outbox ++ [.doe 5 (if mkrtOk v then 0 else 1) []]) ∧
  (∃ t, exec (.permitReturn die link) s = .next t ∧ ∀ n ∈ [link.val, link.val + 12], (t.die die).permitsLeft n =
      min (permitsFull n) (d.permitsLeft n + FMap.get d.owed 0 n) ∧ FMap.get (t.die die).owed 0 n = 0) ∧
  (d.alive = true → d.resetAt = none → s.boot = .ready → s.cutOff die = false → (∀ e ∈ otherDies die, s.mayPeer die e = true) →
    d.heard + 36000 ≤ s.now → ∃ t, exec (.heartbeat die) s = .next t ∧
    (t.die die).heard = s.now ∧ t.outbox = s.outbox ++ [.heartbeat die]) ∧
  (s.now < d.heard + 36000 → exec (.heartbeat die) s = .next s)

/-- R347, R353: an object that fails a check maps nothing and is reported with its code; one that passes has its text at its physical
place, mapped, and stands among the objects with its kernels (here: of a text section alone). Unloading takes it away once
no launch of its job runs; that it waits while any launch of the job has not ended is the model's choice (log entry 64). -/
def Obligations.LoadingObjects : Prop := ∀ (s : State) (job : BitVec 24) (image : List Byte) (text data const : W64) (i : Nat),
  let x : Loaded (List Byte) := ⟨sectionOf image 0x01, sectionOf image 0x02, sectionOf image 0x03⟩
  (s.boot = .ready → s.tablesAnswer = true → job ≠ 0 → s.rangesOk job ⟨text, data, const⟩ x = true →
    (∀ e, s.checkObject job image ⟨text, data, const⟩ = .error e → ∃ t a b bd lm, exec (.objectLoad job image text data const) s = .next t ∧
      t.maps = s.maps ∧ t.objects = s.objects ∧ t.chaseGrant = s.chaseGrant ∧ (∀ p, t.byte p = s.byte p) ∧
      t.outbox = s.outbox ++ [.report (BitVec.ofNat 32 e.code) (BitVec.ofNat 32 (e.kernel.getD 0xFFFF_FFFF)) a b bd lm]) ∧
    (∀ y ks pa, s.checkObject job image ⟨text, data, const⟩ = .ok (y, ks) → y.text ≠ [] → y.data = [] → y.const = [] →
      (s.grantChas job image).allocate (pagesLen y.text.length) = some pa → ∃ t, exec (.objectLoad job image text data const) s = .next t ∧
        t.objects = s.objects ++ [⟨job, text, y.text.length, data, 0, const, 0, ks⟩] ∧
        ⟨job, text.toNat, pagesLen y.text.length, pa⟩ ∈ t.maps ∧ t.readBytes pa y.text.length = y.text)) ∧
  (∀ o, (s.objects.filter fun o => o.job == job)[i]? = some o →
    (s.jobBusy job = true ∨ s.objectInUse o = true → exec (.objectUnload job i) s = .next s) ∧
    (s.jobBusy job = false → s.objectInUse o = false → s.tablesAnswer = true → ∃ t, exec (.objectUnload job i) s = .next t ∧ t.objects = s.objects.erase o ∧
      (0 < o.textLen → ∀ m ∈ t.maps, m.job = job → m.va + m.len ≤ o.text.toNat ∨ o.text.toNat + pagesLen o.textLen ≤ m.va)))

/-! ### 01, 19, 20, 21: dies, the package, reliability, power -/

/-- R53, R416-R419, R459: a die reset takes the state of its cores and clusters and leaves every byte outside its scratchpads; while no round
is open nothing more happens. Its return lets its memory answer again; 100 ms later its scheduler is no longer one that lives. A die that
was not heard for 50 µs is adopted by the next that lives, which takes its intervals; where its state's copy is lost too the work waits,
and its queues stop with READERR when the memory stays silent; one whose work another has already is reset, and its work stays there. (The
return is stated where nothing was left to be done for it and nothing is being cancelled.) The model's choices: that nothing adopts where no
die lives is log entry 69, and the 100 ms of every queue that waits for its ring log entry 65. -/
def Obligations.DieResets : Prop := ∀ (s : State) (die a : DieId) (q : QueueId),
  let d := s.die die
  let stop := fun (t : State) => (t.queue q).status = statusWord (s.queue q).head 6 (s.queue q).failstop true ∧ (t.queue q).head = (s.queue q).head
  let settled := ∀ g ∈ s.groups, g.2.opened = none ∧ ∀ e ∈ g.2.ends, ∀ x, e.2 = some x → x.owing = []
  (d.resetAt = none → settled → ∃ t, exec (.dieReset die) s = .next t ∧ (t.die die).resetAt = some s.now ∧
    (t.die die).walks = [] ∧ (∀ c, coreDie c = die → (t.core c).team = none ∧ (t.core c).l1tlb = [] ∧ (t.core c).tiles = []) ∧
    (∀ c, coreDie c ≠ die → (∀ r, (s.core c).team = some r → ∀ x ∈ s.imagesOn die, x.1 ≠ r.launch ∨ x.2.1 ≠ r.index) → t.core c = s.core c) ∧
    (∀ cl, clusterDie cl = die → (t.cluster cl).tlb = []) ∧
    ∀ p, pagesEnd ≤ p → (p < scratchBase (clusterOfNat (die.val * 8)) ∨ scratchBase (clusterOfNat (die.val * 8)) + 0x200_0000 ≤ p) → t.byte p = s.byte p) ∧
  (d.resetAt.isSome = true → exec (.dieReset die) s = .next s) ∧
  (d.resetAt.isSome = true → (∀ h, (s.die h).held = false) → s.mapHeld = [] → s.deferred = [] → (∀ x ∈ s.launches, x.2.stopping = false) →
    (∀ l ∈ s.levels, l.stopping = false) → ∃ t, exec (.dieReturn die) s = .next t ∧ (t.die die).resetAt = none ∧
    (t.die die).alive = true ∧ (t.die die).heard = s.now ∧ ∀ p, pagesEnd ≤ p → t.byte p = s.byte p) ∧
  (d.resetAt = none → exec (.dieReturn die) s = .next s) ∧
  (∀ t0, d.resetAt = some t0 →
    (t0 + 360000000 ≤ s.now → (∀ q, (s.queue q).skipping = false) → ∃ t, exec (.dieReturnTimeout die) s = .next t ∧ (t.die die).alive = false) ∧
    (s.now < t0 + 360000000 → exec (.dieReturnTimeout die) s = .next s)) ∧
  (d.adopter = none → d.heard + 180000 ≤ s.now → s.adopterFor die = none → exec (.adoption die) s = .next s) ∧
  ((d.adopter.isSome = true ∧ d.resetAt.isSome = true) ∨ s.now < d.heard + 180000 → exec (.adoption die) s = .next s) ∧
  (d.adopter.isSome = true → d.heard + 180000 ≤ s.now → d.resetAt = none → settled → ∃ t, exec (.adoption die) s = .next t ∧
    (t.die die).resetAt = some s.now ∧ (t.die die).adopter = d.adopter) ∧
  (d.adopter = none → d.heard + 180000 ≤ s.now → s.adopterFor die = some a → settled → s.launches = [] → s.queues = [] → s.levels = [] → s.deferred = [] →
    (∀ h, h ≠ die → (s.die h).adopter ≠ some die) → ∃ t, exec (.adoption die) s = .next t ∧ (t.die die).adopter = some a ∧
      (t.die a).interval = (s.die a).interval ++ d.interval ∧ ((t.die die).held = true ↔ a ≠ clockwise die 1)) ∧
  (s.memoryDue die = true → queueHome q = die → (∃ y, (q.val, y) ∈ s.queues) → (s.queue q).enabled = true → (s.queue q).stopped = false →
    ∃ t, exec (.adoptionMemoryTimeout die) s = .next t ∧ stop t) ∧
  (s.memoryDue die = false → exec (.adoptionMemoryTimeout die) s = .next s) ∧
  (∀ t0, (s.queue q).waitRing = some t0 →
    (t0 + 360000000 ≤ s.now → (s.queue q).skipping = false → ∃ t, exec (.queueRingTimeout q) s = .next t ∧ stop t ∧ (t.queue q).waitRing = none) ∧
    (s.now < t0 + 360000000 → exec (.queueRingTimeout q) s = .next s))

/-- R421-R424, R440: after a package reset every core is without a team, every queue is off and host memory is as it was; device memory reads
zero where the boot came past its wipe, and stands where an earlier step failed; the life-cycle state stands. LIFECYCLE is refused while
a queue is enabled, for another nonce, or where the transition is not allowed; else the state moves, and memory is wiped; while the package
sleeps it waits. The numbers 2 and 1 of a refusal's STATUS are the model's choice (log entry 58). -/
def Obligations.PackageResets : Prop := ∀ (s : State) (cause : ResetCause) (images : ImageCheck) (st im : Fin 8) (target : LifeState) (by_ : Signer)
    (nonce : BitVec 256),
  let fresh := fun (t : State) => (∀ c, (t.core c).team = none) ∧ (∀ q, (t.queue q).enabled = false) ∧ t.launches = [] ∧ t.jobs = [] ∧
    ∀ p, hostBase ≤ p → t.byte p = s.byte p
  let wiped := fun (t : State) => ∀ p, pagesEnd ≤ p → p < hostBase → t.byte p = 0
  (∃ t, exec (.packageReset cause images) s = .next t ∧ fresh t ∧ t.boot = s.bootEnd images ∧ t.lifecycle = s.lifecycle ∧ t.power = true ∧
    (4 ≤ t.boot.done → wiped t) ∧ (t.boot.done < 4 → ∀ p, pagesEnd ≤ p → t.byte p = s.byte p)) ∧
  (∃ t, exec (.packageReset cause .accepted) s = .next t ∧ (s.lifecycle = .retired → t.boot = .bootFail 3 0) ∧
    (s.lifecycle ≠ .retired → s.nv.tooOld = none → t.boot = .ready ∧ wiped t)) ∧
  (∃ t, exec (.packageReset cause (.rejected st im)) s = .next t ∧
    (st.val < 3 ∨ (s.lifecycle ≠ .retired ∧ s.nv.tooOld = none) → t.boot = .bootFail st im) ∧
    (3 ≤ st.val → s.lifecycle = .retired → t.boot = .bootFail 3 0) ∧
    (∀ n, 3 < st.val → s.lifecycle ≠ .retired → s.nv.tooOld = some n → ∃ k : Fin 8, k.val = n % 8 ∧ t.boot = .bootFail 3 k)) ∧
  (s.asleep = true → exec (.lifecycle target by_ nonce) s =
    .next (({ s with doeHeld := s.doeHeld ++ [.lifecycle target by_ nonce] } : State).wakePackage .active)) ∧
  (s.asleep = false →
  ((s.queues.any fun e => e.2.enabled) = true → ∃ t body, exec (.lifecycle target by_ nonce) s = .next t ∧ t.lifecycle = s.lifecycle ∧
    t.outbox = s.outbox ++ [.doe 4 2 body] ∧ t.queues = s.queues) ∧
  ((s.queues.any fun e => e.2.enabled) = false → nonce ≠ s.nv.nonce ∨ lifeMove s.nv s.lifecycle target by_ = none →
    ∃ t body, exec (.lifecycle target by_ nonce) s = .next t ∧ t.lifecycle = s.lifecycle ∧ t.outbox = s.outbox ++ [.doe 4 1 body] ∧ t.cores = s.cores) ∧
  (∀ nv, (s.queues.any fun e => e.2.enabled) = false → nonce = s.nv.nonce → lifeMove s.nv s.lifecycle target by_ = some nv →
    ∃ t body, exec (.lifecycle target by_ nonce) s = .next t ∧ t.lifecycle = target ∧ fresh t ∧ wiped t ∧ t.outbox = s.outbox ++ [.doe 4 0 body]))

/-- R431, R435, R441: a patrol read that reaches the memory finds what stands in a sector, and one that it corrects is counted once; a control
field's new value is taken where it is in range, else the field goes back, at a poll every 100 µs; a fabric link that dies is counted, and
one that returns, 1 s after its last error at the least. -/
def Obligations.Reliability : Prop := ∀ (s : State) (sector : BitVec 47) (r : SectorResult) (port : Fin 18),
  let pa := sector.toNat * 32
  let p := s.pages
  let dead := FMap.get s.deadLinks false port.val
  let polled := fun (ok : Bool) (new old : Nat) (of : State → Nat × Nat) => new ≠ old → s.polledAt + 360000 ≤ s.now →
    ∃ t, exec .controlPoll s = .next t ∧
    of t = (if ok then (new, new) else (old, old))
  (p.patrol = 0 ∨ isHbm pa = false ∨ s.cached pa = true → exec (.patrol sector r) s = .next s) ∧
  (let ce := pa / 2 ^ 36 % 8 * 4
   p.patrol ≠ 0 → isHbm pa = true → s.cached pa = false → s.sectorBad pa = false →
    (FMap.get s.soft false sector.toNat = false → exec (.patrol sector .clean) s = .next s) ∧
    (∃ t, exec (.patrol sector .corrected) s = .next t ∧ FMap.get t.pages.stack 0 ce = FMap.get p.stack 0 ce + 1 ∧
      FMap.get t.soft false sector.toNat = false ∧ ∀ a, pagesEnd ≤ a → t.byte a = s.byte a) ∧
    (s.reading pa 32 = false → ∃ t, exec (.patrol sector .uncorrectable) s = .next t ∧ t.sectorBad pa = true)) ∧
  (p.patrol ≠ 0 → isHbm pa = true → s.cached pa = false → s.sectorBad pa = true → exec (.patrol sector r) s = .next (s.uncorrectable pa)) ∧
  polled (decide (p.rawPatrol.toNat ≤ 168)) p.rawPatrol.toNat p.patrol.toNat (fun t => (t.pages.patrol.toNat, t.pages.rawPatrol.toNat)) ∧
  polled (decide (1 ≤ p.rawCethr.toNat ∧ p.rawCethr.toNat ≤ 255)) p.rawCethr.toNat p.cethr.toNat
    (fun t => (t.pages.cethr.toNat, t.pages.rawCethr.toNat)) ∧
  polled (decide (p.rawLtol.toNat ≤ 1000000)) p.rawLtol.toNat p.ltol.toNat (fun t => (t.pages.ltol.toNat, t.pages.rawLtol.toNat)) ∧
  polled (decide (p.rawSavebase.toNat % 4096 = 0)) p.rawSavebase.toNat p.savebase.toNat
    (fun t => (t.pages.savebase.toNat, t.pages.rawSavebase.toNat)) ∧
  (s.now < s.polledAt + 360000 → exec .controlPoll s = .next s) ∧
  (dead = false → ∃ t, exec (.linkDead port) s = .next t ∧ FMap.get t.deadLinks false port.val = true ∧
    FMap.get t.pages.ports 0 (port.val * 2) = FMap.get p.ports 0 (port.val * 2) + 1) ∧
  (let calm := FMap.get s.linkErrAt 0 port.val + 3600000000 ≤ s.now
   dead = true → exec (.linkDead port) s = .next { s with linkErrAt := FMap.set s.linkErrAt 0 port.val s.now } ∧
    (calm → ∃ t, exec (.linkRestore port) s = .next t ∧ FMap.get t.deadLinks false port.val = false ∧
      FMap.get t.pages.ports 0 (port.val * 2 + 1) = FMap.get p.ports 0 (port.val * 2 + 1) + 1) ∧
    (¬calm → exec (.linkRestore port) s = .next s)) ∧
  (dead = false → exec (.linkRestore port) s = .next s)

/-- R447-R450, R453-R457: a sensor round, 5 µs or more after the last, takes the table selected, sets the ratios by the first row that
matches, begins the emergency at its second hot round and trips at TRIP; a rail that has settled lets its ratio rise; the emergency
saves, then writes SAVEDONE and ends in DARK, and leaves it after 1 s below THR; clusters and the package enter the deepest state that
LTOL allows while they are idle, and leave it the exit latency after something asked for it. -/
def Obligations.PowerAndThermal : Prop := ∀ (s : State) (temps : List (BitVec 16)) (mw : BitVec 32) (cl : ClusterId) (u : Fin 33),
  let y := s.cluster cl
  let tb := s.tableNext
  let hot := (hottestSensor temps).1
  let powers := (s.powers ++ [mw]).drop (s.powers.length - 3)
  let busy := s.cores.any fun e => e.2.team.isSome || e.2.packet.any fun p => p.slot.st == .issued
  let latency : PowerState → Nat := fun p => match p with
    | .active => 0
    | .gated => 7200
    | .dark => 144000
    | .dormant => 2160000
    | .banked => 28800000
  (s.sensedAt + 18000 ≤ s.now → ∃ t, exec (.sensorRound temps mw) s = .next t ∧ t.table = tb ∧ t.powers = powers ∧ t.pages.pkgMw = mw ∧
    (tb.trip ≤ hot → t.power = false) ∧ (hot < tb.trip → t.power = s.power) ∧
    (hot < tb.emg → s.emergency = .none → y.power = .active →
      t.cluster cl = y.setRatio (ratioAfter tb (y.target.getD y.k) (hottest temps cl) (powers.foldl (fun n p => n + p.toNat) 0) powers.length) s.now) ∧
    (tb.emg ≤ hot → hot < tb.trip → 1 ≤ s.emgRounds → s.emergency = .none → t.emergency = .saving s.now s.pages.savebase false ∧ t.nv.saveBegin = true)) ∧
  (s.now < s.sensedAt + 18000 → exec (.sensorRound temps mw) s = .next s) ∧
  (∀ k, y.target = some k → y.power = .active → y.railNow s.now = 550 + 25 * k → ∃ t, exec (.railSettled cl) s = .next t ∧
    (t.cluster cl).k = k ∧ (t.cluster cl).railMv = 550 + 25 * k ∧ (t.cluster cl).target = none) ∧
  (∀ k, y.target = some k → y.railNow s.now ≠ 550 + 25 * k → ∃ t, exec (.railSettled cl) s = .next t ∧ t.cluster cl = y) ∧
  (∀ t0, s.overSince = some t0 → s.emergency = .none → t0 + 360000000 ≤ s.now → ∃ t, exec .airOverpower s = .next t ∧
    t.emergency = .saving s.now s.pages.savebase false) ∧
  (∀ t0, s.overSince = some t0 → s.now < t0 + 360000000 → exec .airOverpower s = .next s) ∧
  (∀ t0 base headed, s.emergency = .saving t0 base headed →
    (busy = true → exec .emergencySaveDone s = .next s) ∧
    (busy = false → base ≠ 0 → headed = false → ∃ t, exec .emergencySaveDone s = .next t ∧ t.emergency = .saving t0 base true ∧
      t.nv.saveDone = s.nv.saveDone ∧ (s.hostOut = [] → (s.func 0).ats = false → t.hostOut = [] ∧
        t.readNat (hostBase + base.toNat) 4 = 0x4556_4153 ∧ t.readNat (hostBase + base.toNat + 4) 4 = s.emgSaved.length % 2 ^ 32)) ∧
    (busy = false → base ≠ 0 → headed = true → s.hostOut ≠ [] → exec .emergencySaveDone s = .next s) ∧
    (busy = false → base = 0 ∨ (headed = true ∧ s.hostOut = []) → ∃ t, exec .emergencySaveDone s = .next t ∧ t.emergency = .dark s.now ∧
      t.nv.saveDone = true ∧ (∀ c, (t.cluster c).power = .dark ∧ (t.cluster c).railMv = 0) ∧ ∀ p, pagesEnd ≤ p → t.byte p = s.byte p)) ∧
  (∀ t0, s.emergency = .dark t0 → s.coolSince + 3600000000 ≤ s.now → bitsN s.hotid 32 16 < s.table.thr →
    exec .emergencyEnd s = .next { s with emergency := .none, emgRounds := 0 }) ∧
  (∀ t0, s.emergency = .dark t0 → s.now < s.coolSince + 3600000000 → exec .emergencyEnd s = .next s) ∧
  (unitCluster u = some cl →
    let st := clusterState s.pages.ltol.toNat
    (y.power.num < st.num → y.wake = none → s.clusterIdle cl = true → ∃ t, exec (.powerStateEntry u) s = .next t ∧
      (t.cluster cl).power = st ∧ (t.cluster cl).k = 0 ∧
      (if st = .dark then (t.cluster cl).railMv = 0 else (t.cluster cl).target = some 0 ∧ (t.cluster cl).railMv = y.railNow s.now)) ∧
    (s.clusterIdle cl = false ∨ y.wake.isSome = true → exec (.powerStateEntry u) s = .next s) ∧
    (y.wake = none → exec (.powerStateExit u) s = .next s) ∧
    (∀ t0 dest, y.wake = some (t0, dest) →
      (t0 + latency y.power ≤ s.now → s.asleep = false → ∃ t, exec (.powerStateExit u) s = .next t ∧ (t.cluster cl).power = dest ∧
        (t.cluster cl).wake = none ∧ ∀ d, d ≠ cl → t.cluster d = s.cluster d) ∧
      (s.now < t0 + latency y.power ∨ s.asleep = true → exec (.powerStateExit u) s = .next s))) ∧
  (unitCluster u = none →
    let st := packageState s.pages.ltol.toNat
    (s.pages.package.num < st.num → s.pages.wake = none → s.packageIdle = true → ∃ t, exec (.powerStateEntry u) s = .next t ∧ t.pages.package = st) ∧
    (s.packageIdle = false ∨ s.pages.wake.isSome = true → exec (.powerStateEntry u) s = .next s) ∧
    (s.pages.wake = none → exec (.powerStateExit u) s = .next s) ∧
    (∀ t0 dest, s.pages.wake = some (t0, dest) →
      (t0 + latency s.pages.package ≤ s.now → s.doeHeld = [] → ∃ t, exec (.powerStateExit u) s = .next t ∧ t.pages.package = dest ∧ t.pages.wake = none) ∧
      (s.now < t0 + latency s.pages.package → exec (.powerStateExit u) s = .next s))) ∧
  (exec .powerFail s = .next { s with power := false })

/-! ### 07, 08: encodings -/

/-- R217: `NOP` is one word and changes nothing but the pc; a CTL word with a field that its function does not use set is ILLEGAL
at its own address. -/
def Obligations.NopAndReservedControlFields : Prop :=
  (∀ w0 w1 : W32, decode w0 w1 = .ok .nop ↔ w0 = 0x0000_0013) ∧
  (∀ s : State, Goes .nop s (s.cx.pc + 4) none) ∧
  (∀ w0 w1 : W32, bitsN w0 0 8 = 0x13 →
    (if bitsN w0 26 6 = 1 then bitsN w0 8 6 ≠ 0 ∨ bitsN w0 20 6 ≠ 0 else if bitsN w0 26 6 = 5 then bitsN w0 20 6 ≠ 0 else bitsN w0 8 18 ≠ 0) →
    decodeOr w0 w1 = .illegalEncoding w0 ∧ ∀ s : State, Traps (.illegalEncoding w0) s 1 s.cx.pc)

/-- R172-R191: words worked in the manual, and words written out from its layouts, decode to what they stand for. -/
def Obligations.WorkedWords : Prop :=
  decode 0x4061_4403 0 = .ok (.fadd .rz 4 5 6) ∧ decode 0x6011_4403 0 = .ok (.fcvt .rz .fp32 .bf16 4 5) ∧
  decode 0x1C61_44C2 0 = .ok (.fma .rne 4 5 6 7) ∧ decode 0x30B2_80C8 2 = .ok (.ldq .word 0 10 11 12) ∧
  decode 0x0000_02C9 0x7D0 = .ok (.popq 2 0 ⟨false, 2000⟩) ∧
  decode 0x0034_0841 0 = .ok (.chAdd 200 16) ∧ decode 0x1000_0013 0 = .ok .eret ∧ decode 0x0000_40C3 0x66 = .ok (.loop 1 6 3) ∧
  decode 0xFFD0_8304 0 = .ok (.addi 3 2 0xFFD) ∧ decode 0x0020_C012 0 = .ok (.bc .eqz 3 2) ∧ decode 0xFFD0_0014 0 = .ok (.lend 0xFFD) ∧
  decode 0x0210_0420 0 = .ok (.csrr 4 0x021) ∧ decode 0x0C00_0013 0 = .ok .halt ∧ decode 0x0800_0013 0 = .ok .yield

/-- Every well-formed instruction with words of its own decodes from their bytes, in memory's order, to itself, with what follows them
left over (R4, R171-R191). -/
def Obligations.DecodeReadsEncodedBytes : Prop := ∀ (i : Instr) (rest : List Byte), wellFormed i = true →
  decodeBytes ((encode i).flatMap bytesOfWord ++ rest) = .ok (i, rest)

/-! ### The machine -/

/-- A step runs the decoded instruction (R192, R193, R207, R17): on its turn a core issues from the context that it chooses; one that alone is
ready is chosen. When the bytes at its pc, read through its translation, decode to `i`, the step is `exec` of `i` in the state that the
fetch leaves, then the stop of a pending pre-emption, the Proofreader's run, and the clk that pass; words that decode to nothing run as
`illegalEncoding`. A turn of an event is `exec` of the event. (Log entries 1 and 2: the agenda is the model's.) -/
def Obligations.StepRunsDecoded : Prop := ∀ (s v : State) (c : CoreId) (x : CtxId) (rest : List Turn) (i : Instr) (pa n : Nat) (e : TlbEntry),
  let a : State := { s with agenda := rest }
  let r : CtxRef := ⟨c, x⟩
  let u : State := { v with cur := r }
  let ready := fun (w : State) (va : W64) (pa : Nat) (e : TlbEntry) => w.translate c w.cx.priv .fetch va = .ok pa e ∧
    w.hostMissing (w.jobFunc w.cc.job) pa = false ∧ w.badAt pa 4 = none ∧ (tlbFind w.cc.l1tlb w.cc.job va).isSome = true
  let goes := fun (i : Instr) (w : State) => w.refusedWords i = true ∨ w.cx.pendingUse i = none → ∀ t, exec i w = .next t →
    step s = .next ((v.proofread r (t.settleStop r)).pass n) ∧ ((v.core c).proof = .none → step s = .next ((t.settleStop r).pass n))
  let one := u.touchLine c pa e.st
  ((a.core c).issuedAt ≠ some a.now → (a.cluster (coreCluster c)).regionAsk = none → a.isReady r = true → (a.ctx r).passOver = false →
    (∀ y : CtxId, y ≠ x → a.isReady ⟨c, y⟩ = false) → ∃ w, a.chooses c = (some x, w) ∧ (∀ d, w.ctx d = a.ctx d) ∧ w.mem = a.mem) ∧
  ((s.agenda = .issue c :: rest ∧ n = 1) ∨ (s.agenda = .issueNow c :: rest ∧ n = 0) → s.power = true → a.chooses c = (some x, v) →
    u.cc.resetting = false → u.cx.mayIssue = true → ¬(x = 0 ∧ u.cc.traps ≠ [] ∧ u.cx.atBoundary = true ∧ u.cc.trapsDue = true) →
    ready u u.cx.pc pa e →
    (isLongPrimary (u.read32 pa) = false → decode (u.read32 pa) 0 = .ok i → goes i one) ∧
    (isLongPrimary (u.read32 pa) = false → (∃ z, decode (u.read32 pa) 0 = .error z) → goes (.illegalEncoding (u.read32 pa)) one) ∧
    (∀ pb f, isLongPrimary (u.read32 pa) = true → ready one (u.cx.pc + 4) pb f → let two := one.touchLine c pb f.st
      (decode (u.read32 pa) (one.read32 pb) = .ok i → goes i two) ∧
      ((∃ z, decode (u.read32 pa) (one.read32 pb) = .error z) → goes (.illegalEncoding (u.read32 pa)) two))) ∧
  ((s.agenda = .issue c :: rest ∧ n = 1) ∨ (s.agenda = .issueNow c :: rest ∧ n = 0) → s.power = true → a.chooses c = (none, v) → step s = .next (v.pass n)) ∧
  ((s.agenda = .event i :: rest ∧ n = 1) ∨ (s.agenda = .eventNow i :: rest ∧ n = 0) → s.power = true → isEvent i = true →
    ∀ t, exec i a = .next t → step s = .next (t.pass n))

/-- R68, R69, R113, R220, R335, R393, R401, R423, R435: what reset leaves where the manual gives it: no team, registers and tiles zero, the
preloaded ligature tables, every byte of memory zero outside firmware's pages, counters zero, the tables of the managers and the
schedulers, the control fields. Memory is in its canonical form. That host memory holds zeros too is the model's choice (log entry 4). -/
def Obligations.ResetState : Prop :=
  let s := State.reset
  (∀ c x r, (s.core c).team = none ∧ (s.ctx ⟨c, x⟩).reg r = 0 ∧ (s.ctx ⟨c, x⟩).fpx = 0 ∧ (s.ctx ⟨c, x⟩).evl = 0) ∧
  (∀ c a r, (s.core c).workRow a r = 0 ∧ (s.core c).fmtQ = [] ∧ (s.core c).pending = .none ∧ (s.core c).stoff = 0 ∧ (s.core c).slip = 0 ∧
    (s.core c).vw = 0 ∧ (s.core c).lcnt = 0 ∧ (s.core c).lbase = 0 ∧ (s.core c).lring = 0 ∧ (s.core c).pwrl = 0 ∧ bitsN (s.core c).slice 16 16 = 128) ∧
  (∀ c, (s.core c).ligOf 0 = ligReal ∧ (s.core c).ligOf 1 = ligComplex ∧ (s.core c).ligOf 2 = ligSplit ∧ (s.core c).ligOf 3 = ligQuaternion ∧
    (s.core c).ligOf 4 = ligClifford ∧ (s.core c).ligOf 5 = ligReal ∧ (s.core c).ligOf 6 = ligReal ∧ (s.core c).ligOf 7 = ligReal) ∧
  (∀ p, pagesEnd ≤ p → s.byte p = 0) ∧ (∀ n, s.ctr n = 0) ∧ (∀ c, (s.cluster c).mkrt = 0x8888_8888_8886_4321) ∧
  (∀ d b, (s.die d).band b = 0x8001_0008_0100_4000) ∧ (∀ q, (s.queue q).enabled = false) ∧
  (∀ d, d < 4 → bitsN s.pages.scrubp (16 * d) 16 = 16) ∧ s.pages.patrol = 24 ∧ s.pages.cethr = 8 ∧ s.platen = 0 ∧ Memory.wf s

/-- Every step keeps memory in its canonical form (addresses rising, no listed byte zero), so that equal memories are equal data. -/
def Obligations.StepKeepsMemoryForm : Prop := ∀ (s t : State), Memory.wf s → step s = .next t → Memory.wf t

/-- R446: which table a report of the coolant selects, in 1/16 °C and 0.01 L/min, that none for 1 s selects air, and that the change takes
effect on the next sensor reading. -/
def Obligations.CoolantTables : Prop := ∀ (s : State) (kind : Coolant) (inlet flow : BitVec 16) (temps : List (BitVec 16)) (mw : BitVec 32),
  (∃ t, exec (.coolantReport kind inlet flow) s = .next t ∧ t.table = s.table ∧ t.tableNext =
    if kind = .immersion ∧ 400 ≤ flow.toNat ∧ inlet.toNat ≤ 50 * 16 then .immersion
    else if kind = .coldPlate ∧ 150 ≤ flow.toNat ∧ inlet.toNat ≤ 45 * 16 then .coldPlate else .air) ∧
  (s.reportAt + 1000000 * 3600 ≤ s.now → ∃ t, exec .coolantReportLoss s = .next t ∧ t.table = s.table ∧ t.tableNext = .air) ∧
  (s.sensedAt + 18000 ≤ s.now → ∃ t, exec (.sensorRound temps mw) s = .next t ∧ t.table = s.tableNext)
end

