-- ==== Sys2Proof/Laws/Encoding.lean ====
section
/-! SUPPORT. The fields of a packed word read back as they were put in, one lemma a field and a layout (07 R172-R187, R286, R292, R299),
and a code read back as the value it was made from. -/
namespace Sys2Proof

/-! ### Fields of words laid end to end -/

theorem extract_low {n m : Nat} (x : BitVec n) (y : BitVec m) (k len : Nat) (h : k + len ≤ m) :
    (x ++ y).extractLsb' k len = y.extractLsb' k len := by
  apply BitVec.eq_of_getLsbD_eq; intro i hi
  simp only [BitVec.getLsbD_extractLsb', BitVec.getLsbD_append, hi]
  rw [if_pos (by omega)]
theorem extract_high {n m : Nat} (x : BitVec n) (y : BitVec m) (k len : Nat) (h : m ≤ k) :
    (x ++ y).extractLsb' k len = x.extractLsb' (k - m) len := by
  apply BitVec.eq_of_getLsbD_eq; intro i hi
  simp only [BitVec.getLsbD_extractLsb', BitVec.getLsbD_append, hi]
  rw [if_neg (by omega), show k + i - m = k - m + i by omega]
theorem bit_low {n m : Nat} (x : BitVec n) (y : BitVec m) (k : Nat) (h : k < m) : (x ++ y).getLsbD k = y.getLsbD k := by
  rw [BitVec.getLsbD_append, if_pos h]
theorem bit_high {n m : Nat} (x : BitVec n) (y : BitVec m) (k : Nat) (h : m ≤ k) : (x ++ y).getLsbD k = x.getLsbD (k - m) := by
  rw [BitVec.getLsbD_append, if_neg (by omega)]
theorem extract_all {n : Nat} (x : BitVec n) : x.extractLsb' 0 n = x := BitVec.extractLsb'_eq_self
theorem bit_ofBool (b : Bool) : (BitVec.ofBool b).getLsbD 0 = b := by cases b <;> rfl

/-! ### Layout D -/

@[simp] theorem fOf_packD (f b a d : Reg) (op : BitVec 8) : fOf (packD f b a d op) = f := by
  simp (disch := decide) only [packD, fOf, extract_low, extract_high, bit_low, bit_high, extract_all, bit_ofBool, Nat.reduceSub]

@[simp] theorem bOf_packD (f b a d : Reg) (op : BitVec 8) : bOf (packD f b a d op) = b := by
  simp (disch := decide) only [packD, bOf, extract_low, extract_high, bit_low, bit_high, extract_all, bit_ofBool, Nat.reduceSub]

@[simp] theorem opOf_packD (f b a d : Reg) (op : BitVec 8) : opOf (packD f b a d op) = op := by
  simp (disch := decide) only [packD, opOf, extract_low, extract_high, bit_low, bit_high, extract_all, bit_ofBool, Nat.reduceSub]

@[simp] theorem dOf_packD (f b a d : Reg) (op : BitVec 8) : dOf (packD f b a d op) = d := by
  simp (disch := decide) only [packD, dOf, extract_low, extract_high, bit_low, bit_high, extract_all, bit_ofBool, Nat.reduceSub]

@[simp] theorem aOf_packD (f b a d : Reg) (op : BitVec 8) : aOf (packD f b a d op) = a := by
  simp (disch := decide) only [packD, aOf, extract_low, extract_high, bit_low, bit_high, extract_all, bit_ofBool, Nat.reduceSub]

/-! ### Layout I -/

@[simp] theorem immOf_packI (imm : BitVec 12) (a d : Reg) (op : BitVec 8) : immOf (packI imm a d op) = imm := by
  simp (disch := decide) only [packI, immOf, extract_low, extract_high, bit_low, bit_high, extract_all, bit_ofBool, Nat.reduceSub]

@[simp] theorem opOf_packI (imm : BitVec 12) (a d : Reg) (op : BitVec 8) : opOf (packI imm a d op) = op := by
  simp (disch := decide) only [packI, opOf, extract_low, extract_high, bit_low, bit_high, extract_all, bit_ofBool, Nat.reduceSub]

@[simp] theorem dOf_packI (imm : BitVec 12) (a d : Reg) (op : BitVec 8) : dOf (packI imm a d op) = d := by
  simp (disch := decide) only [packI, dOf, extract_low, extract_high, bit_low, bit_high, extract_all, bit_ofBool, Nat.reduceSub]

@[simp] theorem aOf_packI (imm : BitVec 12) (a d : Reg) (op : BitVec 8) : aOf (packI imm a d op) = a := by
  simp (disch := decide) only [packI, aOf, extract_low, extract_high, bit_low, bit_high, extract_all, bit_ofBool, Nat.reduceSub]

/-! ### Layout IS -/

@[simp] theorem scope_packIS (s : BitVec 3) (off : BitVec 9) (a d : Reg) (op : BitVec 8) : (packIS s off a d op).extractLsb' 29 3 = s := by
  simp (disch := decide) only [packIS, extract_low, extract_high, bit_low, bit_high, extract_all, bit_ofBool, Nat.reduceSub]

@[simp] theorem off_packIS (s : BitVec 3) (off : BitVec 9) (a d : Reg) (op : BitVec 8) : (packIS s off a d op).extractLsb' 20 9 = off := by
  simp (disch := decide) only [packIS, extract_low, extract_high, bit_low, bit_high, extract_all, bit_ofBool, Nat.reduceSub]

@[simp] theorem opOf_packIS (s : BitVec 3) (off : BitVec 9) (a d : Reg) (op : BitVec 8) : opOf (packIS s off a d op) = op := by
  simp (disch := decide) only [packIS, opOf, extract_low, extract_high, bit_low, bit_high, extract_all, bit_ofBool, Nat.reduceSub]

@[simp] theorem dOf_packIS (s : BitVec 3) (off : BitVec 9) (a d : Reg) (op : BitVec 8) : dOf (packIS s off a d op) = d := by
  simp (disch := decide) only [packIS, dOf, extract_low, extract_high, bit_low, bit_high, extract_all, bit_ofBool, Nat.reduceSub]

@[simp] theorem aOf_packIS (s : BitVec 3) (off : BitVec 9) (a d : Reg) (op : BitVec 8) : aOf (packIS s off a d op) = a := by
  simp (disch := decide) only [packIS, aOf, extract_low, extract_high, bit_low, bit_high, extract_all, bit_ofBool, Nat.reduceSub]

/-! ### Layout IA -/

@[simp] theorem scope_packIA (s : BitVec 3) (z : BitVec 2) (off : BitVec 7) (a d : Reg) (op : BitVec 8) : (packIA s z off a d op).extractLsb' 29 3 = s := by
  simp (disch := decide) only [packIA, extract_low, extract_high, bit_low, bit_high, extract_all, bit_ofBool, Nat.reduceSub]

@[simp] theorem size_packIA (s : BitVec 3) (z : BitVec 2) (off : BitVec 7) (a d : Reg) (op : BitVec 8) : (packIA s z off a d op).extractLsb' 27 2 = z := by
  simp (disch := decide) only [packIA, extract_low, extract_high, bit_low, bit_high, extract_all, bit_ofBool, Nat.reduceSub]

@[simp] theorem off_packIA (s : BitVec 3) (z : BitVec 2) (off : BitVec 7) (a d : Reg) (op : BitVec 8) : (packIA s z off a d op).extractLsb' 20 7 = off := by
  simp (disch := decide) only [packIA, extract_low, extract_high, bit_low, bit_high, extract_all, bit_ofBool, Nat.reduceSub]

@[simp] theorem opOf_packIA (s : BitVec 3) (z : BitVec 2) (off : BitVec 7) (a d : Reg) (op : BitVec 8) : opOf (packIA s z off a d op) = op := by
  simp (disch := decide) only [packIA, opOf, extract_low, extract_high, bit_low, bit_high, extract_all, bit_ofBool, Nat.reduceSub]

@[simp] theorem dOf_packIA (s : BitVec 3) (z : BitVec 2) (off : BitVec 7) (a d : Reg) (op : BitVec 8) : dOf (packIA s z off a d op) = d := by
  simp (disch := decide) only [packIA, dOf, extract_low, extract_high, bit_low, bit_high, extract_all, bit_ofBool, Nat.reduceSub]

@[simp] theorem aOf_packIA (s : BitVec 3) (z : BitVec 2) (off : BitVec 7) (a d : Reg) (op : BitVec 8) : aOf (packIA s z off a d op) = a := by
  simp (disch := decide) only [packIA, aOf, extract_low, extract_high, bit_low, bit_high, extract_all, bit_ofBool, Nat.reduceSub]

/-! ### Layout IC -/

@[simp] theorem off_packIC (off : BitVec 14) (z : BitVec 2) (d : Reg) (op : BitVec 8) : (packIC off z d op).extractLsb' 16 14 = off := by
  simp (disch := decide) only [packIC, extract_low, extract_high, bit_low, bit_high, extract_all, bit_ofBool, Nat.reduceSub]

@[simp] theorem size_packIC (off : BitVec 14) (z : BitVec 2) (d : Reg) (op : BitVec 8) : (packIC off z d op).extractLsb' 14 2 = z := by
  simp (disch := decide) only [packIC, extract_low, extract_high, bit_low, bit_high, extract_all, bit_ofBool, Nat.reduceSub]

@[simp] theorem opOf_packIC (off : BitVec 14) (z : BitVec 2) (d : Reg) (op : BitVec 8) : opOf (packIC off z d op) = op := by
  simp (disch := decide) only [packIC, opOf, extract_low, extract_high, bit_low, bit_high, extract_all, bit_ofBool, Nat.reduceSub]

@[simp] theorem dOf_packIC (off : BitVec 14) (z : BitVec 2) (d : Reg) (op : BitVec 8) : dOf (packIC off z d op) = d := by
  simp (disch := decide) only [packIC, dOf, extract_low, extract_high, bit_low, bit_high, extract_all, bit_ofBool, Nat.reduceSub]

/-! ### Layout J -/

@[simp] theorem off_packJ (off : BitVec 24) (op : BitVec 8) : (packJ off op).extractLsb' 8 24 = off := by
  simp (disch := decide) only [packJ, extract_low, extract_high, bit_low, bit_high, extract_all, bit_ofBool, Nat.reduceSub]

@[simp] theorem opOf_packJ (off : BitVec 24) (op : BitVec 8) : opOf (packJ off op) = op := by
  simp (disch := decide) only [packJ, opOf, extract_low, extract_high, bit_low, bit_high, extract_all, bit_ofBool, Nat.reduceSub]

/-! ### Layout H -/

@[simp] theorem opOf_packH (ctr : BitVec 18) (a : Reg) (op : BitVec 8) : opOf (packH ctr a op) = op := by
  simp (disch := decide) only [packH, opOf, extract_low, extract_high, bit_low, bit_high, extract_all, bit_ofBool, Nat.reduceSub]

@[simp] theorem aOf_packH (ctr : BitVec 18) (a : Reg) (op : BitVec 8) : aOf (packH ctr a op) = a := by
  simp (disch := decide) only [packH, aOf, extract_low, extract_high, bit_low, bit_high, extract_all, bit_ofBool, Nat.reduceSub]

theorem ctrOf_packH (ctr : BitVec 18) (a : Reg) (op : BitVec 8) : ctrOf (packH ctr a op) = ctr := by
  simp (disch := decide) only [ctrOf, packH, extract_low, extract_high, extract_all, Nat.reduceSub]
  apply BitVec.eq_of_getLsbD_eq; intro i hi
  simp only [BitVec.getLsbD_append, BitVec.getLsbD_extractLsb']
  by_cases h : i < 6
  · simp [h]
  · by_cases h2 : i < 12
    · simp [h, show i - 6 < 6 by omega, show 6 + (i - 6) = i by omega]
    · simp [h, show ¬ i - 6 < 6 by omega, show i - 6 - 6 < 6 by omega, show 12 + (i - 6 - 6) = i by omega]

/-! ### Second words: VOP -/

@[simp] theorem hb_packV (v : VForm) : (packV v).getLsbD 30 = v.hb := by
  simp (disch := decide) only [packV, extract_low, extract_high, bit_low, bit_high, extract_all, bit_ofBool, Nat.reduceSub]

@[simp] theorem ha_packV (v : VForm) : (packV v).getLsbD 29 = v.ha := by
  simp (disch := decide) only [packV, extract_low, extract_high, bit_low, bit_high, extract_all, bit_ofBool, Nat.reduceSub]

@[simp] theorem mode_packV (v : VForm) : (packV v).extractLsb' 27 2 = v.mode := by
  simp (disch := decide) only [packV, extract_low, extract_high, bit_low, bit_high, extract_all, bit_ofBool, Nat.reduceSub]

@[simp] theorem ty_packV (v : VForm) : (packV v).extractLsb' 24 3 = v.ty.code := by
  simp (disch := decide) only [packV, extract_low, extract_high, bit_low, bit_high, extract_all, bit_ofBool, Nat.reduceSub]

@[simp] theorem nrow_packV (v : VForm) : (packV v).extractLsb' 18 6 = v.nrow := by
  simp (disch := decide) only [packV, extract_low, extract_high, bit_low, bit_high, extract_all, bit_ofBool, Nat.reduceSub]

@[simp] theorem brow_packV (v : VForm) : (packV v).extractLsb' 12 6 = v.brow := by
  simp (disch := decide) only [packV, extract_low, extract_high, bit_low, bit_high, extract_all, bit_ofBool, Nat.reduceSub]

@[simp] theorem arow_packV (v : VForm) : (packV v).extractLsb' 6 6 = v.arow := by
  simp (disch := decide) only [packV, extract_low, extract_high, bit_low, bit_high, extract_all, bit_ofBool, Nat.reduceSub]

@[simp] theorem drow_packV (v : VForm) : (packV v).extractLsb' 0 6 = v.drow := by
  simp (disch := decide) only [packV, extract_low, extract_high, bit_low, bit_high, extract_all, bit_ofBool, Nat.reduceSub]

/-! ### Second words: MMA -/

@[simp] theorem srcb_packM (m : MmaForm) : (packM m).getLsbD 20 = m.srcb := by
  simp (disch := decide) only [packM, extract_low, extract_high, bit_low, bit_high, extract_all, bit_ofBool, Nat.reduceSub]

@[simp] theorem srca_packM (m : MmaForm) : (packM m).getLsbD 19 = m.srca := by
  simp (disch := decide) only [packM, extract_low, extract_high, bit_low, bit_high, extract_all, bit_ofBool, Nat.reduceSub]

@[simp] theorem tb_packM (m : MmaForm) : (packM m).getLsbD 18 = m.tb := by
  simp (disch := decide) only [packM, extract_low, extract_high, bit_low, bit_high, extract_all, bit_ofBool, Nat.reduceSub]

@[simp] theorem ta_packM (m : MmaForm) : (packM m).getLsbD 17 = m.ta := by
  simp (disch := decide) only [packM, extract_low, extract_high, bit_low, bit_high, extract_all, bit_ofBool, Nat.reduceSub]

@[simp] theorem cb_packM (m : MmaForm) : (packM m).getLsbD 16 = m.cb := by
  simp (disch := decide) only [packM, extract_low, extract_high, bit_low, bit_high, extract_all, bit_ofBool, Nat.reduceSub]

@[simp] theorem ca_packM (m : MmaForm) : (packM m).getLsbD 15 = m.ca := by
  simp (disch := decide) only [packM, extract_low, extract_high, bit_low, bit_high, extract_all, bit_ofBool, Nat.reduceSub]

@[simp] theorem pint_packM (m : MmaForm) : (packM m).extractLsb' 11 4 = m.pint := by
  simp (disch := decide) only [packM, extract_low, extract_high, bit_low, bit_high, extract_all, bit_ofBool, Nat.reduceSub]

@[simp] theorem acc_packM (m : MmaForm) : (packM m).extractLsb' 8 3 = m.acc := by
  simp (disch := decide) only [packM, extract_low, extract_high, bit_low, bit_high, extract_all, bit_ofBool, Nat.reduceSub]

@[simp] theorem alg_packM (m : MmaForm) : (packM m).extractLsb' 5 3 = m.alg := by
  simp (disch := decide) only [packM, extract_low, extract_high, bit_low, bit_high, extract_all, bit_ofBool, Nat.reduceSub]

@[simp] theorem shape_packM (m : MmaForm) : (packM m).extractLsb' 0 5 = m.shape := by
  simp (disch := decide) only [packM, extract_low, extract_high, bit_low, bit_high, extract_all, bit_ofBool, Nat.reduceSub]

/-! ### Second words: movers -/

@[simp] theorem pair_packMv (m : MvForm) : (packMv m).getLsbD 29 = m.pair := by
  simp (disch := decide) only [packMv, extract_low, extract_high, bit_low, bit_high, extract_all, bit_ofBool, Nat.reduceSub]

@[simp] theorem mode_packMv (m : MvForm) : (packMv m).extractLsb' 27 2 = m.mode := by
  simp (disch := decide) only [packMv, extract_low, extract_high, bit_low, bit_high, extract_all, bit_ofBool, Nat.reduceSub]

@[simp] theorem ty_packMv (m : MvForm) : (packMv m).extractLsb' 24 3 = m.ty.code := by
  simp (disch := decide) only [packMv, extract_low, extract_high, bit_low, bit_high, extract_all, bit_ofBool, Nat.reduceSub]

@[simp] theorem nrow_packMv (m : MvForm) : (packMv m).extractLsb' 18 6 = m.nrow := by
  simp (disch := decide) only [packMv, extract_low, extract_high, bit_low, bit_high, extract_all, bit_ofBool, Nat.reduceSub]

@[simp] theorem srow_packMv (m : MvForm) : (packMv m).extractLsb' 12 6 = m.srow := by
  simp (disch := decide) only [packMv, extract_low, extract_high, bit_low, bit_high, extract_all, bit_ofBool, Nat.reduceSub]

@[simp] theorem drow_packMv (m : MvForm) : (packMv m).extractLsb' 0 6 = m.drow := by
  simp (disch := decide) only [packMv, extract_low, extract_high, bit_low, bit_high, extract_all, bit_ofBool, Nat.reduceSub]

/-! ### Second words: ATM -/

@[simp] theorem off_packAtm (op : BitVec 3) (m : AtmForm) : (packAtm op m).extractLsb' 20 12 = m.off := by
  simp (disch := decide) only [packAtm, extract_low, extract_high, bit_low, bit_high, extract_all, bit_ofBool, Nat.reduceSub]

@[simp] theorem dbl_packAtm (op : BitVec 3) (m : AtmForm) : (packAtm op m).getLsbD 8 = m.dbl := by
  simp (disch := decide) only [packAtm, extract_low, extract_high, bit_low, bit_high, extract_all, bit_ofBool, Nat.reduceSub]

@[simp] theorem scope_packAtm (op : BitVec 3) (m : AtmForm) : (packAtm op m).extractLsb' 5 3 = m.scope.code := by
  simp (disch := decide) only [packAtm, extract_low, extract_high, bit_low, bit_high, extract_all, bit_ofBool, Nat.reduceSub]

@[simp] theorem ord_packAtm (op : BitVec 3) (m : AtmForm) : (packAtm op m).extractLsb' 3 2 = m.ord.code := by
  simp (disch := decide) only [packAtm, extract_low, extract_high, bit_low, bit_high, extract_all, bit_ofBool, Nat.reduceSub]

@[simp] theorem fn_packAtm (op : BitVec 3) (m : AtmForm) : (packAtm op m).extractLsb' 0 3 = op := by
  simp (disch := decide) only [packAtm, extract_low, extract_high, bit_low, bit_high, extract_all, bit_ofBool, Nat.reduceSub]

/-! ### Second words: TOK -/

@[simp] theorem sv_packTok (t : TokForm) : (packTok t).getLsbD 31 = t.sv := by
  simp (disch := decide) only [packTok, extract_low, extract_high, bit_low, bit_high, extract_all, bit_ofBool, Nat.reduceSub]

@[simp] theorem wv_packTok (t : TokForm) : (packTok t).getLsbD 30 = t.wv := by
  simp (disch := decide) only [packTok, extract_low, extract_high, bit_low, bit_high, extract_all, bit_ofBool, Nat.reduceSub]

@[simp] theorem inc_packTok (t : TokForm) : (packTok t).extractLsb' 18 12 = t.inc := by
  simp (disch := decide) only [packTok, extract_low, extract_high, bit_low, bit_high, extract_all, bit_ofBool, Nat.reduceSub]

@[simp] theorem sctr_packTok (t : TokForm) : (packTok t).extractLsb' 0 18 = t.sctr := by
  simp (disch := decide) only [packTok, extract_low, extract_high, bit_low, bit_high, extract_all, bit_ofBool, Nat.reduceSub]

/-! ### Codes -/

theorem lwOf_packLW (w : LongWait) : lwOf (packLW w) = w := by
  simp (disch := decide) only [lwOf, packLW, extract_low, extract_all, bit_low, bit_high, Nat.reduceSub, bit_ofBool]
@[simp] theorem Scope.ofCode_code (s : Scope) : Scope.ofCode s.code = some s := by cases s <;> rfl
@[simp] theorem Size.ofCode_code (z : Size) : Size.ofCode z.code = z := by cases z <;> rfl
@[simp] theorem Rnd.ofCode_code (m : Rnd) : Rnd.ofCode m.code = m := by cases m <;> rfl
@[simp] theorem Level.ofCode_code (l : Level) : Level.ofCode l.code = l := by cases l <;> rfl
@[simp] theorem AtmOrd.ofCode_code (o : AtmOrd) : AtmOrd.ofCode o.code = o := by cases o <;> rfl
@[simp] theorem VTy.ofCode_code (t : VTy) : VTy.ofCode? t.code = some t := by cases t <;> rfl
@[simp] theorem Cond.ofCode_code (c : Cond) : Cond.ofCode c.code = some c := by cases c <;> rfl
@[simp] theorem CvtTy.ofCode_code (t : CvtTy) : CvtTy.ofCode t.code = some t := by cases t <;> rfl

end Sys2Proof
end

