-- ==== Sys2Proof/Laws/Store.lean ====
section
/-! SUPPORT. The laws of sparse stores: a read after a write, other keys kept, and the canonical form kept by every
operation. The first two hold of every store, canonical or not. -/
namespace Sys2Proof.Machine

variable {α : Type}

/-! ### Reading what was written -/

@[simp] theorem FMap.get_nil (d : α) (k : Nat) : FMap.get [] d k = d := rfl

theorem FMap.get_insert_same (m : FMap α) (d v : α) (k : Nat) : FMap.get (FMap.insert m k v) d k = v := by
  induction m with
  | nil => simp [FMap.insert, FMap.get]
  | cons e rest ih =>
    obtain ⟨j, w⟩ := e
    unfold FMap.insert
    split
    · simp [FMap.get]
    · split
      · simp [FMap.get]
      · next h _ => simp [FMap.get, h, ih]

theorem FMap.get_insert_other (m : FMap α) (d v : α) {k i : Nat} (h : i ≠ k) :
    FMap.get (FMap.insert m k v) d i = FMap.get m d i := by
  induction m with
  | nil => simp [FMap.insert, FMap.get, Ne.symm h]
  | cons e rest ih =>
    obtain ⟨j, w⟩ := e
    unfold FMap.insert
    split
    · next hj => subst hj; simp [FMap.get, Ne.symm h]
    · split
      · simp [FMap.get, Ne.symm h]
      · simp only [FMap.get, ih]

/-- A listed key reads as what was put there. -/
@[simp] theorem FMap.get_insert (m : FMap α) (d v : α) (k i : Nat) :
    FMap.get (FMap.insert m k v) d i = if i = k then v else FMap.get m d i := by
  split
  · next h => subst h; exact get_insert_same m d v i
  · next h => exact get_insert_other m d v h

/-- An erased key reads as the default. -/
@[simp] theorem FMap.get_erase (m : FMap α) (d : α) (k i : Nat) :
    FMap.get (FMap.erase m k) d i = if i = k then d else FMap.get m d i := by
  induction m with
  | nil => simp [FMap.erase]
  | cons e rest ih =>
    obtain ⟨j, w⟩ := e
    unfold FMap.erase
    by_cases hj : j = k
    · subst hj
      simp only [if_true, ih, FMap.get]
      by_cases hi : i = j
      · simp [hi]
      · simp [hi, Ne.symm hi]
    · simp only [hj, if_false, FMap.get, ih]
      by_cases hi : i = k
      · simp [hi, hj]
      · simp [hi]

/-- A write is read back, and every other key reads as before. -/
@[simp] theorem FMap.get_set [DecidableEq α] (m : FMap α) (d v : α) (k i : Nat) :
    FMap.get (FMap.set m d k v) d i = if i = k then v else FMap.get m d i := by
  unfold FMap.set
  split
  · next h => simp [h]
  · simp

/-! ### The canonical form -/

theorem FMap.above_mono {m : FMap α} {j n : Nat} (h : FMap.above m n = true) (hj : j ≤ n) : FMap.above m j = true := by
  cases m with
  | nil => rfl
  | cons e rest =>
    obtain ⟨i, w⟩ := e
    simp only [FMap.above, decide_eq_true_eq] at h ⊢
    omega

theorem FMap.above_insert {m : FMap α} {n k : Nat} (v : α) (h : FMap.above m n = true) (hk : n < k) :
    FMap.above (FMap.insert m k v) n = true := by
  cases m with
  | nil => simpa [FMap.insert, FMap.above] using hk
  | cons e rest =>
    obtain ⟨j, w⟩ := e
    simp only [FMap.above, decide_eq_true_eq] at h
    unfold FMap.insert
    split
    · simpa [FMap.above] using hk
    · split
      · simpa [FMap.above] using hk
      · simpa [FMap.above] using h

theorem FMap.wf_tail_above [DecidableEq α] {d w : α} {j n : Nat} {rest : FMap α} (h : FMap.wf ((j, w) :: rest) d = true)
    (hn : n ≤ j) : FMap.above rest n = true := by
  simp only [FMap.wf, Bool.and_eq_true] at h
  exact FMap.above_mono h.1.2 hn

theorem FMap.above_erase [DecidableEq α] {m : FMap α} {d : α} {n : Nat} (k : Nat) (hw : FMap.wf m d = true) (h : FMap.above m n = true) :
    FMap.above (FMap.erase m k) n = true := by
  induction m with
  | nil => rfl
  | cons e rest ih =>
    obtain ⟨j, w⟩ := e
    have hj : n < j := by simpa [FMap.above] using h
    unfold FMap.erase
    split
    · refine ih ?_ (FMap.wf_tail_above hw (Nat.le_of_lt hj))
      simp only [FMap.wf, Bool.and_eq_true] at hw
      exact hw.2
    · simpa [FMap.above] using hj

theorem FMap.wf_insert [DecidableEq α] {m : FMap α} {d : α} {k : Nat} {v : α} (h : FMap.wf m d = true) (hv : v ≠ d) :
    FMap.wf (FMap.insert m k v) d = true := by
  induction m with
  | nil => simp [FMap.insert, FMap.wf, FMap.above, hv]
  | cons e rest ih =>
    obtain ⟨j, w⟩ := e
    have h' := h
    simp only [FMap.wf, Bool.and_eq_true, decide_eq_true_eq] at h'
    obtain ⟨⟨hw, ha⟩, hr⟩ := h'
    unfold FMap.insert
    split
    · next hjk => subst hjk; simp [FMap.wf, hv, ha, hr]
    · split
      · next hjk hkj =>
        rw [FMap.wf, Bool.and_eq_true, Bool.and_eq_true]
        exact ⟨⟨by simpa using hv, by simpa [FMap.above] using hkj⟩, h⟩
      · next hjk hkj =>
        have : FMap.above (FMap.insert rest k v) j = true := FMap.above_insert v ha (by omega)
        simp [FMap.wf, hw, this, ih hr]

theorem FMap.wf_erase [DecidableEq α] {m : FMap α} {d : α} (k : Nat) (h : FMap.wf m d = true) :
    FMap.wf (FMap.erase m k) d = true := by
  induction m with
  | nil => rfl
  | cons e rest ih =>
    obtain ⟨j, w⟩ := e
    have h' := h
    simp only [FMap.wf, Bool.and_eq_true, decide_eq_true_eq] at h'
    obtain ⟨⟨hw, ha⟩, hr⟩ := h'
    unfold FMap.erase
    split
    · exact ih hr
    · simp [FMap.wf, hw, FMap.above_erase k hr ha, ih hr]

/-- A write keeps the canonical form. -/
theorem FMap.wf_set [DecidableEq α] {m : FMap α} {d : α} (k : Nat) (v : α) (h : FMap.wf m d = true) :
    FMap.wf (FMap.set m d k v) d = true := by
  unfold FMap.set
  split
  · exact FMap.wf_erase k h
  · next hv => exact FMap.wf_insert h hv

theorem FMap.wf_setMany [DecidableEq α] {d : α} (vs : List α) : ∀ {m : FMap α} (k : Nat), FMap.wf m d = true →
    FMap.wf (FMap.setMany m d k vs) d = true := by
  induction vs with
  | nil => intro m k h; exact h
  | cons v rest ih => intro m k h; exact ih (k + 1) (FMap.wf_set k v h)

theorem FMap.above_filter [DecidableEq α] {m : FMap α} {d : α} {n : Nat} (p : Nat × α → Bool) (hw : FMap.wf m d = true)
    (h : FMap.above m n = true) : FMap.above (m.filter p) n = true := by
  induction m with
  | nil => rfl
  | cons e rest ih =>
    obtain ⟨j, w⟩ := e
    have hj : n < j := by simpa [FMap.above] using h
    have hr : FMap.wf rest d = true := by simp only [FMap.wf, Bool.and_eq_true] at hw; exact hw.2
    rw [List.filter_cons]
    split
    · simpa [FMap.above] using hj
    · exact ih hr (FMap.wf_tail_above hw (Nat.le_of_lt hj))

/-- Dropping entries keeps the canonical form. -/
theorem FMap.wf_filter [DecidableEq α] {m : FMap α} {d : α} (p : Nat × α → Bool) (h : FMap.wf m d = true) :
    FMap.wf (m.filter p) d = true := by
  induction m with
  | nil => rfl
  | cons e rest ih =>
    obtain ⟨j, w⟩ := e
    have h' := h
    simp only [FMap.wf, Bool.and_eq_true, decide_eq_true_eq] at h'
    obtain ⟨⟨hw, ha⟩, hr⟩ := h'
    rw [List.filter_cons]
    split
    · simp [FMap.wf, hw, FMap.above_filter p hr ha, ih hr]
    · exact ih hr

end Sys2Proof.Machine
end

