-- ==== Sys2Proof/Laws/State.lean ====
section
/-! SUPPORT. What each basic update leaves alone, one lemma a field, and what its own reader then gives. -/
namespace Sys2Proof.Machine

/-! ### setCore -/
@[simp] theorem State.setCore_platen (s : State) (c : CoreId) (k : Core) : (s.setCore c k).platen = s.platen := rfl
@[simp] theorem State.setCore_cur (s : State) (c : CoreId) (k : Core) : (s.setCore c k).cur = s.cur := rfl
@[simp] theorem State.setCore_agenda (s : State) (c : CoreId) (k : Core) : (s.setCore c k).agenda = s.agenda := rfl
@[simp] theorem State.setCore_draws (s : State) (c : CoreId) (k : Core) : (s.setCore c k).draws = s.draws := rfl
@[simp] theorem State.setCore_mem (s : State) (c : CoreId) (k : Core) : (s.setCore c k).mem = s.mem := rfl
@[simp] theorem State.setCore_badBytes (s : State) (c : CoreId) (k : Core) : (s.setCore c k).badBytes = s.badBytes := rfl
@[simp] theorem State.setCore_rawSectors (s : State) (c : CoreId) (k : Core) : (s.setCore c k).rawSectors = s.rawSectors := rfl
@[simp] theorem State.setCore_overflow (s : State) (c : CoreId) (k : Core) : (s.setCore c k).overflow = s.overflow := rfl
@[simp] theorem State.setCore_packed (s : State) (c : CoreId) (k : Core) : (s.setCore c k).packed = s.packed := rfl
@[simp] theorem State.setCore_soft (s : State) (c : CoreId) (k : Core) : (s.setCore c k).soft = s.soft := rfl
@[simp] theorem State.setCore_latent (s : State) (c : CoreId) (k : Core) : (s.setCore c k).latent = s.latent := rfl
@[simp] theorem State.setCore_l2 (s : State) (c : CoreId) (k : Core) : (s.setCore c k).l2 = s.l2 := rfl
@[simp] theorem State.setCore_chase (s : State) (c : CoreId) (k : Core) : (s.setCore c k).chase = s.chase := rfl
@[simp] theorem State.setCore_chaseLast (s : State) (c : CoreId) (k : Core) : (s.setCore c k).chaseLast = s.chaseLast := rfl
@[simp] theorem State.setCore_chaseGrant (s : State) (c : CoreId) (k : Core) : (s.setCore c k).chaseGrant = s.chaseGrant := rfl
@[simp] theorem State.setCore_groupGrant (s : State) (c : CoreId) (k : Core) : (s.setCore c k).groupGrant = s.groupGrant := rfl
@[simp] theorem State.setCore_groups (s : State) (c : CoreId) (k : Core) : (s.setCore c k).groups = s.groups := rfl
@[simp] theorem State.setCore_fabricId (s : State) (c : CoreId) (k : Core) : (s.setCore c k).fabricId = s.fabricId := rfl
@[simp] theorem State.setCore_clusters (s : State) (c : CoreId) (k : Core) : (s.setCore c k).clusters = s.clusters := rfl
@[simp] theorem State.setCore_dies (s : State) (c : CoreId) (k : Core) : (s.setCore c k).dies = s.dies := rfl
@[simp] theorem State.setCore_jobs (s : State) (c : CoreId) (k : Core) : (s.setCore c k).jobs = s.jobs := rfl
@[simp] theorem State.setCore_tables (s : State) (c : CoreId) (k : Core) : (s.setCore c k).tables = s.tables := rfl
@[simp] theorem State.setCore_maps (s : State) (c : CoreId) (k : Core) : (s.setCore c k).maps = s.maps := rfl
@[simp] theorem State.setCore_launches (s : State) (c : CoreId) (k : Core) : (s.setCore c k).launches = s.launches := rfl
@[simp] theorem State.setCore_levels (s : State) (c : CoreId) (k : Core) : (s.setCore c k).levels = s.levels := rfl
@[simp] theorem State.setCore_entries (s : State) (c : CoreId) (k : Core) : (s.setCore c k).entries = s.entries := rfl
@[simp] theorem State.setCore_objects (s : State) (c : CoreId) (k : Core) : (s.setCore c k).objects = s.objects := rfl
@[simp] theorem State.setCore_queues (s : State) (c : CoreId) (k : Core) : (s.setCore c k).queues = s.queues := rfl
@[simp] theorem State.setCore_funcs (s : State) (c : CoreId) (k : Core) : (s.setCore c k).funcs = s.funcs := rfl
@[simp] theorem State.setCore_outbox (s : State) (c : CoreId) (k : Core) : (s.setCore c k).outbox = s.outbox := rfl
@[simp] theorem State.setCore_ymax (s : State) (c : CoreId) (k : Core) : (s.setCore c k).ymax = s.ymax := rfl
@[simp] theorem State.setCore_hotid (s : State) (c : CoreId) (k : Core) : (s.setCore c k).hotid = s.hotid := rfl
@[simp] theorem State.setCore_eweindEntry (s : State) (c : CoreId) (k : Core) : (s.setCore c k).eweindEntry = s.eweindEntry := rfl
@[simp] theorem State.setCore_boot (s : State) (c : CoreId) (k : Core) : (s.setCore c k).boot = s.boot := rfl
@[simp] theorem State.setCore_lifecycle (s : State) (c : CoreId) (k : Core) : (s.setCore c k).lifecycle = s.lifecycle := rfl
@[simp] theorem State.setCore_nv (s : State) (c : CoreId) (k : Core) : (s.setCore c k).nv = s.nv := rfl
@[simp] theorem State.setCore_pages (s : State) (c : CoreId) (k : Core) : (s.setCore c k).pages = s.pages := rfl
@[simp] theorem State.setCore_table (s : State) (c : CoreId) (k : Core) : (s.setCore c k).table = s.table := rfl
@[simp] theorem State.setCore_tableNext (s : State) (c : CoreId) (k : Core) : (s.setCore c k).tableNext = s.tableNext := rfl
@[simp] theorem State.setCore_reportAt (s : State) (c : CoreId) (k : Core) : (s.setCore c k).reportAt = s.reportAt := rfl
@[simp] theorem State.setCore_emgRounds (s : State) (c : CoreId) (k : Core) : (s.setCore c k).emgRounds = s.emgRounds := rfl
@[simp] theorem State.setCore_coolSince (s : State) (c : CoreId) (k : Core) : (s.setCore c k).coolSince = s.coolSince := rfl
@[simp] theorem State.setCore_overSince (s : State) (c : CoreId) (k : Core) : (s.setCore c k).overSince = s.overSince := rfl
@[simp] theorem State.setCore_powers (s : State) (c : CoreId) (k : Core) : (s.setCore c k).powers = s.powers := rfl
@[simp] theorem State.setCore_emergency (s : State) (c : CoreId) (k : Core) : (s.setCore c k).emergency = s.emergency := rfl
@[simp] theorem State.setCore_emgSaved (s : State) (c : CoreId) (k : Core) : (s.setCore c k).emgSaved = s.emgSaved := rfl
@[simp] theorem State.setCore_deadLinks (s : State) (c : CoreId) (k : Core) : (s.setCore c k).deadLinks = s.deadLinks := rfl
@[simp] theorem State.setCore_linkErrAt (s : State) (c : CoreId) (k : Core) : (s.setCore c k).linkErrAt = s.linkErrAt := rfl
@[simp] theorem State.setCore_dieLinks (s : State) (c : CoreId) (k : Core) : (s.setCore c k).dieLinks = s.dieLinks := rfl
@[simp] theorem State.setCore_hostAbsent (s : State) (c : CoreId) (k : Core) : (s.setCore c k).hostAbsent = s.hostAbsent := rfl
@[simp] theorem State.setCore_errors (s : State) (c : CoreId) (k : Core) : (s.setCore c k).errors = s.errors := rfl
@[simp] theorem State.setCore_pri (s : State) (c : CoreId) (k : Core) : (s.setCore c k).pri = s.pri := rfl
@[simp] theorem State.setCore_shootdowns (s : State) (c : CoreId) (k : Core) : (s.setCore c k).shootdowns = s.shootdowns := rfl
@[simp] theorem State.setCore_mapHeld (s : State) (c : CoreId) (k : Core) : (s.setCore c k).mapHeld = s.mapHeld := rfl
@[simp] theorem State.setCore_hostHeld (s : State) (c : CoreId) (k : Core) : (s.setCore c k).hostHeld = s.hostHeld := rfl
@[simp] theorem State.setCore_doeHeld (s : State) (c : CoreId) (k : Core) : (s.setCore c k).doeHeld = s.doeHeld := rfl
@[simp] theorem State.setCore_hostOut (s : State) (c : CoreId) (k : Core) : (s.setCore c k).hostOut = s.hostOut := rfl
@[simp] theorem State.setCore_keptRecords (s : State) (c : CoreId) (k : Core) : (s.setCore c k).keptRecords = s.keptRecords := rfl
@[simp] theorem State.setCore_deferred (s : State) (c : CoreId) (k : Core) : (s.setCore c k).deferred = s.deferred := rfl
@[simp] theorem State.setCore_sensedAt (s : State) (c : CoreId) (k : Core) : (s.setCore c k).sensedAt = s.sensedAt := rfl
@[simp] theorem State.setCore_polledAt (s : State) (c : CoreId) (k : Core) : (s.setCore c k).polledAt = s.polledAt := rfl
@[simp] theorem State.setCore_patrolAt (s : State) (c : CoreId) (k : Core) : (s.setCore c k).patrolAt = s.patrolAt := rfl
@[simp] theorem State.setCore_shrunk (s : State) (c : CoreId) (k : Core) : (s.setCore c k).shrunk = s.shrunk := rfl
@[simp] theorem State.setCore_roundPos (s : State) (c : CoreId) (k : Core) : (s.setCore c k).roundPos = s.roundPos := rfl
@[simp] theorem State.setCore_power (s : State) (c : CoreId) (k : Core) : (s.setCore c k).power = s.power := rfl

/-! ### setCluster -/
@[simp] theorem State.setCluster_platen (s : State) (c : ClusterId) (v : Cluster) : (s.setCluster c v).platen = s.platen := rfl
@[simp] theorem State.setCluster_cur (s : State) (c : ClusterId) (v : Cluster) : (s.setCluster c v).cur = s.cur := rfl
@[simp] theorem State.setCluster_agenda (s : State) (c : ClusterId) (v : Cluster) : (s.setCluster c v).agenda = s.agenda := rfl
@[simp] theorem State.setCluster_draws (s : State) (c : ClusterId) (v : Cluster) : (s.setCluster c v).draws = s.draws := rfl
@[simp] theorem State.setCluster_mem (s : State) (c : ClusterId) (v : Cluster) : (s.setCluster c v).mem = s.mem := rfl
@[simp] theorem State.setCluster_badBytes (s : State) (c : ClusterId) (v : Cluster) : (s.setCluster c v).badBytes = s.badBytes := rfl
@[simp] theorem State.setCluster_rawSectors (s : State) (c : ClusterId) (v : Cluster) : (s.setCluster c v).rawSectors = s.rawSectors := rfl
@[simp] theorem State.setCluster_overflow (s : State) (c : ClusterId) (v : Cluster) : (s.setCluster c v).overflow = s.overflow := rfl
@[simp] theorem State.setCluster_packed (s : State) (c : ClusterId) (v : Cluster) : (s.setCluster c v).packed = s.packed := rfl
@[simp] theorem State.setCluster_soft (s : State) (c : ClusterId) (v : Cluster) : (s.setCluster c v).soft = s.soft := rfl
@[simp] theorem State.setCluster_latent (s : State) (c : ClusterId) (v : Cluster) : (s.setCluster c v).latent = s.latent := rfl
@[simp] theorem State.setCluster_l2 (s : State) (c : ClusterId) (v : Cluster) : (s.setCluster c v).l2 = s.l2 := rfl
@[simp] theorem State.setCluster_chase (s : State) (c : ClusterId) (v : Cluster) : (s.setCluster c v).chase = s.chase := rfl
@[simp] theorem State.setCluster_chaseLast (s : State) (c : ClusterId) (v : Cluster) : (s.setCluster c v).chaseLast = s.chaseLast := rfl
@[simp] theorem State.setCluster_chaseGrant (s : State) (c : ClusterId) (v : Cluster) : (s.setCluster c v).chaseGrant = s.chaseGrant := rfl
@[simp] theorem State.setCluster_groupGrant (s : State) (c : ClusterId) (v : Cluster) : (s.setCluster c v).groupGrant = s.groupGrant := rfl
@[simp] theorem State.setCluster_groups (s : State) (c : ClusterId) (v : Cluster) : (s.setCluster c v).groups = s.groups := rfl
@[simp] theorem State.setCluster_fabricId (s : State) (c : ClusterId) (v : Cluster) : (s.setCluster c v).fabricId = s.fabricId := rfl
@[simp] theorem State.setCluster_cores (s : State) (c : ClusterId) (v : Cluster) : (s.setCluster c v).cores = s.cores := rfl
@[simp] theorem State.setCluster_dies (s : State) (c : ClusterId) (v : Cluster) : (s.setCluster c v).dies = s.dies := rfl
@[simp] theorem State.setCluster_jobs (s : State) (c : ClusterId) (v : Cluster) : (s.setCluster c v).jobs = s.jobs := rfl
@[simp] theorem State.setCluster_tables (s : State) (c : ClusterId) (v : Cluster) : (s.setCluster c v).tables = s.tables := rfl
@[simp] theorem State.setCluster_maps (s : State) (c : ClusterId) (v : Cluster) : (s.setCluster c v).maps = s.maps := rfl
@[simp] theorem State.setCluster_launches (s : State) (c : ClusterId) (v : Cluster) : (s.setCluster c v).launches = s.launches := rfl
@[simp] theorem State.setCluster_levels (s : State) (c : ClusterId) (v : Cluster) : (s.setCluster c v).levels = s.levels := rfl
@[simp] theorem State.setCluster_entries (s : State) (c : ClusterId) (v : Cluster) : (s.setCluster c v).entries = s.entries := rfl
@[simp] theorem State.setCluster_objects (s : State) (c : ClusterId) (v : Cluster) : (s.setCluster c v).objects = s.objects := rfl
@[simp] theorem State.setCluster_queues (s : State) (c : ClusterId) (v : Cluster) : (s.setCluster c v).queues = s.queues := rfl
@[simp] theorem State.setCluster_funcs (s : State) (c : ClusterId) (v : Cluster) : (s.setCluster c v).funcs = s.funcs := rfl
@[simp] theorem State.setCluster_outbox (s : State) (c : ClusterId) (v : Cluster) : (s.setCluster c v).outbox = s.outbox := rfl
@[simp] theorem State.setCluster_ymax (s : State) (c : ClusterId) (v : Cluster) : (s.setCluster c v).ymax = s.ymax := rfl
@[simp] theorem State.setCluster_hotid (s : State) (c : ClusterId) (v : Cluster) : (s.setCluster c v).hotid = s.hotid := rfl
@[simp] theorem State.setCluster_eweindEntry (s : State) (c : ClusterId) (v : Cluster) : (s.setCluster c v).eweindEntry = s.eweindEntry := rfl
@[simp] theorem State.setCluster_boot (s : State) (c : ClusterId) (v : Cluster) : (s.setCluster c v).boot = s.boot := rfl
@[simp] theorem State.setCluster_lifecycle (s : State) (c : ClusterId) (v : Cluster) : (s.setCluster c v).lifecycle = s.lifecycle := rfl
@[simp] theorem State.setCluster_nv (s : State) (c : ClusterId) (v : Cluster) : (s.setCluster c v).nv = s.nv := rfl
@[simp] theorem State.setCluster_pages (s : State) (c : ClusterId) (v : Cluster) : (s.setCluster c v).pages = s.pages := rfl
@[simp] theorem State.setCluster_table (s : State) (c : ClusterId) (v : Cluster) : (s.setCluster c v).table = s.table := rfl
@[simp] theorem State.setCluster_tableNext (s : State) (c : ClusterId) (v : Cluster) : (s.setCluster c v).tableNext = s.tableNext := rfl
@[simp] theorem State.setCluster_reportAt (s : State) (c : ClusterId) (v : Cluster) : (s.setCluster c v).reportAt = s.reportAt := rfl
@[simp] theorem State.setCluster_emgRounds (s : State) (c : ClusterId) (v : Cluster) : (s.setCluster c v).emgRounds = s.emgRounds := rfl
@[simp] theorem State.setCluster_coolSince (s : State) (c : ClusterId) (v : Cluster) : (s.setCluster c v).coolSince = s.coolSince := rfl
@[simp] theorem State.setCluster_overSince (s : State) (c : ClusterId) (v : Cluster) : (s.setCluster c v).overSince = s.overSince := rfl
@[simp] theorem State.setCluster_powers (s : State) (c : ClusterId) (v : Cluster) : (s.setCluster c v).powers = s.powers := rfl
@[simp] theorem State.setCluster_emergency (s : State) (c : ClusterId) (v : Cluster) : (s.setCluster c v).emergency = s.emergency := rfl
@[simp] theorem State.setCluster_emgSaved (s : State) (c : ClusterId) (v : Cluster) : (s.setCluster c v).emgSaved = s.emgSaved := rfl
@[simp] theorem State.setCluster_deadLinks (s : State) (c : ClusterId) (v : Cluster) : (s.setCluster c v).deadLinks = s.deadLinks := rfl
@[simp] theorem State.setCluster_linkErrAt (s : State) (c : ClusterId) (v : Cluster) : (s.setCluster c v).linkErrAt = s.linkErrAt := rfl
@[simp] theorem State.setCluster_dieLinks (s : State) (c : ClusterId) (v : Cluster) : (s.setCluster c v).dieLinks = s.dieLinks := rfl
@[simp] theorem State.setCluster_hostAbsent (s : State) (c : ClusterId) (v : Cluster) : (s.setCluster c v).hostAbsent = s.hostAbsent := rfl
@[simp] theorem State.setCluster_errors (s : State) (c : ClusterId) (v : Cluster) : (s.setCluster c v).errors = s.errors := rfl
@[simp] theorem State.setCluster_pri (s : State) (c : ClusterId) (v : Cluster) : (s.setCluster c v).pri = s.pri := rfl
@[simp] theorem State.setCluster_shootdowns (s : State) (c : ClusterId) (v : Cluster) : (s.setCluster c v).shootdowns = s.shootdowns := rfl
@[simp] theorem State.setCluster_mapHeld (s : State) (c : ClusterId) (v : Cluster) : (s.setCluster c v).mapHeld = s.mapHeld := rfl
@[simp] theorem State.setCluster_hostHeld (s : State) (c : ClusterId) (v : Cluster) : (s.setCluster c v).hostHeld = s.hostHeld := rfl
@[simp] theorem State.setCluster_doeHeld (s : State) (c : ClusterId) (v : Cluster) : (s.setCluster c v).doeHeld = s.doeHeld := rfl
@[simp] theorem State.setCluster_hostOut (s : State) (c : ClusterId) (v : Cluster) : (s.setCluster c v).hostOut = s.hostOut := rfl
@[simp] theorem State.setCluster_keptRecords (s : State) (c : ClusterId) (v : Cluster) : (s.setCluster c v).keptRecords = s.keptRecords := rfl
@[simp] theorem State.setCluster_deferred (s : State) (c : ClusterId) (v : Cluster) : (s.setCluster c v).deferred = s.deferred := rfl
@[simp] theorem State.setCluster_sensedAt (s : State) (c : ClusterId) (v : Cluster) : (s.setCluster c v).sensedAt = s.sensedAt := rfl
@[simp] theorem State.setCluster_polledAt (s : State) (c : ClusterId) (v : Cluster) : (s.setCluster c v).polledAt = s.polledAt := rfl
@[simp] theorem State.setCluster_patrolAt (s : State) (c : ClusterId) (v : Cluster) : (s.setCluster c v).patrolAt = s.patrolAt := rfl
@[simp] theorem State.setCluster_shrunk (s : State) (c : ClusterId) (v : Cluster) : (s.setCluster c v).shrunk = s.shrunk := rfl
@[simp] theorem State.setCluster_roundPos (s : State) (c : ClusterId) (v : Cluster) : (s.setCluster c v).roundPos = s.roundPos := rfl
@[simp] theorem State.setCluster_power (s : State) (c : ClusterId) (v : Cluster) : (s.setCluster c v).power = s.power := rfl

/-! ### setDie -/
@[simp] theorem State.setDie_platen (s : State) (d : DieId) (v : Die) : (s.setDie d v).platen = s.platen := rfl
@[simp] theorem State.setDie_cur (s : State) (d : DieId) (v : Die) : (s.setDie d v).cur = s.cur := rfl
@[simp] theorem State.setDie_agenda (s : State) (d : DieId) (v : Die) : (s.setDie d v).agenda = s.agenda := rfl
@[simp] theorem State.setDie_draws (s : State) (d : DieId) (v : Die) : (s.setDie d v).draws = s.draws := rfl
@[simp] theorem State.setDie_mem (s : State) (d : DieId) (v : Die) : (s.setDie d v).mem = s.mem := rfl
@[simp] theorem State.setDie_badBytes (s : State) (d : DieId) (v : Die) : (s.setDie d v).badBytes = s.badBytes := rfl
@[simp] theorem State.setDie_rawSectors (s : State) (d : DieId) (v : Die) : (s.setDie d v).rawSectors = s.rawSectors := rfl
@[simp] theorem State.setDie_overflow (s : State) (d : DieId) (v : Die) : (s.setDie d v).overflow = s.overflow := rfl
@[simp] theorem State.setDie_packed (s : State) (d : DieId) (v : Die) : (s.setDie d v).packed = s.packed := rfl
@[simp] theorem State.setDie_soft (s : State) (d : DieId) (v : Die) : (s.setDie d v).soft = s.soft := rfl
@[simp] theorem State.setDie_latent (s : State) (d : DieId) (v : Die) : (s.setDie d v).latent = s.latent := rfl
@[simp] theorem State.setDie_l2 (s : State) (d : DieId) (v : Die) : (s.setDie d v).l2 = s.l2 := rfl
@[simp] theorem State.setDie_chase (s : State) (d : DieId) (v : Die) : (s.setDie d v).chase = s.chase := rfl
@[simp] theorem State.setDie_chaseLast (s : State) (d : DieId) (v : Die) : (s.setDie d v).chaseLast = s.chaseLast := rfl
@[simp] theorem State.setDie_chaseGrant (s : State) (d : DieId) (v : Die) : (s.setDie d v).chaseGrant = s.chaseGrant := rfl
@[simp] theorem State.setDie_groupGrant (s : State) (d : DieId) (v : Die) : (s.setDie d v).groupGrant = s.groupGrant := rfl
@[simp] theorem State.setDie_groups (s : State) (d : DieId) (v : Die) : (s.setDie d v).groups = s.groups := rfl
@[simp] theorem State.setDie_fabricId (s : State) (d : DieId) (v : Die) : (s.setDie d v).fabricId = s.fabricId := rfl
@[simp] theorem State.setDie_cores (s : State) (d : DieId) (v : Die) : (s.setDie d v).cores = s.cores := rfl
@[simp] theorem State.setDie_clusters (s : State) (d : DieId) (v : Die) : (s.setDie d v).clusters = s.clusters := rfl
@[simp] theorem State.setDie_jobs (s : State) (d : DieId) (v : Die) : (s.setDie d v).jobs = s.jobs := rfl
@[simp] theorem State.setDie_tables (s : State) (d : DieId) (v : Die) : (s.setDie d v).tables = s.tables := rfl
@[simp] theorem State.setDie_maps (s : State) (d : DieId) (v : Die) : (s.setDie d v).maps = s.maps := rfl
@[simp] theorem State.setDie_launches (s : State) (d : DieId) (v : Die) : (s.setDie d v).launches = s.launches := rfl
@[simp] theorem State.setDie_levels (s : State) (d : DieId) (v : Die) : (s.setDie d v).levels = s.levels := rfl
@[simp] theorem State.setDie_entries (s : State) (d : DieId) (v : Die) : (s.setDie d v).entries = s.entries := rfl
@[simp] theorem State.setDie_objects (s : State) (d : DieId) (v : Die) : (s.setDie d v).objects = s.objects := rfl
@[simp] theorem State.setDie_queues (s : State) (d : DieId) (v : Die) : (s.setDie d v).queues = s.queues := rfl
@[simp] theorem State.setDie_funcs (s : State) (d : DieId) (v : Die) : (s.setDie d v).funcs = s.funcs := rfl
@[simp] theorem State.setDie_outbox (s : State) (d : DieId) (v : Die) : (s.setDie d v).outbox = s.outbox := rfl
@[simp] theorem State.setDie_ymax (s : State) (d : DieId) (v : Die) : (s.setDie d v).ymax = s.ymax := rfl
@[simp] theorem State.setDie_hotid (s : State) (d : DieId) (v : Die) : (s.setDie d v).hotid = s.hotid := rfl
@[simp] theorem State.setDie_eweindEntry (s : State) (d : DieId) (v : Die) : (s.setDie d v).eweindEntry = s.eweindEntry := rfl
@[simp] theorem State.setDie_boot (s : State) (d : DieId) (v : Die) : (s.setDie d v).boot = s.boot := rfl
@[simp] theorem State.setDie_lifecycle (s : State) (d : DieId) (v : Die) : (s.setDie d v).lifecycle = s.lifecycle := rfl
@[simp] theorem State.setDie_nv (s : State) (d : DieId) (v : Die) : (s.setDie d v).nv = s.nv := rfl
@[simp] theorem State.setDie_pages (s : State) (d : DieId) (v : Die) : (s.setDie d v).pages = s.pages := rfl
@[simp] theorem State.setDie_table (s : State) (d : DieId) (v : Die) : (s.setDie d v).table = s.table := rfl
@[simp] theorem State.setDie_tableNext (s : State) (d : DieId) (v : Die) : (s.setDie d v).tableNext = s.tableNext := rfl
@[simp] theorem State.setDie_reportAt (s : State) (d : DieId) (v : Die) : (s.setDie d v).reportAt = s.reportAt := rfl
@[simp] theorem State.setDie_emgRounds (s : State) (d : DieId) (v : Die) : (s.setDie d v).emgRounds = s.emgRounds := rfl
@[simp] theorem State.setDie_coolSince (s : State) (d : DieId) (v : Die) : (s.setDie d v).coolSince = s.coolSince := rfl
@[simp] theorem State.setDie_overSince (s : State) (d : DieId) (v : Die) : (s.setDie d v).overSince = s.overSince := rfl
@[simp] theorem State.setDie_powers (s : State) (d : DieId) (v : Die) : (s.setDie d v).powers = s.powers := rfl
@[simp] theorem State.setDie_emergency (s : State) (d : DieId) (v : Die) : (s.setDie d v).emergency = s.emergency := rfl
@[simp] theorem State.setDie_emgSaved (s : State) (d : DieId) (v : Die) : (s.setDie d v).emgSaved = s.emgSaved := rfl
@[simp] theorem State.setDie_deadLinks (s : State) (d : DieId) (v : Die) : (s.setDie d v).deadLinks = s.deadLinks := rfl
@[simp] theorem State.setDie_linkErrAt (s : State) (d : DieId) (v : Die) : (s.setDie d v).linkErrAt = s.linkErrAt := rfl
@[simp] theorem State.setDie_dieLinks (s : State) (d : DieId) (v : Die) : (s.setDie d v).dieLinks = s.dieLinks := rfl
@[simp] theorem State.setDie_hostAbsent (s : State) (d : DieId) (v : Die) : (s.setDie d v).hostAbsent = s.hostAbsent := rfl
@[simp] theorem State.setDie_errors (s : State) (d : DieId) (v : Die) : (s.setDie d v).errors = s.errors := rfl
@[simp] theorem State.setDie_pri (s : State) (d : DieId) (v : Die) : (s.setDie d v).pri = s.pri := rfl
@[simp] theorem State.setDie_shootdowns (s : State) (d : DieId) (v : Die) : (s.setDie d v).shootdowns = s.shootdowns := rfl
@[simp] theorem State.setDie_mapHeld (s : State) (d : DieId) (v : Die) : (s.setDie d v).mapHeld = s.mapHeld := rfl
@[simp] theorem State.setDie_hostHeld (s : State) (d : DieId) (v : Die) : (s.setDie d v).hostHeld = s.hostHeld := rfl
@[simp] theorem State.setDie_doeHeld (s : State) (d : DieId) (v : Die) : (s.setDie d v).doeHeld = s.doeHeld := rfl
@[simp] theorem State.setDie_hostOut (s : State) (d : DieId) (v : Die) : (s.setDie d v).hostOut = s.hostOut := rfl
@[simp] theorem State.setDie_keptRecords (s : State) (d : DieId) (v : Die) : (s.setDie d v).keptRecords = s.keptRecords := rfl
@[simp] theorem State.setDie_deferred (s : State) (d : DieId) (v : Die) : (s.setDie d v).deferred = s.deferred := rfl
@[simp] theorem State.setDie_sensedAt (s : State) (d : DieId) (v : Die) : (s.setDie d v).sensedAt = s.sensedAt := rfl
@[simp] theorem State.setDie_polledAt (s : State) (d : DieId) (v : Die) : (s.setDie d v).polledAt = s.polledAt := rfl
@[simp] theorem State.setDie_patrolAt (s : State) (d : DieId) (v : Die) : (s.setDie d v).patrolAt = s.patrolAt := rfl
@[simp] theorem State.setDie_shrunk (s : State) (d : DieId) (v : Die) : (s.setDie d v).shrunk = s.shrunk := rfl
@[simp] theorem State.setDie_roundPos (s : State) (d : DieId) (v : Die) : (s.setDie d v).roundPos = s.roundPos := rfl
@[simp] theorem State.setDie_power (s : State) (d : DieId) (v : Die) : (s.setDie d v).power = s.power := rfl

/-! ### setQueue -/
@[simp] theorem State.setQueue_platen (s : State) (q : QueueId) (v : Queue) : (s.setQueue q v).platen = s.platen := rfl
@[simp] theorem State.setQueue_cur (s : State) (q : QueueId) (v : Queue) : (s.setQueue q v).cur = s.cur := rfl
@[simp] theorem State.setQueue_agenda (s : State) (q : QueueId) (v : Queue) : (s.setQueue q v).agenda = s.agenda := rfl
@[simp] theorem State.setQueue_draws (s : State) (q : QueueId) (v : Queue) : (s.setQueue q v).draws = s.draws := rfl
@[simp] theorem State.setQueue_mem (s : State) (q : QueueId) (v : Queue) : (s.setQueue q v).mem = s.mem := rfl
@[simp] theorem State.setQueue_badBytes (s : State) (q : QueueId) (v : Queue) : (s.setQueue q v).badBytes = s.badBytes := rfl
@[simp] theorem State.setQueue_rawSectors (s : State) (q : QueueId) (v : Queue) : (s.setQueue q v).rawSectors = s.rawSectors := rfl
@[simp] theorem State.setQueue_overflow (s : State) (q : QueueId) (v : Queue) : (s.setQueue q v).overflow = s.overflow := rfl
@[simp] theorem State.setQueue_packed (s : State) (q : QueueId) (v : Queue) : (s.setQueue q v).packed = s.packed := rfl
@[simp] theorem State.setQueue_soft (s : State) (q : QueueId) (v : Queue) : (s.setQueue q v).soft = s.soft := rfl
@[simp] theorem State.setQueue_latent (s : State) (q : QueueId) (v : Queue) : (s.setQueue q v).latent = s.latent := rfl
@[simp] theorem State.setQueue_l2 (s : State) (q : QueueId) (v : Queue) : (s.setQueue q v).l2 = s.l2 := rfl
@[simp] theorem State.setQueue_chase (s : State) (q : QueueId) (v : Queue) : (s.setQueue q v).chase = s.chase := rfl
@[simp] theorem State.setQueue_chaseLast (s : State) (q : QueueId) (v : Queue) : (s.setQueue q v).chaseLast = s.chaseLast := rfl
@[simp] theorem State.setQueue_chaseGrant (s : State) (q : QueueId) (v : Queue) : (s.setQueue q v).chaseGrant = s.chaseGrant := rfl
@[simp] theorem State.setQueue_groupGrant (s : State) (q : QueueId) (v : Queue) : (s.setQueue q v).groupGrant = s.groupGrant := rfl
@[simp] theorem State.setQueue_groups (s : State) (q : QueueId) (v : Queue) : (s.setQueue q v).groups = s.groups := rfl
@[simp] theorem State.setQueue_fabricId (s : State) (q : QueueId) (v : Queue) : (s.setQueue q v).fabricId = s.fabricId := rfl
@[simp] theorem State.setQueue_cores (s : State) (q : QueueId) (v : Queue) : (s.setQueue q v).cores = s.cores := rfl
@[simp] theorem State.setQueue_clusters (s : State) (q : QueueId) (v : Queue) : (s.setQueue q v).clusters = s.clusters := rfl
@[simp] theorem State.setQueue_dies (s : State) (q : QueueId) (v : Queue) : (s.setQueue q v).dies = s.dies := rfl
@[simp] theorem State.setQueue_jobs (s : State) (q : QueueId) (v : Queue) : (s.setQueue q v).jobs = s.jobs := rfl
@[simp] theorem State.setQueue_tables (s : State) (q : QueueId) (v : Queue) : (s.setQueue q v).tables = s.tables := rfl
@[simp] theorem State.setQueue_maps (s : State) (q : QueueId) (v : Queue) : (s.setQueue q v).maps = s.maps := rfl
@[simp] theorem State.setQueue_launches (s : State) (q : QueueId) (v : Queue) : (s.setQueue q v).launches = s.launches := rfl
@[simp] theorem State.setQueue_levels (s : State) (q : QueueId) (v : Queue) : (s.setQueue q v).levels = s.levels := rfl
@[simp] theorem State.setQueue_entries (s : State) (q : QueueId) (v : Queue) : (s.setQueue q v).entries = s.entries := rfl
@[simp] theorem State.setQueue_objects (s : State) (q : QueueId) (v : Queue) : (s.setQueue q v).objects = s.objects := rfl
@[simp] theorem State.setQueue_funcs (s : State) (q : QueueId) (v : Queue) : (s.setQueue q v).funcs = s.funcs := rfl
@[simp] theorem State.setQueue_outbox (s : State) (q : QueueId) (v : Queue) : (s.setQueue q v).outbox = s.outbox := rfl
@[simp] theorem State.setQueue_ymax (s : State) (q : QueueId) (v : Queue) : (s.setQueue q v).ymax = s.ymax := rfl
@[simp] theorem State.setQueue_hotid (s : State) (q : QueueId) (v : Queue) : (s.setQueue q v).hotid = s.hotid := rfl
@[simp] theorem State.setQueue_eweindEntry (s : State) (q : QueueId) (v : Queue) : (s.setQueue q v).eweindEntry = s.eweindEntry := rfl
@[simp] theorem State.setQueue_boot (s : State) (q : QueueId) (v : Queue) : (s.setQueue q v).boot = s.boot := rfl
@[simp] theorem State.setQueue_lifecycle (s : State) (q : QueueId) (v : Queue) : (s.setQueue q v).lifecycle = s.lifecycle := rfl
@[simp] theorem State.setQueue_nv (s : State) (q : QueueId) (v : Queue) : (s.setQueue q v).nv = s.nv := rfl
@[simp] theorem State.setQueue_pages (s : State) (q : QueueId) (v : Queue) : (s.setQueue q v).pages = s.pages := rfl
@[simp] theorem State.setQueue_table (s : State) (q : QueueId) (v : Queue) : (s.setQueue q v).table = s.table := rfl
@[simp] theorem State.setQueue_tableNext (s : State) (q : QueueId) (v : Queue) : (s.setQueue q v).tableNext = s.tableNext := rfl
@[simp] theorem State.setQueue_reportAt (s : State) (q : QueueId) (v : Queue) : (s.setQueue q v).reportAt = s.reportAt := rfl
@[simp] theorem State.setQueue_emgRounds (s : State) (q : QueueId) (v : Queue) : (s.setQueue q v).emgRounds = s.emgRounds := rfl
@[simp] theorem State.setQueue_coolSince (s : State) (q : QueueId) (v : Queue) : (s.setQueue q v).coolSince = s.coolSince := rfl
@[simp] theorem State.setQueue_overSince (s : State) (q : QueueId) (v : Queue) : (s.setQueue q v).overSince = s.overSince := rfl
@[simp] theorem State.setQueue_powers (s : State) (q : QueueId) (v : Queue) : (s.setQueue q v).powers = s.powers := rfl
@[simp] theorem State.setQueue_emergency (s : State) (q : QueueId) (v : Queue) : (s.setQueue q v).emergency = s.emergency := rfl
@[simp] theorem State.setQueue_emgSaved (s : State) (q : QueueId) (v : Queue) : (s.setQueue q v).emgSaved = s.emgSaved := rfl
@[simp] theorem State.setQueue_deadLinks (s : State) (q : QueueId) (v : Queue) : (s.setQueue q v).deadLinks = s.deadLinks := rfl
@[simp] theorem State.setQueue_linkErrAt (s : State) (q : QueueId) (v : Queue) : (s.setQueue q v).linkErrAt = s.linkErrAt := rfl
@[simp] theorem State.setQueue_dieLinks (s : State) (q : QueueId) (v : Queue) : (s.setQueue q v).dieLinks = s.dieLinks := rfl
@[simp] theorem State.setQueue_hostAbsent (s : State) (q : QueueId) (v : Queue) : (s.setQueue q v).hostAbsent = s.hostAbsent := rfl
@[simp] theorem State.setQueue_errors (s : State) (q : QueueId) (v : Queue) : (s.setQueue q v).errors = s.errors := rfl
@[simp] theorem State.setQueue_pri (s : State) (q : QueueId) (v : Queue) : (s.setQueue q v).pri = s.pri := rfl
@[simp] theorem State.setQueue_shootdowns (s : State) (q : QueueId) (v : Queue) : (s.setQueue q v).shootdowns = s.shootdowns := rfl
@[simp] theorem State.setQueue_mapHeld (s : State) (q : QueueId) (v : Queue) : (s.setQueue q v).mapHeld = s.mapHeld := rfl
@[simp] theorem State.setQueue_hostHeld (s : State) (q : QueueId) (v : Queue) : (s.setQueue q v).hostHeld = s.hostHeld := rfl
@[simp] theorem State.setQueue_doeHeld (s : State) (q : QueueId) (v : Queue) : (s.setQueue q v).doeHeld = s.doeHeld := rfl
@[simp] theorem State.setQueue_hostOut (s : State) (q : QueueId) (v : Queue) : (s.setQueue q v).hostOut = s.hostOut := rfl
@[simp] theorem State.setQueue_keptRecords (s : State) (q : QueueId) (v : Queue) : (s.setQueue q v).keptRecords = s.keptRecords := rfl
@[simp] theorem State.setQueue_deferred (s : State) (q : QueueId) (v : Queue) : (s.setQueue q v).deferred = s.deferred := rfl
@[simp] theorem State.setQueue_sensedAt (s : State) (q : QueueId) (v : Queue) : (s.setQueue q v).sensedAt = s.sensedAt := rfl
@[simp] theorem State.setQueue_polledAt (s : State) (q : QueueId) (v : Queue) : (s.setQueue q v).polledAt = s.polledAt := rfl
@[simp] theorem State.setQueue_patrolAt (s : State) (q : QueueId) (v : Queue) : (s.setQueue q v).patrolAt = s.patrolAt := rfl
@[simp] theorem State.setQueue_shrunk (s : State) (q : QueueId) (v : Queue) : (s.setQueue q v).shrunk = s.shrunk := rfl
@[simp] theorem State.setQueue_roundPos (s : State) (q : QueueId) (v : Queue) : (s.setQueue q v).roundPos = s.roundPos := rfl
@[simp] theorem State.setQueue_power (s : State) (q : QueueId) (v : Queue) : (s.setQueue q v).power = s.power := rfl

/-! ### setFunc -/
@[simp] theorem State.setFunc_platen (s : State) (f : FuncId) (v : Func) : (s.setFunc f v).platen = s.platen := rfl
@[simp] theorem State.setFunc_cur (s : State) (f : FuncId) (v : Func) : (s.setFunc f v).cur = s.cur := rfl
@[simp] theorem State.setFunc_agenda (s : State) (f : FuncId) (v : Func) : (s.setFunc f v).agenda = s.agenda := rfl
@[simp] theorem State.setFunc_draws (s : State) (f : FuncId) (v : Func) : (s.setFunc f v).draws = s.draws := rfl
@[simp] theorem State.setFunc_mem (s : State) (f : FuncId) (v : Func) : (s.setFunc f v).mem = s.mem := rfl
@[simp] theorem State.setFunc_badBytes (s : State) (f : FuncId) (v : Func) : (s.setFunc f v).badBytes = s.badBytes := rfl
@[simp] theorem State.setFunc_rawSectors (s : State) (f : FuncId) (v : Func) : (s.setFunc f v).rawSectors = s.rawSectors := rfl
@[simp] theorem State.setFunc_overflow (s : State) (f : FuncId) (v : Func) : (s.setFunc f v).overflow = s.overflow := rfl
@[simp] theorem State.setFunc_packed (s : State) (f : FuncId) (v : Func) : (s.setFunc f v).packed = s.packed := rfl
@[simp] theorem State.setFunc_soft (s : State) (f : FuncId) (v : Func) : (s.setFunc f v).soft = s.soft := rfl
@[simp] theorem State.setFunc_latent (s : State) (f : FuncId) (v : Func) : (s.setFunc f v).latent = s.latent := rfl
@[simp] theorem State.setFunc_l2 (s : State) (f : FuncId) (v : Func) : (s.setFunc f v).l2 = s.l2 := rfl
@[simp] theorem State.setFunc_chase (s : State) (f : FuncId) (v : Func) : (s.setFunc f v).chase = s.chase := rfl
@[simp] theorem State.setFunc_chaseLast (s : State) (f : FuncId) (v : Func) : (s.setFunc f v).chaseLast = s.chaseLast := rfl
@[simp] theorem State.setFunc_chaseGrant (s : State) (f : FuncId) (v : Func) : (s.setFunc f v).chaseGrant = s.chaseGrant := rfl
@[simp] theorem State.setFunc_groupGrant (s : State) (f : FuncId) (v : Func) : (s.setFunc f v).groupGrant = s.groupGrant := rfl
@[simp] theorem State.setFunc_groups (s : State) (f : FuncId) (v : Func) : (s.setFunc f v).groups = s.groups := rfl
@[simp] theorem State.setFunc_fabricId (s : State) (f : FuncId) (v : Func) : (s.setFunc f v).fabricId = s.fabricId := rfl
@[simp] theorem State.setFunc_cores (s : State) (f : FuncId) (v : Func) : (s.setFunc f v).cores = s.cores := rfl
@[simp] theorem State.setFunc_clusters (s : State) (f : FuncId) (v : Func) : (s.setFunc f v).clusters = s.clusters := rfl
@[simp] theorem State.setFunc_dies (s : State) (f : FuncId) (v : Func) : (s.setFunc f v).dies = s.dies := rfl
@[simp] theorem State.setFunc_jobs (s : State) (f : FuncId) (v : Func) : (s.setFunc f v).jobs = s.jobs := rfl
@[simp] theorem State.setFunc_tables (s : State) (f : FuncId) (v : Func) : (s.setFunc f v).tables = s.tables := rfl
@[simp] theorem State.setFunc_maps (s : State) (f : FuncId) (v : Func) : (s.setFunc f v).maps = s.maps := rfl
@[simp] theorem State.setFunc_launches (s : State) (f : FuncId) (v : Func) : (s.setFunc f v).launches = s.launches := rfl
@[simp] theorem State.setFunc_levels (s : State) (f : FuncId) (v : Func) : (s.setFunc f v).levels = s.levels := rfl
@[simp] theorem State.setFunc_entries (s : State) (f : FuncId) (v : Func) : (s.setFunc f v).entries = s.entries := rfl
@[simp] theorem State.setFunc_objects (s : State) (f : FuncId) (v : Func) : (s.setFunc f v).objects = s.objects := rfl
@[simp] theorem State.setFunc_queues (s : State) (f : FuncId) (v : Func) : (s.setFunc f v).queues = s.queues := rfl
@[simp] theorem State.setFunc_outbox (s : State) (f : FuncId) (v : Func) : (s.setFunc f v).outbox = s.outbox := rfl
@[simp] theorem State.setFunc_ymax (s : State) (f : FuncId) (v : Func) : (s.setFunc f v).ymax = s.ymax := rfl
@[simp] theorem State.setFunc_hotid (s : State) (f : FuncId) (v : Func) : (s.setFunc f v).hotid = s.hotid := rfl
@[simp] theorem State.setFunc_eweindEntry (s : State) (f : FuncId) (v : Func) : (s.setFunc f v).eweindEntry = s.eweindEntry := rfl
@[simp] theorem State.setFunc_boot (s : State) (f : FuncId) (v : Func) : (s.setFunc f v).boot = s.boot := rfl
@[simp] theorem State.setFunc_lifecycle (s : State) (f : FuncId) (v : Func) : (s.setFunc f v).lifecycle = s.lifecycle := rfl
@[simp] theorem State.setFunc_nv (s : State) (f : FuncId) (v : Func) : (s.setFunc f v).nv = s.nv := rfl
@[simp] theorem State.setFunc_pages (s : State) (f : FuncId) (v : Func) : (s.setFunc f v).pages = s.pages := rfl
@[simp] theorem State.setFunc_table (s : State) (f : FuncId) (v : Func) : (s.setFunc f v).table = s.table := rfl
@[simp] theorem State.setFunc_tableNext (s : State) (f : FuncId) (v : Func) : (s.setFunc f v).tableNext = s.tableNext := rfl
@[simp] theorem State.setFunc_reportAt (s : State) (f : FuncId) (v : Func) : (s.setFunc f v).reportAt = s.reportAt := rfl
@[simp] theorem State.setFunc_emgRounds (s : State) (f : FuncId) (v : Func) : (s.setFunc f v).emgRounds = s.emgRounds := rfl
@[simp] theorem State.setFunc_coolSince (s : State) (f : FuncId) (v : Func) : (s.setFunc f v).coolSince = s.coolSince := rfl
@[simp] theorem State.setFunc_overSince (s : State) (f : FuncId) (v : Func) : (s.setFunc f v).overSince = s.overSince := rfl
@[simp] theorem State.setFunc_powers (s : State) (f : FuncId) (v : Func) : (s.setFunc f v).powers = s.powers := rfl
@[simp] theorem State.setFunc_emergency (s : State) (f : FuncId) (v : Func) : (s.setFunc f v).emergency = s.emergency := rfl
@[simp] theorem State.setFunc_emgSaved (s : State) (f : FuncId) (v : Func) : (s.setFunc f v).emgSaved = s.emgSaved := rfl
@[simp] theorem State.setFunc_deadLinks (s : State) (f : FuncId) (v : Func) : (s.setFunc f v).deadLinks = s.deadLinks := rfl
@[simp] theorem State.setFunc_linkErrAt (s : State) (f : FuncId) (v : Func) : (s.setFunc f v).linkErrAt = s.linkErrAt := rfl
@[simp] theorem State.setFunc_dieLinks (s : State) (f : FuncId) (v : Func) : (s.setFunc f v).dieLinks = s.dieLinks := rfl
@[simp] theorem State.setFunc_hostAbsent (s : State) (f : FuncId) (v : Func) : (s.setFunc f v).hostAbsent = s.hostAbsent := rfl
@[simp] theorem State.setFunc_errors (s : State) (f : FuncId) (v : Func) : (s.setFunc f v).errors = s.errors := rfl
@[simp] theorem State.setFunc_pri (s : State) (f : FuncId) (v : Func) : (s.setFunc f v).pri = s.pri := rfl
@[simp] theorem State.setFunc_shootdowns (s : State) (f : FuncId) (v : Func) : (s.setFunc f v).shootdowns = s.shootdowns := rfl
@[simp] theorem State.setFunc_mapHeld (s : State) (f : FuncId) (v : Func) : (s.setFunc f v).mapHeld = s.mapHeld := rfl
@[simp] theorem State.setFunc_hostHeld (s : State) (f : FuncId) (v : Func) : (s.setFunc f v).hostHeld = s.hostHeld := rfl
@[simp] theorem State.setFunc_doeHeld (s : State) (f : FuncId) (v : Func) : (s.setFunc f v).doeHeld = s.doeHeld := rfl
@[simp] theorem State.setFunc_hostOut (s : State) (f : FuncId) (v : Func) : (s.setFunc f v).hostOut = s.hostOut := rfl
@[simp] theorem State.setFunc_keptRecords (s : State) (f : FuncId) (v : Func) : (s.setFunc f v).keptRecords = s.keptRecords := rfl
@[simp] theorem State.setFunc_deferred (s : State) (f : FuncId) (v : Func) : (s.setFunc f v).deferred = s.deferred := rfl
@[simp] theorem State.setFunc_sensedAt (s : State) (f : FuncId) (v : Func) : (s.setFunc f v).sensedAt = s.sensedAt := rfl
@[simp] theorem State.setFunc_polledAt (s : State) (f : FuncId) (v : Func) : (s.setFunc f v).polledAt = s.polledAt := rfl
@[simp] theorem State.setFunc_patrolAt (s : State) (f : FuncId) (v : Func) : (s.setFunc f v).patrolAt = s.patrolAt := rfl
@[simp] theorem State.setFunc_shrunk (s : State) (f : FuncId) (v : Func) : (s.setFunc f v).shrunk = s.shrunk := rfl
@[simp] theorem State.setFunc_roundPos (s : State) (f : FuncId) (v : Func) : (s.setFunc f v).roundPos = s.roundPos := rfl
@[simp] theorem State.setFunc_power (s : State) (f : FuncId) (v : Func) : (s.setFunc f v).power = s.power := rfl

/-! ### setGroup -/
@[simp] theorem State.setGroup_platen (s : State) (g : BitVec 10) (v : Group) : (s.setGroup g v).platen = s.platen := rfl
@[simp] theorem State.setGroup_cur (s : State) (g : BitVec 10) (v : Group) : (s.setGroup g v).cur = s.cur := rfl
@[simp] theorem State.setGroup_agenda (s : State) (g : BitVec 10) (v : Group) : (s.setGroup g v).agenda = s.agenda := rfl
@[simp] theorem State.setGroup_draws (s : State) (g : BitVec 10) (v : Group) : (s.setGroup g v).draws = s.draws := rfl
@[simp] theorem State.setGroup_mem (s : State) (g : BitVec 10) (v : Group) : (s.setGroup g v).mem = s.mem := rfl
@[simp] theorem State.setGroup_badBytes (s : State) (g : BitVec 10) (v : Group) : (s.setGroup g v).badBytes = s.badBytes := rfl
@[simp] theorem State.setGroup_rawSectors (s : State) (g : BitVec 10) (v : Group) : (s.setGroup g v).rawSectors = s.rawSectors := rfl
@[simp] theorem State.setGroup_overflow (s : State) (g : BitVec 10) (v : Group) : (s.setGroup g v).overflow = s.overflow := rfl
@[simp] theorem State.setGroup_packed (s : State) (g : BitVec 10) (v : Group) : (s.setGroup g v).packed = s.packed := rfl
@[simp] theorem State.setGroup_soft (s : State) (g : BitVec 10) (v : Group) : (s.setGroup g v).soft = s.soft := rfl
@[simp] theorem State.setGroup_latent (s : State) (g : BitVec 10) (v : Group) : (s.setGroup g v).latent = s.latent := rfl
@[simp] theorem State.setGroup_l2 (s : State) (g : BitVec 10) (v : Group) : (s.setGroup g v).l2 = s.l2 := rfl
@[simp] theorem State.setGroup_chase (s : State) (g : BitVec 10) (v : Group) : (s.setGroup g v).chase = s.chase := rfl
@[simp] theorem State.setGroup_chaseLast (s : State) (g : BitVec 10) (v : Group) : (s.setGroup g v).chaseLast = s.chaseLast := rfl
@[simp] theorem State.setGroup_chaseGrant (s : State) (g : BitVec 10) (v : Group) : (s.setGroup g v).chaseGrant = s.chaseGrant := rfl
@[simp] theorem State.setGroup_groupGrant (s : State) (g : BitVec 10) (v : Group) : (s.setGroup g v).groupGrant = s.groupGrant := rfl
@[simp] theorem State.setGroup_fabricId (s : State) (g : BitVec 10) (v : Group) : (s.setGroup g v).fabricId = s.fabricId := rfl
@[simp] theorem State.setGroup_cores (s : State) (g : BitVec 10) (v : Group) : (s.setGroup g v).cores = s.cores := rfl
@[simp] theorem State.setGroup_clusters (s : State) (g : BitVec 10) (v : Group) : (s.setGroup g v).clusters = s.clusters := rfl
@[simp] theorem State.setGroup_dies (s : State) (g : BitVec 10) (v : Group) : (s.setGroup g v).dies = s.dies := rfl
@[simp] theorem State.setGroup_jobs (s : State) (g : BitVec 10) (v : Group) : (s.setGroup g v).jobs = s.jobs := rfl
@[simp] theorem State.setGroup_tables (s : State) (g : BitVec 10) (v : Group) : (s.setGroup g v).tables = s.tables := rfl
@[simp] theorem State.setGroup_maps (s : State) (g : BitVec 10) (v : Group) : (s.setGroup g v).maps = s.maps := rfl
@[simp] theorem State.setGroup_launches (s : State) (g : BitVec 10) (v : Group) : (s.setGroup g v).launches = s.launches := rfl
@[simp] theorem State.setGroup_levels (s : State) (g : BitVec 10) (v : Group) : (s.setGroup g v).levels = s.levels := rfl
@[simp] theorem State.setGroup_entries (s : State) (g : BitVec 10) (v : Group) : (s.setGroup g v).entries = s.entries := rfl
@[simp] theorem State.setGroup_objects (s : State) (g : BitVec 10) (v : Group) : (s.setGroup g v).objects = s.objects := rfl
@[simp] theorem State.setGroup_queues (s : State) (g : BitVec 10) (v : Group) : (s.setGroup g v).queues = s.queues := rfl
@[simp] theorem State.setGroup_funcs (s : State) (g : BitVec 10) (v : Group) : (s.setGroup g v).funcs = s.funcs := rfl
@[simp] theorem State.setGroup_outbox (s : State) (g : BitVec 10) (v : Group) : (s.setGroup g v).outbox = s.outbox := rfl
@[simp] theorem State.setGroup_ymax (s : State) (g : BitVec 10) (v : Group) : (s.setGroup g v).ymax = s.ymax := rfl
@[simp] theorem State.setGroup_hotid (s : State) (g : BitVec 10) (v : Group) : (s.setGroup g v).hotid = s.hotid := rfl
@[simp] theorem State.setGroup_eweindEntry (s : State) (g : BitVec 10) (v : Group) : (s.setGroup g v).eweindEntry = s.eweindEntry := rfl
@[simp] theorem State.setGroup_boot (s : State) (g : BitVec 10) (v : Group) : (s.setGroup g v).boot = s.boot := rfl
@[simp] theorem State.setGroup_lifecycle (s : State) (g : BitVec 10) (v : Group) : (s.setGroup g v).lifecycle = s.lifecycle := rfl
@[simp] theorem State.setGroup_nv (s : State) (g : BitVec 10) (v : Group) : (s.setGroup g v).nv = s.nv := rfl
@[simp] theorem State.setGroup_pages (s : State) (g : BitVec 10) (v : Group) : (s.setGroup g v).pages = s.pages := rfl
@[simp] theorem State.setGroup_table (s : State) (g : BitVec 10) (v : Group) : (s.setGroup g v).table = s.table := rfl
@[simp] theorem State.setGroup_tableNext (s : State) (g : BitVec 10) (v : Group) : (s.setGroup g v).tableNext = s.tableNext := rfl
@[simp] theorem State.setGroup_reportAt (s : State) (g : BitVec 10) (v : Group) : (s.setGroup g v).reportAt = s.reportAt := rfl
@[simp] theorem State.setGroup_emgRounds (s : State) (g : BitVec 10) (v : Group) : (s.setGroup g v).emgRounds = s.emgRounds := rfl
@[simp] theorem State.setGroup_coolSince (s : State) (g : BitVec 10) (v : Group) : (s.setGroup g v).coolSince = s.coolSince := rfl
@[simp] theorem State.setGroup_overSince (s : State) (g : BitVec 10) (v : Group) : (s.setGroup g v).overSince = s.overSince := rfl
@[simp] theorem State.setGroup_powers (s : State) (g : BitVec 10) (v : Group) : (s.setGroup g v).powers = s.powers := rfl
@[simp] theorem State.setGroup_emergency (s : State) (g : BitVec 10) (v : Group) : (s.setGroup g v).emergency = s.emergency := rfl
@[simp] theorem State.setGroup_emgSaved (s : State) (g : BitVec 10) (v : Group) : (s.setGroup g v).emgSaved = s.emgSaved := rfl
@[simp] theorem State.setGroup_deadLinks (s : State) (g : BitVec 10) (v : Group) : (s.setGroup g v).deadLinks = s.deadLinks := rfl
@[simp] theorem State.setGroup_linkErrAt (s : State) (g : BitVec 10) (v : Group) : (s.setGroup g v).linkErrAt = s.linkErrAt := rfl
@[simp] theorem State.setGroup_dieLinks (s : State) (g : BitVec 10) (v : Group) : (s.setGroup g v).dieLinks = s.dieLinks := rfl
@[simp] theorem State.setGroup_hostAbsent (s : State) (g : BitVec 10) (v : Group) : (s.setGroup g v).hostAbsent = s.hostAbsent := rfl
@[simp] theorem State.setGroup_errors (s : State) (g : BitVec 10) (v : Group) : (s.setGroup g v).errors = s.errors := rfl
@[simp] theorem State.setGroup_pri (s : State) (g : BitVec 10) (v : Group) : (s.setGroup g v).pri = s.pri := rfl
@[simp] theorem State.setGroup_shootdowns (s : State) (g : BitVec 10) (v : Group) : (s.setGroup g v).shootdowns = s.shootdowns := rfl
@[simp] theorem State.setGroup_mapHeld (s : State) (g : BitVec 10) (v : Group) : (s.setGroup g v).mapHeld = s.mapHeld := rfl
@[simp] theorem State.setGroup_hostHeld (s : State) (g : BitVec 10) (v : Group) : (s.setGroup g v).hostHeld = s.hostHeld := rfl
@[simp] theorem State.setGroup_doeHeld (s : State) (g : BitVec 10) (v : Group) : (s.setGroup g v).doeHeld = s.doeHeld := rfl
@[simp] theorem State.setGroup_hostOut (s : State) (g : BitVec 10) (v : Group) : (s.setGroup g v).hostOut = s.hostOut := rfl
@[simp] theorem State.setGroup_keptRecords (s : State) (g : BitVec 10) (v : Group) : (s.setGroup g v).keptRecords = s.keptRecords := rfl
@[simp] theorem State.setGroup_deferred (s : State) (g : BitVec 10) (v : Group) : (s.setGroup g v).deferred = s.deferred := rfl
@[simp] theorem State.setGroup_sensedAt (s : State) (g : BitVec 10) (v : Group) : (s.setGroup g v).sensedAt = s.sensedAt := rfl
@[simp] theorem State.setGroup_polledAt (s : State) (g : BitVec 10) (v : Group) : (s.setGroup g v).polledAt = s.polledAt := rfl
@[simp] theorem State.setGroup_patrolAt (s : State) (g : BitVec 10) (v : Group) : (s.setGroup g v).patrolAt = s.patrolAt := rfl
@[simp] theorem State.setGroup_shrunk (s : State) (g : BitVec 10) (v : Group) : (s.setGroup g v).shrunk = s.shrunk := rfl
@[simp] theorem State.setGroup_roundPos (s : State) (g : BitVec 10) (v : Group) : (s.setGroup g v).roundPos = s.roundPos := rfl
@[simp] theorem State.setGroup_power (s : State) (g : BitVec 10) (v : Group) : (s.setGroup g v).power = s.power := rfl

/-! ### setLaunch -/
@[simp] theorem State.setLaunch_platen (s : State) (i : BitVec 24) (l : Launch) : (s.setLaunch i l).platen = s.platen := rfl
@[simp] theorem State.setLaunch_cur (s : State) (i : BitVec 24) (l : Launch) : (s.setLaunch i l).cur = s.cur := rfl
@[simp] theorem State.setLaunch_agenda (s : State) (i : BitVec 24) (l : Launch) : (s.setLaunch i l).agenda = s.agenda := rfl
@[simp] theorem State.setLaunch_draws (s : State) (i : BitVec 24) (l : Launch) : (s.setLaunch i l).draws = s.draws := rfl
@[simp] theorem State.setLaunch_mem (s : State) (i : BitVec 24) (l : Launch) : (s.setLaunch i l).mem = s.mem := rfl
@[simp] theorem State.setLaunch_badBytes (s : State) (i : BitVec 24) (l : Launch) : (s.setLaunch i l).badBytes = s.badBytes := rfl
@[simp] theorem State.setLaunch_rawSectors (s : State) (i : BitVec 24) (l : Launch) : (s.setLaunch i l).rawSectors = s.rawSectors := rfl
@[simp] theorem State.setLaunch_overflow (s : State) (i : BitVec 24) (l : Launch) : (s.setLaunch i l).overflow = s.overflow := rfl
@[simp] theorem State.setLaunch_packed (s : State) (i : BitVec 24) (l : Launch) : (s.setLaunch i l).packed = s.packed := rfl
@[simp] theorem State.setLaunch_soft (s : State) (i : BitVec 24) (l : Launch) : (s.setLaunch i l).soft = s.soft := rfl
@[simp] theorem State.setLaunch_latent (s : State) (i : BitVec 24) (l : Launch) : (s.setLaunch i l).latent = s.latent := rfl
@[simp] theorem State.setLaunch_l2 (s : State) (i : BitVec 24) (l : Launch) : (s.setLaunch i l).l2 = s.l2 := rfl
@[simp] theorem State.setLaunch_chase (s : State) (i : BitVec 24) (l : Launch) : (s.setLaunch i l).chase = s.chase := rfl
@[simp] theorem State.setLaunch_chaseLast (s : State) (i : BitVec 24) (l : Launch) : (s.setLaunch i l).chaseLast = s.chaseLast := rfl
@[simp] theorem State.setLaunch_chaseGrant (s : State) (i : BitVec 24) (l : Launch) : (s.setLaunch i l).chaseGrant = s.chaseGrant := rfl
@[simp] theorem State.setLaunch_groupGrant (s : State) (i : BitVec 24) (l : Launch) : (s.setLaunch i l).groupGrant = s.groupGrant := rfl
@[simp] theorem State.setLaunch_groups (s : State) (i : BitVec 24) (l : Launch) : (s.setLaunch i l).groups = s.groups := rfl
@[simp] theorem State.setLaunch_fabricId (s : State) (i : BitVec 24) (l : Launch) : (s.setLaunch i l).fabricId = s.fabricId := rfl
@[simp] theorem State.setLaunch_cores (s : State) (i : BitVec 24) (l : Launch) : (s.setLaunch i l).cores = s.cores := rfl
@[simp] theorem State.setLaunch_clusters (s : State) (i : BitVec 24) (l : Launch) : (s.setLaunch i l).clusters = s.clusters := rfl
@[simp] theorem State.setLaunch_dies (s : State) (i : BitVec 24) (l : Launch) : (s.setLaunch i l).dies = s.dies := rfl
@[simp] theorem State.setLaunch_jobs (s : State) (i : BitVec 24) (l : Launch) : (s.setLaunch i l).jobs = s.jobs := rfl
@[simp] theorem State.setLaunch_tables (s : State) (i : BitVec 24) (l : Launch) : (s.setLaunch i l).tables = s.tables := rfl
@[simp] theorem State.setLaunch_maps (s : State) (i : BitVec 24) (l : Launch) : (s.setLaunch i l).maps = s.maps := rfl
@[simp] theorem State.setLaunch_levels (s : State) (i : BitVec 24) (l : Launch) : (s.setLaunch i l).levels = s.levels := rfl
@[simp] theorem State.setLaunch_entries (s : State) (i : BitVec 24) (l : Launch) : (s.setLaunch i l).entries = s.entries := rfl
@[simp] theorem State.setLaunch_objects (s : State) (i : BitVec 24) (l : Launch) : (s.setLaunch i l).objects = s.objects := rfl
@[simp] theorem State.setLaunch_queues (s : State) (i : BitVec 24) (l : Launch) : (s.setLaunch i l).queues = s.queues := rfl
@[simp] theorem State.setLaunch_funcs (s : State) (i : BitVec 24) (l : Launch) : (s.setLaunch i l).funcs = s.funcs := rfl
@[simp] theorem State.setLaunch_outbox (s : State) (i : BitVec 24) (l : Launch) : (s.setLaunch i l).outbox = s.outbox := rfl
@[simp] theorem State.setLaunch_ymax (s : State) (i : BitVec 24) (l : Launch) : (s.setLaunch i l).ymax = s.ymax := rfl
@[simp] theorem State.setLaunch_hotid (s : State) (i : BitVec 24) (l : Launch) : (s.setLaunch i l).hotid = s.hotid := rfl
@[simp] theorem State.setLaunch_eweindEntry (s : State) (i : BitVec 24) (l : Launch) : (s.setLaunch i l).eweindEntry = s.eweindEntry := rfl
@[simp] theorem State.setLaunch_boot (s : State) (i : BitVec 24) (l : Launch) : (s.setLaunch i l).boot = s.boot := rfl
@[simp] theorem State.setLaunch_lifecycle (s : State) (i : BitVec 24) (l : Launch) : (s.setLaunch i l).lifecycle = s.lifecycle := rfl
@[simp] theorem State.setLaunch_nv (s : State) (i : BitVec 24) (l : Launch) : (s.setLaunch i l).nv = s.nv := rfl
@[simp] theorem State.setLaunch_pages (s : State) (i : BitVec 24) (l : Launch) : (s.setLaunch i l).pages = s.pages := rfl
@[simp] theorem State.setLaunch_table (s : State) (i : BitVec 24) (l : Launch) : (s.setLaunch i l).table = s.table := rfl
@[simp] theorem State.setLaunch_tableNext (s : State) (i : BitVec 24) (l : Launch) : (s.setLaunch i l).tableNext = s.tableNext := rfl
@[simp] theorem State.setLaunch_reportAt (s : State) (i : BitVec 24) (l : Launch) : (s.setLaunch i l).reportAt = s.reportAt := rfl
@[simp] theorem State.setLaunch_emgRounds (s : State) (i : BitVec 24) (l : Launch) : (s.setLaunch i l).emgRounds = s.emgRounds := rfl
@[simp] theorem State.setLaunch_coolSince (s : State) (i : BitVec 24) (l : Launch) : (s.setLaunch i l).coolSince = s.coolSince := rfl
@[simp] theorem State.setLaunch_overSince (s : State) (i : BitVec 24) (l : Launch) : (s.setLaunch i l).overSince = s.overSince := rfl
@[simp] theorem State.setLaunch_powers (s : State) (i : BitVec 24) (l : Launch) : (s.setLaunch i l).powers = s.powers := rfl
@[simp] theorem State.setLaunch_emergency (s : State) (i : BitVec 24) (l : Launch) : (s.setLaunch i l).emergency = s.emergency := rfl
@[simp] theorem State.setLaunch_emgSaved (s : State) (i : BitVec 24) (l : Launch) : (s.setLaunch i l).emgSaved = s.emgSaved := rfl
@[simp] theorem State.setLaunch_deadLinks (s : State) (i : BitVec 24) (l : Launch) : (s.setLaunch i l).deadLinks = s.deadLinks := rfl
@[simp] theorem State.setLaunch_linkErrAt (s : State) (i : BitVec 24) (l : Launch) : (s.setLaunch i l).linkErrAt = s.linkErrAt := rfl
@[simp] theorem State.setLaunch_dieLinks (s : State) (i : BitVec 24) (l : Launch) : (s.setLaunch i l).dieLinks = s.dieLinks := rfl
@[simp] theorem State.setLaunch_hostAbsent (s : State) (i : BitVec 24) (l : Launch) : (s.setLaunch i l).hostAbsent = s.hostAbsent := rfl
@[simp] theorem State.setLaunch_errors (s : State) (i : BitVec 24) (l : Launch) : (s.setLaunch i l).errors = s.errors := rfl
@[simp] theorem State.setLaunch_pri (s : State) (i : BitVec 24) (l : Launch) : (s.setLaunch i l).pri = s.pri := rfl
@[simp] theorem State.setLaunch_shootdowns (s : State) (i : BitVec 24) (l : Launch) : (s.setLaunch i l).shootdowns = s.shootdowns := rfl
@[simp] theorem State.setLaunch_mapHeld (s : State) (i : BitVec 24) (l : Launch) : (s.setLaunch i l).mapHeld = s.mapHeld := rfl
@[simp] theorem State.setLaunch_hostHeld (s : State) (i : BitVec 24) (l : Launch) : (s.setLaunch i l).hostHeld = s.hostHeld := rfl
@[simp] theorem State.setLaunch_doeHeld (s : State) (i : BitVec 24) (l : Launch) : (s.setLaunch i l).doeHeld = s.doeHeld := rfl
@[simp] theorem State.setLaunch_hostOut (s : State) (i : BitVec 24) (l : Launch) : (s.setLaunch i l).hostOut = s.hostOut := rfl
@[simp] theorem State.setLaunch_keptRecords (s : State) (i : BitVec 24) (l : Launch) : (s.setLaunch i l).keptRecords = s.keptRecords := rfl
@[simp] theorem State.setLaunch_deferred (s : State) (i : BitVec 24) (l : Launch) : (s.setLaunch i l).deferred = s.deferred := rfl
@[simp] theorem State.setLaunch_sensedAt (s : State) (i : BitVec 24) (l : Launch) : (s.setLaunch i l).sensedAt = s.sensedAt := rfl
@[simp] theorem State.setLaunch_polledAt (s : State) (i : BitVec 24) (l : Launch) : (s.setLaunch i l).polledAt = s.polledAt := rfl
@[simp] theorem State.setLaunch_patrolAt (s : State) (i : BitVec 24) (l : Launch) : (s.setLaunch i l).patrolAt = s.patrolAt := rfl
@[simp] theorem State.setLaunch_shrunk (s : State) (i : BitVec 24) (l : Launch) : (s.setLaunch i l).shrunk = s.shrunk := rfl
@[simp] theorem State.setLaunch_roundPos (s : State) (i : BitVec 24) (l : Launch) : (s.setLaunch i l).roundPos = s.roundPos := rfl
@[simp] theorem State.setLaunch_power (s : State) (i : BitVec 24) (l : Launch) : (s.setLaunch i l).power = s.power := rfl

/-! ### setCtr -/
@[simp] theorem State.setCtr_platen (s : State) (c : BitVec 18) (v : W64) (w : Option CoreId) : (s.setCtr c v w).platen = s.platen := rfl
@[simp] theorem State.setCtr_cur (s : State) (c : BitVec 18) (v : W64) (w : Option CoreId) : (s.setCtr c v w).cur = s.cur := rfl
@[simp] theorem State.setCtr_agenda (s : State) (c : BitVec 18) (v : W64) (w : Option CoreId) : (s.setCtr c v w).agenda = s.agenda := rfl
@[simp] theorem State.setCtr_draws (s : State) (c : BitVec 18) (v : W64) (w : Option CoreId) : (s.setCtr c v w).draws = s.draws := rfl
@[simp] theorem State.setCtr_mem (s : State) (c : BitVec 18) (v : W64) (w : Option CoreId) : (s.setCtr c v w).mem = s.mem := rfl
@[simp] theorem State.setCtr_badBytes (s : State) (c : BitVec 18) (v : W64) (w : Option CoreId) : (s.setCtr c v w).badBytes = s.badBytes := rfl
@[simp] theorem State.setCtr_rawSectors (s : State) (c : BitVec 18) (v : W64) (w : Option CoreId) : (s.setCtr c v w).rawSectors = s.rawSectors := rfl
@[simp] theorem State.setCtr_overflow (s : State) (c : BitVec 18) (v : W64) (w : Option CoreId) : (s.setCtr c v w).overflow = s.overflow := rfl
@[simp] theorem State.setCtr_packed (s : State) (c : BitVec 18) (v : W64) (w : Option CoreId) : (s.setCtr c v w).packed = s.packed := rfl
@[simp] theorem State.setCtr_soft (s : State) (c : BitVec 18) (v : W64) (w : Option CoreId) : (s.setCtr c v w).soft = s.soft := rfl
@[simp] theorem State.setCtr_latent (s : State) (c : BitVec 18) (v : W64) (w : Option CoreId) : (s.setCtr c v w).latent = s.latent := rfl
@[simp] theorem State.setCtr_l2 (s : State) (c : BitVec 18) (v : W64) (w : Option CoreId) : (s.setCtr c v w).l2 = s.l2 := rfl
@[simp] theorem State.setCtr_chaseGrant (s : State) (c : BitVec 18) (v : W64) (w : Option CoreId) : (s.setCtr c v w).chaseGrant = s.chaseGrant := rfl
@[simp] theorem State.setCtr_groupGrant (s : State) (c : BitVec 18) (v : W64) (w : Option CoreId) : (s.setCtr c v w).groupGrant = s.groupGrant := rfl
@[simp] theorem State.setCtr_groups (s : State) (c : BitVec 18) (v : W64) (w : Option CoreId) : (s.setCtr c v w).groups = s.groups := rfl
@[simp] theorem State.setCtr_fabricId (s : State) (c : BitVec 18) (v : W64) (w : Option CoreId) : (s.setCtr c v w).fabricId = s.fabricId := rfl
@[simp] theorem State.setCtr_cores (s : State) (c : BitVec 18) (v : W64) (w : Option CoreId) : (s.setCtr c v w).cores = s.cores := rfl
@[simp] theorem State.setCtr_clusters (s : State) (c : BitVec 18) (v : W64) (w : Option CoreId) : (s.setCtr c v w).clusters = s.clusters := rfl
@[simp] theorem State.setCtr_dies (s : State) (c : BitVec 18) (v : W64) (w : Option CoreId) : (s.setCtr c v w).dies = s.dies := rfl
@[simp] theorem State.setCtr_jobs (s : State) (c : BitVec 18) (v : W64) (w : Option CoreId) : (s.setCtr c v w).jobs = s.jobs := rfl
@[simp] theorem State.setCtr_tables (s : State) (c : BitVec 18) (v : W64) (w : Option CoreId) : (s.setCtr c v w).tables = s.tables := rfl
@[simp] theorem State.setCtr_maps (s : State) (c : BitVec 18) (v : W64) (w : Option CoreId) : (s.setCtr c v w).maps = s.maps := rfl
@[simp] theorem State.setCtr_launches (s : State) (c : BitVec 18) (v : W64) (w : Option CoreId) : (s.setCtr c v w).launches = s.launches := rfl
@[simp] theorem State.setCtr_levels (s : State) (c : BitVec 18) (v : W64) (w : Option CoreId) : (s.setCtr c v w).levels = s.levels := rfl
@[simp] theorem State.setCtr_entries (s : State) (c : BitVec 18) (v : W64) (w : Option CoreId) : (s.setCtr c v w).entries = s.entries := rfl
@[simp] theorem State.setCtr_objects (s : State) (c : BitVec 18) (v : W64) (w : Option CoreId) : (s.setCtr c v w).objects = s.objects := rfl
@[simp] theorem State.setCtr_funcs (s : State) (c : BitVec 18) (v : W64) (w : Option CoreId) : (s.setCtr c v w).funcs = s.funcs := rfl
@[simp] theorem State.setCtr_outbox (s : State) (c : BitVec 18) (v : W64) (w : Option CoreId) : (s.setCtr c v w).outbox = s.outbox := rfl
@[simp] theorem State.setCtr_ymax (s : State) (c : BitVec 18) (v : W64) (w : Option CoreId) : (s.setCtr c v w).ymax = s.ymax := rfl
@[simp] theorem State.setCtr_hotid (s : State) (c : BitVec 18) (v : W64) (w : Option CoreId) : (s.setCtr c v w).hotid = s.hotid := rfl
@[simp] theorem State.setCtr_eweindEntry (s : State) (c : BitVec 18) (v : W64) (w : Option CoreId) : (s.setCtr c v w).eweindEntry = s.eweindEntry := rfl
@[simp] theorem State.setCtr_boot (s : State) (c : BitVec 18) (v : W64) (w : Option CoreId) : (s.setCtr c v w).boot = s.boot := rfl
@[simp] theorem State.setCtr_lifecycle (s : State) (c : BitVec 18) (v : W64) (w : Option CoreId) : (s.setCtr c v w).lifecycle = s.lifecycle := rfl
@[simp] theorem State.setCtr_nv (s : State) (c : BitVec 18) (v : W64) (w : Option CoreId) : (s.setCtr c v w).nv = s.nv := rfl
@[simp] theorem State.setCtr_pages (s : State) (c : BitVec 18) (v : W64) (w : Option CoreId) : (s.setCtr c v w).pages = s.pages := rfl
@[simp] theorem State.setCtr_table (s : State) (c : BitVec 18) (v : W64) (w : Option CoreId) : (s.setCtr c v w).table = s.table := rfl
@[simp] theorem State.setCtr_tableNext (s : State) (c : BitVec 18) (v : W64) (w : Option CoreId) : (s.setCtr c v w).tableNext = s.tableNext := rfl
@[simp] theorem State.setCtr_reportAt (s : State) (c : BitVec 18) (v : W64) (w : Option CoreId) : (s.setCtr c v w).reportAt = s.reportAt := rfl
@[simp] theorem State.setCtr_emgRounds (s : State) (c : BitVec 18) (v : W64) (w : Option CoreId) : (s.setCtr c v w).emgRounds = s.emgRounds := rfl
@[simp] theorem State.setCtr_coolSince (s : State) (c : BitVec 18) (v : W64) (w : Option CoreId) : (s.setCtr c v w).coolSince = s.coolSince := rfl
@[simp] theorem State.setCtr_overSince (s : State) (c : BitVec 18) (v : W64) (w : Option CoreId) : (s.setCtr c v w).overSince = s.overSince := rfl
@[simp] theorem State.setCtr_powers (s : State) (c : BitVec 18) (v : W64) (w : Option CoreId) : (s.setCtr c v w).powers = s.powers := rfl
@[simp] theorem State.setCtr_emergency (s : State) (c : BitVec 18) (v : W64) (w : Option CoreId) : (s.setCtr c v w).emergency = s.emergency := rfl
@[simp] theorem State.setCtr_emgSaved (s : State) (c : BitVec 18) (v : W64) (w : Option CoreId) : (s.setCtr c v w).emgSaved = s.emgSaved := rfl
@[simp] theorem State.setCtr_deadLinks (s : State) (c : BitVec 18) (v : W64) (w : Option CoreId) : (s.setCtr c v w).deadLinks = s.deadLinks := rfl
@[simp] theorem State.setCtr_linkErrAt (s : State) (c : BitVec 18) (v : W64) (w : Option CoreId) : (s.setCtr c v w).linkErrAt = s.linkErrAt := rfl
@[simp] theorem State.setCtr_dieLinks (s : State) (c : BitVec 18) (v : W64) (w : Option CoreId) : (s.setCtr c v w).dieLinks = s.dieLinks := rfl
@[simp] theorem State.setCtr_hostAbsent (s : State) (c : BitVec 18) (v : W64) (w : Option CoreId) : (s.setCtr c v w).hostAbsent = s.hostAbsent := rfl
@[simp] theorem State.setCtr_errors (s : State) (c : BitVec 18) (v : W64) (w : Option CoreId) : (s.setCtr c v w).errors = s.errors := rfl
@[simp] theorem State.setCtr_pri (s : State) (c : BitVec 18) (v : W64) (w : Option CoreId) : (s.setCtr c v w).pri = s.pri := rfl
@[simp] theorem State.setCtr_shootdowns (s : State) (c : BitVec 18) (v : W64) (w : Option CoreId) : (s.setCtr c v w).shootdowns = s.shootdowns := rfl
@[simp] theorem State.setCtr_mapHeld (s : State) (c : BitVec 18) (v : W64) (w : Option CoreId) : (s.setCtr c v w).mapHeld = s.mapHeld := rfl
@[simp] theorem State.setCtr_hostHeld (s : State) (c : BitVec 18) (v : W64) (w : Option CoreId) : (s.setCtr c v w).hostHeld = s.hostHeld := rfl
@[simp] theorem State.setCtr_doeHeld (s : State) (c : BitVec 18) (v : W64) (w : Option CoreId) : (s.setCtr c v w).doeHeld = s.doeHeld := rfl
@[simp] theorem State.setCtr_hostOut (s : State) (c : BitVec 18) (v : W64) (w : Option CoreId) : (s.setCtr c v w).hostOut = s.hostOut := rfl
@[simp] theorem State.setCtr_keptRecords (s : State) (c : BitVec 18) (v : W64) (w : Option CoreId) : (s.setCtr c v w).keptRecords = s.keptRecords := rfl
@[simp] theorem State.setCtr_deferred (s : State) (c : BitVec 18) (v : W64) (w : Option CoreId) : (s.setCtr c v w).deferred = s.deferred := rfl
@[simp] theorem State.setCtr_sensedAt (s : State) (c : BitVec 18) (v : W64) (w : Option CoreId) : (s.setCtr c v w).sensedAt = s.sensedAt := rfl
@[simp] theorem State.setCtr_polledAt (s : State) (c : BitVec 18) (v : W64) (w : Option CoreId) : (s.setCtr c v w).polledAt = s.polledAt := rfl
@[simp] theorem State.setCtr_patrolAt (s : State) (c : BitVec 18) (v : W64) (w : Option CoreId) : (s.setCtr c v w).patrolAt = s.patrolAt := rfl
@[simp] theorem State.setCtr_shrunk (s : State) (c : BitVec 18) (v : W64) (w : Option CoreId) : (s.setCtr c v w).shrunk = s.shrunk := rfl
@[simp] theorem State.setCtr_roundPos (s : State) (c : BitVec 18) (v : W64) (w : Option CoreId) : (s.setCtr c v w).roundPos = s.roundPos := rfl
@[simp] theorem State.setCtr_power (s : State) (c : BitVec 18) (v : W64) (w : Option CoreId) : (s.setCtr c v w).power = s.power := rfl

/-! ### A core's contexts, a context's registers -/
@[simp] theorem Core.setCtx_team (k : Core) (x : CtxId) (v : Ctx) : (k.setCtx x v).team = k.team := rfl
@[simp] theorem Core.setCtx_tiles (k : Core) (x : CtxId) (v : Ctx) : (k.setCtx x v).tiles = k.tiles := rfl
@[simp] theorem Core.setCtx_accV (k : Core) (x : CtxId) (v : Ctx) : (k.setCtx x v).accV = k.accV := rfl
@[simp] theorem Core.setCtx_accP (k : Core) (x : CtxId) (v : Ctx) : (k.setCtx x v).accP = k.accP := rfl
@[simp] theorem Core.setCtx_accW (k : Core) (x : CtxId) (v : Ctx) : (k.setCtx x v).accW = k.accW := rfl
@[simp] theorem Core.setCtx_ligTab (k : Core) (x : CtxId) (v : Ctx) : (k.setCtx x v).ligTab = k.ligTab := rfl
@[simp] theorem Core.setCtx_ligCnt (k : Core) (x : CtxId) (v : Ctx) : (k.setCtx x v).ligCnt = k.ligCnt := rfl
@[simp] theorem Core.setCtx_fmtQ (k : Core) (x : CtxId) (v : Ctx) : (k.setCtx x v).fmtQ = k.fmtQ := rfl
@[simp] theorem Core.setCtx_fmtPush (k : Core) (x : CtxId) (v : Ctx) : (k.setCtx x v).fmtPush = k.fmtPush := rfl
@[simp] theorem Core.setCtx_galM (k : Core) (x : CtxId) (v : Ctx) : (k.setCtx x v).galM = k.galM := rfl
@[simp] theorem Core.setCtx_galV (k : Core) (x : CtxId) (v : Ctx) : (k.setCtx x v).galV = k.galV := rfl
@[simp] theorem Core.setCtx_galX (k : Core) (x : CtxId) (v : Ctx) : (k.setCtx x v).galX = k.galX := rfl
@[simp] theorem Core.setCtx_galK (k : Core) (x : CtxId) (v : Ctx) : (k.setCtx x v).galK = k.galK := rfl
@[simp] theorem Core.setCtx_latchA (k : Core) (x : CtxId) (v : Ctx) : (k.setCtx x v).latchA = k.latchA := rfl
@[simp] theorem Core.setCtx_latchB (k : Core) (x : CtxId) (v : Ctx) : (k.setCtx x v).latchB = k.latchB := rfl
@[simp] theorem Core.setCtx_latchC (k : Core) (x : CtxId) (v : Ctx) : (k.setCtx x v).latchC = k.latchC := rfl
@[simp] theorem Core.setCtx_sgen (k : Core) (x : CtxId) (v : Ctx) : (k.setCtx x v).sgen = k.sgen := rfl
@[simp] theorem Core.setCtx_pins (k : Core) (x : CtxId) (v : Ctx) : (k.setCtx x v).pins = k.pins := rfl
@[simp] theorem Core.setCtx_release (k : Core) (x : CtxId) (v : Ctx) : (k.setCtx x v).release = k.release := rfl
@[simp] theorem Core.setCtx_pending (k : Core) (x : CtxId) (v : Ctx) : (k.setCtx x v).pending = k.pending := rfl
@[simp] theorem Core.setCtx_lcnt (k : Core) (x : CtxId) (v : Ctx) : (k.setCtx x v).lcnt = k.lcnt := rfl
@[simp] theorem Core.setCtx_lbase (k : Core) (x : CtxId) (v : Ctx) : (k.setCtx x v).lbase = k.lbase := rfl
@[simp] theorem Core.setCtx_lring (k : Core) (x : CtxId) (v : Ctx) : (k.setCtx x v).lring = k.lring := rfl
@[simp] theorem Core.setCtx_stoff (k : Core) (x : CtxId) (v : Ctx) : (k.setCtx x v).stoff = k.stoff := rfl
@[simp] theorem Core.setCtx_slip (k : Core) (x : CtxId) (v : Ctx) : (k.setCtx x v).slip = k.slip := rfl
@[simp] theorem Core.setCtx_vw (k : Core) (x : CtxId) (v : Ctx) : (k.setCtx x v).vw = k.vw := rfl
@[simp] theorem Core.setCtx_pidx (k : Core) (x : CtxId) (v : Ctx) : (k.setCtx x v).pidx = k.pidx := rfl
@[simp] theorem Core.setCtx_wbud (k : Core) (x : CtxId) (v : Ctx) : (k.setCtx x v).wbud = k.wbud := rfl
@[simp] theorem Core.setCtx_wuse (k : Core) (x : CtxId) (v : Ctx) : (k.setCtx x v).wuse = k.wuse := rfl
@[simp] theorem Core.setCtx_budg (k : Core) (x : CtxId) (v : Ctx) : (k.setCtx x v).budg = k.budg := rfl
@[simp] theorem Core.setCtx_dln (k : Core) (x : CtxId) (v : Ctx) : (k.setCtx x v).dln = k.dln := rfl
@[simp] theorem Core.setCtx_slice (k : Core) (x : CtxId) (v : Ctx) : (k.setCtx x v).slice = k.slice := rfl
@[simp] theorem Core.setCtx_pwrl (k : Core) (x : CtxId) (v : Ctx) : (k.setCtx x v).pwrl = k.pwrl := rfl
@[simp] theorem Core.setCtx_scrw (k : Core) (x : CtxId) (v : Ctx) : (k.setCtx x v).scrw = k.scrw := rfl
@[simp] theorem Core.setCtx_dfcause (k : Core) (x : CtxId) (v : Ctx) : (k.setCtx x v).dfcause = k.dfcause := rfl
@[simp] theorem Core.setCtx_dfaddr (k : Core) (x : CtxId) (v : Ctx) : (k.setCtx x v).dfaddr = k.dfaddr := rfl
@[simp] theorem Core.setCtx_cmpinj (k : Core) (x : CtxId) (v : Ctx) : (k.setCtx x v).cmpinj = k.cmpinj := rfl
@[simp] theorem Core.setCtx_armed (k : Core) (x : CtxId) (v : Ctx) : (k.setCtx x v).armed = k.armed := rfl
@[simp] theorem Core.setCtx_ckA (k : Core) (x : CtxId) (v : Ctx) : (k.setCtx x v).ckA = k.ckA := rfl
@[simp] theorem Core.setCtx_ckB (k : Core) (x : CtxId) (v : Ctx) : (k.setCtx x v).ckB = k.ckB := rfl
@[simp] theorem Core.setCtx_ckIsB (k : Core) (x : CtxId) (v : Ctx) : (k.setCtx x v).ckIsB = k.ckIsB := rfl
@[simp] theorem Core.setCtx_irrevocable (k : Core) (x : CtxId) (v : Ctx) : (k.setCtx x v).irrevocable = k.irrevocable := rfl
@[simp] theorem Core.setCtx_rlog (k : Core) (x : CtxId) (v : Ctx) : (k.setCtx x v).rlog = k.rlog := rfl
@[simp] theorem Core.setCtx_replay (k : Core) (x : CtxId) (v : Ctx) : (k.setCtx x v).replay = k.replay := rfl
@[simp] theorem Core.setCtx_resetAsked (k : Core) (x : CtxId) (v : Ctx) : (k.setCtx x v).resetAsked = k.resetAsked := rfl
@[simp] theorem Core.setCtx_resetting (k : Core) (x : CtxId) (v : Ctx) : (k.setCtx x v).resetting = k.resetting := rfl
@[simp] theorem Core.setCtx_traps (k : Core) (x : CtxId) (v : Ctx) : (k.setCtx x v).traps = k.traps := rfl
@[simp] theorem Core.setCtx_folioQ (k : Core) (x : CtxId) (v : Ctx) : (k.setCtx x v).folioQ = k.folioQ := rfl
@[simp] theorem Core.setCtx_trapEntry (k : Core) (x : CtxId) (v : Ctx) : (k.setCtx x v).trapEntry = k.trapEntry := rfl
@[simp] theorem Core.setCtx_l1 (k : Core) (x : CtxId) (v : Ctx) : (k.setCtx x v).l1 = k.l1 := rfl
@[simp] theorem Core.setCtx_l1tlb (k : Core) (x : CtxId) (v : Ctx) : (k.setCtx x v).l1tlb = k.l1tlb := rfl
@[simp] theorem Core.setCtx_tlbM (k : Core) (x : CtxId) (v : Ctx) : (k.setCtx x v).tlbM = k.tlbM := rfl
@[simp] theorem Core.setCtx_tlbV (k : Core) (x : CtxId) (v : Ctx) : (k.setCtx x v).tlbV = k.tlbV := rfl
@[simp] theorem Core.setCtx_tlbX (k : Core) (x : CtxId) (v : Ctx) : (k.setCtx x v).tlbX = k.tlbX := rfl
@[simp] theorem Core.setCtx_tlbK (k : Core) (x : CtxId) (v : Ctx) : (k.setCtx x v).tlbK = k.tlbK := rfl
@[simp] theorem Core.setCtx_disabled (k : Core) (x : CtxId) (v : Ctx) : (k.setCtx x v).disabled = k.disabled := rfl
@[simp] theorem Core.setCtx_offNext (k : Core) (x : CtxId) (v : Ctx) : (k.setCtx x v).offNext = k.offNext := rfl
@[simp] theorem Core.setCtx_proof (k : Core) (x : CtxId) (v : Ctx) : (k.setCtx x v).proof = k.proof := rfl
@[simp] theorem Core.setCtx_lastCtx (k : Core) (x : CtxId) (v : Ctx) : (k.setCtx x v).lastCtx = k.lastCtx := rfl
@[simp] theorem Core.setCtx_issuedAt (k : Core) (x : CtxId) (v : Ctx) : (k.setCtx x v).issuedAt = k.issuedAt := rfl
@[simp] theorem Core.setCtx_fwArea (k : Core) (x : CtxId) (v : Ctx) : (k.setCtx x v).fwArea = k.fwArea := rfl
@[simp] theorem Core.setCtx_wbq (k : Core) (x : CtxId) (v : Ctx) : (k.setCtx x v).wbq = k.wbq := rfl
@[simp] theorem Core.setCtx_trapClk (k : Core) (x : CtxId) (v : Ctx) : (k.setCtx x v).trapClk = k.trapClk := rfl
@[simp] theorem Core.setCtx_trapsNow (k : Core) (x : CtxId) (v : Ctx) : (k.setCtx x v).trapsNow = k.trapsNow := rfl
@[simp] theorem Core.setCtx_proofTimes (k : Core) (x : CtxId) (v : Ctx) : (k.setCtx x v).proofTimes = k.proofTimes := rfl
@[simp] theorem Core.setCtx_residueTimes (k : Core) (x : CtxId) (v : Ctx) : (k.setCtx x v).residueTimes = k.residueTimes := rfl
@[simp] theorem Core.setCtx_preempt (k : Core) (x : CtxId) (v : Ctx) : (k.setCtx x v).preempt = k.preempt := rfl
@[simp] theorem Core.setCtx_grant (k : Core) (x : CtxId) (v : Ctx) : (k.setCtx x v).grant = k.grant := rfl
@[simp] theorem Core.setCtx_wantGrant (k : Core) (x : CtxId) (v : Ctx) : (k.setCtx x v).wantGrant = k.wantGrant := rfl
@[simp] theorem Core.setCtx_spacerFrom (k : Core) (x : CtxId) (v : Ctx) : (k.setCtx x v).spacerFrom = k.spacerFrom := rfl
@[simp] theorem Core.setCtx_draw (k : Core) (x : CtxId) (v : Ctx) : (k.setCtx x v).draw = k.draw := rfl
@[simp] theorem Core.setCtx_drawClk (k : Core) (x : CtxId) (v : Ctx) : (k.setCtx x v).drawClk = k.drawClk := rfl
@[simp] theorem Core.setCtx_overFor (k : Core) (x : CtxId) (v : Ctx) : (k.setCtx x v).overFor = k.overFor := rfl
@[simp] theorem Core.setCtx_calmFor (k : Core) (x : CtxId) (v : Ctx) : (k.setCtx x v).calmFor = k.calmFor := rfl
@[simp] theorem Core.setCtx_withheld (k : Core) (x : CtxId) (v : Ctx) : (k.setCtx x v).withheld = k.withheld := rfl
@[simp] theorem Core.setCtx_packet (k : Core) (x : CtxId) (v : Ctx) : (k.setCtx x v).packet = k.packet := rfl
@[simp] theorem Core.setCtx_rounds (k : Core) (x : CtxId) (v : Ctx) : (k.setCtx x v).rounds = k.rounds := rfl
@[simp] theorem Core.setCtx_lastJob (k : Core) (x : CtxId) (v : Ctx) : (k.setCtx x v).lastJob = k.lastJob := rfl
@[simp] theorem Core.setCtx_lastLaunch (k : Core) (x : CtxId) (v : Ctx) : (k.setCtx x v).lastLaunch = k.lastLaunch := rfl
@[simp] theorem Core.setCtx_window (k : Core) (x : CtxId) (v : Ctx) : (k.setCtx x v).window = k.window := rfl
@[simp] theorem Core.setCtx_served (k : Core) (x : CtxId) (v : Ctx) : (k.setCtx x v).served = k.served := rfl
@[simp] theorem Core.setCtx_saveClk (k : Core) (x : CtxId) (v : Ctx) : (k.setCtx x v).saveClk = k.saveClk := rfl
@[simp] theorem Core.setCtx_measured (k : Core) (x : CtxId) (v : Ctx) : (k.setCtx x v).measured = k.measured := rfl
@[simp] theorem Ctx.setReg_pc (x : Ctx) (r : Reg) (v : W64) : (x.setReg r v).pc = x.pc := by
  unfold Ctx.setReg; split <;> rfl
@[simp] theorem Ctx.setReg_priv (x : Ctx) (r : Reg) (v : W64) : (x.setReg r v).priv = x.priv := by
  unfold Ctx.setReg; split <;> rfl
@[simp] theorem Ctx.setReg_run (x : Ctx) (r : Reg) (v : W64) : (x.setReg r v).run = x.run := by
  unfold Ctx.setReg; split <;> rfl
@[simp] theorem Ctx.setReg_caseMem (x : Ctx) (r : Reg) (v : W64) : (x.setReg r v).caseMem = x.caseMem := by
  unfold Ctx.setReg; split <;> rfl
@[simp] theorem Ctx.setReg_dq (x : Ctx) (r : Reg) (v : W64) : (x.setReg r v).dq = x.dq := by
  unfold Ctx.setReg; split <;> rfl
@[simp] theorem Ctx.setReg_fpx (x : Ctx) (r : Reg) (v : W64) : (x.setReg r v).fpx = x.fpx := by
  unfold Ctx.setReg; split <;> rfl
@[simp] theorem Ctx.setReg_evl (x : Ctx) (r : Reg) (v : W64) : (x.setReg r v).evl = x.evl := by
  unfold Ctx.setReg; split <;> rfl
@[simp] theorem Ctx.setReg_cause (x : Ctx) (r : Reg) (v : W64) : (x.setReg r v).cause = x.cause := by
  unfold Ctx.setReg; split <;> rfl
@[simp] theorem Ctx.setReg_taddr (x : Ctx) (r : Reg) (v : W64) : (x.setReg r v).taddr = x.taddr := by
  unfold Ctx.setReg; split <;> rfl
@[simp] theorem Ctx.setReg_tepc (x : Ctx) (r : Reg) (v : W64) : (x.setReg r v).tepc = x.tepc := by
  unfold Ctx.setReg; split <;> rfl
@[simp] theorem Ctx.setReg_tinfo (x : Ctx) (r : Reg) (v : W64) : (x.setReg r v).tinfo = x.tinfo := by
  unfold Ctx.setReg; split <;> rfl
@[simp] theorem Ctx.setReg_storeQ (x : Ctx) (r : Reg) (v : W64) : (x.setReg r v).storeQ = x.storeQ := by
  unfold Ctx.setReg; split <;> rfl
@[simp] theorem Ctx.setReg_unacked (x : Ctx) (r : Reg) (v : W64) : (x.setReg r v).unacked = x.unacked := by
  unfold Ctx.setReg; split <;> rfl
@[simp] theorem Ctx.setReg_loadQ (x : Ctx) (r : Reg) (v : W64) : (x.setReg r v).loadQ = x.loadQ := by
  unfold Ctx.setReg; split <;> rfl
@[simp] theorem Ctx.setReg_pos (x : Ctx) (r : Reg) (v : W64) : (x.setReg r v).pos = x.pos := by
  unfold Ctx.setReg; split <;> rfl
@[simp] theorem Ctx.setReg_role (x : Ctx) (r : Reg) (v : W64) : (x.setReg r v).role = x.role := by
  unfold Ctx.setReg; split <;> rfl
@[simp] theorem Ctx.setReg_wait (x : Ctx) (r : Reg) (v : W64) : (x.setReg r v).wait = x.wait := by
  unfold Ctx.setReg; split <;> rfl
@[simp] theorem Ctx.setReg_passOver (x : Ctx) (r : Reg) (v : W64) : (x.setReg r v).passOver = x.passOver := by
  unfold Ctx.setReg; split <;> rfl

/-! ### Reading back -/
@[simp] theorem State.core_setCore (s : State) (c d : CoreId) (k : Core) : (s.setCore c k).core d = if d = c then k else s.core d := by
  simp [State.core, State.setCore, Fin.ext_iff]
@[simp] theorem Core.ctx_setCtx (k : Core) (x y : CtxId) (v : Ctx) : (k.setCtx x v).ctx y = if y = x then v else k.ctx y := by
  simp [Core.ctx, Core.setCtx, Fin.ext_iff]
@[simp] theorem State.cluster_setCluster (s : State) (c d : ClusterId) (v : Cluster) :
    (s.setCluster c v).cluster d = if d = c then v else s.cluster d := by
  simp [State.cluster, State.setCluster, Fin.ext_iff]
@[simp] theorem State.die_setDie (s : State) (c d : DieId) (v : Die) : (s.setDie c v).die d = if d = c then v else s.die d := by
  simp [State.die, State.setDie, Fin.ext_iff]
@[simp] theorem State.queue_setQueue (s : State) (c d : QueueId) (v : Queue) :
    (s.setQueue c v).queue d = if d = c then v else s.queue d := by
  simp [State.queue, State.setQueue, Fin.ext_iff]
@[simp] theorem State.func_setFunc (s : State) (c d : FuncId) (v : Func) :
    (s.setFunc c v).func d = if d = c then v else s.func d := by
  simp [State.func, State.setFunc, Fin.ext_iff]
@[simp] theorem State.group_setGroup (s : State) (c d : BitVec 10) (v : Group) :
    (s.setGroup c v).group d = if d = c then v else s.group d := by
  simp [State.group, State.setGroup, BitVec.toNat_inj]
/-- A register reads as it was last written; s0 reads zero and takes no write (R10). -/
@[simp] theorem Ctx.reg_setReg (x : Ctx) (d r : Reg) (v : W64) :
    (x.setReg d v).reg r = if r = d ∧ d ≠ 0 then v else x.reg r := by
  unfold Ctx.reg Ctx.setReg
  by_cases hd : d = 0
  · simp only [hd, ne_eq, not_true_eq_false, and_false, if_true, if_false]
  · rw [if_neg hd]
    by_cases hr : r = 0
    · have : ¬(r = d ∧ d ≠ 0) := fun h => hd (h.1 ▸ hr)
      rw [if_pos hr, if_neg this, if_pos hr]
    · simp only [if_neg hr, FMap.get_set, BitVec.toNat_inj, ne_eq, hd, not_false_eq_true, and_true]
@[simp] theorem Ctx.reg_zero (x : Ctx) : x.reg 0 = 0 := rfl

/-! ### A context of the package -/
@[simp] theorem State.ctx_setCtx (s : State) (r : CtxRef) (v : Ctx) : (s.setCtx r v).ctx r = v := by simp [State.ctx, State.setCtx]
theorem State.ctx_setCtx_other (s : State) {r q : CtxRef} (v : Ctx) (h : q ≠ r) : (s.setCtx r v).ctx q = s.ctx q := by
  obtain ⟨c, x⟩ := r
  obtain ⟨d, y⟩ := q
  simp only [State.ctx, State.setCtx, State.core_setCore]
  by_cases hc : d = c
  · subst hc
    have hy : y ≠ x := fun e => h (by rw [e])
    simp [hy]
  · simp [hc]
@[simp] theorem State.ctx_modCtx (s : State) (r : CtxRef) (f : Ctx → Ctx) : (s.modCtx r f).ctx r = f (s.ctx r) := by
  simp [State.modCtx]
@[simp] theorem State.cur_modCx (s : State) (f : Ctx → Ctx) : (s.modCx f).cur = s.cur := rfl
@[simp] theorem State.cx_modCx (s : State) (f : Ctx → Ctx) : (s.modCx f).cx = f s.cx := by
  simp [State.cx, State.modCx, State.modCtx, State.setCtx]
  simp [State.ctx]

end Sys2Proof.Machine
end

