-- ==== Sys2Proof/Laws/Memory.lean ====
section
/-! SUPPORT. The laws of memory: a read gives what was written, a write leaves every other byte alone, and every operation on memory
keeps its canonical form. -/
namespace Sys2Proof.Machine

/-! ### The canonical form, as a rising list with no default in it -/

theorem FMap.above_iff {α : Type} [DecidableEq α] {m : FMap α} {d : α} {n : Nat} (h : FMap.wf m d = true) :
    FMap.above m n = true ↔ ∀ e ∈ m, n < e.1 := by
  induction m with
  | nil => simp [FMap.above]
  | cons e rest ih =>
    obtain ⟨j, w⟩ := e
    have hr : FMap.wf rest d = true := by simp only [FMap.wf, Bool.and_eq_true] at h; exact h.2
    simp only [FMap.above, decide_eq_true_eq, List.mem_cons, forall_eq_or_imp]
    refine ⟨fun hn => ⟨hn, ?_⟩, fun hn => hn.1⟩
    exact (ih hr).1 (FMap.wf_tail_above h (Nat.le_of_lt hn))

theorem FMap.wf_iff {α : Type} [DecidableEq α] {m : FMap α} {d : α} :
    FMap.wf m d = true ↔ m.Pairwise (fun a b => a.1 < b.1) ∧ ∀ e ∈ m, e.2 ≠ d := by
  induction m with
  | nil => simp [FMap.wf]
  | cons e rest ih =>
    obtain ⟨j, w⟩ := e
    simp only [FMap.wf, Bool.and_eq_true, decide_eq_true_eq, List.pairwise_cons, List.mem_cons, forall_eq_or_imp]
    constructor
    · rintro ⟨⟨hw, ha⟩, hr⟩
      have := ih.1 hr
      exact ⟨⟨(FMap.above_iff hr).1 ha, this.1⟩, hw, this.2⟩
    · rintro ⟨⟨ha, hp⟩, hw, hd⟩
      have hr := ih.2 ⟨hp, hd⟩
      exact ⟨⟨hw, (FMap.above_iff hr).2 ha⟩, hr⟩

/-- A stretch of listed entries put between those below it and those above it. -/
theorem FMap.wf_splice {α : Type} [DecidableEq α] {m fresh : FMap α} {d : α} {lo hi : Nat} (h : FMap.wf m d = true) (hf : FMap.wf fresh d = true)
    (hr : ∀ e ∈ fresh, lo ≤ e.1 ∧ e.1 < hi) (hle : lo ≤ hi) :
    FMap.wf (m.filter (fun e => e.1 < lo) ++ fresh ++ m.filter (fun e => hi ≤ e.1)) d = true := by
  rw [FMap.wf_iff] at *
  refine ⟨?_, ?_⟩
  · simp only [List.pairwise_append]
    refine ⟨⟨h.1.filter _, hf.1, ?_⟩, h.1.filter _, ?_⟩
    · intro a ha b hb
      have := (hr b hb).1
      simp only [List.mem_filter, decide_eq_true_eq] at ha
      omega
    · intro a ha b hb
      simp only [List.mem_filter, decide_eq_true_eq, List.mem_append] at ha hb
      rcases ha with ha | ha
      · omega
      · have := (hr a ha).2; omega
  · intro e he
    simp only [List.mem_append, List.mem_filter] at he
    rcases he with (he | he) | he
    · exact h.2 e he.1
    · exact hf.2 e he
    · exact h.2 e he.1

/-- The entries of `n` bytes from an address, zeros unlisted. -/
theorem FMap.wf_fresh (lo n : Nat) (f : Nat → Byte) :
    FMap.wf ((List.range n).filterMap fun i => if f i = 0 then none else some (lo + i, f i)) (0 : Byte) = true ∧
    ∀ e ∈ (List.range n).filterMap (fun i => if f i = 0 then none else some (lo + i, f i)), lo ≤ e.1 ∧ e.1 < lo + n := by
  constructor
  · rw [FMap.wf_iff]
    refine ⟨?_, ?_⟩
    · rw [List.pairwise_filterMap]
      refine List.pairwise_lt_range.imp ?_
      intro a b hab x hx y hy
      split at hx <;> simp at hx
      split at hy <;> simp at hy
      subst hx hy
      show lo + a < lo + b
      omega
    · intro e he
      simp only [List.mem_filterMap] at he
      obtain ⟨i, _, hi⟩ := he
      split at hi <;> simp at hi
      subst hi
      assumption
  · intro e he
    simp only [List.mem_filterMap, List.mem_range] at he
    obtain ⟨i, hi, h⟩ := he
    split at h <;> simp at h
    subst h
    show lo ≤ lo + i ∧ lo + i < lo + n
    omega

/-! ### One byte -/

theorem State.byte_of_mem {s t : State} (hp : t.pages = s.pages) (hm : t.mem = s.mem) (hd : t.dies = s.dies) (hc : t.clusters = s.clusters)
    (ht : t.table = s.table) (hh : t.hotid = s.hotid) (hn : t.platen = s.platen) (a : Nat) : t.byte a = s.byte a := by
  have hhf : ∀ i, healthField t i = healthField s i := fun i => by unfold healthField State.die; rw [hp, hd]
  have hpf : ∀ i, powerField t i = powerField s i := fun i => by unfold powerField State.cluster State.now; rw [hp, hc, ht, hh, hn]
  unfold State.byte pageByte
  rw [hm, hhf, hpf]
theorem State.byte_high {s : State} {a : Nat} (h : pagesEnd ≤ a) : s.byte a = FMap.get s.mem 0 a := by
  simp [State.byte, Nat.not_lt.2 h]

theorem State.setByte_mem {s : State} {a : Nat} (b : Byte) (h : pagesEnd ≤ a) :
    s.setByte a b = { s with mem := FMap.set s.mem 0 a b, badBytes := FMap.set s.badBytes false a false } := by
  simp [State.setByte, Nat.not_lt.2 h]
theorem State.byte_setByte_same {s : State} {a : Nat} (b : Byte) (h : pagesEnd ≤ a) : (s.setByte a b).byte a = b := by
  rw [State.setByte_mem b h, State.byte_high h]; simp
theorem State.byte_setByte_other {s : State} {a c : Nat} (b : Byte) (h : pagesEnd ≤ a) (hc : c ≠ a) : (s.setByte a b).byte c = s.byte c := by
  rw [State.setByte_mem b h]
  by_cases hp : c < pagesEnd
  · simp only [State.byte, if_pos hp]; rfl
  · rw [State.byte_high (by omega), State.byte_high (by omega)]
    simp [hc]
/-- A write to firmware's pages reaches no listed byte. -/
theorem pageWrite_mem (s : State) (a : Nat) (b : Byte) : (pageWrite s a b).mem = s.mem := by
  unfold pageWrite; dsimp only; repeat' split <;> try rfl
theorem State.setByte_low_mem {s : State} {a : Nat} (b : Byte) (h : a < pagesEnd) : (s.setByte a b).mem = s.mem := by
  simp [State.setByte, h, pageWrite_mem]

/-! ### Runs of bytes -/

theorem State.byte_writeNat_other {c : Nat} : ∀ (n : Nat) (s : State) (a v : Nat), pagesEnd ≤ a → (c < a ∨ a + n ≤ c) →
    (s.writeNat a v n).byte c = s.byte c := by
  intro n
  induction n with
  | zero => intros; rfl
  | succ n ih =>
    intro s a v h hc
    rw [State.writeNat, ih _ _ _ (by omega) (by omega), State.byte_setByte_other _ h (by omega)]
theorem State.byte_writeNat_in {i : Nat} : ∀ (n : Nat) (s : State) (a v : Nat), pagesEnd ≤ a → i < n →
    (s.writeNat a v n).byte (a + i) = BitVec.ofNat 8 (v / 256 ^ i) := by
  induction i with
  | zero =>
    intro n s a v h hn
    cases n with
    | zero => omega
    | succ n => rw [State.writeNat, State.byte_writeNat_other n _ _ _ (by omega) (by omega)]; simp [State.byte_setByte_same _ h]
  | succ i ih =>
    intro n s a v h hn
    cases n with
    | zero => omega
    | succ n =>
      rw [State.writeNat, show a + (i + 1) = a + 1 + i by omega, ih n _ _ _ (by omega) (by omega), Nat.div_div_eq_div_mul, Nat.pow_succ, Nat.mul_comm]
/-- A read of what was just written (R4). -/
theorem State.readNat_writeNat : ∀ (n : Nat) (s : State) (a v : Nat), pagesEnd ≤ a → (s.writeNat a v n).readNat a n = v % 256 ^ n := by
  have key : ∀ (n : Nat) (s : State) (a v : Nat), (∀ i, i < n → s.byte (a + i) = BitVec.ofNat 8 (v / 256 ^ i)) → s.readNat a n = v % 256 ^ n := by
    intro n
    induction n with
    | zero => intro s a v _; simp [State.readNat, Nat.mod_one]
    | succ n ih =>
      intro s a v h
      have h0 := h 0 (by omega)
      simp only [Nat.add_zero, Nat.pow_zero, Nat.div_one] at h0
      rw [State.readNat, ih s (a + 1) (v / 256), h0]
      · rw [BitVec.toNat_ofNat, Nat.pow_succ 256, Nat.mul_comm (256 ^ n), Nat.mod_mul]
      · intro i hi
        have := h (i + 1) (by omega)
        rw [show a + 1 + i = a + (i + 1) by omega, this, Nat.div_div_eq_div_mul, Nat.pow_succ, Nat.mul_comm]
  intro n s a v h
  exact key n _ a v fun i hi => State.byte_writeNat_in n s a v h hi

theorem State.byte_writeBytes_other {c : Nat} : ∀ (l : List Byte) (s : State) (a : Nat), pagesEnd ≤ a → (c < a ∨ a + l.length ≤ c) →
    (s.writeBytes a l).byte c = s.byte c := by
  intro l
  induction l with
  | nil => intros; rfl
  | cons b l ih =>
    intro s a h hc
    simp only [List.length_cons] at hc
    rw [State.writeBytes, ih _ _ (by omega) (by omega), State.byte_setByte_other _ h (by omega)]
theorem State.byte_writeBytes_in {i : Nat} : ∀ (l : List Byte) (s : State) (a : Nat) (b : Byte), pagesEnd ≤ a → l[i]? = some b →
    (s.writeBytes a l).byte (a + i) = b := by
  induction i with
  | zero =>
    intro l s a b h hi
    cases l with
    | nil => simp at hi
    | cons c l =>
      simp at hi
      subst hi
      rw [State.writeBytes, State.byte_writeBytes_other l _ _ (by omega) (by omega)]; exact State.byte_setByte_same _ h
  | succ i ih =>
    intro l s a b h hi
    cases l with
    | nil => simp at hi
    | cons c l =>
      rw [State.writeBytes, show a + (i + 1) = a + 1 + i by omega]
      exact ih l _ _ b (by omega) (by simpa using hi)
theorem State.byte_placeBytes_other {c : Nat} : ∀ (l : List Byte) (s : State) (a : Nat), pagesEnd ≤ a → (c < a ∨ a + l.length ≤ c) →
    (s.placeBytes a l).byte c = s.byte c := by
  intro l
  induction l with
  | nil => intros; rfl
  | cons b l ih =>
    intro s a h hc
    simp only [List.length_cons] at hc
    rw [State.placeBytes, ih _ _ (by omega) (by omega), State.byte_setByte_other _ h (by omega)]

/-! ### Every operation keeps the canonical form -/

theorem Memory.wf_reset : Memory.wf State.reset := by decide
theorem Memory.wf_of_mem {s t : State} (h : t.mem = s.mem) (hw : Memory.wf s) : Memory.wf t := by
  unfold Memory.wf; rw [h]; exact hw
theorem Memory.wf_setByte {s : State} (a : Nat) (b : Byte) (h : Memory.wf s) : Memory.wf (s.setByte a b) := by
  by_cases hp : a < pagesEnd
  · exact Memory.wf_of_mem (State.setByte_low_mem b hp) h
  · rw [State.setByte_mem b (by omega)]; exact FMap.wf_set _ _ h
theorem Memory.wf_writeNat : ∀ (n : Nat) {s : State} (a v : Nat), Memory.wf s → Memory.wf (s.writeNat a v n) := by
  intro n
  induction n with
  | zero => intro s a v h; exact h
  | succ n ih => intro s a v h; exact ih _ _ (Memory.wf_setByte a _ h)
theorem Memory.wf_writeBytes : ∀ (l : List Byte) {s : State} (a : Nat), Memory.wf s → Memory.wf (s.writeBytes a l) := by
  intro l
  induction l with
  | nil => intro s a h; exact h
  | cons b l ih => intro s a h; exact ih _ (Memory.wf_setByte a b h)
theorem Memory.wf_placeBytes : ∀ (l : List Byte) {s : State} (a : Nat), Memory.wf s → Memory.wf (s.placeBytes a l) := by
  intro l
  induction l with
  | nil => intro s a h; exact h
  | cons b l ih => intro s a h; exact ih _ (Memory.wf_setByte a b h)
theorem Memory.wf_foldl {α : Type} (f : State → α → State) (hf : ∀ s a, Memory.wf s → Memory.wf (f s a)) :
    ∀ (l : List α) (s : State), Memory.wf s → Memory.wf (l.foldl f s) := by
  intro l
  induction l with
  | nil => intro s h; exact h
  | cons a l ih => intro s h; exact ih _ (hf s a h)
/-- Coding a sector changes no byte. -/
@[simp] theorem State.codeSector_mem (s : State) (n : Nat) : (s.codeSector n).mem = s.mem := by
  unfold State.codeSector
  split
  · rfl
  · dsimp only
    split <;> rfl
theorem Memory.wf_codeSector {s : State} (n : Nat) (h : Memory.wf s) : Memory.wf (s.codeSector n) := Memory.wf_of_mem (s.codeSector_mem n) h
theorem Memory.wf_zeroRange {s : State} (a n : Nat) (h : Memory.wf s) : Memory.wf (s.zeroRange a n) :=
  Memory.wf_foldl _ (fun _ i hi => Memory.wf_codeSector i hi) _ _ (FMap.wf_filter _ h)
theorem Memory.wf_hostPut {s : State} (f : FuncId) (pa : Nat) (data : List Byte) (h : Memory.wf s) : Memory.wf (s.hostPut f pa data) := by
  unfold State.hostPut
  split
  · exact Memory.wf_writeBytes data pa h
  · refine Memory.wf_of_mem ?_ h
    unfold State.askOut
    split
    · split <;> rfl
    · rfl
theorem Memory.wf_loseScratch {s : State} (die : DieId) (h : Memory.wf s) : Memory.wf (s.loseScratch die) := by
  have hf := FMap.wf_fresh (scratchBase (clusterOfNat (die.val * 8))) (8 * 0x40_0000) fun i => (Config.freeValue (s.draws + i)).setWidth 8
  exact FMap.wf_splice h hf.1 hf.2 (by omega)
theorem Memory.wf_copyImage {s : State} (base core : Nat) (h : Memory.wf s) : Memory.wf (s.copyImage base core) := by
  exact Memory.wf_foldl _ (fun _ _ hp => Memory.wf_hostPut _ _ _ hp) _ _ h

end Sys2Proof.Machine
end

