-- ==== Sys2Proof/Laws/Ops.lean ====
section
/-! SUPPORT. What each shared operation of a context does, said once: going on, writing a register, jumping, waiting and
trapping. -/
namespace Sys2Proof.Machine

/-! ### A context's own updates leave the rest of the package alone -/

@[simp] theorem State.byte_modCore (s : State) (c : CoreId) (f : Core → Core) (a : Nat) : (s.modCore c f).byte a = s.byte a := rfl
@[simp] theorem State.byte_setCore (s : State) (c : CoreId) (k : Core) (a : Nat) : (s.setCore c k).byte a = s.byte a := rfl
@[simp] theorem State.byte_modCc (s : State) (f : Core → Core) (a : Nat) : (s.modCc f).byte a = s.byte a := rfl
@[simp] theorem State.byte_modCtx (s : State) (r : CtxRef) (f : Ctx → Ctx) (a : Nat) : (s.modCtx r f).byte a = s.byte a := rfl
@[simp] theorem State.byte_modCx (s : State) (f : Ctx → Ctx) (a : Nat) : (s.modCx f).byte a = s.byte a := rfl
@[simp] theorem State.mem_modCore (s : State) (c : CoreId) (f : Core → Core) : (s.modCore c f).mem = s.mem := rfl
@[simp] theorem State.mem_modCc (s : State) (f : Core → Core) : (s.modCc f).mem = s.mem := rfl
@[simp] theorem State.mem_modCtx (s : State) (r : CtxRef) (f : Ctx → Ctx) : (s.modCtx r f).mem = s.mem := rfl
@[simp] theorem State.mem_modCx (s : State) (f : Ctx → Ctx) : (s.modCx f).mem = s.mem := rfl
@[simp] theorem State.cur_modCc (s : State) (f : Core → Core) : (s.modCc f).cur = s.cur := rfl
@[simp] theorem State.cur_modCore (s : State) (c : CoreId) (f : Core → Core) : (s.modCore c f).cur = s.cur := rfl
@[simp] theorem State.core_modCore (s : State) (c d : CoreId) (f : Core → Core) : (s.modCore c f).core d = if d = c then f (s.core c) else s.core d := by
  simp [State.modCore]
@[simp] theorem State.cc_modCc (s : State) (f : Core → Core) : (s.modCc f).cc = f s.cc := by
  simp [State.cc, State.modCc, State.modCore]
@[simp] theorem State.cc_modCx (s : State) (f : Ctx → Ctx) : (s.modCx f).cc = s.cc.setCtx s.cur.ctx (f s.cx) := by
  simp [State.cc, State.modCx, State.modCtx, State.setCtx, State.cx]
/-- Another core is as it was. -/
theorem State.core_modCx_other (s : State) (f : Ctx → Ctx) {c : CoreId} (h : c ≠ s.cur.core) : (s.modCx f).core c = s.core c := by
  simp [State.modCx, State.modCtx, State.setCtx, h]
/-- Another context is as it was. -/
theorem State.ctx_modCx_other (s : State) (f : Ctx → Ctx) {r : CtxRef} (h : r ≠ s.cur) : (s.modCx f).ctx r = s.ctx r := by
  simp [State.modCx, State.modCtx, State.ctx_setCtx_other _ _ h]

/-- A team's request for a region is in no page of firmware. -/
@[simp] theorem State.byte_withdrawRegion (s : State) (c : CoreId) (a : Nat) : (s.withdrawRegion c).byte a = s.byte a := by
  have hc : ∀ d, ∃ q, (s.withdrawRegion c).cluster d = { s.cluster d with regionQ := q } := by
    intro d
    rw [State.withdrawRegion, State.modCluster, State.cluster_setCluster]
    split
    · next h => rw [h]; exact ⟨_, rfl⟩
    · exact ⟨_, rfl⟩
  have ht : ∀ d, ((s.withdrawRegion c).cluster d).target = (s.cluster d).target := fun d => by obtain ⟨q, h⟩ := hc d; rw [h]
  have hr : ∀ d n, ((s.withdrawRegion c).cluster d).railChanged n = (s.cluster d).railChanged n := fun d n => by
    obtain ⟨q, h⟩ := hc d; rw [h]; rfl
  have h : ∀ n, powerField (s.withdrawRegion c) n = powerField s n := by
    intro n
    obtain ⟨q, h⟩ := hc (clusterOfNat (n - 6))
    unfold powerField
    simp only [ht, hr, h]
    rfl
  have g : ∀ n, healthField (s.withdrawRegion c) n = healthField s n := fun _ => rfl
  simp only [State.byte, pageByte, h, g]
  rfl

/-! ### Going on -/

@[simp] theorem State.cx_advance (s : State) (n : Nat) : (s.advance n).cx = { s.cx with pc := s.cx.pc + BitVec.ofNat 64 n, wait := none } := by
  simp [State.advance]
@[simp] theorem State.byte_advance (s : State) (n a : Nat) : (s.advance n).byte a = s.byte a := rfl
@[simp] theorem State.cur_advance (s : State) (n : Nat) : (s.advance n).cur = s.cur := rfl
@[simp] theorem State.reg_advance (s : State) (n : Nat) (r : Reg) : (s.advance n).reg r = s.reg r := by
  simp [State.reg, Ctx.reg]

@[simp] theorem State.cx_jump (s : State) (pc : W64) : (s.jump pc).cx = { s.cx with pc := pc, wait := none } := by simp [State.jump]
@[simp] theorem State.byte_jump (s : State) (pc : W64) (a : Nat) : (s.jump pc).byte a = s.byte a := rfl
@[simp] theorem State.reg_jump (s : State) (pc : W64) (r : Reg) : (s.jump pc).reg r = s.reg r := by
  simp [State.reg, Ctx.reg]

/-- A register write changes that register, the pc and the wait, and nothing else (R10). -/
@[simp] theorem State.reg_writeNext (s : State) (d r : Reg) (v : W64) (n : Nat) :
    (s.writeNext d v n).reg r = if r = d ∧ d ≠ 0 then v else s.reg r := by
  simp only [State.reg, State.writeNext, State.cx_modCx]
  exact Ctx.reg_setReg (s.cx.claim d) d r v
@[simp] theorem State.pc_writeNext (s : State) (d : Reg) (v : W64) (n : Nat) : (s.writeNext d v n).cx.pc = s.cx.pc + BitVec.ofNat 64 n := by
  simp [State.writeNext]
@[simp] theorem State.wait_writeNext (s : State) (d : Reg) (v : W64) (n : Nat) : (s.writeNext d v n).cx.wait = none := by
  simp [State.writeNext]
@[simp] theorem State.byte_writeNext (s : State) (d : Reg) (v : W64) (n a : Nat) : (s.writeNext d v n).byte a = s.byte a := rfl
theorem State.cx_writeNext (s : State) (d : Reg) (v : W64) (n : Nat) :
    (s.writeNext d v n).cx =
      { s.cx with regs := (s.cx.setReg d v).regs, loadQ := (s.cx.claim d).loadQ, storeQ := (s.cx.claim d).storeQ,
                  pc := s.cx.pc + BitVec.ofNat 64 n, wait := none } := by
  simp only [State.writeNext, State.cx_modCx]
  unfold Ctx.setReg; split <;> rfl

/-- A hold keeps the pc and counts on from the wait that it continues (R326). -/
@[simp] theorem State.cx_hold (s : State) (k : WaitKind) (n : Nat) : (s.hold k n).cx = { s.cx with wait := some ⟨k, n, s.cx.waited⟩ } := by
  simp [State.hold]
@[simp] theorem State.byte_hold (s : State) (k : WaitKind) (n a : Nat) : (s.hold k n).byte a = s.byte a := rfl

/-- What an integer or a Wobble instruction with a destination does (R195). -/
theorem writeAlu_ok {d : Reg} (h : d ≠ 0) (v : W64) (n : Nat) (s : State) : writeAlu d v n s = .next (s.writeNext d v n) := if_neg h
theorem writeAlu_zero (v : W64) (n : Nat) (s : State) : writeAlu 0 v n s = .next s.illegal := rfl

/-! ### Taking a trap (R319) -/

theorem State.noteRead_ok (s : State) {t : Trap} (h : t.code ≠ causeMemerr) : s.noteRead t = s :=
  if_neg fun x => h x.1
/-- A trap of a context that serves none: the context stops with its trap registers written, a dormant light context starts,
and a team context no longer asks for a region. -/
theorem State.raise_entry {s : State} {r : CtxRef} {t : Trap} (pc : W64) (hr : ∀ x, (s.ctx r).role ≠ .trap x) (ht : t.code ≠ causeMemerr) :
    s.raise r t pc =
      let u := s.setCore r.core (((s.core r.core).writeTrap r.ctx t pc).startHandler r.ctx (s.ctxid r))
      if r.ctx = teamCtx then u.withdrawRegion r.core else u := by
  unfold State.raise State.raiseNoted
  rw [State.noteRead_ok s ht]
  cases h : (s.ctx r).role with
  | trap x => exact absurd h (hr x)
  | none => rfl
  | folio f => rfl
/-- A trap of a context that serves one is a double fault (R323). -/
theorem State.raise_double {s : State} {r : CtxRef} {t : Trap} {x : CtxId} (pc : W64) (hr : (s.ctx r).role = .trap x) (ht : t.code ≠ causeMemerr) :
    s.raise r t pc = s.doubleFault r x t := by
  unfold State.raise State.raiseNoted
  rw [State.noteRead_ok s ht, hr]
/-- The trap registers of a context that has trapped. -/
theorem Core.writeTrap_ctx (k : Core) (x : CtxId) (t : Trap) (pc : W64) :
    (k.writeTrap x t pc).ctx x =
      { k.ctx x with run := .trapped, cause := causeWord t (x == teamCtx && !k.traps.isEmpty), taddr := t.addr, tepc := pc &&& ~~~3,
                     tinfo := t.info, wait := none } := by
  unfold Core.writeTrap
  split <;> simp [Core.modCtx, Core.setCtx, Core.ctx]
/-- Taking a trap that is no MEMERR stores nothing in a context that serves no trap. -/
theorem State.byte_raise {s : State} {r : CtxRef} {t : Trap} (pc : W64) (hr : ∀ x, (s.ctx r).role ≠ .trap x) (ht : t.code ≠ causeMemerr) (a : Nat) :
    (s.raise r t pc).byte a = s.byte a := by
  rw [State.raise_entry pc hr ht]
  by_cases h : r.ctx = teamCtx
  · simp only [h, if_true, State.byte_withdrawRegion, State.byte_setCore]
  · simp only [h, if_false, State.byte_setCore]

/-! ### The checks of an access (R225) -/

theorem State.checked_ok (s : State) (va : W64) (pa : Nat) (e : TlbEntry) (go : Nat → TlbEntry → State) : s.checked va (.ok pa e) go = go pa e := rfl
theorem State.checked_trap (s : State) (va : W64) (t : Trap) (go : Nat → TlbEntry → State) : s.checked va (.trap t) go = s.raise s.cur t s.cx.pc := rfl
theorem State.checked_miss (s : State) (va : W64) (go : Nat → TlbEntry → State) : s.checked va .miss go = s.holdWalk va := rfl
/-- Taking such a trap keeps memory's form. -/
theorem Memory.wf_raise_entry {s : State} {r : CtxRef} {t : Trap} (pc : W64) (hr : ∀ x, (s.ctx r).role ≠ .trap x) (ht : t.code ≠ causeMemerr)
    (h : Memory.wf s) : Memory.wf (s.raise r t pc) := by
  rw [State.raise_entry pc hr ht]
  dsimp only
  split <;> exact h

end Sys2Proof.Machine
end

