-- ==== Sys2Proof/Laws/Residue.lean ====
section
/-! SUPPORT. A group computed without a fault passes each check of R105, and the checks see every fault whose size is no
multiple of 127. -/
namespace Sys2Proof.Machine

@[simp] theorem residue_residue (n : Int) : residue (residue n) = residue n := Int.emod_emod_of_dvd n (Int.dvd_refl 127)
theorem residue_add (a b : Int) : residue (residue a + residue b) = residue (a + b) := (Int.add_emod a b 127).symm
theorem residue_mul (a b : Int) : residue (residue a * residue b) = residue (a * b) := (Int.mul_emod a b 127).symm
/-- 2^7 leaves 1, so that a shift rotates residues. -/
theorem residue_shift (s : Nat) : residue (2 ^ (s % 7)) = residue (2 ^ s) := by
  have h : (2 ^ s) % 127 = (2 ^ 7) ^ (s / 7) % 127 * (2 ^ (s % 7) % 127) % 127 := by
    rw [← Nat.mul_mod, ← Nat.pow_mul, ← Nat.pow_add, Nat.div_add_mod]
  have one : (2 ^ 7) ^ (s / 7) % 127 = 1 := by rw [Nat.pow_mod, show 2 ^ 7 % 127 = 1 from rfl, Nat.one_pow]
  have n : (2 ^ (s % 7)) % 127 = 2 ^ s % 127 := by rw [h, one, Nat.one_mul, Nat.mod_mod]
  unfold residue
  exact_mod_cast n
theorem residue_sum (l : List Int) : residue ((l.map residue).sum) = residue l.sum := by
  induction l with
  | nil => rfl
  | cons a l ih => rw [List.map_cons, List.sum_cons, List.sum_cons, ← residue_add, residue_residue, ih, residue_add]

theorem productPasses_mul (a b : Nat) : productPasses a b (a * b : Nat) = true := by simp [productPasses, residue_mul]
/-- A product that is shifted left loses nothing. -/
theorem alignPasses_left (p e q : Int) (lost : Int) (h : q ≤ e) : alignPasses p e q (p * 2 ^ (e - q).toNat) lost = true := by
  rw [alignPasses, if_pos h, beq_iff_eq, ← residue_mul p, ← residue_shift, ← residue_mul (residue p) (2 ^ _),
    residue_residue]
/-- A product that is shifted right is its quotient and what it lost. -/
theorem alignPasses_right (p e q : Int) (h : e < q) :
    alignPasses p e q (p / 2 ^ (q - e).toNat) (p % 2 ^ (q - e).toNat) = true := by
  have d : p / 2 ^ (q - e).toNat * 2 ^ (q - e).toNat + p % 2 ^ (q - e).toNat = p := Int.ediv_mul_add_emod p _
  have m : residue (residue (p / 2 ^ (q - e).toNat) * 2 ^ ((q - e).toNat % 7)) = residue (p / 2 ^ (q - e).toNat * 2 ^ (q - e).toNat) := by
    rw [← residue_mul, residue_residue, residue_shift, residue_mul]
  rw [alignPasses, if_neg (Int.not_le.mpr h), beq_iff_eq, ← residue_add, residue_residue, m, residue_add, d]
theorem treePasses_sum (l : List Int) : treePasses l l.sum = true := by simp [treePasses, residue_sum]
theorem adderPasses_add (w s : Int) : adderPasses w s (w + s) = true := by simp [adderPasses, residue_add]

/-- What the check of the tree sees: a sum that is wrong by no multiple of 127. -/
theorem treePasses_iff (l : List Int) (n : Int) : treePasses l n = true ↔ n % 127 = l.sum % 127 := by
  rw [treePasses, residue_sum]; simp [residue]
/-- What the check of the adder sees, in the same way. -/
theorem adderPasses_iff (w s n : Int) : adderPasses w s n = true ↔ n % 127 = (w + s) % 127 := by
  rw [adderPasses, residue_add]; simp [residue]

end Sys2Proof.Machine
end

