-- ==== Sys2Proof/Tests/Slice0.lean ====
section
/-! SUPPORT. The model's own tests: the checks of well-formedness, words written out from the layouts of 07 and what they decode to,
single steps with results taken from the manual, and a witness for the hypotheses of each statement. -/
namespace Sys2Proof.Tests
set_option Elab.async false
open Sys2Proof Sys2Proof.Machine

/-! ### Ill-formed terms, one for each check -/

/-- A vector form that the arithmetic functions admit: t1, t2, t3, two rows. -/
def vf : VForm := ⟨1, 2, 3, false, false, 0, .fp32, 1, 0, 0, 0⟩
def vu : VForm := { vf with b := 0 }
def mv : MvForm := ⟨1, 2, 3, false, 0, .fp32, 1, 0, 0⟩
def mvT : MvForm := { mv with b := 0 }
def lw : LongWait := ⟨false, 100⟩
def atm : AtmForm := ⟨1, 2, 3, 0, true, .none, .pkg, 0⟩
def tk : TokForm := ⟨true, 5, 6, true, 7, 1⟩

theorem test_wellFormed_accepts : [Instr.fcvt .rne .fp32 .i8 1 2, .loop 1 16 8, .ldc .double 1 8, .stc .byte 1 16383, .popq 1 7 lw, .fence 15 lw,
    .dlv 2 3 4 5 lw, .pwrAcq 8 lw, .tok tk, .tok ⟨false, 0, 0, false, 0, 0⟩, .atmAdd atm, .atmCas { atm with f := 9 }, .vadd vf,
    .vadd { vf with a := 48 }, .vabs vu, .vshl { vf with ty := .i8 }, .vmovs vu, .vred { vu with mode := 2 }, .vcvt { vu with brow := 1 },
    .vqnt { vf with nrow := 3 }, .vdqnt { vf with nrow := 3 }, .vamul vf 1, .vld vf, .vst { vf with brow := 4 }, .mma ⟨1, 2, false, false, false, false, false, false, 0, 7, 1, 31⟩,
    .amovT mvT, .ald mv, .ast { mv with mode := 3 }, .tld mv, .tld { mvT with pair := true, mode := 1 }, .tst { mvT with pair := true }, .lig 7 1 3].all wellFormed = true := by
  decide +kernel

theorem test_wellFormed_control : [Instr.fcvt .rne .fp32 .fp32 1 2, .fcvt .rne .i8 .i64 1 2, .loop 1 0 0, .loop 1 0 9, .loop 1 17 8,
    .ldc .double 1 4, .stc .half 1 1, .popq 1 7 ⟨false, 0⟩, .fence 15 ⟨true, 0⟩, .fenceDone 15 ⟨false, 0⟩, .chWait 5 1 ⟨false, 0⟩, .bar 5 1 ⟨false, 0⟩,
    .dlv 3 3 4 5 lw, .dlv 2 3 4 5 ⟨false, 0⟩, .pwrAcq 9 lw, .pwrAcq 8 ⟨false, 0⟩, .tok { tk with wv := false, a := 0 }, .tok { tk with wv := false, wctr := 0 },
    .tok { tk with inc := 0 }, .tok { tk with sv := false, inc := 0 }, .tok { tk with sv := false, sctr := 0 }, .illegalEncoding 0, .proofCheck 0 .m 0,
    .l2Writeback 0].all (fun i => !wellFormed i) = true := by decide +kernel

theorem test_wellFormed_atomics : [Instr.atmAdd { atm with f := 1 }, .atmMin { atm with f := 1 }, .atmMax { atm with f := 1 }, .atmAnd { atm with f := 1 },
    .atmOr { atm with f := 1 }, .atmXor { atm with f := 1 }, .atmXchg { atm with f := 1 }].all (fun i => !wellFormed i) = true := by decide +kernel

theorem test_wellFormed_vector : [Instr.vadd { vf with d := 24 }, .vadd { vf with d := 48 }, .vadd { vf with a := 40 }, .vadd { vf with a := 48, ha := true },
    .vand { vf with a := 48 }, .vadd { vf with b := 56 }, .vadd { vf with b := 48, hb := true }, .vadd { vf with ty := .i8 }, .vadd { vf with ty := .bp },
    .vadd { vf with drow := 63 }, .vadd { vf with arow := 63 }, .vadd { vf with brow := 63 }, .vmin { vf with mode := 1 }, .vabs { vu with b := 1 },
    .vabs { vu with brow := 1 }, .vabs { vu with hb := true }, .vshl { vf with ty := .i8, brow := 1 }, .vshl { vf with ty := .i8, hb := true }, .vshl vf,
    .vred { vu with mode := 3 }, .vmovs { vu with b := 1 }, .vmovs { vu with arow := 1 }, .vmovs { vu with ha := true }, .vmovs { vu with mode := 1 },
    .vmovs { vu with ty := .bp }, .vcvt { vu with brow := 0 }, .vcvt { vu with brow := 8 }, .vcvt { vu with brow := 6 }, .vcvt { vu with brow := 5 },
    .vcvt { vu with brow := 1, ty := .i8, nrow := 0, arow := 63 }, .vqnt { vf with nrow := 2, arow := 53 }, .vdqnt { vf with nrow := 2 }, .vqnt { vf with ty := .fp16 }, .vqnt { vf with b := 48 },
    .vdqnt { vf with ty := .i8 }, .vdqnt { vf with a := 48 }, .vamul { vf with ty := .i32 } 1, .vconj { vu with mode := 1 } 1, .vld { vf with mode := 1 }, .vld { vf with brow := 1 },
    .vst { vf with brow := 5 }, .vst { vf with ty := .bf16 }, .vst { vf with arow := 1 }].all (fun i => !wellFormed i) = true := by decide +kernel

theorem test_wellFormed_matrix : [Instr.mma ⟨24, 2, false, false, false, false, false, false, 0, 7, 1, 31⟩, .mmaz ⟨1, 48, false, false, false, false, false, false, 0, 7, 1, 31⟩,
    .mma ⟨3, 2, false, true, false, false, false, false, 0, 7, 1, 31⟩, .mma ⟨2, 5, true, false, false, false, false, false, 0, 7, 1, 31⟩,
    .amovT { mvT with d := 8 }, .amovT { mvT with a := 48 }, .amovT { mvT with ty := .i8 }, .amovT { mvT with nrow := 31, srow := 1 }, .amovT { mvT with drow := 63 },
    .ald { mv with d := 8 }, .ald { mv with srow := 1 }, .ald { mv with pair := true }, .ast { mv with drow := 1 }, .ast { mv with ty := .bp }, .ast { mv with srow := 63 },
    .tld { mv with d := 48 }, .tld { mv with srow := 1 }, .tld { mvT with pair := true, a := 3 }, .tld { mvT with pair := true, mode := 2 }, .tld { mv with pair := true },
    .tst { mv with mode := 1 }, .tst { mv with drow := 1 }, .tst { mv with pair := true }, .lig 0 1 0].all (fun i => !wellFormed i) = true := by decide +kernel

/-! ### Words written out from the layouts of R172 to R191 -/

/-- Layout D and, with `imm = b + 64 f`, layout I. -/
def wD (op f b a d : Nat) : W32 := BitVec.ofNat 32 (f * 2 ^ 26 + b * 2 ^ 20 + a * 2 ^ 14 + d * 2 ^ 8 + op)
def wI (op imm a d : Nat) : W32 := BitVec.ofNat 32 (imm * 2 ^ 20 + a * 2 ^ 14 + d * 2 ^ 8 + op)
def wIS (op scope off a d : Nat) : W32 := BitVec.ofNat 32 (scope * 2 ^ 29 + off * 2 ^ 20 + a * 2 ^ 14 + d * 2 ^ 8 + op)
def wIA (op scope size off a d : Nat) : W32 := BitVec.ofNat 32 (scope * 2 ^ 29 + size * 2 ^ 27 + off * 2 ^ 20 + a * 2 ^ 14 + d * 2 ^ 8 + op)
def wIC (op off size d : Nat) : W32 := BitVec.ofNat 32 (off * 2 ^ 16 + size * 2 ^ 14 + d * 2 ^ 8 + op)
def wH (op hi mid a lo : Nat) : W32 := BitVec.ofNat 32 (hi * 2 ^ 26 + mid * 2 ^ 20 + a * 2 ^ 14 + lo * 2 ^ 8 + op)
/-- The second word of a vector form (R185). -/
def wV (hb ha mode ty nrow brow arow drow : Nat) : W32 :=
  BitVec.ofNat 32 (hb * 2 ^ 30 + ha * 2 ^ 29 + mode * 2 ^ 27 + ty * 2 ^ 24 + nrow * 2 ^ 18 + brow * 2 ^ 12 + arow * 2 ^ 6 + drow)
/-- The second word of an atomic (R184). -/
def wA (off dbl scope ord op : Nat) : W32 := BitVec.ofNat 32 (off * 2 ^ 20 + dbl * 2 ^ 8 + scope * 2 ^ 5 + ord * 2 ^ 3 + op)

def reads (w0 w1 : W32) (i : Instr) : Bool := match decode w0 w1 with
  | .ok j => j == i
  | .error _ => false
def refuses (w0 w1 : W32) : Bool := match decode w0 w1 with
  | .ok _ => false
  | .error _ => true

theorem test_decode_int : (reads (wD 1 0 5 4 3) 0 (.add 3 4 5) && reads (wD 1 1 5 4 3) 0 (.sub 3 4 5) && reads (wD 1 2 5 4 3) 0 (.mul 3 4 5) &&
    reads (wD 1 3 5 4 3) 0 (.mulh 3 4 5) && reads (wD 1 4 5 4 3) 0 (.mulhu 3 4 5) && reads (wD 1 5 5 4 3) 0 (.div 3 4 5) &&
    reads (wD 1 6 5 4 3) 0 (.divu 3 4 5) && reads (wD 1 7 5 4 3) 0 (.rem 3 4 5) && reads (wD 1 8 5 4 3) 0 (.remu 3 4 5) &&
    reads (wD 1 9 5 4 3) 0 (.and 3 4 5) && reads (wD 1 10 5 4 3) 0 (.or 3 4 5) && reads (wD 1 11 5 4 3) 0 (.xor 3 4 5) &&
    reads (wD 1 12 5 4 3) 0 (.shl 3 4 5) && reads (wD 1 13 5 4 3) 0 (.shr 3 4 5) && reads (wD 1 14 5 4 3) 0 (.sra 3 4 5) &&
    reads (wD 1 15 5 4 3) 0 (.rotl 3 4 5) && reads (wD 1 16 5 4 3) 0 (.min 3 4 5) && reads (wD 1 17 5 4 3) 0 (.minu 3 4 5) &&
    reads (wD 1 18 5 4 3) 0 (.max 3 4 5) && reads (wD 1 19 5 4 3) 0 (.maxu 3 4 5) && reads (wD 1 20 5 4 3) 0 (.slt 3 4 5) &&
    reads (wD 1 21 5 4 3) 0 (.sltu 3 4 5) && reads (wD 1 22 5 4 3) 0 (.seq 3 4 5) && reads (wD 1 23 0 4 3) 0 (.clz 3 4) &&
    reads (wD 1 24 0 4 3) 0 (.ctz 3 4) && reads (wD 1 25 0 4 3) 0 (.popc 3 4) && reads (wD 1 26 0 4 3) 0 (.mov 3 4) &&
    reads (wD 2 6 5 4 3) 0 (.sel 3 4 5 6)) = true := by decide +kernel

theorem test_decode_float : (reads (wD 3 16 5 4 3) 0 (.fadd .rz 3 4 5) && reads (wD 3 33 5 4 3) 0 (.fsub .rp 3 4 5) && reads (wD 3 50 5 4 3) 0 (.fmul .rm 3 4 5) &&
    reads (wD 3 3 5 4 3) 0 (.fdiv .rne 3 4 5) && reads (wD 3 4 0 4 3) 0 (.fsqrt .rne 3 4) && reads (wD 3 5 5 4 3) 0 (.fmin 3 4 5) &&
    reads (wD 3 6 5 4 3) 0 (.fmax 3 4 5) && reads (wD 3 7 5 4 3) 0 (.fcmp 3 4 5) && reads (wD 3 24 (5 * 8 + 1) 4 3) 0 (.fcvt .rz .i64 .bf16 3 4) &&
    reads (wD 3 9 0 4 3) 0 (.fclass 3 4) && reads (wD 0xC2 6 5 4 3) 3 (.fma .rm 3 4 5 6)) = true := by decide +kernel

theorem test_decode_immediate : (reads (wI 4 0xFFF 4 3) 0 (.addi 3 4 0xFFF) && reads (wI 5 0x801 4 3) 0 (.andi 3 4 0x801) && reads (wI 6 1 4 3) 0 (.ori 3 4 1) &&
    reads (wI 7 2 4 3) 0 (.xori 3 4 2) && reads (wI 8 63 4 3) 0 (.shli 3 4 63) && reads (wI 9 7 4 3) 0 (.shri 3 4 7) && reads (wI 10 1 4 3) 0 (.srai 3 4 1) &&
    reads (wI 11 (15 * 64 + 48) 4 3) 0 (.bfx 3 4 48 15) && reads (wI 12 (7 * 64 + 8) 4 3) 0 (.bfi 3 4 8 7) &&
    reads (wD 0xC0 0 0 0 3) 0x8000_0001 (.ldi 3 0x8000_0001) && reads (wD 0xC1 0 0 0 3) 0x1234_5678 (.ldhi 3 0x1234_5678)) = true := by decide +kernel

theorem test_decode_control : (reads 0xFFFF_FE10 0 (.b 0xFF_FFFE) && reads 0x0000_0411 0 (.bl 4) && reads (wI 0x12 0xFFE 4 5) 0 (.bc .lez 4 0xFFE) &&
    reads (wD 0x13 0 0 0 0) 0 .nop && reads (wD 0x13 1 0 63 0) 0 (.ret 63) && reads (wD 0x13 2 0 0 0) 0 .yield && reads (wD 0x13 3 0 0 0) 0 .halt &&
    reads (wD 0x13 4 0 0 0) 0 .eret && reads (wD 0x13 5 0 4 3) 0 (.wfe 3 4) && reads (wI 0x14 0xFFD 0 0) 0 (.lend 0xFFD) && reads (wI 0x15 0xABC 0 0) 0 (.trap 0xABC) &&
    reads (wI 0x20 0x021 0 3) 0 (.csrr 3 0x021) && reads (wI 0x21 0x010 4 0) 0 (.csrw 4 0x010) && reads (wI 0x22 0x020 4 3) 0 (.csrx 3 4 0x020) &&
    reads (wD 0x23 0 0 4 0) 0 (.tlbInvPage 4) && reads (wD 0x23 1 0 0 0) 0 .tlbInvSpace && reads (wD 0x23 2 0 0 0) 0 .tlbInvCluster &&
    reads (wD 0xC3 0 0 4 0) (16 + 8 * 32) (.loop 4 16 8)) = true := by decide +kernel

theorem test_decode_memory : (reads (wI 0x30 0xFFF 4 3) 0 (.ldB 3 4 0xFFF) && reads (wI 0x31 2 4 3) 0 (.ldH 3 4 2) && reads (wI 0x32 4 4 3) 0 (.ldW 3 4 4) &&
    reads (wI 0x33 8 4 3) 0 (.ldD 3 4 8) && reads (wI 0x34 1 4 3) 0 (.ldBU 3 4 1) && reads (wI 0x35 2 4 3) 0 (.ldHU 3 4 2) && reads (wI 0x36 4 4 3) 0 (.ldWU 3 4 4) &&
    reads (wI 0x37 4 4 1) 0 (.pref true 4 4) && reads (wIS 0x38 0 0x1FF 4 3) 0 (.stB .cor 3 4 0x1FF) && reads (wIS 0x39 1 2 4 3) 0 (.stH .clu 3 4 2) &&
    reads (wIS 0x3A 2 4 4 3) 0 (.stW .die 3 4 4) && reads (wIS 0x3B 4 8 4 3) 0 (.stD .sys 3 4 8) && reads (wIA 0x3C 3 2 0x7F 4 3) 0 (.ldAcq .pkg .word 3 4 0x7F) &&
    reads (wIA 0x3D 4 3 1 4 3) 0 (.stRel .sys .double 3 4 1) && reads (wIC 0x3E 8 3 3) 0 (.ldc .double 3 8) && reads (wIC 0x3F 0x3FFF 0 3) 0 (.stc .byte 3 0x3FFF)) = true := by
  decide +kernel

theorem test_decode_sync : (reads (wH 0x40 63 63 4 63) 0 (.chSet 0x3FFFF 4) && reads (wH 0x41 1 2 4 3) 0 (.chAdd (1 * 4096 + 2 * 64 + 3) 4) &&
    reads (wI 0x42 0 0 0) 0 .stampClr && reads (wI 0x42 9 4 1) 0 (.stampAbs 4 9) && reads (wI 0x42 9 4 2) 0 (.stampOff 4 9) && reads (wD 0x43 0 0 4 3) 0 (.cancel .job 4) &&
    reads (wD 0x44 0 0 0 0) 0 .pwrRel && reads (wD 0x45 0 0 0 3) 0 (.align .pkg) && reads (wD 0x46 0 0 4 0) 0 (.fmt 4) && reads (wD 0xC8 6 5 4 7) 3 (.ldq .double 7 4 5 6) &&
    reads (wD 0xC9 0 0 7 3) 0x0100_0005 (.popq 3 7 ⟨true, 5⟩) && reads (wD 0xCA 0 0 0 15) 7 (.fence 15 ⟨false, 7⟩) && reads (wD 0xCB 0 0 0 8) 7 (.fenceDone 8 ⟨false, 7⟩) &&
    reads (wH 0xD8 1 2 4 3) 9 (.chWait 4227 4 ⟨false, 9⟩) && reads (wH 0xD9 0 0 4 1) 9 (.bar 1 4 ⟨false, 9⟩) && reads (wD 0xDA 6 5 4 2) 9 (.dlv 2 4 5 6 ⟨false, 9⟩) &&
    reads (wH 0xDB 0 0 6 5) 0xC004_0007 (.tok ⟨true, 5, 6, true, 7, 1⟩) && reads (wD 0xDC 0 0 0 8) 9 (.pwrAcq 8 ⟨false, 9⟩)) = true := by decide +kernel

def at' : AtmForm := ⟨3, 4, 5, 0, true, .ar, .pkg, 0xFF8⟩
theorem test_decode_atomic : (reads (wD 0xD0 0 5 4 3) (wA 0xFF8 1 3 3 0) (.atmAdd at') && reads (wD 0xD0 0 5 4 3) (wA 0xFF8 1 3 3 1) (.atmMin at') &&
    reads (wD 0xD0 0 5 4 3) (wA 0xFF8 1 3 3 2) (.atmMax at') && reads (wD 0xD0 0 5 4 3) (wA 0xFF8 1 3 3 3) (.atmAnd at') && reads (wD 0xD0 0 5 4 3) (wA 0xFF8 1 3 3 4) (.atmOr at') &&
    reads (wD 0xD0 0 5 4 3) (wA 0xFF8 1 3 3 5) (.atmXor at') && reads (wD 0xD0 0 5 4 3) (wA 0xFF8 1 3 3 6) (.atmXchg at') &&
    reads (wD 0xD0 6 5 4 3) (wA 4 0 4 1 7) (.atmCas ⟨3, 4, 5, 6, false, .acq, .sys, 4⟩)) = true := by decide +kernel

def v1 : VForm := ⟨1, 2, 3, true, true, 1, .bf16, 7, 9, 10, 11⟩
def v0 : VForm := { v1 with mode := 0 }
def vOne : VForm := { v1 with b := 0, hb := false, brow := 0 }
theorem test_decode_vector : (reads (wD 0xE0 0 3 2 1) (wV 1 1 1 1 7 9 10 11) (.vadd v1) && reads (wD 0xE0 1 3 2 1) (wV 1 1 1 1 7 9 10 11) (.vsub v1) &&
    reads (wD 0xE0 2 3 2 1) (wV 1 1 1 1 7 9 10 11) (.vmul v1) && reads (wD 0xE0 3 3 2 1) (wV 1 1 1 1 7 9 10 11) (.vfma v1) &&
    reads (wD 0xE0 4 3 2 1) (wV 1 1 0 1 7 9 10 11) (.vmin v0) && reads (wD 0xE0 5 3 2 1) (wV 1 1 0 1 7 9 10 11) (.vmax v0) &&
    reads (wD 0xE0 6 0 2 1) (wV 0 1 0 1 7 0 10 11) (.vabs { vOne with mode := 0 }) && reads (wD 0xE0 7 0 2 1) (wV 0 1 0 1 7 0 10 11) (.vneg { vOne with mode := 0 }) &&
    reads (wD 0xE0 8 3 2 1) (wV 1 1 0 1 7 9 10 11) (.vand v0) && reads (wD 0xE0 9 3 2 1) (wV 1 1 0 1 7 9 10 11) (.vor v0) &&
    reads (wD 0xE0 10 3 2 1) (wV 1 1 0 1 7 9 10 11) (.vxor v0) && reads (wD 0xE0 11 3 2 1) (wV 0 1 0 3 7 0 10 11) (.vshl { v0 with hb := false, brow := 0, ty := .i8 }) &&
    reads (wD 0xE0 12 3 2 1) (wV 0 1 0 4 7 0 10 11) (.vshr { v0 with hb := false, brow := 0, ty := .i32 }) && reads (wD 0xE0 13 3 2 1) (wV 1 1 0 3 7 9 10 11) (.viadd { v0 with ty := .i8 }) &&
    reads (wD 0xE0 14 3 2 1) (wV 1 1 0 4 7 9 10 11) (.vimul { v0 with ty := .i32 }) && reads (wD 0xE0 15 3 2 1) (wV 1 1 3 1 7 9 10 11) (.vcmp { v1 with mode := 3 }) &&
    reads (wD 0xE0 16 3 2 1) (wV 1 1 0 1 7 9 10 11) (.vsel v0) && reads (wD 0xE0 17 3 2 1) (wV 1 1 0 1 7 9 10 11) (.vshuf v0) &&
    reads (wD 0xE0 18 3 2 1) (wV 0 1 0 1 7 0 10 11) (.vbcast { v0 with hb := false, brow := 0 }) &&
    reads (wD 0xE0 19 0 2 1) (wV 0 0 0 1 7 0 0 11) (.vmovs ⟨1, 2, 0, false, false, 0, .bf16, 7, 0, 0, 11⟩) && reads (wD 0xE0 20 0 2 1) (wV 0 1 2 1 7 0 10 11) (.vred { vOne with mode := 2 }) &&
    reads (wD 0xE0 21 0 2 1) (wV 0 1 1 1 7 0 10 11) (.vexp2 vOne) && reads (wD 0xE0 22 0 2 1) (wV 0 1 1 1 7 0 10 11) (.vlog2 vOne) &&
    reads (wD 0xE0 23 0 2 1) (wV 0 1 1 1 7 0 10 11) (.vrcp vOne) && reads (wD 0xE0 24 0 2 1) (wV 0 1 1 1 7 0 10 11) (.vrsq vOne) &&
    reads (wD 0xE0 25 0 2 1) (wV 0 1 1 0 7 1 10 11) (.vcvt { vOne with ty := .fp32, brow := 1 }) && reads (wD 0xE0 26 3 2 1) (wV 0 1 0 1 7 9 10 11) (.vqnt { v0 with hb := false }) &&
    reads (wD 0xE0 27 3 2 1) (wV 0 0 1 1 7 9 10 11) (.vdqnt { v1 with ha := false, hb := false }) && reads (wD 0xE1 (1 * 8) 3 2 1) (wV 1 1 1 1 7 9 10 11) (.vamul v1 1) &&
    reads (wD 0xE1 (7 * 8 + 1) 0 2 1) (wV 0 1 0 1 7 0 10 11) (.vconj { vOne with mode := 0 } 7) && reads (wD 0xE1 (2 * 8 + 2) 0 2 1) (wV 0 1 1 1 7 0 10 11) (.vnorm vOne 2) &&
    reads (wD 0xE2 0 3 2 1) (wV 0 0 0 0 7 0 0 11) (.vld ⟨1, 2, 3, false, false, 0, .fp32, 7, 0, 0, 11⟩) &&
    reads (wD 0xE3 0 3 2 1) (wV 0 0 0 0 7 4 0 11) (.vst ⟨1, 2, 3, false, false, 0, .fp32, 7, 4, 0, 11⟩)) = true := by decide +kernel

theorem test_decode_matrix : (reads (wD 0xF0 0 36 2 0) (BitVec.ofNat 32 (2 ^ 19 + 2 ^ 17 + 2 ^ 15 + 3 * 2 ^ 11 + 5 * 2 ^ 8 + 2 * 2 ^ 5 + 0x10))
      (.mma ⟨2, 36, false, true, false, true, false, true, 3, 5, 2, 0x10⟩) &&
    reads (wD 0xF1 0 2 36 0) (BitVec.ofNat 32 (2 ^ 20 + 2 ^ 18 + 2 ^ 16 + 0x1F)) (.mmaz ⟨36, 2, true, false, true, false, true, false, 0, 0, 0, 0x1F⟩) &&
    reads (wD 0xF2 0 0 6 5) 0 (.amov 5 6) && reads (wD 0xF2 1 0 6 5) (wV 0 0 0 1 7 9 0 11) (.amovT ⟨5, 6, 0, false, 0, .bf16, 7, 9, 11⟩) &&
    reads (wD 0xF3 0 0 0 5) 0 (.azero 5) && reads (wD 0xF4 0 3 2 5) (wV 0 0 0 0 7 0 0 11) (.ald ⟨5, 2, 3, false, 0, .fp32, 7, 0, 11⟩) &&
    reads (wD 0xF5 0 3 2 5) (wV 0 0 2 2 7 9 0 0) (.ast ⟨5, 2, 3, false, 2, .fp16, 7, 9, 0⟩) && reads (wD 0xF6 0 3 2 5) (wV 0 0 3 0 7 0 0 11) (.tld ⟨5, 2, 3, false, 3, .fp32, 7, 0, 11⟩) &&
    reads (wD 0xF7 0 0 2 5) (wV 0 1 0 0 7 9 0 0) (.tst ⟨5, 2, 0, true, 0, .fp32, 7, 9, 0⟩) && reads (wD 0xF8 0 0 4 7) 3 (.lig 7 4 3)) = true := by decide +kernel

theorem test_decode_copy : (reads (wD 0xE8 0 5 4 3) 0 (.cpy 3 4 5) && reads (wD 0xE9 6 5 4 3) 0 (.cpy2d 3 4 5 6) && reads (wD 0xEA 6 5 4 3) 0xFFFF_0001 (.cpy3d 3 4 5 6 0xFFFF 1) &&
    reads (wD 0xEB 6 5 4 3) 1 (.gath true 3 4 5 6) && reads (wD 0xEC 6 5 4 3) 0 (.scat false 3 4 5 6) && reads (wD 0xED 6 5 0 3) 0 (.fill 3 5 6) && reads (wD 0xEE 0 5 0 3) 0 (.zero 3 5) &&
    reads (wD 0xEF 0 5 4 0) 0 (.stgRel 4 5) && reads (wD 0xFA 0 5 4 0) 0 (.agrp 4 5) && reads (wD 0xFB 0 0 4 0) 0 (.mclr 4) && reads (wD 0xFC 0 5 4 0) 0 (.mcst 4 5)) = true := by
  decide +kernel

/-- R192: the unassigned and the reserved are refused. -/
theorem test_decode_refuses : (refuses 0 0 && refuses 0xFF 0 && refuses 0x0D 0 && refuses 0x50 0 && refuses 0xC4 0 && refuses (wD 1 0x1C 5 4 3) 0 && refuses (wD 1 23 1 4 3) 0 &&
    refuses (wD 0x13 6 0 0 0) 0 && refuses (wI 8 64 4 3) 0 && refuses (wI 0x12 1 4 6) 0 && refuses (wI 0x14 0 4 0) 0 && refuses (wIS 0x38 5 0 4 3) 0 && refuses (wIC 0x3E 1 3 3) 0 &&
    refuses (wI 0x42 0 0 3) 0 && refuses (wD 0xC0 0 0 1 3) 0 && refuses (wD 0xC2 6 5 4 3) 4 && refuses (wD 0xC3 0 0 4 0) 0 && refuses (wD 0xC9 0 0 7 3) 0 && refuses (wD 0xE0 0x1C 3 2 1) 0 &&
    refuses (wD 0xE0 0 3 2 1) 0x8000_0000 && refuses (wD 0xE0 0 3 2 1) (wV 0 0 0 6 0 0 0 0) && refuses (wD 0xF0 0 2 1 1) 0x1F && refuses (wD 0xF9 0 0 0 0) 0) = true := by decide +kernel

/-! ### States to test on -/

/-- A page of job 1 at 0x20_0000, in HBM at 0x5000_0000. -/
def page : TlbEntry := { job := 1, va := 0x20_0000, size := 0x1_0000, pa := 0x5000_0000, r := true, w := true, x := false, u := true, st := false, pn := false }
/-- After reset, with a team of job 1 on core 0: its team context runs at 0x1000. -/
def base : State := State.reset.modCore 0 fun k => { (k.modCtx 0 fun x => { x with run := .running, pc := 0x1000 }) with
  team := some placeTeam, l1tlb := [page], tlbV := [page], tlbX := [page], wbud := 0x0000_1000_0000_1000 }
def withRegs (s : State) (l : List (Reg × W64)) : State := s.modCx fun x => l.foldl (fun x p => x.setReg p.1 p.2) x
def outIs (o : Out) (p : State → Bool) : Bool := match o with
  | .next t => p t
  | _ => false
/-- `i` gives `v` to `d` and goes on. -/
def gives (s : State) (i : Instr) (d : Reg) (v : W64) : Bool :=
  outIs (exec i s) fun t => t.reg d == v && t.cx.pc == s.cx.pc + BitVec.ofNat 64 i.bytes && t.cx.run == .running
/-- `i` traps with `code` and `addr`, at its own address. -/
def traps (s : State) (i : Instr) (code : Nat) (addr : W64) : Bool :=
  outIs (exec i s) fun t => t.cx.run == .trapped && t.cx.cause.toNat % 256 == code && t.cx.taddr == addr && t.cx.tepc == s.cx.pc
/-- Context 1 of core 0 runs; it is the one whose turn it is. -/
def light : State := { base.modCore 0 (fun k => k.modCtx 1 fun x => { x with run := .running, pc := 0x1000 }) with cur := ⟨0, 1⟩ }
def super (s : State) : State := s.modCx fun x => { x with priv := true }

/-- Registers for the integer tests: −7, 2, the most negative number, −1, 0 and 64. -/
def ints : State := withRegs base [(3, 0xFFFF_0000), (4, 0xFFFF_FFFF_FFFF_FFF9), (5, 2), (6, 0x8000_0000_0000_0000), (7, 0xFFFF_FFFF_FFFF_FFFF), (9, 64)]
/-- FP32 1, 2, 3, 1.5, +∞ and −0. -/
def floats : State := withRegs base [(4, 0x3F80_0000), (5, 0x4000_0000), (6, 0x4040_0000), (7, 0x3FC0_0000), (8, 0x7F80_0000), (9, 0x8000_0000)]

/-! ### Scalar instructions: values worked by hand from R196 to R205 -/

theorem test_int : (gives ints (.add 3 4 5) 3 0xFFFF_FFFF_FFFF_FFFB && gives ints (.sub 3 5 4) 3 9 && gives ints (.mul 3 4 5) 3 0xFFFF_FFFF_FFFF_FFF2 &&
    gives ints (.mulh 3 4 5) 3 0xFFFF_FFFF_FFFF_FFFF && gives ints (.mulhu 3 4 5) 3 1 && gives ints (.div 3 4 5) 3 0xFFFF_FFFF_FFFF_FFFD &&
    gives ints (.div 3 6 7) 3 0x7FFF_FFFF_FFFF_FFFF && gives ints (.divu 3 4 5) 3 0x7FFF_FFFF_FFFF_FFFC && gives ints (.divu 3 4 8) 3 0xFFFF_FFFF_FFFF_FFFF &&
    gives ints (.rem 3 4 5) 3 0xFFFF_FFFF_FFFF_FFFF && gives ints (.rem 3 4 8) 3 0 && gives ints (.remu 3 4 5) 3 1 && gives ints (.and 3 4 5) 3 0 &&
    gives ints (.or 3 4 5) 3 0xFFFF_FFFF_FFFF_FFFB && gives ints (.xor 3 4 7) 3 6 && gives ints (.shl 3 5 9) 3 2 && gives ints (.shr 3 4 5) 3 0x3FFF_FFFF_FFFF_FFFE &&
    gives ints (.sra 3 4 5) 3 0xFFFF_FFFF_FFFF_FFFE && gives ints (.rotl 3 6 5) 3 2 && gives ints (.min 3 4 5) 3 0xFFFF_FFFF_FFFF_FFF9 && gives ints (.minu 3 4 5) 3 2 &&
    gives ints (.max 3 4 5) 3 2 && gives ints (.maxu 3 4 5) 3 0xFFFF_FFFF_FFFF_FFF9 && gives ints (.slt 3 4 5) 3 1 && gives ints (.sltu 3 4 5) 3 0 && gives ints (.seq 3 4 4) 3 1 &&
    gives ints (.clz 3 5) 3 62 && gives ints (.clz 3 8) 3 64 && gives ints (.ctz 3 5) 3 1 && gives ints (.ctz 3 8) 3 64 && gives ints (.popc 3 4) 3 62 && gives ints (.mov 3 4) 3 0xFFFF_FFFF_FFFF_FFF9 &&
    gives ints (.sel 3 4 5 8) 3 2 && gives ints (.sel 3 4 5 7) 3 0xFFFF_FFFF_FFFF_FFF9) = true := by decide +kernel

theorem test_immediate : (gives ints (.addi 3 4 0xFFF) 3 0xFFFF_FFFF_FFFF_FFF8 && gives ints (.andi 3 4 0xFFF) 3 0xFF9 && gives ints (.ori 3 8 0x800) 3 0x800 &&
    gives ints (.xori 3 4 0xFF9) 3 0xFFFF_FFFF_FFFF_F000 && gives ints (.shli 3 5 63) 3 0 && gives ints (.shri 3 4 60) 3 15 && gives ints (.srai 3 4 1) 3 0xFFFF_FFFF_FFFF_FFFC &&
    gives ints (.bfx 3 4 4 7) 3 0xFF && gives ints (.bfi 3 5 4 7) 3 0xFFFF_0020 && gives ints (.ldi 3 0x8000_0000) 3 0xFFFF_FFFF_8000_0000 && gives ints (.ldhi 3 0x12) 3 0x0000_0012_FFFF_0000 &&
    traps ints (.bfx 3 4 63 1) 1 0x1000 && traps ints (.addi 0 4 1) 1 0x1000) = true := by decide +kernel

theorem test_float : (gives floats (.fadd .rne 3 4 5) 3 0x4040_0000 && gives floats (.fsub .rne 3 4 5) 3 0xBF80_0000 && gives floats (.fmul .rne 3 7 5) 3 0x4040_0000 &&
    gives floats (.fdiv .rne 3 4 6) 3 0x3EAA_AAAB && gives floats (.fdiv .rz 3 4 6) 3 0x3EAA_AAAA && gives floats (.fsqrt .rne 3 4) 3 0x3F80_0000 && gives floats (.fmin 3 4 9) 3 0x8000_0000 &&
    gives floats (.fmax 3 4 5) 3 0x4000_0000 && gives floats (.fcmp 3 4 5) 3 0xFFFF_FFFF_FFFF_FFFF && gives floats (.fcmp 3 9 10) 3 0 && gives floats (.fclass 3 9) 3 8 && gives floats (.fclass 3 8) 3 3 &&
    gives floats (.fcvt .rne .fp32 .i64 3 7) 3 2 && gives floats (.fcvt .rz .fp32 .i64 3 7) 3 1 && gives ints (.fcvt .rne .i64 .fp32 3 4) 3 0xC0E0_0000 && gives floats (.fma .rne 3 7 5 4) 3 0x4080_0000 &&
    traps floats (.fmul .rne 3 8 9) 8 0) = true := by decide +kernel

/-- With NANOFF the default NaN is written and NV set (R95); 1/3 is inexact (R93). -/
theorem test_float_flags : (outIs (exec (.fmul .rne 3 8 9) (floats.modCx fun x => { x with fpx := 0x100 })) (fun t => t.reg 3 == 0x7FC0_0000 && t.cx.fpx.getLsbD 3) &&
    outIs (exec (.fdiv .rne 3 4 6) floats) (fun t => t.cx.fpx.getLsbD 0) && outIs (exec (.fadd .rne 3 4 5) floats) (fun t => t.cx.fpx == 0)) = true := by decide +kernel

/-! ### Control (R206 to R222) -/

def near : State := withRegs base [(4, 0x2000), (5, 0x2002), (6, 0xFFFF_FFFF_FFFF_FFFF)]
def goes (s : State) (i : Instr) (pc : W64) : Bool := outIs (exec i s) fun t => t.cx.pc == pc && t.cx.run == .running

theorem test_branches : (goes near (.b 0xFF_FFFF) 0xFFC && goes near (.b 0x00_0002) 0x1008 && outIs (exec (.bl 2) near) (fun t => t.reg 63 == 0x1004 && t.cx.pc == 0x1008) &&
    goes near (.bc .eqz 0 0xFFE) 0xFF8 && goes near (.bc .eqz 4 2) 0x1004 && goes near (.bc .nez 4 2) 0x1008 && goes near (.bc .ltz 6 2) 0x1008 && goes near (.bc .gez 0 2) 0x1008 &&
    goes near (.bc .gtz 0 2) 0x1004 && goes near (.bc .lez 0 2) 0x1008 && goes near (.ret 4) 0x2000 && traps near (.ret 5) 3 0x2002 && goes near .nop 0x1004) = true := by decide +kernel

/-- R208: `LEND` with a count of 1 goes on; with 2 it goes back; LBASE steps round the ring. -/
def looping (n : W64) : State := base.modCore 0 fun k => { k with lcnt := n, lbase := 2, lring := 0x0603 }
theorem test_loops : (outIs (exec (.loop 4 6 3) (withRegs base [(4, 10)])) (fun t => t.cc.lcnt == 10 && t.cc.lbase == 0 && t.cc.lring == 0x0603 && t.cx.pc == 0x1008) &&
    outIs (exec (.lend 0xFFC) (looping 2)) (fun t => t.cc.lcnt == 1 && t.cc.lbase == 0 && t.cx.pc == 0xFF0) &&
    outIs (exec (.lend 0xFFC) (looping 1)) (fun t => t.cc.lcnt == 0 && t.cx.pc == 0x1004) && traps base (.lend 0xFFC) 1 0x1000) = true := by decide +kernel

theorem test_yield_halt : (outIs (exec .yield base) (fun t => t.cc.ckIsB && t.cc.current.pc == 0x1004) && outIs (exec .halt base) (fun t => t.cx.wait.isSome && t.cx.pc == 0x1000) &&
    outIs (exec .halt base) (fun t => outIs (exec (.haltComplete 0 0) t) fun u => (u.core 0).team == none)) = true := by decide +kernel

/-- R214, R315, R319: `TRAP` saves the next instruction's address, and its handler starts in LC0 with cause, address and context. -/
theorem test_trap : (outIs (exec (.trap 0xABC) base) (fun t => t.cx.run == .trapped && t.cx.cause.toNat % 256 == 0x16 && t.cx.tepc == 0x1004 &&
      (t.ctx ⟨0, 1⟩).run == .running && (t.ctx ⟨0, 1⟩).priv && (t.ctx ⟨0, 1⟩).reg 2 == t.cx.taddr) && traps base .eret 2 0x1000 && traps (super base) .eret 1 0x1000 &&
    outIs (exec (.trap 5) base) (fun t => outIs (exec .eret { t with cur := ⟨0, 1⟩ }) fun u => (u.ctx ⟨0, 0⟩).run == .running && (u.ctx ⟨0, 0⟩).pc == 0x1004 &&
      (u.ctx ⟨0, 1⟩).run == .dormant)) = true := by decide +kernel

/-- R216: bit 1 set in EVL and asked for ends the wait at once. -/
theorem test_wfe : (outIs (exec (.wfe 3 4) (withRegs (base.modCx fun x => { x with evl := 2 }) [(4, 2)])) (fun t => t.reg 3 != 0 && t.cx.evl == 0 && t.cx.pc == 0x1004) &&
    outIs (exec (.wfe 3 0) base) (fun t => t.cx.wait.isSome && t.cx.pc == 0x1000)) = true := by decide +kernel

theorem test_csr : (outIs (exec (.csrw 4 0x020) (withRegs base [(4, 77)])) (fun t => t.cc.lcnt == 77) && gives (looping 9) (.csrr 3 0x020) 3 9 &&
    outIs (exec (.csrx 3 4 0x020) (withRegs (looping 9) [(4, 5)])) (fun t => t.reg 3 == 9 && t.cc.lcnt == 5) && traps base (.csrr 3 0xFFF) 1 0x1000 && traps base (.csrr 3 0x110) 2 0x1000 &&
    gives { base with platen := 0x1234 } (.csrr 3 0x000) 3 0x1234 && traps (withRegs base [(4, 129)]) (.csrw 4 0x011) 1 0x1000) = true := by decide +kernel

theorem test_tlb : (outIs (exec .tlbInvSpace base) (fun t => t.cc.l1tlb == []) && outIs (exec (.tlbInvPage 4) (withRegs base [(4, 0x30_0000)])) (fun t => t.cc.l1tlb == [page]) &&
    outIs (exec (.tlbInvPage 4) (withRegs base [(4, 0x20_FFFF)])) (fun t => t.cc.l1tlb == []) && traps base .tlbInvCluster 2 0x1000 &&
    outIs (exec .tlbInvCluster (super base)) (fun t => t.cc.l1tlb == [])) = true := by decide +kernel

theorem test_illegal : traps base (.illegalEncoding 0xFF) 1 0x1000 = true := by decide +kernel

/-! ### Memory and synchronisation (R224 to R252) -/

def memory (l : List (Nat × Byte)) : State := { (withRegs base [(4, 0x20_0010), (5, 0x8000_0000_1122_3384)]) with mem := l }
/-- The load's value, once it returns. -/
def loads (s : State) (i : Instr) (v : W64) : Bool := outIs (exec i s) fun t => outIs (exec (.loadReturn 0 0 0) t) fun u => u.reg 3 == v && u.cx.loadQ == []
def eight : State := memory [(0x5000_0010, 0x84), (0x5000_0011, 0x93), (0x5000_0012, 0x22), (0x5000_0013, 0x91), (0x5000_0017, 0x80)]

theorem test_loads : (loads eight (.ldB 3 4 0) 0xFFFF_FFFF_FFFF_FF84 && loads eight (.ldBU 3 4 0) 0x84 && loads eight (.ldH 3 4 0) 0xFFFF_FFFF_FFFF_9384 && loads eight (.ldHU 3 4 0) 0x9384 &&
    loads eight (.ldW 3 4 0) 0xFFFF_FFFF_9122_9384 && loads eight (.ldWU 3 4 0) 0x9122_9384 && loads eight (.ldD 3 4 0) 0x8000_0000_9122_9384 && loads eight (.ldB 3 4 7) 0xFFFF_FFFF_FFFF_FF80 &&
    loads eight (.ldAcq .pkg .half 3 4 0x02) 0x9122 && traps eight (.ldH 3 4 1) 3 0x20_0011 && traps eight (.ldW 3 4 2) 3 0x20_0012 && traps eight (.ldD 3 4 4) 3 0x20_0014 &&
    traps (withRegs eight [(4, 0x0080_0000_0000_0000)]) (.ldB 3 4 0) 5 0x0080_0000_0000_0000) = true := by decide +kernel

/-- The byte at 0x5000_0010 + `k` once the store has left its queue and taken effect. -/
def stores (s : State) (i : Instr) (k : Nat) (b next : Byte) : Bool :=
  outIs (exec i s) fun t => t.byte (0x5000_0010 + k) == 0 && outIs (exec (.storeLeave 0 0) t) fun u => u.cx.storeQ == [] &&
    outIs (exec (.storeAck 0 0 0) u) fun v => v.byte (0x5000_0010 + k) == b && v.byte (0x5000_0010 + k + 1) == next && v.cx.unacked == []
theorem test_stores : (stores (memory []) (.stB .cor 5 4 0) 0 0x84 0 && stores (memory []) (.stH .clu 5 4 2) 2 0x84 0x33 && stores (memory []) (.stH .clu 5 4 2) 3 0x33 0 &&
    stores (memory []) (.stW .die 5 4 0) 3 0x11 0 && stores (memory []) (.stD .sys 5 4 8) 15 0x80 0 && stores (memory []) (.stRel .pkg .word 5 4 4) 4 0x84 0x33 &&
    traps eight (.stW .cor 5 4 1) 3 0x20_0011) = true := by decide +kernel

theorem test_case : (outIs (exec (.stc .word 5 16) (memory [])) (fun t => gives t (.ldc .word 3 16) 3 0x1122_3384 && gives t (.ldc .half 3 18) 3 0x1122 && gives t (.ldc .double 3 16) 3 0x1122_3384)) = true := by
  decide +kernel

/-- One atomic on the four bytes −2, with the operand 5: the old value, and what stands after. -/
def atomic (k : AtmForm → Instr) (f : W64) (after : Nat) : Bool :=
  outIs (exec (k ⟨3, 4, 5, 6, false, .none, .pkg, 0⟩) (withRegs (memory [(0x5000_0010, 0xFE), (0x5000_0011, 0xFF), (0x5000_0012, 0xFF), (0x5000_0013, 0xFF)]) [(5, 5), (6, f)])) fun t =>
    outIs (exec (.atomicPerform 0 0) t) fun u => u.reg 3 == 0xFFFF_FFFF_FFFF_FFFE && u.readNat 0x5000_0010 4 == after
theorem test_atomics : (atomic .atmAdd 0 3 && atomic .atmMin 0 0xFFFF_FFFE && atomic .atmMax 0 5 && atomic .atmAnd 0 4 && atomic .atmOr 0 0xFFFF_FFFF && atomic .atmXor 0 0xFFFF_FFFB &&
    atomic .atmXchg 0 5 && atomic .atmCas 0xFFFF_FFFE 5 && atomic .atmCas 7 0xFFFF_FFFE) = true := by decide +kernel

/-- Job 1 holds counters 100 to 102. -/
def counters : State := { (withRegs base [(4, 3), (5, 0), (6, 2 ^ 40 - 1)]) with chaseGrant := [(100, 1), (101, 1), (102, 1)], chase := [(101, 5)] }
theorem test_counters : (outIs (exec (.chAdd 101 4) counters) (fun t => t.ctr 101 == 5 && outIs (exec (.storeLeave 0 0) t) fun u => u.ctr 101 == 8) &&
    outIs (exec (.chSet 101 4) counters) (fun t => outIs (exec (.storeLeave 0 0) t) fun u => u.ctr 101 == 3) && traps counters (.chAdd 7 4) 5 7 && traps counters (.chSet 7 4) 5 7 &&
    gives counters (.chWait 101 4 lw) 4 5 && outIs (exec (.chWait 100 4 lw) counters) (fun t => t.cx.wait.isSome) && traps counters (.chWait 7 4 lw) 5 7 &&
    outIs (exec (.bar 101 4 lw) counters) (fun t => t.ctr 101 == 6 && outIs (exec (.barRelease 0 0) t) fun u => u.cx.pc == 0x1008) && traps counters (.bar 101 5 lw) 1 0x1000) = true := by
  decide +kernel

theorem test_queues : (outIs (exec (.ldq .half 2 4 5 6) (withRegs eight [(5, 2), (6, 0xFFFF_FFFF_FFFF_FFF0 + 18)])) (fun t => outIs (exec (.elementLoad 0 0 2) t) fun u =>
      outIs (exec (.elementLoad 0 0 2) u) fun v => gives v (.popq 3 2 lw) 3 0x9384 && outIs (exec (.popq 3 2 lw) v) fun w => gives w (.popq 3 2 lw) 3 0x9122) &&
    traps eight (.popq 3 2 lw) 0x0C 2) = true := by decide +kernel

theorem test_sync : (outIs (exec (.align .pkg) base) (fun t => t.cx.pc == 0x1004) && outIs (exec (.pref false 4 0) eight) (fun t => t.cx.pc == 0x1004) &&
    outIs (exec (.fmt 4) (withRegs base [(4, 0x21)])) (fun t => t.cc.fmtQ.length == 1) && traps (withRegs base [(4, 0xFFFF_FFFF)]) (.fmt 4) 1 0x1000 &&
    outIs (exec (.tok ⟨true, 100, 4, true, 101, 9⟩) counters) (fun t => t.cc.pending == ⟨some (100, 3), some (101, 9), none⟩) &&
    outIs (exec (.stampAbs 4 9) counters) (fun t => t.cc.pending.stamp == some ⟨false, 3, 9⟩ && outIs (exec .stampClr t) fun u => u.cc.pending.stamp == none) &&
    outIs (exec (.stampOff 4 9) counters) (fun t => t.cc.pending.stamp == some ⟨true, 3, 9⟩) &&
    outIs (exec (.fence 3 lw) base) (fun t => (t.cc.galley .m).tail == 1 && (t.cc.galley .v).tail == 1 && (t.cc.galley .x).tail == 0 && t.cx.wait.isSome) &&
    outIs (exec (.pwrAcq 2 lw) base) (fun t => t.cc.pwrl == 18 && outIs (exec .pwrRel t) fun u => u.cc.pwrl == 0)) = true := by decide +kernel

/-- R247: a `DLV` of no bytes is ILLEGAL, of an unaligned handler ALIGN, to no core FOLIO with 2. -/
theorem test_dlv : (traps (withRegs base [(8, 1), (9, 0x2000)]) (.dlv 2 4 5 9 lw) 1 0x1000 && traps (withRegs base [(5, 4096), (9, 0x2002)]) (.dlv 2 4 5 9 lw) 3 0x2002 &&
    traps (withRegs base [(5, 8), (9, 0x2000), (3, 256)]) (.dlv 2 4 5 9 lw) 0x15 2 && traps (withRegs base [(5, 4097)]) (.dlv 2 4 5 9 lw) 1 0x1000) = true := by decide +kernel

/-! ### Records and engines -/

/-- The states that a run of instructions and events reaches. -/
def after (l : List Instr) (s : State) : State := l.foldl (fun s i => match exec i s with
  | .next t => t
  | _ => s) s
/-- The oldest APPENDED record of a galley passes the Proofreader. -/
def proofed (g : Galley) (s : State) : State := match (s.cc.galley g).oldestAppended with
  | some _ => after [.proofCheck s.cur.core g 0] s
  | none => s
/-- `i` appended, checked and issued. -/
def issued (g : Galley) (i : Instr) (s : State) : State := after [.recordIssue 0 g] (proofed g (after [i] s))
/-- Row `r` of a tile set to a number. -/
def withTile (s : State) (t r : Nat) (v : Nat) : State := s.modCore 0 fun k => k.setTile t r (BitVec.ofNat 1024 v)
def stOf (s : State) (g : Galley) (i : Nat) : RecState := (s.cc.slot g i).st

/-- t2 holds 1.0 in lanes 0 and 1, t3 holds 2.0 in lane 0. -/
def tiled : State := withTile (withTile base 2 0 (0x3F80_0000 + 0x3F80_0000 * 2 ^ 32)) 3 0 0x4000_0000
def one (i : VForm → Instr) (v : VForm) (s : State) : State := after [.rowStep 0 0, .commandCompletion 0 .v 0] (issued .v (i { v with nrow := 0 }) s)
def lane0 (s : State) (w : Nat) : Nat := (s.cc.tile 1 0).toNat % 2 ^ w
def ui : VForm := { vf with ty := .i32 }

/-- R254 to R270, by hand, for the first lane of one row. -/
theorem test_vector : (lane0 (one .vadd vf tiled) 64 == 0x3F80_0000_4040_0000 && lane0 (one .vsub vf tiled) 32 == 0xBF80_0000 && lane0 (one .vmul vf tiled) 32 == 0x4000_0000 &&
    lane0 (one .vfma vf (withTile tiled 1 0 0x4040_0000)) 32 == 0x40A0_0000 && lane0 (one .vmin vf tiled) 32 == 0x3F80_0000 && lane0 (one .vmax vf tiled) 32 == 0x4000_0000 &&
    lane0 (one .vneg vu tiled) 32 == 0xBF80_0000 && lane0 (one .vabs vu tiled) 32 == 0x3F80_0000 && lane0 (one .vand vf tiled) 32 == 0 && lane0 (one .vor vf tiled) 32 == 0x7F80_0000 &&
    lane0 (one .vxor vf tiled) 32 == 0x7F80_0000 && lane0 (one .viadd ui tiled) 32 == 0x7F80_0000 && lane0 (one .vimul ui tiled) 32 == 0 && lane0 (one .vcmp { vf with mode := 1 } tiled) 32 == 0xFFFF_FFFF &&
    lane0 (one .vsel vf (withTile tiled 1 0 0x8000_0000)) 32 == 0x3F80_0000 && lane0 (one .vshl { ui with b := 5 } (withRegs tiled [(5, 4)])) 32 == 0xF800_0000 &&
    lane0 (one .vshr { ui with b := 5 } (withRegs tiled [(5, 4)])) 32 == 0x03F8_0000 && lane0 (one .vbcast { vf with b := 5 } (withRegs tiled [(5, 1)])) 64 == 0x3F80_0000_3F80_0000 &&
    lane0 (one .vmovs vu (withRegs tiled [(2, 0x4040_0000)])) 64 == 0x4040_0000_4040_0000 && lane0 (one .vred vu tiled) 32 == 0x4000_0000 && lane0 (one .vrcp vu (withTile tiled 2 0 0)) 32 == 0x7F80_0000) = true := by
  decide +kernel

theorem test_vector_life : (stOf (after [.vadd { vf with nrow := 0 }] tiled) .v 0 == .appended && stOf (proofed .v (after [.vadd { vf with nrow := 0 }] tiled)) .v 0 == .checked &&
    stOf (issued .v (.vadd { vf with nrow := 0 }) tiled) .v 0 == .issued && stOf (one .vadd vf tiled) .v 0 == .done && (after [.proofCheck 0 .v 0] ((after [.vadd vf] tiled).modCore 0 fun k => k.modSlotG .v 0 fun y => { y with proofHash := ~~~y.hash })).cc.resetAsked &&
    traps light (.vadd vf) 1 0x1000) = true := by decide +kernel

/-- The first row of a `VLD` is the bytes at its address; a `VST` stores them. -/
def vmem : State := withRegs { base with mem := [(0x5000_0080, 0x11), (0x5000_00FF, 0x22)] } [(2, 0x20_0080), (3, 0x80)]
theorem test_vector_memory : ((one .vld vf vmem).cc.tile 1 0 == BitVec.ofNat 1024 (0x11 + 0x22 * 2 ^ 1016) &&
    (one .vst vf (withTile vmem 1 0 0x3344)).readNat 0x5000_0080 2 == 0x3344 && (one .vst vf (withTile vmem 1 0 0x3344)).byte 0x5000_00FF == 0 &&
    traps (withRegs base [(2, 0x20_0040)]) (.vld vf) 3 0x20_0040) = true := by decide +kernel

/-- A real FP32 product of one K-step: shape 0x01 is 8 × 4 × 4 (R188, R189). -/
def fmt32 : State := after [.fmt 4] (withRegs base [(4, 0x21)])
def prod : MmaForm := ⟨2, 3, false, false, false, false, false, false, 1, 0, 0, 1⟩
def granted (s : State) : State := s.modCore 0 fun k => { k with grant := true }
/-- It has had the 16 clk of each of its K-steps. -/
def mmaAt : State := (issued .m (.mmaz prod) (granted (withTile (withTile fmt32 2 0 0x3FC0_0000) 3 0 0x4000_0000))).modCore 0 fun k => k.modSlotG .m 0 fun y => { y with ran := 400 }
theorem test_matrix : (traps base (.mma prod) 0x10 0 && stOf mmaAt .m 0 == .issued && ((after [.kStep 0 none] mmaAt).cc.slot .m 0).step == 1 &&
    accCol ((after [.kStep 0 none] mmaAt).cc.workRow 0 0) 0 == 0x4040_0000 && ((after [.kStep 0 none, .proofStep 0] mmaAt).cc.slot .m 0).prog == 1 &&
    stOf (after [.kStep 0 none, .proofStep 0, .kStep 0 none, .proofStep 0, .kStep 0 none, .proofStep 0, .kStep 0 none, .proofStep 0, .commandCompletion 0 .m 0] mmaAt) .m 0 == .done) = true := by
  decide +kernel

theorem test_copy : ((after [.copyUnitCommit 0, .commandCompletion 0 .x 0] (issued .x (.cpy 3 4 5) (withRegs { base with mem := [(0x5000_0000, 0x77)] } [(3, 0x20_1000), (4, 0x20_0000), (5, 3)]))).byte 0x5000_1000 == 0x77 &&
    (after [.copyUnitCommit 0] (issued .x (.fill 3 5 6) (withRegs base [(3, 0x20_1001), (5, 2), (6, 0x0807_0605_0403_0201)]))).readNat 0x5000_1000 4 == 0x0003_0200 &&
    traps (withRegs base [(3, 0x20_0002), (4, 0x20_0000), (5, 3)]) (.cpy 3 4 5) 1 0x1000) = true := by decide +kernel

/-! ### Witnesses: states and operands that meet the hypotheses of each statement, clause by clause -/

theorem witness_IntegerArithmetic : ∃ (s : State) (d a b : Reg), d ≠ 0 ∧ s.reg a ≠ s.reg b := ⟨ints, 1, 4, 63, by decide +kernel⟩

theorem witness_IntegerDivision : (3 : Reg) ≠ 0 ∧ (ints.reg 5 ≠ 0 ∧ ¬((ints.reg 6).toInt = -2 ^ 63 ∧ (ints.reg 5).toInt = -1)) ∧
    ((ints.reg 6).toInt = -2 ^ 63 ∧ (ints.reg 7).toInt = -1) ∧ (ints.reg 8 = 0 ∧ ints.reg 8 = 0) ∧ (ints.reg 8 = 0 ∧ 0 < (ints.reg 5).toInt) ∧
    (ints.reg 8 = 0 ∧ (ints.reg 7).toInt < 0) := by decide +kernel

theorem witness_IntegerBitsAndImmediates : ∃ (s : State) (d a b : Reg), d ≠ 0 ∧ (s.reg b).toNat = 64 ∧ s.reg a ≠ 0 := ⟨ints, 63, 6, 9, by decide +kernel⟩

/-- Fields that end at bit 63 and at bit 64. -/
theorem witness_FieldsSelectConstants : 64 < (63 : BitVec 6).toNat + (1 : BitVec 6).toNat + 1 ∧ (63 : BitVec 6).toNat + (0 : BitVec 6).toNat + 1 ≤ 64 ∧
    (0 : BitVec 6).toNat + (63 : BitVec 6).toNat + 1 ≤ 64 ∧ (3 : Reg) ≠ 0 := by decide +kernel

theorem witness_ScalarFloatArithmetic : (fp32.out .rne (fvMul (fp32.value 0x7F80_0000) (fp32.value 0))).produced = true ∧
    (fp32.out .rne (fvAdd .rne (fp32.value 0x3F80_0000) (fp32.value 0))).produced = false ∧ (floats.cx.fpx.getLsbD 8 = false) ∧
    ((floats.modCx fun x => { x with fpx := 0x100 }).cx.fpx.getLsbD 8 = true) := by decide +kernel

theorem witness_ProducedNans : (fp32.value 0x7FC0_0000).isNan = true ∧ (fp32.value 0x7F80_0000).isInf = true ∧ (fp32.value 0xBF80_0000).neg = true := by decide +kernel

theorem witness_Rounding : ((0 : Int) ≥ 0 ∧ (3 : Int) ≥ 0) ∧ ((1 : Int) > 0) ∧ (roundTo .rne false 3 0 false 1).1 % 2 = 0 := by decide +kernel

theorem witness_FloatCompareConvert : (fp32.value 0x7F80_0001).isNan = true ∧ (fp32.value 0x8000_0000).isNan = false ∧
    fvLt (fp32.value 0xBF80_0000) (fp32.value 0) = true ∧ fp32.value 0x7F80_0000 = fp32.value 0x7F80_0000 ∧ ((fp32.value 0).isZero = true ∧ (fp32.value 0x8000_0000).isZero = true ∧
    (fp32.value 0).neg ≠ (fp32.value 0x8000_0000).neg) := by decide +kernel

theorem witness_Branches : (near.reg 4).toNat % 4 = 0 ∧ (near.reg 5).toNat % 4 ≠ 0 ∧ (near.reg 0).toInt = 0 ∧ (near.reg 6).toInt < 0 ∧ 0 < (near.reg 4).toInt := by decide +kernel

theorem witness_HardwareLoops : (looping 2).cur.ctx = 0 ∧ light.cur.ctx ≠ 0 ∧ (0xFFF : BitVec 12).toInt < 0 ∧ (looping 2).cc.lring.toNat % 16 ≠ 0 ∧ 1 < (looping 2).cc.lcnt.toNat ∧
    (looping 1).cc.lcnt.toNat ≤ 1 ∧ 0 ≤ (0 : BitVec 12).toInt ∧ base.cc.lring.toNat % 16 = 0 := by decide +kernel

def preempting (stopped : Bool) : State := base.modCore 0 fun k => { k with preempt := some ⟨0, stopped, false, false⟩ }
def halting : State := after [.halt] base
/-- The Proofreader's LCNT differs. -/
def upset : State := base.modCore 0 fun k => { k with proof := { ProofDiff.none with lcnt := 1 } }
def handlerHalts : State := after [.halt] { after [.trap 5] base with cur := ⟨0, 1⟩ }
def lightHalts : State := after [.halt] light
theorem witness_YieldAndHalt : (base.cur.ctx = 0 ∧ base.cc.proofRead = true ∧ base.cc.resetAsked = false ∧ base.cc.proof = .none ∧ base.cc.preempt = none) ∧
    ((preempting false).cc.proofRead = true ∧ (preempting false).cc.resetAsked = false ∧ (preempting false).cc.proof = .none) ∧
    (upset.cc.proofRead = true ∧ upset.cc.resetAsked = false ∧ upset.cc.proof ≠ .none ∧ upset.cc.proofCrc ≠ crc32c (upset.cc.checkpoint (upset.cx.pc + 4)).bytes) ∧
    ((handlerHalts.ctx ⟨0, 1⟩).run = .running ∧ ((handlerHalts.ctx ⟨0, 1⟩).wait.any fun w => w.kind == .halt) = true ∧ (handlerHalts.ctx ⟨0, 1⟩).storesDone = true ∧
      (handlerHalts.ctx ⟨0, 1⟩).role = .trap 0) ∧
    ((lightHalts.ctx ⟨0, 1⟩).run = .running ∧ ((lightHalts.ctx ⟨0, 1⟩).wait.any fun w => w.kind == .halt) = true ∧ (lightHalts.ctx ⟨0, 1⟩).storesDone = true ∧
      (lightHalts.ctx ⟨0, 1⟩).role = .none) ∧
    (base.modCore 0 fun k => k.setSlot .v 0 { Slot.fresh with st := .appended }).cc.proofRead = false ∧ ((preempting false).cc.preempt = some ⟨0, false, false, false⟩) ∧ light.cur.ctx ≠ 0 ∧
    ((halting.core 0).team ≠ none ∧ ((halting.core 0).ctx 0).run = .running ∧ ((halting.core 0).ctx 0).wait = some ⟨.halt, 16, 0⟩ ∧ (halting.core 0).haltReady 0 = true) ∧
    ((after [.stB .cor 5 4 0] (memory [])).ctx ⟨0, 0⟩).storeQ ≠ [] := by decide +kernel

def trapped : State := { after [.trap 5] base with cur := ⟨0, 1⟩ }
theorem witness_TrapAndReturn : base.cx.priv = false ∧ ((super base).cx.priv = true ∧ (super base).cx.role = .none) ∧
    (trapped.cx.priv = true ∧ trapped.cur = ⟨0, 1⟩ ∧ (1 : CtxId) ≠ 0 ∧ trapped.cx.role = .trap 0 ∧ trapped.cc.preempt = none) := by decide +kernel

theorem witness_TakingATrap : ((base.core 0).ctx 0).role = .none ∧ (0 : CtxId) ≠ 1 ∧ (base.core 0).dormantLights = 1 :: [2, 3] ∧ ((base.core 0).ctx 0).run = .running ∧
    (0x16 : BitVec 8) ≠ 7 := by decide +kernel

def waiting (evl : W64) (count : Nat) : State := base.modCx fun x => { x with evl := evl, wait := some ⟨.wfe 3 0, 16, count⟩ }
theorem witness_WaitForEvent : (base.modCx fun x => { x with evl := 1 }).wfeWhy ⟨0, 0⟩ 0 ≠ 0 ∧ base.wfeWhy ⟨0, 0⟩ 0 = 0 ∧ ((waiting 2 0).ctx ⟨0, 0⟩).wfeWaits = some (3, 0) ∧
    (waiting 2 0).wfeWhy ⟨0, 0⟩ 0 &&& 0xF ≠ 0 ∧ ((waiting 0 256).wfeWhy ⟨0, 0⟩ 0).getLsbD 4 = true ∧ ((waiting 0 255).wfeWhy ⟨0, 0⟩ 0) = 0 := by decide +kernel

theorem witness_CsrReadAndRefusals : csrOf 0xFFF = none ∧ csrOf 0x110 = some .ymax ∧ (CsrName.privOnly .ymax) = true ∧ base.cx.priv = false ∧ CsrName.ymax ≠ .cmpinj ∧
    (∃ n, csrOf n = some .cmpinj) ∧ csrOf 0x020 = some .lcnt ∧ CsrName.privOnly .lcnt = false ∧ base.cc.replayValue = none ∧ CsrName.teamOnly .lcnt = true ∧ light.cur.ctx ≠ 0 := by
  refine ⟨?_, ?_, ?_, ?_, ?_, ⟨288, ?_⟩, ?_, ?_, ?_, ?_, ?_⟩ <;> decide +kernel

theorem witness_CsrWriteAndExchange : base.cur.ctx = 0 ∧ ((0x1008 : W64).toNat % 16 ≤ 8 ∧ (0x1008 : W64).toNat / 256 % 32 + (0x1008 : W64).toNat % 16 ≤ 24 ∧ (0x1008 : W64).toNat / 256 % 32 < 24) ∧
    ((0x8080 : W64).toNat % 256 ≤ 128 ∧ (0x8080 : W64).toNat / 4096 % 16 ≤ 8 ∧ (0x8080 : W64).toNat / 4096 % 16 ≠ 1) ∧ 128 < (0x81 : W64).toNat % 256 ∧
    ((super base).cx.priv = true ∧ (super base).objects = [] ∧ (2 ^ 32 + 1 : W64).toNat % 2 ^ 32 ≠ 0 ∧ (2 ^ 32 + 1 : W64).toNat / 2 ^ 32 ≠ 0) ∧ base.cc.replayValue = none := by decide +kernel

theorem witness_TlbInvalidate : base.cx.aligned = true ∧ (super base).cx.aligned = true ∧ (super base).cx.priv = true ∧ (after [.stB .cor 5 4 0] (memory [])).cx.aligned = false ∧
    base.cx.priv = false := by decide +kernel

theorem witness_DiscardedDestinationAndNoInstruction : Instr.add 0 1 2 ∈ [Instr.add 0 1 2] ∧ wellFormed (.add 0 1 2) = true := by decide +kernel

def okAt (r : Checked) (pa : Nat) : Bool := match r with
  | .ok p _ => p == pa
  | _ => false
theorem witness_AccessesEnterTheQueues : okAt (eight.checkLoad eight.cur 0x20_0010 8) 0x5000_0010 = true ∧ okAt (eight.checkLoad eight.cur 0x20_FFFF 1) 0x5000_FFFF = true ∧
    okAt (eight.checkAccess eight.cur .write 0x20_0010 8) 0x5000_0010 = true ∧ eight.cc.replayValue = none ∧ eight.cx.storeQ.length < 64 ∧
    64 ≤ (eight.modCx fun x => { x with storeQ := List.replicate 64 ⟨.plain, 0, 0, 1, 0, .cor, 0⟩ }).cx.storeQ.length ∧ eight.cur.ctx = 0 := by decide +kernel

def loaded : State := after [.ldB 3 4 0] eight
def loaded2 : State := after [.ldW 6 4 0, .ldB 3 4 7] eight
theorem test_loads_in_order : (outIs (exec (.loadReturn 0 0 1) loaded2) (fun t => t.reg 3 == 0 && t.cx.loadQ.length == 2 && outIs (exec (.loadReturn 0 0 0) t) fun u =>
    u.reg 6 == 0xFFFF_FFFF_9122_9384 && u.reg 3 == 0 && outIs (exec (.loadReturn 0 0 0) u) fun v => v.reg 3 == 0xFFFF_FFFF_FFFF_FF80)) = true := by decide +kernel
theorem witness_LoadReturnsItsValue : (∃ l, (loaded.ctx ⟨0, 0⟩).loadQ = l :: [] ∧ l.got = none ∧ loaded.mayRead ⟨0, 0⟩ l.pos l.va l.pa l.n = true ∧
    loaded.loadBad (loaded.ctx ⟨0, 0⟩) l.pos l.pa l.n = none ∧ l.live = true ∧ l.dest ≠ 0 ∧ (loaded.ctx ⟨0, 0⟩).storeQ = [] ∧ (loaded.ctx ⟨0, 0⟩).unacked = [] ∧ l.n = 1 ∧ l.signed = true) ∧
    (let u := after [.loadReturn 0 0 1, .loadReturn 0 0 0] loaded2;
      ∃ l, (u.ctx ⟨0, 0⟩).loadQ = l :: [] ∧ l.got = some 0xFFFF_FFFF_FFFF_FF80) ∧
    (∃ m, (loaded2.ctx ⟨0, 0⟩).loadQ.drop 1 = m :: [] ∧ m.got = none ∧ loaded2.mayRead ⟨0, 0⟩ m.pos m.va m.pa m.n = true ∧ loaded2.loadBad (loaded2.ctx ⟨0, 0⟩) m.pos m.pa m.n = none) ∧
    (∃ l, ((after [.ldD 6 4 0] eight).ctx ⟨0, 0⟩).loadQ = l :: [] ∧ l.n = 8) :=
  ⟨⟨_, rfl, by decide +kernel⟩, ⟨_, rfl, by decide +kernel⟩, ⟨_, rfl, by decide +kernel⟩, ⟨_, rfl, by decide +kernel⟩⟩

/-- Pages of job 1, one for each outcome of the checks: without U, stereotype, without R, without W, of the host, with a bad byte, and of no place. -/
def pages2 : State := { (memory []).modCore 0 fun k => { k with
    l1tlb := [{ page with u := false }, { page with va := 0x30_0000, st := true }, { page with va := 0x40_0000, r := false }, { page with va := 0x50_0000, w := false },
      { page with va := 0x60_0000, pa := hostBase }, { page with va := 0x70_0000, pa := 0x5001_0000 }, { page with va := 0x80_0000, pa := 0x4_0000_0000_0000 }] }
  with badBytes := [(0x5001_0003, true)] }
/-- Flags of the page at an address, and what the checks find there. -/
def pageAt (va : W64) : Option (List Bool) := (pages2.lookup 0 va).map fun e =>
  let pa := e.pa + (va.toNat % 2 ^ 56 - e.va)
  [e.u, e.r, e.w, e.st, (pages2.place pa).isSome, isHost pa, (pages2.badAt pa 4).isSome, pages2.hostMissing (pages2.jobFunc pages2.cc.job) pa]
theorem witness_AccessChecks : (canonical 0x0080_0000_0000_0000 = false ∧ canonical 0x20_0011 = true ∧ (0x20_0011 : W64).toNat % 2 ≠ 0 ∧ (0x20_0012 : W64).toNat % 4 ≠ 0 ∧ (0x20_0014 : W64).toNat % 8 ≠ 0 ∧
    (0x20_0014 : W64).toNat % 4 = 0 ∧ canonical 0x90_0000 = true) ∧ pageAt 0x90_0000 = none ∧ (pages2.cx.priv = false ∧ pages2.cc.replayValue = none) ∧
    pageAt 0x20_0014 = some [false, true, true, false, true, false, false, false] ∧ pageAt 0x30_0000 = some [true, true, true, true, true, false, false, false] ∧
    pageAt 0x40_0000 = some [true, false, true, false, true, false, false, false] ∧ pageAt 0x50_0000 = some [true, true, false, false, true, false, false, false] ∧
    pageAt 0x60_0000 = some [true, true, true, false, true, true, false, false] ∧ pageAt 0x70_0000 = some [true, true, true, false, true, false, true, false] ∧
    pageAt 0x80_0000 = some [true, true, true, false, false, false, false, false] := by decide +kernel

def stored : State := after [.stW .cor 5 4 0] (memory [])
/-- Two stores to the same bytes on their way. -/
def stored2 : State := after [.stW .cor 5 4 0, .stW .cor 5 4 0, .storeLeave 0 0, .storeLeave 0 0] (memory [])
theorem witness_StoreLeavesToMemory : (∃ e, (stored.ctx ⟨0, 0⟩).storeQ = e :: [] ∧ e.kind = .plain ∧ stored.mayLeave ⟨0, 0⟩ e = true ∧
      ((stored.core 0).rollWindow stored.now).budgetAllows 0 = true) ∧
    (∃ e rest, (stored2.ctx ⟨0, 0⟩).unacked.drop 0 = e :: rest ∧ e.kind = .plain ∧ (((stored2.ctx ⟨0, 0⟩).unacked.take 0).any fun o => o.meets e) = false ∧ pagesEnd ≤ e.pa) ∧
    (∃ e, (stored2.ctx ⟨0, 0⟩).unacked.drop 1 = e :: [] ∧ (((stored2.ctx ⟨0, 0⟩).unacked.take 1).any fun o => o.meets e) = true) :=
  ⟨⟨_, rfl, by decide +kernel⟩, ⟨_, _, rfl, by decide +kernel⟩, ⟨_, rfl, by decide +kernel⟩⟩

theorem witness_CaseMemory : base.cc.replayValue = none ∧ outIs (exec (.ldc .word 5 16) (after [.stc .word 5 16] (memory []))) (fun _ => true) = true ∧ (5 : Reg) ≠ 0 := by decide +kernel

theorem witness_OrderingAndHints : (after [.stW .cor 5 4 0, .storeLeave 0 0] (memory [])).cx.unacked ≠ [] ∧ ((∀ l ∈ base.cx.loadQ, l.got ≠ none) ∧ base.cx.storeQ = [] ∧ base.cx.unacked = []) ∧
    ((after [.loadReturn 0 0 1] loaded2).cx.loadQ.any fun l => l.got.isSome) = true ∧ stored.cx.storeQ ≠ [] ∧ (loaded.cx.loadQ.any fun l => l.got.isNone) = true := by decide +kernel

theorem witness_AtomicsEnterTheQueue : okAt (eight.checkAtomic eight.cur 0 0x20_0010 8) 0x5000_0010 = true ∧ okAt (eight.checkAtomic eight.cur 7 0x20_0014 4) 0x5000_0014 = true ∧ eight.cx.storeQ.length < 64 := by
  decide +kernel

def atomAt : State := after [.atmAdd ⟨3, 4, 5, 0, false, .none, .pkg, 0⟩] eight
theorem witness_AtomicsPerformed : ((4 = 4 ∨ 4 = 8) ∧ 2 ^ 32 - 1 < 2 ^ (8 * 4)) ∧ ∃ e, (((atomAt.core 0).rollWindow atomAt.now).ctx 0).storeQ = e :: [] ∧ e.kind = .atomic 0 0 3 .none ∧
    atomAt.mayLeave ⟨0, 0⟩ e = true ∧ ((atomAt.core 0).rollWindow atomAt.now).budgetAllows 0 = true ∧ pagesEnd ≤ e.pa ∧ atomAt.badAt e.pa e.n = none :=
  ⟨by decide, _, rfl, by decide +kernel⟩

theorem witness_ChaseCounters : counters.mayUpdate counters.cx.priv counters.cc.job 103 = false ∧ counters.mayUpdate counters.cx.priv counters.cc.job 102 = true ∧ counters.cx.storeQ.length < 64 ∧
    ((after [.chAdd 101 4] counters).ctx ⟨0, 0⟩).storeQ.length = 1 ∧ counters.ctrHeld 101 = false ∧ counters.mayWait counters.cx.priv counters.cc.job 103 = false ∧
    counters.mayWait counters.cx.priv counters.cc.job 101 = true ∧ ctrSatisfied (counters.ctr 101) 5 = true ∧ ctrSatisfied (counters.ctr 101) 6 = false ∧
    ((after [.chWait 100 4 lw] counters).ctx ⟨0, 0⟩).chWaits = some (100, 3, 4) ∧ (counters.reg 5).toNat = 0 ∧ (0 < (counters.reg 6).toNat ∧ (counters.reg 6).toNat < 2 ^ 40) ∧
    counters.cx.aligned = true ∧ ((after [.bar 101 4 lw] counters).ctx ⟨0, 0⟩).barWaits = some (101, 6) ∧ ctrSatisfied ((after [.bar 101 4 lw] counters).ctr 101) 6 = true := by decide +kernel

def streamed (n : Nat) : State := after (List.replicate n (.ldq .half 2 4 5 6)) (withRegs eight [(5, 2), (6, 2)])
theorem witness_DataQueues : (base.cc.replay = none ∧ (base.reg 5).toNat % 2 ^ 32 = 0) ∧ (((streamed 0).reg 5).toNat % 2 ^ 32 ≠ 0 ∧ ((streamed 3).cx.queue 2).streams.length < 4) ∧ 4 ≤ ((streamed 4).cx.queue 2).streams.length ∧
    (((after [.elementLoad 0 0 2] (streamed 1)).cx.queue 2).elems = [0x9384]) ∧ ((base.cx.queue 2).elems = [] ∧ (base.cx.queue 2).streams = []) ∧
    ((streamed 1).cx.queue 2).streams.length = 1 ∧ ((streamed 1).cx.queue 2).elems = [] ∧ (streamed 1).servesStream 0 0 2 = true ∧
    (((streamed 1).cx.queue 2).streams.any fun u => u.halted.isNone && ((streamed 1).loadBad ((streamed 1).ctx ⟨0, 0⟩) u.pos 0x5000_0010 u.size.bytes).isNone &&
      okAt ((streamed 1).checkAccess ⟨0, 0⟩ .read (u.base + BitVec.ofNat 64 u.next * u.stride) u.size.bytes) 0x5000_0010) = true := by decide +kernel

def lines : State := { (base.modCore 0 fun k => { k with l1 := [(0xA0_0000, ⟨true, false, false⟩)] }) with l2 := [(0xA0_0001, ⟨true, true, false⟩)] }
theorem witness_WriteLane : ((lines.core 0).rollWindow lines.now).l1.find? (fun e => e.1 == (0xA0_0000 : BitVec 52).toNat) = some (0xA0_0000, ⟨true, false, false⟩) ∧
    ((lines.core 0).rollWindow lines.now).budgetAllows 0 = true ∧ (0xA0_0001, ⟨true, true, false⟩) ∈ lines.l2 ∧ pagesEnd ≤ 0xA0_0001 * 128 := by decide +kernel

theorem witness_VectorAppends : light.cur.ctx ≠ 0 ∧ base.cc.resolveV .add { vf with a := 32 } = none ∧ ((looping 2).cc.resolveV .add { vf with a := 32 }).any (fun r => (VCmd.mk .add r 0 0 0 0).legal && r.a == 8) = true ∧
    (base.cc.resolveV .ld vf = some vf ∧ (VCmd.mk .ld vf 0 0x20_0080 0x80 0).legal = true ∧ (0x20_0080 : W64).toNat % 128 = 0 ∧ (0x80 : W64).toNat % 128 = 0) ∧
    base.cc.replay = none ∧ ((base.cc.retire .v).galley .v).live < 64 := by decide +kernel

/-- The launch's window on core 0 is one granule. -/
def windowed : State := base.modCore 0 fun k => { k with scrw := 1 }
theorem witness_MatrixAppends : (fmt32.cc.resolveM prod = some prod ∧ (fmt32.cc.checkMma fmt32.cx.pc prod 0 0 0 0).toOption = some 0x21 ∧ ((fmt32.cc.retire .m).galley .m).live < 64) ∧
    (base.cc.replay = none ∧ base.cc.resolveM prod = some prod ∧ base.cc.unclaimed? = none) ∧ base.cc.resolveTile 23 = some 23 ∧ (looping 2).cc.resolveTile 34 = some 7 ∧
    (0x20_0080 : W64).toNat % 128 = 0 ∧ (0x40 : W64).toNat % 64 = 0 ∧ light.cur.ctx ≠ 0 ∧ (windowed.cc.checkPair 0x1000 0x80 1 true 1 = none ∧ windowed.cc.checkPair 0x1000 0x80 1 false 1 = none) := by decide +kernel

theorem witness_CopyAndCollectiveAppends : (CopyCmd.mk 0xE8 0x20_1000 0x20_0000 0x1000 0 0).check 0x1000 = none ∧ (CopyCmd.mk 0xE9 0x20_1000 0x20_0000 (2 ^ 32 + 16) (2 ^ 32 * 32 + 64) 0).check 0x1000 = none ∧
    (CopyCmd.mk 0xEB 0x20_1000 0x20_0000 0x20_8000 (2 * 2 ^ 32 + 16) 1).check 0x1000 = none ∧ (CopyCmd.mk 0xED 0x20_1000 0 (2 ^ 36) 7 0).check 0x1000 = none ∧
    (CopyCmd.mk 0xEE 0x20_1000 0 0 0 0).check 0x1000 = none ∧ ((0x1_0000 : W64).toNat % 0x1_0000 = 0 ∧ (0x8000 : W64).toNat % 0x1_0000 ≠ 0) ∧
    ({ base with groupGrant := [(1023, 1)] } : State).ownsGroup 1 1023 = true ∧ base.ownsGroup 1 1023 = false ∧ light.cur.ctx ≠ 0 ∧
    ((base.cc.retire .m).wrapGuard (base.cc.sgen + 1) = false) ∧ ((0 : W64).toNat % 0x1_0000 = 0 ∧ (0x1_0000 : W64) ≠ 0 ∧ (0 : W64).toNat + (0x1_0000 : W64).toNat ≤ windowed.cc.windowBytes ∧
      (windowed.cc.retire .m).wrapGuard (windowed.cc.sgen + 1) = false ∧ ((windowed.cc.retire .x).galley .x).live < 64 ∧ windowed.cc.replay = none) ∧
    (CopyCmd.mk 0xEA 0x30_0000 0x20_0000 (2 ^ 48 + 2 ^ 32 + 16) (2 ^ 32 * 32 + 64) 0x0001_0001).check 0x1000 = none ∧
    (CopyCmd.mk 0xEC 0x20_1000 0x20_0000 0x20_8000 (2 * 2 ^ 32 + 16) 1).check 0x1000 = none ∧ ((0x40 : W64).toNat % 64 = 0 ∧ (0x41 : W64).toNat % 64 ≠ 0) := by decide +kernel

theorem witness_FormatTokenStampAndFences : (fmtLegal 0x21 = true ∧ base.cc.replay = none ∧ (base.cc.retire .m).fmtQ.length < 16) ∧ 16 ≤ ((after (List.replicate 16 (.fmt 4)) (withRegs base [(4, 0x21)])).cc.retire .m).fmtQ.length ∧
    fmtLegal 0 = false ∧ ((counters.reg 6).toNat < 2 ^ 40 ∧ counters.mayWait counters.cx.priv counters.cc.job 100 = true ∧ counters.mayUpdate counters.cx.priv counters.cc.job 102 = true) ∧
    counters.mayWait counters.cx.priv counters.cc.job 103 = false ∧ (base.cx.wait = none ∧ base.cx.aligned = true) ∧ maskHas 8 .k = true ∧ ((base.cc.retire .k).galley .k).live < 64 ∧
    (∃ w b m v x k, (after [.fence 3 lw] base).cx.wait = some w ∧ w.kind = .fence b m v x k) ∧ (after [.markerRetire 0 .m] (proofed .m (after [.fence 3 lw] base))).cc.galM.reached 0 = true := by
  refine ⟨?_, ?_, ?_, ?_, ?_, ?_, ?_, ?_, ⟨_, _, _, _, _, _, rfl, rfl⟩, ?_⟩ <;> decide +kernel

/-- Core 0 delivers four bytes to core 1, where a team of the same job runs, into its cluster's scratchpad. -/
def sending : State := withRegs ((eight.modCore 1 fun k => { (k.modCtx 0 fun x => { x with run := .running, pc := 0x1000 }) with team := some placeTeam }).modCore 0 fun k =>
  { k with l1tlb := [page, { page with va := 0x30_0000, pa := scratchBase 0 }] }) [(2, 0x30_0100), (3, 1), (5, 4), (9, 0x2000)]
def sent : State := after [.dlv 2 4 5 9 lw] sending
theorem test_folio : (sent.cx.wait.isSome && outIs (exec (.folioArrival 1) sent) fun t => t.byte (scratchBase 0 + 0x100) == 0x84 && t.cx.wait == none && t.cx.pc == 0x1008 &&
    (t.ctx ⟨1, 2⟩).pc == 0x2000 && (t.ctx ⟨1, 2⟩).reg 1 == 0x30_0100 && (t.ctx ⟨1, 2⟩).reg 2 == 4 && (t.ctx ⟨1, 2⟩).reg 3 == 0) = true := by decide +kernel
theorem witness_FolioDelivery : ((sending.reg 8).toNat = 0 ∧ 4096 < (4097 : Nat)) ∧ (0x2002 : W64).toNat % 4 ≠ 0 ∧ 256 ≤ (256 : W64).toNat ∧
    ((match sending.checkSource sending.cur (sending.reg 4) 4, sending.checkTarget sending.cur 1 (sending.reg 2) 4 with | .ok _, .ok _ => true | _, _ => false) = true ∧ (sending.core 1).disabled = false ∧ sending.cx.aligned = true) ∧
    ((sent.senders 1).filter (sent.folioPasses 1) = [⟨0, 0⟩] ∧ (((sent.ctx ⟨0, 0⟩).delivers 1).any fun f => (sent.core 1).takesFolio f.1.job) = true ∧ (sent.core 1).folioLights = [2, 3] ∧ (sent.core 1).folioQ = []) ∧
    (let s := sent.modCore 1 fun k => { k with team := none }
     (s.senders 1).filter (s.folioPasses 1) = [⟨0, 0⟩] ∧ (s.core 1).takesFolio 1 = false) ∧
    (let k := { sent.core 1 with folioQ := [⟨0x30_0100, 4, 0x2000, 0, 1⟩] }; k.folioQ = [⟨0x30_0100, 4, 0x2000, 0, 1⟩] ∧ k.folioLights = [2, 3]) := by decide +kernel

def held (k : WaitKind) (n : Nat) : State := base.modCx fun x => { x with wait := some ⟨k, 16, n⟩ }
theorem test_stall : ((after [.stall 0 0] (held (.popq 3) 257)).cx.run == .trapped && (after [.stall 0 0] (held (.popq 3) 257)).cx.taddr == 3 && (after [.stall 0 0] (held (.popq 3) 256)).cx.run == .running &&
    (after [.stall 0 0] (held (.storeFull 0x20_0000) 257)).cx.cause.toNat % 256 == 0x0F && (after [.stall 0 0] (held (.bar 101 6) 257)).cx.tepc == 0x1008) = true := by decide +kernel
theorem witness_CancelPowerAndStalls : (base.foreign .launch 5 1 = false ∧ base.cx.aligned = true) ∧ ((base.cluster 0).regionQ = [] ∧ base.regionSum 0 0 + 3 ≤ base.table.cap ∧ ¬ base.regionSum 0 0 + 4 ≤ base.table.cap) ∧ base.cc.regionOpen = false ∧
    base.cur.ctx = 0 ∧ light.cur.ctx ≠ 0 ∧ ((held (.popq 3) 256).cx.wait.any fun w => decide (w.count ≤ w.limit * 16)) = true ∧ (held (.popq 3) 256).cx.run = .running ∧ (held (.popq 3) 256).cx.role = .none ∧
    ((held (.popq 3) 257).cx.wait.any fun w => decide (w.limit * 16 < w.count)) = true ∧
    (let asked := after [.pwrAcq 3 lw, .pwrAcq 4 lw] base
     (asked.cluster 0).regionQ.filter asked.regionAsked = [(0, 4)] ∧ ({ asked with table := .immersion } : State).regionFits 0 4 = true ∧ ((asked.core 0).team.any fun r => r.state != .loading) = true) := by decide +kernel
theorem witness_every_wait : ∀ (k : WaitKind) (n : Nat), ∃ w, (held k n).cx.wait = some w ∧ w.kind = k ∧ w.limit = 16 ∧ w.count = n ∧ (held k n).cx.run = .running ∧ (held k n).cx.role = .none :=
  fun _ _ => ⟨_, rfl, rfl, rfl, rfl, rfl, rfl⟩

def okEng (r : EngineAccess) (pa : Nat) : Bool := match r with
  | .ok p _ => p == pa
  | _ => false
def vIssued : State := issued .v (.vadd vf) tiled
/-- What the record in slot 0 of the V galley would do next, where it is ISSUED. -/
def vStep (s : State) : Option (VCmd × VRow) := do
  let y ← (s.core 0).issued? .v 0
  let cmd ← y.vcmd
  if y.prog.toNat < cmd.v.n then some (cmd, cmd.step (s.core 0) (y.lig.getD ligReal) y.prog.toNat) else none
def infs : State := issued .v (.vsub vf) (withTile (withTile base 2 0 0x7F80_0000) 3 0 0x7F80_0000)
theorem witness_VectorWork : (VTy.i8 = .i8 ∨ VTy.i8 = .i32) ∧ (VFn.add ≠ .red ∧ VFn.add ≠ .qnt ∧ VFn.add ≠ .dqnt ∧ VFn.isAlg .add = false) ∧
    ((vStep vIssued).any fun p => !p.1.fn.isMem && !p.1.oneUnit && p.2.scale == none && p.2.nan == none) = true ∧ ((vStep infs).any fun p => p.2.nan == some 0) = true ∧
    ((vStep (issued .v (.vld vf) vmem)).any fun p => p.1.fn == .ld) = true ∧ ((vStep (issued .v (.vst vf) vmem)).any fun p => p.1.fn == .st) = true ∧
    okEng ((issued .v (.vld vf) vmem).engineCheck 0 .v 0 .read 0x20_0080 128) 0x5000_0080 = true ∧ okEng ((issued .v (.vst vf) vmem).engineCheck 0 .v 0 .write 0x20_0080 128) 0x5000_0080 = true ∧
    (vmem.modCore 0 fun x => x.rollWindow vmem.now).pinned 0x5000_0080 128 = false ∧ ((vmem.core 0).rollWindow vmem.now).laneOpen = true := by decide +kernel

/-- The next work of the M galley's product: whether the step's results hold no NaN, and whether a proof step is due. -/
def product (s : State) : Option (Nat × Bool × Bool) := do
  let p ← (s.core 0).product?
  let sh ← p.2.shape
  let w ← p.2.fmt
  let t ← p.2.lig
  some (p.2.step, (firstNan (s.kResults 0 p.2 w t sh p.2.step)).isNone && decide (p.2.step < sh.nk), p.2.proofDue sh.nk s.now)
def cpyAt : State := issued .x (.cpy 3 4 5) (withRegs { base with mem := [(0x5000_0000, 0x77)] } [(3, 0x20_1000), (4, 0x20_0000), (5, 3)])
/-- The writes of the copy unit that would commit next, where its checks pass and budget and pins let it through. -/
def unitOf (s : State) : Option (List (Nat × Nat) × Nat) := do
  let (x, y) ← (s.core 0).copyAt
  let cmd := y.copy
  let first := y.prog.toNat * 128
  let len := min 128 (cmd.total - first)
  let els := if cmd.isIndexed then cmd.elems first len else []
  match s.copyIndices 0 x cmd els with
  | (.ok _, ix) =>
    if els.any (cmd.elemBad ix) || decide (y.copyUnits ≤ y.prog.toNat) then none
    else
      match s.copyRuns 0 x .read (if cmd.isFill then [] else runsOf (cmd.src ix) first len), s.copyRuns 0 x .write (runsOf (cmd.dst ix) first len) with
      | .ok _, .ok writes =>
        if (s.copyMayWrite 0 x (((runsOf (cmd.dst ix) first len).zip writes).foldl (fun n (v, p) =>
          n + (List.range v.2).foldl (fun q b => q + cmd.byteCharge (isHbm p.1) (v.1 + BitVec.ofNat 64 b)) 0) 0) writes).isSome then some (writes, len) else none
      | _, _ => none
  | _ => none
def fillAt : State := issued .x (.fill 3 5 6) (withRegs base [(3, 0x20_1000), (5, 3), (6, 7)])
def gathAt : State := issued .x (.gath false 3 4 5 6) (withRegs { base with mem := [(0x5000_0010, 0x77), (0x5000_2000, 4)] } [(3, 0x20_1000), (4, 0x20_0000), (5, 0x20_2000), (6, 0x1_0000_0004)])
/-- `mmaAt` with an infinity times zero. -/
def mmaNan : State := withTile (withTile mmaAt 2 0 0x7F80_0000) 3 0 0
def failedOnce : State := mmaAt.modCore 0 fun k => k.setSlot .m 0 { k.slot .m 0 with residue := [0] }
theorem witness_MatrixAndCopySteps : (unitOf cpyAt = some ([(0x5000_1000, 3)], 3) ∧ unitOf fillAt = some ([(0x5000_1000, 3)], 3) ∧ unitOf gathAt = some ([(0x5000_1000, 4)], 4)) ∧
    ((mmaAt.core 0).spacerFrom = none ∧ product mmaNan = some (0, false, false) ∧ ((mmaAt.core 0).ctx 0).fpx.getLsbD 8 = false) ∧
    ((failedOnce.core 0).product?.any fun p => p.2.step ∈ p.2.residue) = true ∧ ((mmaAt.core 0).product?.any fun p => !p.2.resumed && !(p.2.step ∈ p.2.residue : Bool)) = true ∧ product mmaAt = some (0, true, false) ∧ (mmaAt.core 0).grant = true ∧ product (after [.kStep 0 none] mmaAt) = some (1, true, true) ∧
    ((cpyAt.core 0).copyAt.any fun p => p.1 == .galley 0 && p.2.op == 0xE8 && decide (p.2.prog.toNat < p.2.copyUnits)) = true ∧
    (((issued .x (.stgRel 4 5) (withRegs windowed [(4, 0), (5, 0x1_0000)])).core 0).copyAt.any fun p => p.2.op == 0xEF && decide (p.2.prog.toNat < p.2.copyUnits)) = true ∧ pagesEnd ≤ 0x5000_1000 := by
  decide +kernel

/-- A VADD checked, with a stamp at 100, in the Platen clk `n`. -/
def stamped (n : W64) : State := { proofed .v (after [.stampAbs 4 10, .vadd vf] (withRegs tiled [(4, 100)])) with platen := n }
def slot0 (s : State) (g : Galley) : Slot := (s.core 0).slot g 0
def checkedV : State := proofed .v (after [.vadd vf] tiled)
def checkedM : State := proofed .m (after [.mmaz prod] fmt32)
def tokened : State := proofed .v (after [.tok ⟨true, 100, 4, true, 101, 9⟩, .vadd vf] { counters with chase := [(100, 2 ^ 63 + 5)] })
theorem test_record_life : ((after [.errorPropagation 0 .v] tokened).ctr 101 == 2 ^ 63 + 9 && stOf (after [.errorPropagation 0 .v] tokened) .v 0 == .done && (after [.recordIssue 0 .m] checkedM).cc.grant &&
    (after [.recordIssue 0 .v] (stamped 111)).cc.traps.length == 1 && stOf (after [.recordIssue 0 .v] (stamped 110)) .v 0 == .issued && stOf (after [.recordIssue 0 .v] (stamped 99)) .v 0 == .checked) = true := by
  decide +kernel
/-- Cores 0 and 1 run teams of job 1 in group 5, whose descriptor (R306) lies at 0x20_0000: FP32 sums of one element. -/
def pinnedPage : TlbEntry := { page with pn := true }
def groupMem : FMap Byte := [(0x5000_0000, 2), (0x5000_0008, 1), (0x5000_000C, 100), (0x5000_0049, 0x10), (0x5000_004A, 0x20), (0x5000_0051, 0x20), (0x5000_0052, 0x20), (0x5000_0062, 1),
  (0x5000_0069, 0x30), (0x5000_006A, 0x20), (0x5000_0071, 0x40), (0x5000_0072, 0x20), (0x5000_1002, 0x80), (0x5000_1003, 0x3F), (0x5000_3003, 0x40)]
def member (k : Core) : Core :=
  { (k.modCtx 0 fun x => ({ x with run := .running, pc := 0x1000 } : Ctx).setReg 4 0x20_0000 |>.setReg 5 5) with team := some placeTeam, l1tlb := [page], tlbK := [pinnedPage], wbud := 0x0000_1000_0000_1000 }
def mapReq (op : BitVec 2) : MapReq := ⟨1, op, 0x20_0000, 0x1_0000, 0x5000_0000, true, true, false, true, false, true⟩
def nextOf (s : State) (o : Out) : State := match o with
  | .next t => t
  | _ => s
/-- The page tables of job 1 (R407, R408): three tables above the leaf of the pinned page. -/
def tableMem : FMap Byte := [(0x8_0000_0000, 1), (0x8_0000_0002, 1), (0x8_0000_0004, 8), (0x8_0001_0000, 1), (0x8_0001_0002, 2), (0x8_0001_0004, 8), (0x8_0002_0008, 1), (0x8_0002_000A, 3),
  (0x8_0002_000C, 8), (0x8_0003_0000, 0xAF), (0x8_0003_0003, 0x50)]
def groupBase : State := { ((base.modCore 0 member).modCore 1 member) with groupGrant := [(5, 1)], mem := groupMem ++ tableMem, jobs := [(1, ⟨0x8_0000_0000, true⟩)], tables := 4, platen := 1 }
def onCore (c : CoreId) (i : Instr) (s : State) : State := after [.recordIssue c .k] (proofed .k (after [i] { s with cur := ⟨c, 0⟩ }))
def agrpAt : State := onCore 0 (.agrp 4 5) groupBase
/-- Both members registered, as R307 leaves them. -/
def registered : State := { groupBase with groups := [(5, { Group.empty with members := 2, count := 1, timeout := 100, places := [(0, 0), (0, 1)], regs := [(0, some ⟨0, 0x20_1000, [(0x5000_1000, 4)], [(0x5000_2000, 4)]⟩),
  (1, some ⟨1, 0x20_3000, [(0x5000_3000, 4)], [(0x5000_4000, 4)]⟩)] })] }
def joining : State := onCore 1 (.mclr 5) (onCore 0 (.mclr 5) registered)
def joined1 : State := after [.roundJoin 0, .contribution 0] joining
def joined2 : State := after [.roundJoin 1, .contribution 1] joined1
/-- R309: the members' DST hold the sum 1.0 + 2.0. -/
theorem test_collective : (((nextOf agrpAt (execAgrpRegistration 0 agrpAt)).group 5).regs.length == 1 && (joined1.group 5).opened.isSome && (joined2.group 5).opened == none &&
    (after [.verdict 0, .verdict 1] joined2).readNat 0x5000_2000 4 == 0x4040_0000 && (after [.verdict 0, .verdict 1] joined2).readNat 0x5000_4000 4 == 0x4040_0000 &&
    stOf (after [.verdict 0] { joined2 with cur := ⟨0, 0⟩ }) .k 0 == .done) = true := by decide +kernel

/-- The record in slot 0 of a galley has done its units, and its signal is not held. -/
def mayEnd (s : State) (g : Galley) (p : Slot → Bool) : Bool :=
  ((s.core 0).issued? g 0).any fun y => p y && !s.signalHeld y && (s.core 0).isOldest g 0
def doneM : State := after [.kStep 0 none, .proofStep 0, .kStep 0 none, .proofStep 0, .kStep 0 none, .proofStep 0, .kStep 0 none, .proofStep 0] mmaAt
def fenced : State := proofed .m (after [.fence 1 lw] base)
/-- The record in slot 0 of V has been stored wrongly: the Proofreader's own hash of it differs. -/
def misread : State := (after [.vadd vf] tiled).modCore 0 fun k => k.setSlot .v 0 { k.slot .v 0 with proofHash := ~~~(k.slot .v 0).hash }
/-- A load's rows ahead, with no translation held. -/
def farRows : State := (issued .v (.vld vf) vmem).modCore 0 fun k => { k with tlbV := [] }
theorem witness_RecordLife : (mayEnd (after [.rowStep 0 0, .rowStep 0 0] vIssued) .v (fun _ => true) && mayEnd (after [.copyUnitCommit 0] cpyAt) .x (fun y => decide (y.copyUnits ≤ y.prog.toNat)) &&
      mayEnd (nextOf agrpAt (execAgrpRegistration 0 agrpAt)) .k (fun y => y.op == 0xFA && y.prog == 1) &&
      mayEnd doneM .m (fun y => !y.resumed && ((doneM.core 0).stageLost y).isNone && y.isMma && y.reachedStep && y.shape.any fun sh => y.step == sh.nk && !y.proofDue sh.nk doneM.now)) = true ∧
    ((fenced.core 0).galley .m).seqs.find? (fun p => ((fenced.core 0).slot .m (slotOf p).val).st == .appended || ((fenced.core 0).slot .m (slotOf p).val).st == .checked) = some 0 ∧
    (((after [.vadd vf] tiled).core 0).galley .v).oldestAppended = some 0 ∧ ((misread.core 0).galley .v).oldestAppended = some 0 ∧ (misread.core 0).resetting = false ∧
    (slot0 (after [.vadd vf] tiled) .v).proofHash = (slot0 (after [.vadd vf] tiled) .v).hash ∧ (slot0 misread .v).proofHash ≠ (slot0 misread .v).hash ∧
    (checkedV.issuable 0 .v = some 0 ∧ checkedV.due 0 (slot0 checkedV .v) = .unstamped) ∧ ((stamped 100).issuable 0 .v = some 0 ∧ (stamped 100).due 0 (slot0 (stamped 100) .v) = .late 0) ∧
    (stamped 110).due 0 (slot0 (stamped 110) .v) = .late 10 ∧ (stamped 111).due 0 (slot0 (stamped 111) .v) = .missed 11 ∧ (stamped 111).cc.trapClk ≠ (stamped 111).now ∧ (stamped 99).due 0 (slot0 (stamped 99) .v) = .early ∧
    (checkedM.issuable 0 .m = some 0 ∧ (slot0 checkedM .m).isMma = true ∧ checkedM.due 0 (slot0 checkedM .m) = .unstamped ∧ (checkedM.core 0).grant = false ∧ (checkedM.core 0).product? = none ∧
      (checkedM.core 0).withheld = false ∧ (checkedM.core 0).wantGrant = none ∧ (∀ d ∈ coresOf (coreCluster 0), d ≠ 0 → (checkedM.core d).wantGrant = none ∧ (checkedM.core d).product? = none ∧ checkedM.issuable d .m = none) ∧
      checkedM.activeCount (coreCluster 0) = 0 ∧ (checkedM.cluster 0).ramp = none ∧ 0 < (checkedM.cluster 0).mkrt.toNat % 16 ∧ (checkedM.core 0).stageLost (slot0 checkedM .m) = none) ∧
    (let w := checkedM.modCore 0 fun k => { k with withheld := true }; w.issuable 0 .m = some 0 ∧ w.due 0 (slot0 w .m) = .unstamped ∧ (w.core 0).withheld = true) ∧
    ((slot0 fenced .m).isMarker = true ∧ (slot0 fenced .m).st = .checked) ∧
    (((tokened.core 0).galley .v).headRecord = some 0 ∧ tokened.waitError (slot0 tokened .v) = true ∧ (tokened.core 0).isOldest .v 0 = true ∧ tokened.signalHeld (slot0 tokened .v) = false) ∧
    ((((after [.rowStep 0 0, .rowStep 0 0] vIssued).core 0).issued? .v 0).any fun y => (y.vcmd.any fun c => decide (c.v.n ≤ y.prog.toNat))) = true ∧
    ((((farRows.core 0).galley .v).issuedSlots.flatMap fun z => (farRows.streamAhead 0 z .v).filter fun v => (tlbFind z.held (farRows.core 0).job v).isNone).find? fun v =>
      canonical v && (tlbFind ((farRows.core 0).tlb .v) (farRows.core 0).job v).isNone) = some 0x20_0080 := by decide +kernel

def kSlot (s : State) (c : CoreId) : Option (Nat × BitVec 8 × W32) := (s.core c).collective?.map fun p => (p.1.val, p.2.op, p.2.prog)
/-- The group's home has member 1 under another descriptor. -/
def agrpBad : State := { agrpAt with groups := [(5, { registered.group 5 with regs := (registered.group 5).regs.drop 1 })] }
/-- Member 1 lies on a die that is under reset; a round that ran out; a round of which only member 0 is registered. -/
def cutJoin : State := { joining with groups := [(5, { joining.group 5 with places := [(0, 0), (0, 64)] })], dies := [(1, { Die.fresh with resetAt := some 0 })] }
def timedOut : State := after [.roundTimeout 5] { joined1 with platen := 360001 }
def alone : State := { joined1 with platen := 720001, groups := [(5, { joined1.group 5 with regs := (joined1.group 5).regs.take 1 })] }
theorem witness_Collectives_last : kSlot joined1 1 = some (0, 0xFB, 0) ∧ (joined1.core 1).trapClk ≠ joined1.now ∧ (joined1.group 5).rounds < FMap.get (joined1.core 1).rounds 0 5 + 1 ∧ (joined1.group 5).ends = [] ∧
    ((joined1.group 5).opened.any fun r => ((joined1.group 5).memberOf 1).any fun m => r.root.isNone && decide (joined1.now < r.openedAt + (joined1.group 5).timeout * Config.clkPerUs) &&
      (FMap.get r.joined none m.1).isNone && (match joined1.memberSource m.2 with | .ok d => d.length == 4 | _ => false) &&
      (List.range (joined1.group 5).members).all fun j => j == m.1 || (FMap.get r.joined none j).isSome) = true ∧
    (let all := (joined1.group 5).regs.filterMap Prod.snd;
      (∀ d ∈ all, joined1.memberPinned d = false) ∧ all.Pairwise fun a b => ∀ u ∈ a.dst, ∀ v ∈ b.dst, u.1 + u.2 ≤ v.1 ∨ v.1 + v.2 ≤ u.1) ∧
    (0 < (joined1.group 5).count ∧ (joined1.group 5).op = 0 ∧ ({ joined1.group 5 with op := 1 } : Group).op = 1 ∧ ({ joined1.group 5 with op := 2 } : Group).op = 2) := by decide +kernel
theorem witness_Collectives : ((∀ x, joining.unreachable (joining.group 5) x = false) ∧ ∀ x, joined1.unreachable (joined1.group 5) x = false) ∧ kSlot agrpAt 0 = some (0, 0xFA, 0) ∧ (agrpAt.core 0).trapClk ≠ agrpAt.now ∧
    (match agrpAt.agrpUnit 0 5 0x20_0000 (fun va m => agrpAt.engineCheck 0 .k 0 .read va m) (fun a va => agrpAt.engineAt 0 .k 0 a va 1) with | .inl (.accepted _) => true | _ => false) = true ∧
    kSlot (onCore 0 (.mclr 5) groupBase) 0 = some (0, 0xFB, 0) ∧ ((groupBase.group 5).memberOf 0) = none ∧ kSlot joining 0 = some (0, 0xFB, 0) ∧
    ((joining.group 5).memberOf 0).isSome = true ∧ (joining.group 5).rounds < FMap.get (joining.core 0).rounds 0 5 + 1 ∧ (joining.group 5).opened = none ∧ 1 < (joining.group 5).members ∧
    ((joined1.group 5).opened.any fun r => (FMap.get r.joined none 0).isSome) = true ∧ kSlot joined2 0 = some (0, 0xFB, 1) ∧
    ((joined2.core 0).collective?.any fun p => FMap.get (joined2.group 5).ends none p.2.round |>.any fun e => e.verdict == .ok && e.owing == []) = true ∧
    ((joined1.group 5).opened.any fun r => decide (leastOf ((joined1.group 5).missing r) = some 1 ∧ r.openedAt + (joined1.group 5).timeout * Config.clkPerUs ≤ ({ joined1 with platen := 360001 } : State).now)) = true ∧
    (match agrpBad.agrpUnit 0 5 0x20_0000 (fun va m => agrpBad.engineCheck 0 .k 0 .read va m) (fun a va => agrpBad.engineAt 0 .k 0 a va 1) with | .inl .refused => true | _ => false) = true ∧
    (joining.group 5).ends = [] ∧ (((joining.group 5).memberOf 0).any fun m => match joining.memberSource m.2 with | .ok d => d.length == 4 | _ => false) = true ∧
    leastOf ((List.range (cutJoin.group 5).members).filter (cutJoin.unreachable (cutJoin.group 5))) = some 1 ∧ kSlot cutJoin 0 = some (0, 0xFB, 0) ∧
    ((timedOut.core 0).collective?.any fun p => (FMap.get (timedOut.group 5).ends none p.2.round |>.any fun e => e.verdict == .absent 1 && e.owing == []) && !(timedOut.group 5).quiet &&
      (timedOut.core 0).isOldest .k p.1 && !timedOut.signalHeld p.2) = true ∧
    ((alone.group 5).opened.any fun r => decide (r.openedAt + 2 * (alone.group 5).timeout * Config.clkPerUs ≤ alone.now)) = true ∧ (alone.group 5).regs.length = 1 ∧
    ((alone.core 0).collective?.any fun p => p.2.prog == 1 && p.2.group == 5 && p.2.round == (alone.group 5).base + (alone.group 5).rounds + 1) = true := by
  have far : ∀ s : State, (s.group 5).places.length ≤ 2 → s.unreachable (s.group 5) 0 = false → s.unreachable (s.group 5) 1 = false → ∀ x, s.unreachable (s.group 5) x = false :=
    fun s hl h0 h1 x => match x with
    | 0 => h0
    | 1 => h1
    | n + 2 => by
      have h : (s.group 5).places.drop (n + 2) = [] := List.drop_eq_nil_of_le (Nat.le_trans hl (Nat.le_add_left 2 n))
      unfold State.unreachable
      rw [h]
  have farJoining := far joining (by decide +kernel) (by decide +kernel) (by decide +kernel)
  have farJoined := far joined1 (by decide +kernel) (by decide +kernel) (by decide +kernel)
  exact ⟨⟨farJoining, farJoined⟩, by decide +kernel⟩

/-- A product stamped at 100 that has asked for a grant. -/
def stampedM : State := ({ proofed .m (after [.stampAbs 4 10, .mmaz prod] (withRegs fmt32 [(4, 100)])) with platen := 100 } : State).requestGrant 0
/-- A product that has asked for a grant, and one that goes on after it was parked. -/
def askedM : State := checkedM.requestGrant 0
def goingOn : State := (mmaAt.modCore 0 fun k => { k with grant := false }).requestGrant 0
theorem witness_CurrentManagers : (let w := askedM;
      w.grantOrder 0 = [0] ∧ coreCluster 0 = 0 ∧ (w.cluster 0).ramp = some 0 ∧ (w.core 0).withheld = false ∧ (w.core 0).product? = none ∧ w.issuable 0 .m = some 0 ∧ (slot0 w .m).isMma = true ∧
      w.due 0 (slot0 w .m) = .unstamped ∧ (w.core 0).stageLost ((slot0 w .m).issue ((w.core 0).ligOf (slot0 w .m).ligSlot) w.now) = none ∧ w.activeCount 0 < bitsN (w.cluster 0).mkrt 0 4) ∧
    (let w := goingOn;
      w.grantOrder 0 = [0] ∧ ((w.cluster 0).ramp.any fun t0 => decide (w.activeCount 0 < bitsN (w.cluster 0).mkrt (4 * min ((w.now - t0) / 4) 15) 4)) = true ∧ (w.core 0).withheld = false ∧ (w.core 0).product?.isSome = true) ∧
    ((base.modCore 0 fun k => { k with spacerFrom := some 0 }).core 0).spacerFrom = some 0 ∧ (0 : Nat) + 12 ≤ ({ base with platen := 12 } : State).now ∧ (0 : CoreId) ∈ coresOf 0 ∧
    (let s := askedM.modCore 0 (fun k => { k with withheld := true });
      s.grantOrder 0 = [0] ∧ (s.cluster 0).ramp.isSome = true ∧ (s.core 0).withheld = true) ∧ base.now < 0 + 12 ∧
    (let s : State := { stampedM with platen := 200 };
      (s.core 0).wantGrant.isSome = true ∧ s.issuable 0 .m = some 0 ∧ s.due 0 (slot0 s .m) = .missed 100 ∧ (s.core 0).trapClk ≠ s.now) ∧
    (let k : Nat → Nat → Nat → Nat → Core := fun n d o a => { (base.core 0) with drawClk := n, draw := d, overFor := o, calmFor := a };
      (k 3 0 0 0).drawClk < 4 ∧ 4 ≤ (k 4 0 0 0).drawClk ∧ (k 4 1000 0 0).grantedLevel * 16 < (k 4 1000 0 0).draw ∧ (k 4 0 0 0).draw ≤ (k 4 0 0 0).grantedLevel * 16 ∧
      64 < (k 0 0 65 0).overFor ∧ (k 0 0 65 0).team.isSome = true ∧ (k 0 0 65 0).calmFor < 64 ∧ 64 ≤ (k 0 0 65 64).calmFor ∧ (k 0 0 65 64).trapClk ≠ 1 ∧ (k 0 0 64 0).overFor ≤ 64) := by
  decide +kernel

/-! Resets, pre-emption and placement. -/

def faulty : State := base.modCore 0 fun k => k.setGalley .v { k.galV with noProgress := 8192 }
def asking (g : Galley) (s : State) : State := s.modCore 0 fun k => k.setGalley g { k.galley g with asked := some .full }
def coreReset : State := base.modCore 0 fun k => { k with resetAsked := true }
/-- A V record PARKED with NAN, in a galley of which a reset is asked. -/
def parkedV (ask : ResetAsk) : State := (after [.rowStep 0 0] infs).modCore 0 fun k => k.setGalley .v { k.galV with asked := some ask }
def resetting : State := base.modCore 0 fun k => { k with resetting := true }
theorem test_resets : (outIs (exec (.engineReset 0 .v) (asking .v vIssued)) (fun t => ((t.core 0).galley .v).resetting && outIs (exec (.engineResetEnd 0 .v) t) fun u => (slot0 u .v).st == .issued && (slot0 u .v).resumed) &&
    outIs (exec (.controlCoreReset 0) coreReset) (fun t => (t.core 0).resetting && outIs (exec (.replayStart 0) t) fun u => (u.core 0).replay.isSome && (u.core 0).resetting == false) &&
    outIs (exec (.rollingScrub 0) { base with platen := 16 * 3600000000 }) (fun t => (t.die 0).scrubNext == 1)) = true := by decide +kernel
theorem witness_Resets : (let u := (after [.trap 5] base).modCore 0 fun k => k.modCtx 1 fun x => { x with run := .dormant, role := .none };
      ((u.core 0).ctx 0).run = .trapped ∧ (u.core 0).handlerOf 0 = none ∧ (u.core 0).dormantLights = [1, 2, 3]) ∧
    (let u := base.modCore 0 fun k => { k with traps := [⟨0x0B, 3, 0, 0, none⟩] };
      ((u.core 0).ctx 0).run = .running ∧ ((u.core 0).ctx 0).wait = none ∧ (u.core 0).replay = none ∧ (u.core 0).preempt = none ∧ (u.core 0).traps.length = 1) ∧
    (let y := (vIssued.core 0).galley .v;
      y.issuedSlots ≠ [] ∧ y.asked = none ∧ y.resetting = false ∧ y.hasParked = false ∧ 8192 ≤ ((faulty.core 0).galley .v).noProgress ∧ y.noProgress < 8192) ∧
    (((base.modCore 0 fun k => { k with armed := some ⟨5, true, 0⟩ }).core 0).armed.any fun a => decide (a.due ≤ ({ base with platen := 5 } : State).now) && decide (base.now < a.due)) = true ∧
    (base.pages.scrubStep 0 ≠ 0 ∧ (base.die 0).resetAt = none ∧ (base.die 0).scrubAt + base.pages.scrubStep 0 ≤ ({ base with platen := 16 * 3600000000 } : State).now * 256) ∧
    (((parkedV .scrub).core 0).galley .v).asked = some .scrub ∧ (((parkedV .scrub).core 0).galley .v).hasParked = true ∧ (((parkedV .full).core 0).galley .v).asked = some .full ∧
    (let y := ((base.modCore 0 fun k => k.setGalley .m { k.galM with asked := some .scrub }).core 0).galley .m; y.asked = some .scrub ∧ y.resetting = false ∧ y.hasParked = false ∧ y.midProof = false) ∧
    (((after [.engineReset 0 .v] (asking .v vIssued)).core 0).galley .v).resetting = true ∧ (((loaded.modCore 0 fun k => { k with resetting := true }).core 0).ctx 0).loadQ ≠ [] ∧
    ((after [.trap 5] base).core 0).team.all (fun r => !r.cancel) = true ∧
    (((asking .v vIssued).core 0).galley .v).asked.isSome = true ∧
    ((coreReset.core 0).resetAsked = true ∧ (coreReset.core 0).resetting = false ∧ (coreReset.core 0).preempt = none ∧ (coreReset.core 0).team.isSome = true) ∧ ((resetting.core 0).resetting = true ∧ ((resetting.core 0).ctx 0).loadQ = [] ∧
      (resetting.core 0).irrevocable = false) := by
  decide +kernel

/-- An entry of queue 0 that launches two teams of job 1 at 0x1_0000. -/
def entry1 : Entry :=
  { queue := 0, pos := ⟨0, 0⟩, kind := .launch, job := 1, die := 0, barrier := false, csigValid := false, priv := false, ovr := 0, band := 8, irq := false, slice := 0, deadline := 500, budget := 0, teams := 2,
    tbudget := 1, wbud := 4096, kernel := 0x1_0000, args := 0x20_0000, arglen := 16, level := 0, cdone := 0, csig := 0, waitmax := 16, place := 0, rdBase := 0, rdLen := 0, wrBase := 0, wrLen := 0, scratch := 0,
    lctr := 0, parent := 0, declLevel := 0, admitted := true, running := true, ended := false, density := 0, consumed := 0, status := 0, retired := 0, since := none }
def launch1 : Launch :=
  { entry := entry1, owner := 0, ctr := 900, teams := [], placed := [], recordAt := 0xA_0000_0000, severing := false, severed := false, cancelled := false, complete := false, stopping := false, failed := none,
    saved := [], savedOn := [] }
def launched : State := { State.reset with launches := [(1, launch1)], entries := [entry1] }
def placed : State := after [.teamPlacement 1 0 0] launched
def entry2 : Entry := { entry1 with queue := 1, band := 9, teams := 1 }
/-- A launch of a higher band waits for the core that `placed` has filled; all others are disabled. -/
def contested : State := { placed with cores := placed.cores.take 1 ++ (List.range 255).map fun i => (i + 1, { Core.fresh with disabled := true }), launches := [(1, launch1), (2, { launch1 with entry := entry2 })], entries := [entry1, entry2] }
def stopped : State := placed.modCore 0 fun k => { (k.modCtx 0 fun x => { x with run := .stopped }) with preempt := some ⟨0, true, false, false⟩ }
def saving : State := after [.contextSave 0] stopped
def savedTeam : State := after [.saveComplete 0] saving
def reloading : State := after [.teamPlacement 1 0 0] savedTeam
theorem test_placement : ((placed.ctx ⟨0, 0⟩).reg 1 == 0x20_0000 && (placed.ctx ⟨0, 0⟩).reg 2 == 16 && (placed.ctx ⟨0, 0⟩).reg 3 == 900 && (placed.ctx ⟨0, 0⟩).pc == 0x1_0000 &&
    (savedTeam.core 0).team == none && outIs (exec (.restoreComplete 0) reloading) (fun t => (t.ctx ⟨0, 0⟩).run == .running && (t.ctx ⟨0, 0⟩).pc == 0x1_0000) &&
    outIs (exec (.preemptionRequest 0) contested) (fun t => (t.core 0).preempt.isSome)) = true := by decide +kernel
theorem witness_PreemptionAndPlacement : ((contested.core 0).team.isSome = true ∧ (contested.core 0).preempt = none ∧ contested.preempted 0 = true) ∧ (placed.emergency = .none ∧ placed.preempted 0 = false) ∧
    ((contested.core 0).team.any fun r => (contested.core 0).sliceOver r ({ contested with platen := 65536 } : State).now && ({ contested with platen := 65536 } : State).preempted 0) = true ∧
    (((stopped.core 0).preempt.any fun p => !p.saving && p.stopped && decide (p.since + 4096 ≤ ({ stopped with platen := 4096 } : State).now) && decide (stopped.now < p.since + 4096)) = true ∧ (stopped.core 0).servedTrap = none) ∧
    (((stopped.core 0).team.any fun r => !r.cancel) = true ∧ (stopped.core 0).enginesStopped = true ∧ (stopped.core 0).folioQ = [] ∧ (stopped.core 0).resetAsked = false ∧
      (∀ x ∈ lightCtxs, ((stopped.core 0).ctx x).run = .dormant) ∧ ((stopped.core 0).ctx 0).loadQ = [] ∧ ((stopped.core 0).ctx 0).dq = [] ∧ ∀ e ∈ ((stopped.core 0).ctx 0).storeQ, e.kind = .plain) ∧
    ((saving.core 0).preempt.any fun p => (saving.core 0).team.any fun r => p.saving && (saving.launch? r.launch).isSome) = true ∧
    ((launched.launch? 1).any fun l => (launched.core 0).isFree && (launched.bestFor 0).any (fun r => r.2.1 == 1 && r.2.2 == 0) && launched.powered 0 && (FMap.at? l.saved 0).isNone) = true ∧
    ({ launched with clusters := [(0, { Cluster.fresh with power := .dark })] } : State).powered 0 = false ∧
    ((reloading.core 0).team.any fun r => (reloading.launch? r.launch).any fun l => r.state == .loading && !r.cancel && (FMap.at? l.saved r.index.toNat).any fun img => !img.regionOpen) = true ∧
    (((placed.modCore 0 fun k => { k with team := k.team.map fun r => { r with charge := 1 } }).core 0).team.any fun r => (placed.launch? r.launch).any fun l => !r.overrun && l.entry.ovr == 0 && r.band != 0) = true ∧
    bitsN (placed.core 0).budg 32 32 * 64 < 65 ∧ (placed.core 0).packet = none ∧ (placed.core 0).trapClk ≠ 1 := by
  decide +kernel

def launchIs (f : Launch → Launch) : State := { launched with launches := [(1, f launch1)] }
def cancelling : State := { launched with dies := [(0, { Die.fresh with cancels := [(.launch, 1, 1)] })] }
def ended (l : Launch) : Launch := { l with complete := true, entry := { entry1 with ended := true }, teams := [(0, .retired), (1, .retired)] }
/-- The scheduler of die 0 is under reset, and holds its state to itself. -/
def heldDie : State := { cancelling with dies := [(0, { Die.fresh with cancels := [(.launch, 1, 1)], held := true })] }
/-- Die 0's cancel names a launch that die 1 owns. -/
def sendOn : State := { cancelling with launches := [(1, { launch1 with owner := 1 })] }
theorem witness_Levels : launched.launch? 1 = some launch1 ∧ ((cancelling.die 0).resetAt = none ∧ (cancelling.die 0).cancels = (.launch, 1, 1) :: [] ∧ launch1.complete = false ∧ cancelling.acts 0 900 = true ∧ cancelling.schedulerOf 0 = 0) ∧
    (heldDie.launch? 1 = some launch1 ∧ (heldDie.die 0).resetAt = none ∧ heldDie.acts 0 900 = false ∧ (heldDie.die 0).cancels = [(.launch, 1, 1)]) ∧
    (sendOn.acts 1 900 = true ∧ sendOn.schedulerOf 1 = 1 ∧ (1 : DieId) ≠ 0 ∧ sendOn.mayPeer 0 1 = true ∧ (sendOn.die 0).cancels = (.launch, 1, 1) :: []) ∧
    ((launchIs fun l => { l with stopping := true, teams := [(0, .saved)] }).homeOf 1 0 = none ∧ (launchIs fun l => { l with stopping := true, teams := [(0, .saved)] }).acts 0 900 = true) ∧
    (let u := stopped.modCore 0 fun k => { k with team := k.team.map fun r => { r with cancel := true } };
      u.homeOf 1 0 = some 0 ∧ ((u.core 0).team.any fun r => r.cancel) = true ∧ (u.core 0).teamStopped = true ∧ (u.core 0).enginesStopped = true) ∧
    (launched.schedulerOf 0 = 0 ∧ ({ launch1 with teams := [(1, .lost)] } : Launch).lostTeams = true ∧ launch1.severing = false ∧ launched.cutOff 0 = false ∧ launched.acts 0 900 = true) ∧
    ((ended launch1).complete = true ∧ (ended launch1).quiet = true ∧ (ended launch1).entry.ended = true ∧ (launchIs ended).acts 0 900 = true) ∧ (launchIs ended).launchPins 0 1 = false := by decide +kernel

/-! Queues and windows. -/

/-! Queues and windows. -/

/-- Queue 0: a ring of 16 slots in host memory for job 1, between the positions given. -/
def ring (head tail : W32) (status : W64) : Queue := { Queue.zero with qaddr := 0x1_0000, qcfg := 0x8000_0000_1FC0_0004, head := head, tail := tail, status := status }
def queued (q : Queue) : State := { State.reset with queues := [(0, q)] }
/-- Bytes of the slot of position 0 (R374 to R377), by their offsets. -/
def slotBytes (l : List (Nat × Byte)) : FMap Byte := l.map fun p => (hostBase + 0x1_0080 + p.1, p.2)
/-- The slot of position 0 is current and of kind 5, which is none. -/
def badKind : State := { queued (ring 0 1 0) with mem := slotBytes [(5, 0x50), (6, 1)], platen := 3600 }
theorem test_doorbell : (outIs (execDoorbell 0 16 (queued (ring 0 0 1))) (fun t => (t.queue 0).tail == 16) && outIs (execDoorbell 0 17 (queued (ring 0 0 1))) (fun t => (t.queue 0).tail == 0) &&
    outIs (execDoorbell 0 0 (queued (ring 0 0 1))) (fun t => bitsN (t.queue 0).dbcnt 32 32 == 1) && outIs (execPeriodicRecheck 0 badKind) (fun t => (t.queue 0).stopped && bitsN (t.queue 0).status 16 8 == 1)) = true := by
  decide +kernel
/-- The ring's page is absent, and its function has ATS enabled. -/
def absentRing : State :=
  let s := queued (ring 0 1 1)
  { s with funcs := [(s.ringFunc 0 |>.val, { Func.zero with ats := true })], hostAbsent := [((ring 0 1 1).slotAt 0 / 4096, true)] }
/-- A slot of position 0 that CheckSlot accepts: its kind, and the fields after its header. -/
def slotOfKind (kind : Byte) (l : List (Nat × Byte)) : State :=
  { badKind with mem := slotBytes ([(4, 0x10), (5, kind), (6, 1)] ++ l), lifecycle := .deployed, chaseGrant := [(100, 1)] }
/-- Deadline 100,000, budget 10, team budget 10, one team, the kernel at 0x1_0000. -/
def workSlot (kind : Byte) : State := slotOfKind kind [(8, 0xA0), (9, 0x86), (10, 1), (0x10, 10), (0x14, if kind = 0x20 then 0 else 1), (0x18, if kind = 0x20 then 0 else 10), (0x22, 1)]
def declareSlot : State := { slotOfKind 0x40 [(0x14, 2), (0x34, 9), (0x37, 1), (0x44, 100)] with mem := slotBytes [(5, 0x40), (6, 1), (0x14, 2), (0x34, 9), (0x37, 1), (0x44, 100)] }
/-- The entry of the slot at HEAD of queue 0, and what CheckSlot and admission answer. -/
def headEntry (s : State) : Entry :=
  let y := s.queue 0
  entryOf 0 ⟨y.era, y.head⟩ y.job (slotWordOf (s.readBytes (y.slotAt y.head) 8) (s.readBytes (y.slotAt y.head + 8) 120))
def takesHead (s : State) (kind : EntryKind) : Bool :=
  let y := s.queue 0
  let at_ := y.slotAt y.head
  y.head != y.tail && decide (y.recheckAt + 3600 ≤ s.now) && y.enabled && !y.stopped && !y.skipping && s.takes 0 && s.place at_ == some .host && s.place (at_ + 8) == some .host &&
    !s.hostMissing (s.ringFunc 0) at_ && !s.hostMissing (s.ringFunc 0) (at_ + 8) && (s.badAt at_ 8).isNone && (s.badAt (at_ + 8) 120).isNone &&
    slotCurrent (BitVec.ofNat 64 (natOfBytes (s.readBytes at_ 8))) y.head.toNat y.size && s.checkSlot 0 (slotWordOf (s.readBytes at_ 8) (s.readBytes (at_ + 8) 120)) == 0 &&
    y.tail == BitVec.ofNat 32 ((y.head.toNat + 1) % y.span) && s.lifeAdmits (headEntry s) && (s.entry? 0 (headEntry s).pos).isNone && (headEntry s).kind == kind &&
    (headEntry s).cdone == 0 && !(headEntry s).csigValid
def admitted (s : State) (f : Entry → Entry) : Nat := (s.admission (f (headEntry s))).1
/-- The package is in its deepest state but one. -/
def dozing : State := { State.reset with pages := { State.reset.pages with package := .dormant } }
def stopping (s : State) : State := { s with queues := [(0, ring 0 1 2)] }
/-- R394: each check of admission, in its order, on one entry. -/
theorem test_admission : (let s := workSlot 0x10; admitted s id = 0 ∧ s.admission (headEntry s) = (0, 1) ∧ admitted (stopping s) id = 7 ∧ admitted { s with queues := [(0, { ring 0 1 0 with qcfg := 0x8000_0000_01C0_0004 })] } id = 5 ∧
    admitted s (fun e => { e with deadline := 3600 }) = 3 ∧ admitted s (fun e => { e with budget := 0 }) = 4 ∧ admitted s (fun e => { e with budget := 9 }) = 4 ∧ admitted s (fun e => { e with slice := 1 }) = 6 ∧
    admitted s (fun e => { e with budget := 1600 }) = 1 ∧ admitted { s with entries := [{ headEntry s with admitted := true, budget := 1500, queue := 1 }] } id = 2) := by decide +kernel
theorem witness_Doorbells_taken : (takesHead (slotOfKind 0x30 []) .nop = true ∧ takesHead declareSlot .declare = true ∧ takesHead (stopping declareSlot) .declare = true ∧ takesHead (workSlot 0x20) .data = true ∧ takesHead (workSlot 0x10) .launch = true) ∧
    ((headEntry declareSlot).declLevel = 1 ∧ (headEntry declareSlot).parent = 0 ∧ declareSlot.ctrHeld (headEntry declareSlot).lctr = false ∧ (declareSlot.queue 0).failstop = false ∧ ((stopping declareSlot).queue 0).failstop = true) ∧
    (let u := fun (s : State) => s.setQueue 0 { s.queue 0 with recheckAt := s.now }
     ((u (stopping (workSlot 0x10))).admission (headEntry (stopping (workSlot 0x10)))).1 ≠ 0 ∧ ((u (workSlot 0x20)).admission (headEntry (workSlot 0x20))).1 = 0 ∧ ((u (workSlot 0x10)).admission (headEntry (workSlot 0x10))).1 = 0 ∧
      (headEntry (workSlot 0x10)).level = 0 ∧ ((u (workSlot 0x10)).freeCtr 0).isSome = true ∧ ((u (workSlot 0x10)).freeRecord 0 (2 * bitmapBytes (headEntry (workSlot 0x10)).teams.toNat)).isSome = true) := by decide +kernel
theorem witness_Doorbells : (let y := ring 0 0 1; let w := y.span; let d := (16 + w - y.tail.toNat % w) % w;
      d ≠ 0 ∧ d < w / 2 ∧ (16 + w - y.head.toNat % w) % w ≤ y.size ∧ y.stopped = true) ∧
    (let y := ring 0 1 1; let w := y.span; let d := (0 + w - y.tail.toNat % w) % w;
      w / 2 ≤ d ∧ y.stopped = true ∧ (ring 0 0 0).head = (ring 0 0 0).tail) ∧
    ((queued (ring 0 0 1)).boot = .ready ∧ (ring 0 0 1).enabled = true ∧ (queued (ring 0 0 1)).serves 0 = true ∧ (ring 0 0 1).heldDb = [] ∧ (queued (ring 0 0 1)).hostHeld = [] ∧ (queued (ring 0 0 1)).asleep = false ∧
      ({ ring 0 0 1 with heldDb := [16] } : Queue).heldDb = 16 :: [] ∧ dozing.asleep = true) ∧
    (({ queued (ring 0 0 1) with dies := [(0, { Die.fresh with held := true })] } : State).serves 0 = false) ∧ Queue.zero.enabled = false ∧
    ((ring 0 1 1).head ≠ (ring 0 1 1).tail ∧ (ring 0 1 1).recheckAt + 3600 ≤ badKind.now ∧ (queued (ring 0 1 1)).now < (ring 0 1 1).recheckAt + 3600) ∧
    (let s := badKind; let y := s.queue 0; let at_ := y.slotAt y.head;
      y.enabled = true ∧ y.stopped = false ∧ y.skipping = false ∧ s.badAt at_ 8 = none ∧ s.badAt (at_ + 8) 120 = none ∧ s.takes 0 = true ∧ s.place at_ = some .host ∧ s.place (at_ + 8) = some .host ∧ s.hostMissing (s.ringFunc 0) at_ = false ∧ s.hostMissing (s.ringFunc 0) (at_ + 8) = false ∧
        slotCurrent (BitVec.ofNat 64 (natOfBytes (s.readBytes at_ 8))) y.head.toNat y.size = true ∧ 5 ≤ slotKind (slotWordOf (s.readBytes at_ 8) (s.readBytes (at_ + 8) 120))) ∧
    (let s := absentRing; (s.queue 0).stopped = true ∧ s.place ((s.queue 0).slotAt 0) = some .host ∧ s.hostMissing (s.ringFunc 0) ((s.queue 0).slotAt 0) = true) ∧
    (let s : State := { queued (ring 0 1 1) with emergency := .dark 0 }
     s.emergency ≠ .none ∧ s.place ((ring 0 1 1).slotAt 0) = some .host ∧ s.hostMissing (s.ringFunc 0) ((s.queue 0).slotAt 0) = false ∧ s.badAt ((s.queue 0).slotAt 0) 128 = none ∧ s.entry? 0 ⟨0, 0⟩ = none ∧ (headEntry s).cdone = 0 ∧ (headEntry s).csigValid = false) ∧
    (let s : State := { launched with queues := [(0, ring 0 1 0)] };
      s.launchAt 0 0 = some 1 ∧ s.cancelOwner .launch 1 (s.queue 0).job = some (s.schedulerOf (queueHome 0)) ∧ s.launchAt 0 5 = none) ∧
    (let s : State := { queued (ring 0 1 0) with levels := [⟨.graph, 5, 1, 900, 1, 0, 0, 512, ⟨0, 0⟩, true, false, false, false, 0, false⟩] }
     Level.graph ≠ .launch ∧ s.cancelOwner .graph ((5 : BitVec 32).setWidth 24) (s.queue 0).job = some 1 ∧ s.schedulerOf (queueHome 0) = 0 ∧ s.mayPeer 0 1 = true ∧ (s.die 1).resetAt = none ∧
      (({ s with dies := [(1, { Die.fresh with resetAt := some 0 })] } : State).die 1).resetAt ≠ none) := by decide +kernel

/-- A DATA entry whose block at 0x20_0000 copies 16 bytes on core 3, and one that writes what it reads. -/
def dataEntry : Entry := { entry1 with kind := .data, kernel := 0x20_0000, running := false, rdBase := 0x20_1000, rdLen := 16, wrBase := 0x20_2000, wrLen := 16 }
def older : Entry := { dataEntry with pos := ⟨0, 7⟩, rdLen := 0, wrBase := 0x20_100F, wrLen := 1 }
def dataState (es : List Entry) : State := { State.reset with
  entries := es, dies := [(0, { Die.fresh with interval := es.map fun e => (0, e.pos) })], queues := [(0, ring 0 1 0)], jobs := [(1, ⟨0x8_0000_0000, true⟩)], tables := 4
  mem := [(0x5000_0000, 1), (0x5000_0001, 3), (0x5000_0009, 0x20), (0x5000_000A, 0x20), (0x5000_0011, 0x10), (0x5000_0012, 0x20), (0x5000_0018, 16)] ++ tableMem }
def wordOkAt (r : WordAccess) (pa : Nat) : Bool := match r with
  | .ok p => p == pa
  | _ => false
def blockOf (s : State) : Ccb := ccbOf (BitVec.ofNat 512 (s.readNat 0x5000_0000 64))
def finished : Entry := { dataEntry with ended := true, cdone := 0x20_3000, status := 0x10, retired := 5 }
theorem test_entries : (outIs (exec (.dataEntryStart 0 0) (dataState [dataEntry])) (fun t => ((t.core 3).packet.any fun p => p.slot.body.o0 == 0x20_2000 && p.pos == ⟨0, 0⟩)) &&
    outIs (exec (.dataEntryStart 0 1) (dataState [older, dataEntry])) (fun t => (t.core 3).packet.isNone) && outIs (execEntryEnd 0 0 (dataState [finished])) (fun t => t.readNat 0x5000_3000 8 == 2 ^ 63 + 0x10 * 2 ^ 48 + 5)) = true := by
  decide +kernel
theorem witness_EntriesRunAndEnd : (let s := dataState [dataEntry];
      (s.die 0).interval.drop 0 = (0, ⟨0, 0⟩) :: [] ∧ s.entry? 0 ⟨0, 0⟩ = some dataEntry ∧ dataEntry.running = false ∧ dataEntry.ended = false ∧ dataEntry.barrier = false ∧ s.serves 0 = true ∧
        wordOkAt (s.wordAccess dataEntry .read dataEntry.kernel 64) 0x5000_0000 = true ∧ s.ccbTrap 1 (blockOf s) dataEntry.kernel = none ∧ s.packetCore dataEntry (blockOf s) = some 3 ∧ s.powered 3 = true ∧
        ({ s with clusters := [(0, { Cluster.fresh with power := .dark })] } : State).powered 3 = false) ∧
    ([older].any dataEntry.hazard = true) ∧
    (let b : Entry := { entry1 with barrier := true };
      ((dataState [b]).entries.filter fun x => x.queue == 0) = b :: [] ∧ b.admitted = true ∧ b.ended = false) ∧
    (let s : State := { launched with launches := [(1, { launch1 with complete := true, teams := [(0, .retired), (1, .retired)] })] };
      (s.entries.filter fun x => x.queue == 0 && x.pos.at_ == 0) = [entry1] ∧ s.serves 0 = true ∧ entry1.ended = false ∧ s.packetHome 0 ⟨0, 0⟩ = none ∧ s.entryOutcome entry1 = some (0, 2, none) ∧ (∀ x ∈ s.launches, x.2.severed = false) ∧
        entry1.cdone = 0 ∧ entry1.csigValid = false ∧ entry1.irq = false) ∧
    (((dataState [finished]).entries.filter fun x => x.queue == 0 && x.pos.at_ == 0) = [finished] ∧ finished.ended = true ∧ finished.cdone ≠ 0 ∧
      wordOkAt ((dataState [finished]).wordAccess finished .write finished.cdone 8) 0x5000_3000 = true ∧ pagesEnd ≤ 0x5000_3000) := by decide +kernel

theorem test_windows : (outIs (execQaddrWrite 0 0 0x1_0000 State.reset) (fun t => outIs (execQueueEnable 0 0 0x8000_0000_1FC0_0004 t) fun u => (u.queue 0).enabled && (u.queue 0).fresh == false) &&
    outIs (execQueueEnable 1 0 0x8000_0000_1FC0_0004 State.reset) (fun t => (t.queue 0).enabled == false) && outIs (execQcfgConfigure 0 0 0 State.reset) (fun t => (t.queue 0).qcfg == 0)) = true := by decide +kernel
def placesAre (l : List (Nat × Nat)) (r : Except WindowPlace (List (Nat × Nat))) : Bool := match r with
  | .ok m => m == l
  | .error _ => false
/-- Queue 0 is off, with a new ring in host memory. -/
def newRing : Queue := { ring 0 0 0 with qcfg := 0x0000_0000_1FC0_0004, fresh := true }
/-- A new ring whose first page is absent from the host's translations. -/
def lostRing : State := { queued newRing with funcs := [(0, { Func.zero with ats := true })], hostAbsent := [(newRing.base / 4096, true)] }
theorem witness_HostWindows : (State.reset.boot = .ready ∧ dozing.boot = .ready ∧ dozing.asleep = true ∧ dozing.hostHeld = [] ∧ State.reset.asleep = false ∧ bitsN (0x1_0001 : W64) 1 6 = 0 ∧ bitsN (0x1_0002 : W64) 1 6 ≠ 0 ∧ Queue.zero.enabled = false ∧ (ring 0 0 0).enabled = true ∧
      (0 : W64) ≠ (ring 0 0 0).qaddr) ∧
    ((1 : FuncId) ≠ 0) ∧ (State.reset.hostHeld = [] ∧ ({ State.reset with hostHeld := [⟨.windowWrite 0 0 [], none⟩] } : State).hostHeld ≠ []) ∧
    ((0x8000_0000_0000_0004 : W64).getLsbD 63 = true ∧ bitsN (0x8000_0000_0000_0004 : W64) 4 59 = 0 ∧ (State.reset.func 0).evcfg.getLsbD 63 = false ∧ State.reset.hostOut = [] ∧ State.reset.hostMissing 0 (State.reset.func 0).ring = false) ∧
    (State.reset.badAt 0x5000_0000 8 = none) ∧ (qcfgBad 0 0x8000_0000_1FC0_0004 = false ∧ (0x8000_0000_1FC0_0004 : W64).getLsbD 63 = true ∧ qcfgBad (ring 0 0 0).qcfg 0x1FC0_0004 = false ∧ (0x1FC0_0004 : W64).getLsbD 63 = false ∧
      ({ Queue.zero with fresh := true } : Queue).fresh = true ∧ qcfgBad 0 0x1FC0_000D = true) ∧
    (newRing.enabled = false ∧ newRing.fresh = true ∧ qcfgBad newRing.qcfg 0x8000_0000_1FC0_0004 = false ∧ lostRing.boot = .ready ∧ lostRing.asleep = false ∧ lostRing.place newRing.base = some .host ∧ lostRing.hostOut = [] ∧
      lostRing.hostMissing newRing.func newRing.base = true ∧ (queued newRing).hostMissing newRing.func newRing.base = false) ∧
    (bitsN (4 : W64) 4 59 = 0 ∧ 4 ≤ bitsN (4 : W64) 0 4 ∧ bitsN (3 : W64) 0 4 < 4) ∧ (0x7FFF_FFFF : W64).getLsbD 32 = false ∧ (0x2_0010 : BitVec 18).toNat = 0x2_0010 + 32 * (0 : QueueId).val ∧
    registerAccessOk 0x2_0010 3 = false ∧
    ((State.reset.windowPlaces 0 .read (pieces (zext64 (0x5000_0000 : BitVec 39)) 8) |> placesAre [(0x5000_0000, 8)]) = true ∧
      (State.reset.windowPlaces 0 .write (pieces (zext64 (0x5000_0000 : BitVec 39)) 8) |> placesAre [(0x5000_0000, 8)]) = true ∧ pagesEnd ≤ 0x5000_0000) ∧
    (let s : State := { vIssued with pri := [⟨0x5000_0000, 0x20_0000, .engine 0 .v 0⟩] };
      s.pri.drop 0 = ⟨0x5000_0000, 0x20_0000, .engine 0 .v 0⟩ :: [] ∧ ((s.core 0).slot .v 0).st = .issued) := by decide +kernel

/-! Translation, firmware, dies, power. -/

def zeros (n : Nat) : List Byte := List.replicate n 0
/-- An object (R343) of one kernel, whose text is `w`. -/
def object (w : W32) : List Byte :=
  bytesOfNat 0x315A_4854 4 ++ [1, 0, 0, 0, 2, 0, 0, 0] ++ zeros 4 ++ bytesOfNat 0x40 8 ++ zeros 40 ++
  bytesOfNat 0x01 4 ++ bytesOfNat 64 4 ++ bytesOfNat 0x80 8 ++ bytesOfNat 4 8 ++ zeros 8 ++ bytesOfNat 0x0A 4 ++ bytesOfNat 8 4 ++ bytesOfNat 0x88 8 ++ bytesOfNat 32 8 ++ zeros 8 ++
  bytesOfWord w ++ zeros 4 ++ bytesOfNat 0 8 ++ bytesOfNat 4 4 ++ zeros 20
def atText : Loaded W64 := ⟨0x40_0000, 0x50_0000, 0x60_0000⟩
def objectState : State := { State.reset with objects := [⟨1, 0x40_0000, 4, 0, 0, 0, 0, []⟩] }
theorem witness_LoadingObjects : (State.reset.boot = .ready ∧ State.reset.tablesAnswer = true ∧ objectState.tablesAnswer = true ∧ (1 : BitVec 24) ≠ 0 ∧
      State.reset.rangesOk 1 atText ⟨sectionOf (object 0x0C00_0013) 0x01, sectionOf (object 0x0C00_0013) 0x02, sectionOf (object 0x0C00_0013) 0x03⟩ = true) ∧
    (match State.reset.checkObject 1 (object 0x0C00_0013) atText with
      | .ok (y, ks) => y.text.length == 4 && y.data == [] && y.const == [] && ks.length == 1 && ((State.reset.grantChas 1 (object 0x0C00_0013)).allocate (pagesLen 4)).isSome
      | .error _ => false) = true ∧
    (match State.reset.checkObject 1 [] atText with | .ok _ => false | .error e => e.code == 1) = true ∧
    ((objectState.objects.filter fun o => o.job == 1)[0]?).isSome = true ∧ objectState.jobBusy 1 = false ∧ 0 < 4 ∧ (objectState.objects.any fun o => objectState.objectInUse o) = false ∧ launched.jobBusy 1 = true := by
  decide +kernel

def walk1 (run : Bool) : Walk := { core := 0, unit := .data 0, job := 1, va := 0x20_0000, priv := false, running := run, since := none }
/-- Context 0 of core 0 holds on a walk of 0x20_0000, whose tables stand in `m`. -/
def walking (w : Walk) (m : FMap Byte) : State := { (base.modCx fun x => { x with wait := some ⟨.walk 0x20_0000, 16, 0⟩ }) with
  mem := m, jobs := [(1, ⟨0x8_0000_0000, true⟩)], tables := 4, dies := [(0, { Die.fresh with walks := [w] })] }
def tableReset : State := { walking { walk1 true with since := some (0x8_0000_0000, 0) } tableMem with dies := [(0, { Die.fresh with walks := [{ walk1 true with since := some (0x8_0000_0000, 0) }], resetAt := some 0 })], platen := 360000000 }
def shot (owing : List Nat) : State := { base with shootdowns := [⟨1, 0x20_0000, 0x1_0000, false, owing, true, []⟩] }
def walkIs (s : State) (p : WalkEnd → Bool) : Bool := p (s.walk 1 0x20_0000)
theorem test_walk : (outIs (exec (.walkStart 0) (walking (walk1 false) tableMem)) (fun t => outIs (exec (.walkComplete 0 0) t) fun u => (u.die 0).walks == [] && ((u.core 0).l1tlb.any fun e => e.pa == 0x5000_0000) && u.cx.wait == none) &&
    outIs (exec (.walkComplete 0 0) (walking (walk1 true) [])) (fun t => t.cx.cause != 0 && (t.cx.taddr == 0x20_0000)) && outIs (exec (.shootdownInvalidate 0) (shot [0])) (fun t => (t.core 0).l1tlb == [])) = true := by decide +kernel
theorem witness_TranslationAndShootdown : ((walking (walk1 true) tableMem).cluster 0).upper = [] ∧ (((walking (walk1 false) tableMem).die 0).walks = walk1 false :: [] ∧ ((walking (walk1 false) tableMem).die 0).walkFits (walk1 false) = true ∧
      ∀ v ∈ ((walking (walk1 true) tableMem).die 0).walks, ((walking (walk1 true) tableMem).die 0).walkFits v = false) ∧
    (let s := walking (walk1 true) tableMem;
      (s.die 0).walks.drop 0 = walk1 true :: [] ∧ (walk1 true).running = true ∧ (walk1 true).unit = .data 0 ∧ (match s.clusterWalk 0 1 0x20_0000 with | .hit _ => true | _ => false) = true ∧ (s.ctx ⟨0, 0⟩).holdsOn 0x20_0000 = true) ∧
    ((walking (walk1 true) []).clusterWalk 0 1 0x20_0000 = .fault ∧ (walking (walk1 true) [(0x8_0000_0000, 3)]).clusterWalk 0 1 0x20_0000 = .prot ∧
      ((walking (walk1 true) []).ctx ⟨0, 0⟩).holdsOn 0x20_0000 = true) ∧
    (let w := { walk1 true with since := some (0x8_0000_0000, 0) };
      (tableReset.die 0).walks.drop 0 = w :: [] ∧ tableReset.clusterWalk 0 1 0x20_0000 = .onDie 0 0x8_0000_0000 ∧ w.since = some (0x8_0000_0000, 0) ∧
      0 + 360000000 ≤ tableReset.now ∧ ({ tableReset with platen := 0 } : State).now < 0 + 360000000 ∧ (tableReset.ctx ⟨0, 0⟩).holdsOn 0x20_0000 = true) ∧
    (((shot [0]).shootdowns.find? fun d => d.owing.contains (0 : ClusterId).val) = some ⟨1, 0x20_0000, 0x1_0000, false, [0], true, []⟩ ∧
      ((shot [0]).die (clusterDie 0)).resetAt = none ∧ ((shot [0]).die (clusterDie 0)).permitsLeft (linkOf 0) ≠ 0 ∧ ((shot [0]).die (clusterDie 0)).permitsLeft (linkOf 0 + 12) ≠ 0 ∧ (shot [0]).mayPeer (shot [0]).mainDie (clusterDie 0) = true ∧
      (shot [0]).mayPeer (clusterDie 0) (shot [0]).mainDie = true) ∧
    (({ shot [0] with dies := [(0, { Die.fresh with permits := [(linkOf 0, 0)] })] } : State).die (clusterDie 0)).permitsLeft (linkOf 0) = 0 ∧
    ((shot []).shootdowns = ⟨1, 0x20_0000, 0x1_0000, false, [], true, []⟩ :: [] ∧ ([] : List Nat) = [] ∧ [0] ≠ ([] : List Nat)) := by decide +kernel

def dieDown (at_ : Nat) (now : W64) : State := { State.reset with dies := [(0, { Die.fresh with resetAt := some at_ })], platen := now }
def booting : State := { State.reset with boot := .booting }
def pinned : State := { launched with mem := tableMem, jobs := [(1, ⟨0x8_0000_0000, true⟩)], tables := 4 }
def banding (e : W64) : State := { State.reset with dies := [(0, { Die.fresh with bandReq := [(0, e)] })] }
def mkrting (v : W64) : State := { State.reset with clusters := [(0, { Cluster.fresh with mkrtReq := [v] })] }
theorem test_services : (outIs (exec (.bandTableWrite 0) (banding 0x8001_0008_0100_4000)) (fun t => (t.die 0).band 0 == 0x8001_0008_0100_4000 && t.outbox == [.doe 5 0 []]) && outIs (exec (.mkrtWrite 0) (mkrting 0x9)) (fun t => (t.cluster 0).mkrt == 0x8888_8888_8886_4321 && t.outbox == [.doe 5 1 []]) &&
    outIs (exec (.heartbeat 0) { State.reset with platen := 36000 }) (fun t => t.outbox == [.heartbeat 0])) = true := by decide +kernel
theorem witness_FirmwareServices : (dozing.asleep = true ∧ State.reset.asleep = false ∧ booting.asleep = false ∧ pinned.asleep = false ∧ (dieDown 0 0).asleep = false) ∧ (State.reset.boot = .ready ∧ booting.boot ≠ .ready ∧ State.reset.mapOk (mapReq 3) = false) ∧ (pinned.boot = .ready ∧ pinned.tablesAnswer = true ∧ State.reset.tablesAnswer = true ∧ (dieDown 0 0).mapOk (mapReq 0) = true ∧ (dieDown 0 0).tablesAnswer = false ∧ pinned.mapOk (mapReq 1) = true ∧ pinned.mapForbidden (mapReq 1) = true) ∧
    (State.reset.mapOk (mapReq 0) = true ∧ State.reset.mapForbidden (mapReq 0) = false ∧ (mapReq 0).op = 0 ∧ State.reset.mapOk (mapReq 1) = true ∧ State.reset.mapForbidden (mapReq 1) = false ∧ (mapReq 1).op = 1) ∧
    (((banding bandReset).die 0).bandReq = (0, bandReset) :: [] ∧ ((banding bandReset).die 0).resetAt = none ∧ (banding bandReset).mayPeer (banding bandReset).mainDie 0 = true ∧ (let s : State := { State.reset with dies := [(1, { Die.fresh with bandReq := [(0, bandReset)] })] }; s.mainDie ≠ 1 ∧ s.mayPeer s.mainDie 1 = true) ∧ ((banding bandReset).die 0).bandOk 0 bandReset = true ∧
      ((banding 33).die 0).bandOk 0 (0xFFFF_FFFF_FFFF_FFFF) = false) ∧
    (((mkrting 9).cluster 0).mkrtReq = 9 :: [] ∧ ((mkrting 9).die (clusterDie 0)).resetAt = none ∧ (mkrting 9).mayPeer (mkrting 9).mainDie (clusterDie 0) = true ∧ ((mkrting 9).die (clusterDie 0)).permitsLeft (linkOf 0) ≠ 0) ∧
    (State.reset.cutOff 0 = false ∧ (∀ e ∈ otherDies 0, State.reset.mayPeer 0 e = true) ∧ (State.reset.die 0).alive = true ∧ (State.reset.die 0).resetAt = none ∧ (State.reset.die 0).heard + 36000 ≤ ({ State.reset with platen := 36000 } : State).now ∧
      ({ State.reset with platen := 35999 } : State).now < (State.reset.die 0).heard + 36000) := by decide +kernel

def silent : State := { State.reset with platen := 180000 }
/-- Die 0 and the die that keeps its copy are both down, and queue 0, whose home it is, is on. -/
def bothDown : State := { queued (ring 0 1 0) with dies := (0, { Die.fresh with resetAt := some 0, held := true }) :: [((clockwise 0 1).val, { Die.fresh with resetAt := some 0 })], platen := 360000000 }
theorem test_die : (outIs (exec (.dieReset 0) placed) (fun t => (t.core 0).team.isNone && (t.die 0).resetAt == some 0) && outIs (exec (.dieReturn 0) (dieDown 0 0)) (fun t => (t.die 0).resetAt == none) &&
    outIs (exec (.dieReturnTimeout 0) (dieDown 0 360000000)) (fun t => !(t.die 0).alive)) = true := by decide +kernel
theorem witness_DieResets : ((State.reset.die 0).resetAt = none ∧ (dieDown 0 0).deferred = [] ∧ (dieDown 0 0).launches = [] ∧ (dieDown 0 0).levels = [] ∧ State.reset.groups = [] ∧ silent.groups = [] ∧ (dieDown 0 0).mapHeld = [] ∧ ((dieDown 0 0).die 0).resetAt.isSome = true ∧ ∀ h, ((dieDown 0 0).die h).held = false) ∧
    (((dieDown 0 0).die 0).resetAt = some 0 ∧ 0 + 360000000 ≤ (dieDown 0 360000000).now ∧ (∀ q, ((dieDown 0 360000000).queue q).skipping = false) ∧ (dieDown 0 0).now < 0 + 360000000) ∧
    ((silent.die 0).adopter = none ∧ (silent.die 0).heard + 180000 ≤ silent.now ∧ State.reset.now < (State.reset.die 0).heard + 180000) ∧
    (let s : State := { silent with dies := [1, 2, 3].map fun n => (n, { Die.fresh with resetAt := some 0, alive := false }) };
      (s.die 0).adopter = none ∧ (s.die 0).heard + 180000 ≤ s.now ∧ s.adopterFor 0 = none) ∧
    ((let s : State := { silent with dies := [(0, { Die.fresh with heard := 0 }), ((clockwise 0 1).val, { Die.fresh with heard := 180000 })] };
      (s.die 0).adopter = none ∧ s.adopterFor 0 = some (clockwise 0 1) ∧ s.deferred = [] ∧ s.launches = [] ∧ s.queues = [] ∧ s.levels = [] ∧ ∀ h, h ≠ 0 → (s.die h).adopter ≠ some 0)) ∧
    (let s : State := { silent with dies := [(0, { Die.fresh with adopter := some 1 })] };
      (s.die 0).adopter.isSome = true ∧ (s.die 0).heard + 180000 ≤ s.now ∧ (s.die 0).resetAt = none) ∧
    (let s : State := { silent with dies := [(0, { Die.fresh with adopter := some 1, resetAt := some 0 })] };
      (s.die 0).adopter.isSome = true ∧ (s.die 0).resetAt.isSome = true) ∧
    (bothDown.memoryDue 0 = true ∧ queueHome 0 = 0 ∧ (∃ y, (0, y) ∈ bothDown.queues) ∧ (bothDown.queue 0).enabled = true ∧ (bothDown.queue 0).stopped = false ∧ State.reset.memoryDue 0 = false) ∧
    (let s : State := { State.reset with queues := [(0, { ring 0 1 0 with waitRing := some 0 })] };
      (s.queue 0).waitRing = some 0 ∧ (s.queue 0).skipping = false ∧ 0 + 360000000 ≤ ({ s with platen := 360000000 } : State).now ∧ s.now < 0 + 360000000) := by
  refine ⟨?_, ⟨?_, ?_, fun _ => rfl, ?_⟩, ?_, ?_, ?_, ?_, ?_, ⟨?_, ?_, ⟨_, .head _⟩, ?_, ?_, ?_⟩, ?_⟩ <;> decide +kernel

theorem test_package : (outIs (exec (.packageReset .cold (.rejected 2 1)) placed) (fun t => (t.core 0).team.isNone && t.boot == .bootFail 2 1 && t.launches.isEmpty) && outIs (exec (.lifecycle .deployed .nobody 0) State.reset) (fun t => t.lifecycle == .provisioned)) = true := by decide +kernel
theorem witness_PackageResets : ((queued (ring 0 0 0)).queues.any fun e => e.2.enabled) = true ∧ (State.reset.queues.any fun e => e.2.enabled) = false ∧ dozing.asleep = true ∧ (queued (ring 0 0 0)).asleep = false ∧
    ((1 : BitVec 256) ≠ State.reset.nv.nonce) ∧ lifeMove State.reset.nv State.reset.lifecycle .deployed .nobody = none ∧ State.reset.asleep = false ∧
    (0 : BitVec 256) = State.reset.nv.nonce ∧ lifeMove State.reset.nv State.reset.lifecycle .deployed .sahnex = some { State.reset.nv.raised with ownerFused := true } ∧
    State.reset.lifecycle ≠ .retired ∧ State.reset.nv.tooOld = none ∧ 4 ≤ BootState.ready.done ∧ (BootState.bootFail 2 1).done < 4 ∧
    ({ State.reset with lifecycle := .retired } : State).lifecycle = .retired ∧ (2 : Fin 8).val < 3 ∧ 3 ≤ (5 : Fin 8).val ∧
    ((Config.imageVersion 0).toNat < 2 ^ 32 - 1 → ({ State.reset.nv with fusedMin := [(0, Config.imageVersion 0 + 1)] } : Nv).tooOld = some 0) := by
  have old : State.reset.nv.tooOld = none := by
    simp only [Nv.tooOld, List.find?_eq_none]
    intro i _
    have h : (FMap.get State.reset.nv.fusedMin (0#32) i).toNat ≤ (Config.imageVersion i).toNat := Nat.zero_le _
    simpa using h
  have below : (Config.imageVersion 0).toNat < 2 ^ 32 - 1 → ({ State.reset.nv with fusedMin := [(0, Config.imageVersion 0 + 1)] } : Nv).tooOld = some 0 := by
    intro h
    have n : (Config.imageVersion 0).toNat < (Config.imageVersion 0 + 1).toNat := by
      have one : (1 : W32).toNat = 1 := rfl
      rw [BitVec.toNat_add, one]
      omega
    unfold Nv.tooOld
    rw [List.range_succ_eq_map, List.find?_cons_of_pos]
    exact decide_eq_true n
  refine ⟨?_, ?_, ?_, ?_, ?_, ?_, ?_, ?_, rfl, ?_, old, ?_, ?_, rfl, ?_, ?_, below⟩ <;> decide +kernel

def polling (f : Pages → Pages) : State := { State.reset with pages := f State.reset.pages, platen := 360000 }
theorem test_reliability : (outIs (exec (.patrol 0x200_0000 .clean) State.reset) (fun t => t.errors == []) && outIs (exec .controlPoll (polling fun p => { p with rawPatrol := 169 })) (fun t => t.pages.rawPatrol == 24) &&
    outIs (exec (.linkDead 3) State.reset) (fun t => FMap.get t.pages.ports 0 6 == 1)) = true := by decide +kernel
theorem witness_Reliability : (isHbm ((0x200_0000 : BitVec 47).toNat * 32) = true ∧ State.reset.pages.patrol ≠ 0 ∧ State.reset.cached 0x4000_0000 = false ∧ ({ State.reset with l2 := [(0x80_0000, { dirty := false, zero := false, stereotype := false })] } : State).cached 0x4000_0000 = true ∧ State.reset.sectorBad 0x4000_0000 = false ∧ FMap.get State.reset.soft false (0x200_0000 : BitVec 47).toNat = false ∧ State.reset.reading 0x4000_0000 32 = false ∧ isHbm ((0x7FFF_FFFF_FFFF : BitVec 47).toNat * 32) = false ∧
      ({ State.reset with badBytes := [(0x4000_0003, true)] } : State).sectorBad 0x4000_0000 = true ∧ (polling fun p => { p with patrol := 0 }).pages.patrol = 0) ∧
    (let p := (polling fun p => { p with rawPatrol := 168, rawCethr := 255, rawLtol := 1000000, rawSavebase := 4096 }).pages;
      p.rawPatrol.toNat ≠ p.patrol.toNat ∧ p.rawCethr.toNat ≠ p.cethr.toNat ∧ p.rawLtol.toNat ≠ p.ltol.toNat ∧ p.rawSavebase.toNat ≠ p.savebase.toNat) ∧
    (FMap.get State.reset.deadLinks false 3 = false ∧ (let s : State := { State.reset with deadLinks := [(3, true)], platen := 3600000000 }
      FMap.get s.deadLinks false 3 = true ∧ FMap.get s.linkErrAt 0 3 + 3600000000 ≤ s.now ∧ ¬FMap.get s.linkErrAt 0 3 + 3600000000 ≤ ({ s with platen := 3599999999 } : State).now)) := by decide +kernel

/-- A round of the sensors of the first eight cores, all at one temperature in 1/16 °C. -/
def sensors (t : Nat) : List (BitVec 16) := List.replicate 32 (BitVec.ofNat 16 t)
def powered (f : State → State) : State := f State.reset
def railing : State := { State.reset with clusters := [(0, { Cluster.fresh with target := some 12 })], platen := 1000000 }
def dark0 : State := { State.reset with emergency := .dark 0, platen := 3600000000 }
def warm : State := { State.reset with platen := 18000 }
def allDark : State := { (polling fun p => { p with ltol := 600 }) with clusters := (List.range 32).map fun n => (n, { Cluster.fresh with power := .dark }) }
theorem test_power : (outIs (exec (.sensorRound (sensors (LimitTable.air.thr)) 0) warm) (fun t => (t.cluster 0).target == some 14 || (t.cluster 0).k == 14) && outIs (exec (.sensorRound (sensors LimitTable.air.trip) 0) warm) (fun t => !t.power) &&
    outIs (exec (.railSettled 0) railing) (fun t => (t.cluster 0).k == 12 && (t.cluster 0).railMv == 850)) = true := by decide +kernel
/-- Cluster 3 in GATED, and the package in DORMANT, each with a trigger of its exit taken at clk 0. -/
def waking : State := { State.reset with clusters := [(3, { Cluster.fresh with power := .gated, wake := some (0, .active) })] }
def rousing : State := { State.reset with pages := { State.reset.pages with package := .dormant, wake := some (0, .active) } }
def saving0 (base : W64) (headed : Bool) : State := { State.reset with emergency := .saving 0 base headed }
theorem witness_PowerAndThermal : (let h := fun (n : Nat) => (hottestSensor (sensors n)).1; let tb := State.reset.tableNext;
      tb.trip ≤ h tb.trip ∧ h tb.emg < tb.trip ∧ tb.emg ≤ h tb.emg ∧ h (tb.emg - 1) < tb.emg ∧ 1 ≤ ({ State.reset with emgRounds := 1 } : State).emgRounds ∧ State.reset.emergency = .none ∧ (State.reset.cluster 0).power = .active ∧
      warm.sensedAt + 18000 ≤ warm.now ∧ State.reset.now < State.reset.sensedAt + 18000) ∧
    ((railing.cluster 0).target = some 12 ∧ (railing.cluster 0).power = .active ∧ (railing.cluster 0).railNow railing.now = 850 ∧
      (let s : State := { railing with platen := 0, clusters := [(0, { Cluster.fresh with target := some 12, railMv := 800 })] };
        (s.cluster 0).target = some 12 ∧ (s.cluster 0).railNow s.now ≠ 850)) ∧
    (let s : State := { State.reset with overSince := some 0, platen := 360000000 };
      s.overSince = some 0 ∧ s.emergency = .none ∧ 0 + 360000000 ≤ s.now ∧ ({ s with platen := 0 } : State).now < 0 + 360000000) ∧
    ((saving0 4096 false).emergency = .saving 0 4096 false ∧ (4096 : W64) ≠ 0 ∧ ((saving0 4096 false).func 0).ats = false ∧ (saving0 4096 false).hostOut = [] ∧
      ((saving0 0 false).cores.any fun e => e.2.team.isSome || e.2.packet.any fun p => p.slot.st == .issued) = false ∧ (placed.cores.any fun e => e.2.team.isSome || e.2.packet.any fun p => p.slot.st == .issued) = true ∧
      ({ saving0 4096 true with hostOut := [⟨0, hostBase, [0]⟩] } : State).hostOut ≠ []) ∧
    (dark0.emergency = .dark 0 ∧ dark0.coolSince + 3600000000 ≤ dark0.now ∧ bitsN dark0.hotid 32 16 < dark0.table.thr ∧ ({ dark0 with platen := 3599999999 } : State).now < dark0.coolSince + 3600000000) ∧
    (let s := polling fun p => { p with ltol := 2 };
      unitCluster 3 = some 3 ∧ (s.cluster 3).power.num < (clusterState s.pages.ltol.toNat).num ∧ (s.cluster 3).wake = none ∧ s.clusterIdle 3 = true ∧ placed.clusterIdle 0 = false ∧ unitCluster 0 = some 0) ∧
    (unitCluster 32 = none ∧ allDark.pages.package.num < (packageState allDark.pages.ltol.toNat).num ∧ allDark.pages.wake = none ∧ allDark.packageIdle = true ∧ State.reset.packageIdle = false) ∧
    ((waking.cluster 3).wake = some (0, .active) ∧ waking.asleep = false ∧ waking.now < 0 + 7200 ∧ 0 + 7200 ≤ ({ waking with platen := 7200 } : State).now ∧ (waking.cluster 3).power = .gated) ∧
    (rousing.pages.wake = some (0, .active) ∧ rousing.doeHeld = [] ∧ rousing.asleep = true ∧ rousing.now < 0 + 2160000 ∧ 0 + 2160000 ≤ ({ rousing with platen := 2160000 } : State).now ∧ rousing.pages.package = .dormant) := by decide +kernel

/-! The machine. -/

theorem test_step : (outIs (step (State.reset.withFetchWord 32 0x0010_8204)) (fun t => (t.ctx ⟨0, 0⟩).reg 2 == 1 && (t.ctx ⟨0, 0⟩).pc == 0x10_0004 && t.now == 1) &&
    outIs (step (State.reset.withFetchWord 64 (0x66 * 2 ^ 32 + 0x40C3))) (fun t => (t.ctx ⟨0, 0⟩).pc == 0x10_0008 && (t.core 0).lring == 0x603) &&
    outIs (step { State.reset with agenda := [.event .powerFail] }) (fun t => !t.power)) = true := by decide +kernel
/-- The first word that `withFetchWord` places, and the second of a long form, at the core that alone has a context ready. -/
def fetchIs (s : State) (p : W32 → W32 → Bool) : Bool :=
  let u : State := { s with agenda := [] }
  let ok := fun (va : W64) (pa : Nat) => match u.translate 0 u.cx.priv .fetch va with
    | .ok q _ => q == pa && !u.hostMissing (u.jobFunc u.cc.job) pa
    | _ => false
  s.agenda == [.issue 0] && s.power && !u.cc.resetting && u.cx.mayIssue && !u.cx.passOver && u.cc.traps == [] && ok u.cx.pc placePa && ok (u.cx.pc + 4) (placePa + 4) && u.badAt placePa 8 == none &&
    (tlbFind u.cc.l1tlb u.cc.job u.cx.pc).isSome && (tlbFind u.cc.l1tlb u.cc.job (u.cx.pc + 4)).isSome && p (u.read32 placePa) (u.read32 (placePa + 4)) &&
    (u.core 0).issuedAt != some u.now && (u.cluster 0).regionAsk.isNone && (u.chooses 0).1 == some 0 && u.isReady ⟨0, 0⟩ && [1, 2, 3].all fun y => !u.isReady ⟨0, y⟩
theorem witness_StepRunsDecoded : fetchIs (State.reset.withFetchWord 32 0x0010_8204) (fun a _ => !isLongPrimary a && reads a 0 (.addi 2 2 1) && (State.reset.withFetchWord 32 0x0010_8204).cx.pendingUse (.addi 2 2 1) == none) = true ∧
    fetchIs (State.reset.withFetchWord 32 0) (fun a _ => !isLongPrimary a && refuses a 0) = true ∧
    fetchIs (State.reset.withFetchWord 64 (0x7D0 * 2 ^ 32 + 0x0000_02C9)) (fun a b => isLongPrimary a && reads a b (.popq 2 0 ⟨false, 2000⟩)) = true ∧
    fetchIs (State.reset.withFetchWord 64 (2 ^ 63 + 0x0000_02C9)) (fun a b => isLongPrimary a && refuses a b) = true ∧
    ({ State.reset.withFetchWord 32 0x0010_8204 with agenda := [.issueNow 0] } : State).agenda = .issueNow 0 :: [] ∧ (State.reset.chooses 0).1 = none ∧
    ({ State.reset with agenda := [.eventNow .powerFail] } : State).agenda = .eventNow .powerFail :: [] ∧ (isEvent .powerFail = true ∧ ({ State.reset with agenda := [.event .powerFail] } : State).agenda = .event .powerFail :: []) := by decide +kernel
theorem witness_StepKeepsMemoryForm : Memory.wf State.reset ∧ ∃ t, step (State.reset.withFetchWord 32 0x0010_8204) = .next t := ⟨by decide +kernel, _, rfl⟩
theorem witness_NopAndReservedControlFields : (bitsN (0x0010_0413 : W32) 0 8 = 0x13 ∧ bitsN (0x0010_0413 : W32) 26 6 = 1 → False) ∧ (bitsN (0x0410_0013 : W32) 0 8 = 0x13 ∧ bitsN (0x0410_0013 : W32) 26 6 = 1 ∧ bitsN (0x0410_0013 : W32) 20 6 ≠ 0) ∧
    (bitsN (0x0400_0113 : W32) 0 8 = 0x13 ∧ bitsN (0x0400_0113 : W32) 26 6 = 1 ∧ bitsN (0x0400_0113 : W32) 8 6 ≠ 0) ∧ (bitsN (0x1410_0013 : W32) 26 6 = 5 ∧ bitsN (0x1410_0013 : W32) 20 6 ≠ 0) ∧
    (bitsN (0x0200_0013 : W32) 26 6 = 0 ∧ bitsN (0x0200_0013 : W32) 8 18 ≠ 0) := by decide +kernel
theorem witness_CoolantTables : (∀ p : Nat × Nat × LimitTable × Coolant, p ∈ [(400, 800, .immersion, .immersion), (399, 800, .air, .immersion), (400, 801, .air, .immersion), (150, 720, .coldPlate, .coldPlate), (149, 720, .air, .coldPlate), (150, 721, .air, .coldPlate)] →
      outIs (exec (.coolantReport p.2.2.2 (BitVec.ofNat 16 p.2.1) (BitVec.ofNat 16 p.1)) State.reset) (fun t => t.tableNext == p.2.2.1) = true) ∧
    State.reset.reportAt + 1000000 * 3600 ≤ ({ State.reset with platen := 3600000000 } : State).now := by decide +kernel
theorem witness_DecodeReadsEncodedBytes : (∀ i : Instr, i ∈ [.addi 2 2 1, .popq 2 0 ⟨false, 2000⟩, .tok tk, .vadd vf] → wellFormed i = true) ∧
    (match decodeBytes ((encode (.popq 2 0 ⟨false, 2000⟩)).flatMap bytesOfWord ++ [7]) with | .ok (i, l) => i == .popq 2 0 ⟨false, 2000⟩ && l == [7] | .error _ => false) = true := by decide +kernel
end Sys2Proof.Tests
end

section
/-! PROOFS. Integer division (08 R197), and NOP and the reserved fields of the CTL group (08 R217, 07 R192). -/
namespace Sys2Proof.Machine

/-! ### Instructions that write one register, or only go on -/

/-- An update of the current context counts only through the value it has there. -/
theorem State.modCx_congr (s : State) {f g : Ctx → Ctx} (h : f s.cx = g s.cx) : s.modCx f = s.modCx g :=
  congrArg (s.setCtx s.cur) h

theorem onlyReg_writeNext (s : State) {d : Reg} (hd : d ≠ 0) (v : W64) (n : Nat) : OnlyReg s (s.writeNext d v n) d := by
  refine ⟨⟨(s.cx.setReg d v).regs, s.cx.pc + BitVec.ofNat 64 n, State.modCx_congr s ?_⟩, fun _ => rfl⟩
  simp only [Ctx.setReg, if_neg hd]
  rfl

/-- An instruction of the shared form writes its value and nothing else (R195). -/
theorem writes_of_writeAlu {i : Instr} {s : State} {d : Reg} {v : W64} {n : Nat} (hd : d ≠ 0)
    (hx : exec i s = writeAlu d v n s) (hn : i.bytes = n) : Writes i s d v :=
  ⟨s.writeNext d v n, hx.trans (writeAlu_ok hd v n s), fun r => State.reg_writeNext s d r v n,
    by rw [Follows, State.pc_writeNext, hn], onlyReg_writeNext s hd v n⟩

theorem onlyRegs_advance (s : State) (n : Nat) : OnlyRegs s (s.advance n) :=
  ⟨⟨s.cx.regs, s.cx.pc + BitVec.ofNat 64 n, State.modCx_congr s rfl⟩, State.byte_advance s n⟩

theorem goes_nop (s : State) : Goes .nop s (s.cx.pc + 4) none := by
  refine ⟨s.advance 4, rfl, congrArg Ctx.pc (State.cx_advance s 4), fun r => ?_, onlyRegs_advance s 4⟩
  rw [State.reg_advance]
  split
  · next h => rw [h]; rfl
  · rfl

theorem traps_illegalEncoding (w : W32) (s : State) : Traps (.illegalEncoding w) s 1 s.cx.pc := rfl

/-! ### The four divisions, each with the value it writes -/

section Division
variable {s : State} {d a b : Reg} (hd : d ≠ 0)
include hd

theorem writes_div : Writes (.div d a b) s d (divSigned (s.reg a) (s.reg b)) := writes_of_writeAlu hd rfl rfl
theorem writes_divu : Writes (.divu d a b) s d (divUnsigned (s.reg a) (s.reg b)) := writes_of_writeAlu hd rfl rfl
theorem writes_rem : Writes (.rem d a b) s d (remSigned (s.reg a) (s.reg b)) := writes_of_writeAlu hd rfl rfl
theorem writes_remu : Writes (.remu d a b) s d (remUnsigned (s.reg a) (s.reg b)) := writes_of_writeAlu hd rfl rfl

end Division

/-! ### The table of R197 -/

theorem eq_minS_iff (x : W64) : x = minS ↔ x.toInt = -2 ^ 63 := BitVec.toInt_inj.symm
theorem eq_allOnes_iff (y : W64) : y = BitVec.allOnes 64 ↔ y.toInt = -1 := BitVec.toInt_inj.symm

/-- The one pair whose signed quotient, 2^63, has no 64-bit value although the divisor is not zero. -/
theorem signedOverflow_iff (x y : W64) : (x = minS ∧ y = BitVec.allOnes 64) ↔ (x.toInt = -2 ^ 63 ∧ y.toInt = -1) :=
  and_congr (eq_minS_iff x) (eq_allOnes_iff y)

section Values
variable {x y : W64}

theorem ne_zero_of_toInt_ne (h : x.toInt ≠ 0) : x ≠ 0 := by rintro rfl; exact h rfl

theorem divSigned_quotient (hy : y ≠ 0) (h : ¬(x.toInt = -2 ^ 63 ∧ y.toInt = -1)) :
    divSigned x y = BitVec.ofInt 64 (x.toInt.tdiv y.toInt) := by
  rw [divSigned, if_neg hy, if_neg (mt (signedOverflow_iff x y).1 h)]
theorem remSigned_remainder (hy : y ≠ 0) (h : ¬(x.toInt = -2 ^ 63 ∧ y.toInt = -1)) :
    remSigned x y = BitVec.ofInt 64 (x.toInt.tmod y.toInt) := by
  rw [remSigned, if_neg hy, if_neg (mt (signedOverflow_iff x y).1 h)]

theorem divSigned_minS_allOnes : divSigned minS (BitVec.allOnes 64) = BitVec.ofInt 64 (2 ^ 63 - 1) := by decide
theorem remSigned_minS_allOnes : remSigned minS (BitVec.allOnes 64) = 0 := by decide

theorem divSigned_zero_of_pos (hx : 0 < x.toInt) : divSigned x 0 = BitVec.ofInt 64 (2 ^ 63 - 1) := by
  rw [divSigned, if_pos rfl, if_neg (ne_zero_of_toInt_ne (Int.ne_of_gt hx)), if_neg (Int.not_lt.2 (Int.le_of_lt hx))]
  decide
theorem divSigned_zero_of_neg (hx : x.toInt < 0) : divSigned x 0 = BitVec.ofInt 64 (-2 ^ 63) := by
  rw [divSigned, if_pos rfl, if_neg (ne_zero_of_toInt_ne (Int.ne_of_lt hx)), if_pos hx]
  decide
theorem remSigned_zero (x : W64) : remSigned x 0 = 0 := if_pos rfl

theorem divUnsigned_zero_of_ne (hx : x ≠ 0) : divUnsigned x 0 = BitVec.ofNat 64 (2 ^ 64 - 1) := by
  rw [divUnsigned, if_pos rfl, if_neg hx]
  decide
theorem remUnsigned_zero (x : W64) : remUnsigned x 0 = 0 := if_pos rfl
theorem divUnsigned_quotient (hy : y ≠ 0) : divUnsigned x y = BitVec.ofNat 64 (x.toNat / y.toNat) := if_neg hy
theorem remUnsigned_remainder (hy : y ≠ 0) : remUnsigned x y = BitVec.ofNat 64 (x.toNat % y.toNat) := if_neg hy

end Values

/-- Settles O2: each division writes its value, and the rows of R197's table are the cases of that value. -/
theorem integerDivision : Obligations.IntegerDivision := by
  unfold Obligations.IntegerDivision
  intro s d a b hd x y
  have hdiv : Writes (.div d a b) s d (divSigned x y) := writes_div hd
  have hdivu : Writes (.divu d a b) s d (divUnsigned x y) := writes_divu hd
  have hrem : Writes (.rem d a b) s d (remSigned x y) := writes_rem hd
  have hremu : Writes (.remu d a b) s d (remUnsigned x y) := writes_remu hd
  refine ⟨fun hy h => ?_, fun hx hy => ?_, fun hy => ?_, fun hy hx => ?_, fun hy hx => ?_, fun hy hx => ?_, fun hy => ?_⟩
  · exact ⟨divSigned_quotient hy h ▸ hdiv, remSigned_remainder hy h ▸ hrem⟩
  · rw [(eq_minS_iff x).2 hx, (eq_allOnes_iff y).2 hy] at hdiv hrem
    exact ⟨divSigned_minS_allOnes ▸ hdiv, remSigned_minS_allOnes ▸ hrem⟩
  · rw [hy] at hrem hremu
    exact ⟨remSigned_zero x ▸ hrem, remUnsigned_zero x ▸ hremu⟩
  · rw [hy, hx] at hdiv hdivu
    exact ⟨hdiv, hdivu⟩
  · rw [hy] at hdiv hdivu
    exact ⟨divSigned_zero_of_pos hx ▸ hdiv, divUnsigned_zero_of_ne (ne_zero_of_toInt_ne (Int.ne_of_gt hx)) ▸ hdivu⟩
  · rw [hy] at hdiv hdivu
    exact ⟨divSigned_zero_of_neg hx ▸ hdiv, divUnsigned_zero_of_ne (ne_zero_of_toInt_ne (Int.ne_of_lt hx)) ▸ hdivu⟩
  · exact ⟨divUnsigned_quotient hy ▸ hdivu, remUnsigned_remainder hy ▸ hremu⟩

/-! ### What `decode` accepts -/

/-- What decodes is what the fields name, and its words are the words read: no reserved bit is set (R192). -/
theorem decode_ok {w0 w1 : W32} {i : Instr} (h : decode w0 w1 = .ok i) :
    decodeFields w0 w1 = .ok i ∧ encode i = if isLongPrimary w0 then [w0, w1] else [w0] := by
  unfold decode at h
  split at h
  · cases h
  · next j hf =>
    by_cases he : encode j = if isLongPrimary w0 then [w0, w1] else [w0]
    · rw [if_pos he] at h
      split at h
      · cases h; exact ⟨hf, he⟩
      · cases h
    · rw [if_neg he] at h
      cases h

theorem decodeOr_error {w0 w1 : W32} (h : ∀ i, decode w0 w1 ≠ .ok i) : decodeOr w0 w1 = .illegalEncoding w0 := by
  unfold decodeOr
  split
  · next i hi => exact absurd hi (h i)
  · rfl

theorem bitsN_eq_extract {n : Nat} (x : BitVec n) (lo len : Nat) : bitsN x lo len = (x.extractLsb' lo len).toNat :=
  (BitVec.extractLsb'_toNat lo len x).symm

/-- Bits [25:8] of a word are its b, a and d fields (R172). -/
theorem bitsN_bad (w : W32) : bitsN w 8 18 = (bOf w).toNat * 2 ^ 12 + (aOf w).toNat * 2 ^ 6 + (dOf w).toNat := by
  simp only [bOf, aOf, dOf, ← bitsN_eq_extract, bitsN, Nat.shiftRight_eq_div_pow]
  omega

/-! ### The CTL group -/

/-- `decode` of `NOP`'s word and of no other gives `NOP` (R217). -/
theorem decode_nop_iff (w0 w1 : W32) : decode w0 w1 = .ok .nop ↔ w0 = 0x0000_0013 := by
  constructor
  · intro h
    obtain ⟨-, he⟩ := decode_ok h
    split at he
    · cases he
    · exact (List.head_eq_of_cons_eq he).symm
  · rintro rfl
    rfl

/-- A CTL instruction's word has b zero, a zero but in `RET` and `WFE`, and d zero but in `WFE` (R180). -/
theorem encode_of_decodeCtl {f d a : Reg} {i : Instr} (h : decodeCtl f d a = .ok i) :
    encode i = [packD f 0 (if f = 1 ∨ f = 5 then a else 0) (if f = 5 then d else 0) 0x13] := by
  have hf : ∀ n : Nat, f.toNat = n → f = BitVec.ofNat 6 n := by rintro n rfl; rw [BitVec.ofNat_toNat, BitVec.setWidth_eq]
  unfold decodeCtl at h
  split at h
  case h_7 => cases h
  all_goals
    next e =>
      cases h
      rw [hf _ e]
      rfl

/-- A CTL word that decodes is laid out as its function is. -/
theorem ctlWord_of_decode {w0 w1 : W32} {i : Instr} (hop : opOf w0 = 0x13) (h : decode w0 w1 = .ok i) :
    w0 = packD (fOf w0) 0 (if fOf w0 = 1 ∨ fOf w0 = 5 then aOf w0 else 0) (if fOf w0 = 5 then dOf w0 else 0) 0x13 := by
  obtain ⟨hf, he⟩ := decode_ok h
  have hctl : decodeCtl (fOf w0) (dOf w0) (aOf w0) = .ok i := by
    rw [← hf, decodeFields, hop]
    rfl
  have hshort : isLongPrimary w0 = false := by rw [isLongPrimary, hop]; rfl
  rw [encode_of_decodeCtl hctl, hshort] at he
  exact (List.head_eq_of_cons_eq he).symm

/-- A field that the function of a CTL word leaves unused is not zero (R180): of `RET`, d or b; of `WFE`, b; of every other, d, a
or b. -/
def CtlReserved (w0 : W32) : Prop :=
  if bitsN w0 26 6 = 1 then bitsN w0 8 6 ≠ 0 ∨ bitsN w0 20 6 ≠ 0 else if bitsN w0 26 6 = 5 then bitsN w0 20 6 ≠ 0 else bitsN w0 8 18 ≠ 0

/-- The fields that a CTL word's function leaves unused, by name. -/
theorem ctlReserved_iff (w0 : W32) : CtlReserved w0 ↔
    bOf w0 ≠ 0 ∨ (aOf w0 ≠ 0 ∧ ¬(fOf w0 = 1 ∨ fOf w0 = 5)) ∨ (dOf w0 ≠ 0 ∧ fOf w0 ≠ 5) := by
  have hb : bitsN w0 20 6 = (bOf w0).toNat := bitsN_eq_extract ..
  have hd : bitsN w0 8 6 = (dOf w0).toNat := bitsN_eq_extract ..
  have hf : bitsN w0 26 6 = (fOf w0).toNat := bitsN_eq_extract ..
  rw [CtlReserved, hb, hd, hf, bitsN_bad]
  simp only [← BitVec.toNat_inj, ne_eq, BitVec.ofNat_eq_ofNat, BitVec.toNat_ofNat]
  by_cases h1 : (fOf w0).toNat = 1
  · rw [if_pos h1]
    omega
  · rw [if_neg h1]
    by_cases h5 : (fOf w0).toNat = 5
    · rw [if_pos h5]
      omega
    · rw [if_neg h5]
      omega

theorem decode_ne_ok_of_ctlReserved {w0 w1 : W32} (hop : opOf w0 = 0x13) (hr : CtlReserved w0) (i : Instr) : decode w0 w1 ≠ .ok i := by
  intro h
  have hw := ctlWord_of_decode hop h
  have hb : bOf w0 = 0 := (congrArg bOf hw).trans (bOf_packD ..)
  have ha : aOf w0 = if fOf w0 = 1 ∨ fOf w0 = 5 then aOf w0 else 0 := (congrArg aOf hw).trans (aOf_packD ..)
  have hd : dOf w0 = if fOf w0 = 5 then dOf w0 else 0 := (congrArg dOf hw).trans (dOf_packD ..)
  obtain hb' | ⟨ha', hf⟩ | ⟨hd', hf⟩ := (ctlReserved_iff w0).1 hr
  · exact hb' hb
  · exact ha' (ha.trans (if_neg hf))
  · exact hd' (hd.trans (if_neg hf))

/-- Settles O54: `NOP`'s word read back from its encoding, its step as a plain advance, and a set reserved field as a difference
between the word read and the word of the instruction that its fields name. -/
theorem nopAndReservedControlFields : Obligations.NopAndReservedControlFields := by
  unfold Obligations.NopAndReservedControlFields
  refine ⟨decode_nop_iff, goes_nop, fun w0 w1 hop hr => ⟨decodeOr_error ?_, traps_illegalEncoding w0⟩⟩
  have hop' : opOf w0 = 0x13 := BitVec.eq_of_toNat_eq ((bitsN_eq_extract w0 0 8).symm.trans hop)
  exact decode_ne_ok_of_ctlReserved hop' hr

end Sys2Proof.Machine
end

section
/-! PROOFS. The limit tables: a coolant report and its loss select one, and the next sensor round takes it (21 R446, R448). -/
namespace Sys2Proof.Machine

/-! ### The three operations that carry the table -/

theorem exec_coolantReport (kind : Coolant) (inlet flow : BitVec 16) (s : State) :
    exec (.coolantReport kind inlet flow) s = execCoolantReport kind inlet flow s := rfl
theorem exec_coolantReportLoss (s : State) : exec .coolantReportLoss s = execCoolantReportLoss s := rfl
theorem exec_sensorRound (temps : List (BitVec 16)) (mw : BitVec 32) (s : State) :
    exec (.sensorRound temps mw) s = execSensorRound temps mw s := rfl

/-! ### The table selected -/

/-- The table of R446 read row by row: a kind gets its own table within its limits, and every other report gets air. -/
theorem tableOf_rows (kind : Coolant) (inlet flow : W16) : tableOf kind inlet flow =
    if kind = .immersion ∧ 400 ≤ flow.toNat ∧ inlet.toNat ≤ 50 * 16 then .immersion
    else if kind = .coldPlate ∧ 150 ≤ flow.toNat ∧ inlet.toNat ≤ 45 * 16 then .coldPlate else .air := by
  cases kind with
  | immersion => simp [tableOf]
  | coldPlate => simp [tableOf]
  | other => simp [tableOf]

theorem execCoolantReport_tables (kind : Coolant) (inlet flow : BitVec 16) (s : State) :
    ∃ t, execCoolantReport kind inlet flow s = .next t ∧ t.table = s.table ∧ t.tableNext = tableOf kind inlet flow :=
  ⟨_, rfl, rfl, rfl⟩

theorem execCoolantReportLoss_tables {s : State} (h : s.reportAt + clk1s ≤ s.now) :
    ∃ t, execCoolantReportLoss s = .next t ∧ t.table = s.table ∧ t.tableNext = .air :=
  ⟨{ s with tableNext := .air }, by rw [execCoolantReportLoss, if_pos h], rfl, rfl⟩

/-! ### What a sensor round does after it took the table leaves it in force -/

theorem State.table_foldl {α : Type} {f : State → α → State} (hf : ∀ s a, (f s a).table = s.table) (l : List α) (s : State) :
    (l.foldl f s).table = s.table :=
  List.foldlRecOn (motive := fun t => t.table = s.table) l f rfl fun t ht a _ => (hf t a).trans ht

@[simp] theorem State.table_modCore (s : State) (c : CoreId) (f : Core → Core) : (s.modCore c f).table = s.table := rfl
@[simp] theorem State.table_modCluster (s : State) (cl : ClusterId) (f : Cluster → Cluster) : (s.modCluster cl f).table = s.table := rfl
@[simp] theorem State.table_withdrawRegion (s : State) (c : CoreId) : (s.withdrawRegion c).table = s.table := rfl

@[simp] theorem State.table_notePower (s old : State) : (s.notePower old).table = s.table := by
  unfold State.notePower
  split
  · rfl
  · rfl

@[simp] theorem State.table_stopTeam (s : State) (c : CoreId) : (s.stopTeam c).table = s.table := by
  unfold State.stopTeam
  dsimp only
  split
  · simp only [State.table_withdrawRegion, State.table_modCore]
  · rfl

@[simp] theorem State.table_requestPreempt (s : State) (c : CoreId) : (s.requestPreempt c).table = s.table := by
  unfold State.requestPreempt
  dsimp only
  split
  · rfl
  · split
    · rw [State.table_stopTeam, State.setCore_table]
    · rw [State.setCore_table]

@[simp] theorem State.table_setRatios (s : State) (temps : List W16) : (s.setRatios temps).table = s.table := by
  unfold State.setRatios
  dsimp only
  split
  · rfl
  · refine State.table_foldl (fun t cl => ?_) allClusters s
    split
    · rw [State.setCluster_table]
    · rfl

@[simp] theorem State.table_beginEmergency (s : State) : s.beginEmergency.table = s.table := by
  unfold State.beginEmergency
  split
  · rfl
  · refine (State.table_foldl (fun t _ => t.table_requestPreempt _) _ _).trans ?_
    rw [State.table_notePower]
    exact State.table_foldl (fun t cl => t.table_modCluster cl _) allClusters _

/-- A round that is due takes the table selected, whether it then trips, sets the ratios or begins the emergency. -/
theorem execSensorRound_table {s : State} (temps : List (BitVec 16)) (mw : BitVec 32) (h : s.sensedAt + roundClk ≤ s.now) :
    ∃ t, execSensorRound temps mw s = .next t ∧ t.table = s.tableNext := by
  refine ⟨_, rfl, ?_⟩
  rw [if_neg (Nat.not_lt.2 h)]
  by_cases htrip : s.tableNext.trip ≤ (hottestSensor temps).1
  · rw [if_pos htrip]
  · rw [if_neg htrip]
    simp only [apply_ite State.table, State.table_beginEmergency, State.table_setRatios, ite_self]

/-- Settles O60: the rows of R446 as the value of `tableOf`, the loss as the choice of air, and the sensor round as the one
operation of the three that changes the table in force. -/
theorem coolantTables : Obligations.CoolantTables := by
  unfold Obligations.CoolantTables
  intro s kind inlet flow temps mw
  refine ⟨?_, fun hloss => ?_, fun hround => ?_⟩
  · rw [exec_coolantReport, ← tableOf_rows]
    exact execCoolantReport_tables kind inlet flow s
  · rw [exec_coolantReportLoss]
    exact execCoolantReportLoss_tables hloss
  · rw [exec_sensorRound]
    exact execSensorRound_table temps mw hround

end Sys2Proof.Machine
end
